-- ==== Sys2Proof/Word.lean ====
section
/-! DEFINITION. The word of the SPI port and the byte of a name character. -/

namespace Sys2Proof

/-- A word is 16 bits (00, Conventions). -/
abbrev Word := BitVec 16

/-- A name character, one of 20h to 7Eh in a record (R1, R30). -/
abbrev Byte := BitVec 8

end Sys2Proof
end

