-- ==== Sys2Proof/Config.lean ====
section
/-! DEFINITION. What the part fixes: the values of the table "Parameters" of 00_scope.md, and the index types they
give (00, Indices). The spec leaves no result value open, so there is no free value here (INVENTORY.md). -/

namespace Sys2Proof

/-- Service records are numbered 0 to 511. -/
abbrev ServiceIdx := Fin 512
/-- Carrier records are numbered 0 to 191. -/
abbrev CarrierIdx := Fin 192
/-- Inputs are numbered 0 to 5. -/
abbrev InputIdx := Fin 6
/-- Paths are numbered 0 to 7. -/
abbrev PathIdx := Fin 8
/-- Output channels (claims) are numbered 0 to 31. -/
abbrev ChannelIdx := Fin 32
/-- Monitors are numbered 0 to 3. -/
abbrev MonitorIdx := Fin 4
/-- Roster versions are 0 to 31 (02, section 2.3). -/
abbrev RosterVersion := Fin 32

namespace Config

/-- Candidates per service (R4). -/
abbrev maxCandidates : Nat := 4
/-- The visit queue holds at most 16 carriers (R121). -/
abbrev visitQueueMax : Nat := 16
/-- The suppression list holds at most 64 keys (R18). -/
abbrev suppressionMax : Nat := 64
/-- The request FIFO and the response FIFO hold 64 words each (R145, R148). -/
abbrev fifoWords : Nat := 64
/-- A request frame holds a header and up to 15 arguments (R146). -/
abbrev frameWords : Nat := 16
/-- Lock timeout, in ms (R92). -/
abbrev lockTimeout : Nat := 120
/-- Least distance of two tune starts on one input, in ms (R83). -/
abbrev tuneSpacing : Nat := 4
/-- Four tune starts at most in any interval of this many ms (R83). -/
abbrev tuneWindow : Nat := 40
/-- The tune-start history holds up to this many times (R83). -/
abbrev tuneHistory : Nat := 4
/-- Path recovery, in ms (R104). -/
abbrev recovery : Nat := 3
/-- Feed settle, in ms (R81). -/
abbrev feedSettle : Nat := 15
/-- Sample period, in ms (R46). -/
abbrev samplePeriod : Nat := 20
/-- Samples of a burst (R49). -/
abbrev burst : Nat := 8
/-- The half boundary falls after this sample (R50). -/
abbrev halfBurst : Nat := 4
/-- Minimum dwell from lock, in ms (R103). -/
abbrev dwell : Nat := 250
/-- Roster timeout from lock, in ms (R35). -/
abbrev rosterTimeout : Nat := 1500
/-- Relock attempts (R93). -/
abbrev relockAttempts : Nat := 3
/-- Failed visits before LOST (R26). -/
abbrev failuresToLost : Nat := 3
/-- The orphan age at which an unclaimed orphan retires (R15). -/
abbrev orphanAgeMax : Nat := 3
/-- Section numbers run from 0 to this (R30). -/
abbrev lastSectionMax : Nat := 5
/-- Entries of a section (R30). -/
abbrev sectionEntriesMax : Nat := 8
/-- Characters of a name (R30). -/
abbrev nameMax : Nat := 16
/-- The greatest score (R54). -/
abbrev scoreMax : Nat := 262136

end Config

end Sys2Proof
end

