-- ==== Sys2Proof/Syntax.lean ====
section
/-! DEFINITION. The commands of the block: one constructor for each row of spec/opcode_table.json, with the data an
event brings with it. -/

namespace Sys2Proof

/-- The kind of a roster entry as announced (02, section 2.3): one of three, or some other kind. -/
inductive AnnouncedKind where
  | television
  | radio
  | data
  | other
  deriving DecidableEq, Repr

/-- One entry of an announcement section (02, section 2.3). The name length is the length of `name`. -/
structure RosterEntry where
  service : Word
  kind : AnnouncedKind
  name : List Byte
  deriving DecidableEq, Repr

/-- One announcement section as it reaches a path (02, section 2.3). The entry count is the length of `entries`. The
numbers are unbounded, since a section is delivered before it is checked (R30). -/
structure AnnSection where
  version : RosterVersion
  number : Nat
  last : Nat
  network : Word
  entries : List RosterEntry
  deriving DecidableEq, Repr

/-- One sample of an engaged path (R46). -/
structure Sample where
  level : Word
  margin : Word
  integrity : Word
  lockHeld : Bool
  deriving DecidableEq, Repr

/-- The commands. A request's row is the taking of the entry at the head of the request FIFO (R151), whose words are
its operands. -/
inductive Instr where
  /-- R22, R45, R56, R75, R89, R109, R125, R143, R155, R178. -/
  | powerOnReset
  /-- R145: the select line falls. -/
  | selectFall
  /-- R145: the first complete word of a frame. -/
  | firstWord (w : Word)
  /-- R146: a later complete word of a frame. -/
  | argumentWord (w : Word)
  /-- R146, R147: the select line rises, with the bits received since the last complete word. -/
  | selectRise (partialBits : List Bool)
  /-- R148: the host has sampled the sixteenth bit of a presented response word. -/
  | responseWordShifted
  /-- R152. -/
  | brokenEntry
  /-- R156. -/
  | unknownRequest
  /-- R162. -/
  | activate
  /-- R111, R162. -/
  | standby
  /-- R114, R163. -/
  | scanControl
  /-- R57, R58, R163. -/
  | setRanking
  /-- R163. -/
  | setPort
  /-- R78, R164. -/
  | defineInput
  /-- R42, R164. -/
  | defineCarrier
  /-- R43, R164. -/
  | forgetCarrier
  /-- R164. -/
  | carrierInfo
  /-- R164. -/
  | carrierServices
  /-- R14, R168. -/
  | enrol
  /-- R165. -/
  | lookup
  /-- R166. -/
  | listServices
  /-- R167. -/
  | listChanged
  /-- R72, R169. -/
  | pin
  /-- R73, R169. -/
  | unpin
  /-- R16, R169. -/
  | retire
  /-- R19, R168. -/
  | unsuppress
  /-- R121, R170. -/
  | refresh
  /-- R171. -/
  | settle
  /-- R172: the SETTLE timer expires. -/
  | settleTimerExpiry
  /-- R129, R173. -/
  | claim
  /-- R139, R173. -/
  | releaseClaim
  /-- R174. -/
  | claimStatus
  /-- R141, R174. -/
  | claimChanges
  /-- R175, R181. -/
  | setMonitor
  /-- R176. -/
  | readMonitors
  /-- R175, R181. -/
  | ackAlert
  /-- R177. -/
  | status
  /-- R85: Input Control grants a tune start on an input. -/
  | tuneStart (i : InputIdx)
  /-- R81: the settle of an input's feed ends. -/
  | feedSettleEnd (i : InputIdx)
  /-- R92: the demodulator of a path reports lock. -/
  | lock (p : PathIdx)
  /-- R93: the lock timer of a path expires. -/
  | lockTimerExpiry (p : PathIdx)
  /-- R46: a path takes its sample. -/
  | sample (p : PathIdx) (x : Sample)
  /-- R31, R37: a section is delivered to a path. -/
  | announcementSection (p : PathIdx) (x : AnnSection)
  /-- R35: the roster timeout of a path. -/
  | rosterTimeout (p : PathIdx)
  /-- R61: the Ranking Engine takes the next record of the outstanding report at this position, oldest first. -/
  | serviceEvaluation (report : Nat)
  /-- R103: the dwell of a path ends. -/
  | dwellEnd (p : PathIdx)
  /-- R104: the recovery of a path ends. -/
  | recoveryEnd (p : PathIdx)
  deriving DecidableEq, Repr

end Sys2Proof
end

