-- ==== Sys2Proof/Decode.lean ====
section
/-! DEFINITION. The commands that a word spells by the bits of spec/opcode_table.json: none, since the table gives no
row any bits (98_reader.md: no row with fixed bits, no row with fields). The words of a request frame are read where
the entry is taken (Machine/Operands.lean, R183). -/

namespace Sys2Proof

/-- No row of the table gives bits, so no word of any length spells a command. -/
def decodeTableWord (_nbits _w : Nat) : Option Instr := none

end Sys2Proof
end

