-- ==== Sys2Proof/Machine/State.lean ====
section
/-! DEFINITION. The state of the part, block by block (00, Organization of the part), and its power-on state. -/

namespace Sys2Proof.Machine

/-- No event of the spec stops the part, so there is no fault. -/
inductive Fault where
  deriving DecidableEq, Repr

/-- No command of the part is refused: a request that fails a check is answered with a completion code and the part
goes on (R156, R158). -/
inductive Refusal where
  /-- Raised by no arm of `exec`: it would name a row without a meaning. Safe. -/
  | notModelled (mnemonic : String)
  deriving DecidableEq, Repr

/-! ### Service Table (01_service_records.md) -/

/-- R1, R8. -/
inductive SvcState where
  | free | provisional | listed | degraded | orphaned | retired
  deriving DecidableEq, Repr

/-- R1. -/
inductive Kind where
  | television | radio | data | unknown
  deriving DecidableEq, Repr

/-- The pair that identifies a service (00, Terms). -/
structure Key where
  network : Word
  service : Word
  deriving DecidableEq, Repr

/-- R5, R65: the challenger and its lead. -/
structure Challenger where
  carrier : CarrierIdx
  lead : Nat
  deriving DecidableEq, Repr

/-- R1. -/
structure ServiceRec where
  state : SvcState
  key : Option Key
  kind : Kind
  name : Option (List Byte)
  generation : Word
  changeEpoch : BitVec 32
  candidates : List CarrierIdx
  selected : Option CarrierIdx
  pin : Option CarrierIdx
  challenger : Option Challenger
  claimCount : Nat
  orphanAge : Nat
  overflow : Nat
  deriving DecidableEq, Repr

/-- R22: a FREE record with every count 0. -/
def ServiceRec.powerOn : ServiceRec :=
  { state := .free, key := none, kind := .unknown, name := none, generation := 0, changeEpoch := 0, candidates := [],
    selected := none, pin := none, challenger := none, claimCount := 0, orphanAge := 0, overflow := 0 }

/-- R1, R7, R13, R18. The key map of R3 is a view of the records. -/
structure ServiceTable where
  recs : Vector ServiceRec 512
  suppressed : List Key
  epoch : BitVec 32
  discoveryOverflow : Nat
  deriving DecidableEq, Repr

/-! ### Carrier Table (02_carriers_and_announcement_rosters.md) -/

/-- R24. -/
inductive CarState where
  | free | unvisited | live | silent | lost
  deriving DecidableEq, Repr

/-- 00, Terms: feed setting. -/
inductive Band where
  | low | high
  deriving DecidableEq, Repr

/-- 00, Terms: feed setting. -/
inductive Polarity where
  | vertical | horizontal
  deriving DecidableEq, Repr

/-- 00, Terms: feed setting. -/
structure Feed where
  band : Band
  polarity : Polarity
  deriving DecidableEq, Repr

/-- What DEFINE CARRIER fixes for the carrier's life (R23). `rate` is the symbol rate, or the bandwidth on a
TERRESTRIAL input. -/
structure CarrierParams where
  input : InputIdx
  feed : Option Feed
  frequency : Nat
  rate : Nat
  modClass : Nat
  deriving DecidableEq, Repr

/-- The four lanes of R49. -/
structure Lanes where
  level : Word
  margin : Word
  integrity : Word
  steadiness : Word
  deriving DecidableEq, Repr

/-- The quality vector and the score, present together (R23, R54). -/
structure Quality where
  lanes : Lanes
  score : Nat
  deriving DecidableEq, Repr

/-- R23. -/
structure CarrierRec where
  state : CarState
  params : Option CarrierParams
  failures : Nat
  quality : Option Quality
  rosterVersion : Option RosterVersion
  stale : Bool
  malformed : Bool
  announced : List ServiceIdx
  carrying : Option PathIdx
  deriving DecidableEq, Repr

/-- R45. -/
def CarrierRec.powerOn : CarrierRec :=
  { state := .free, params := none, failures := 0, quality := none, rosterVersion := none, stale := false,
    malformed := false, announced := [], carrying := none }

/-! ### Ranking Engine (03_quality_lanes_and_scores.md, 04_ranking_and_selection.md) -/

/-- R56. -/
structure Settings where
  level : Word
  margin : Word
  integrity : Word
  steadiness : Word
  beatMargin : Word
  persistence : Nat
  floor : Nat
  deriving DecidableEq, Repr

/-- R56: the defaults. -/
def Settings.powerOn : Settings :=
  { level := 16384, margin := 32768, integrity := 32768, steadiness := 16384, beatMargin := 2048, persistence := 3,
    floor := 8192 }

/-- R61: whether an evaluation is burst-caused; step 3 of SET RANKING also clears the challenger first (R58). -/
inductive EvalCause where
  | burst | eligibility | merge | setRanking
  deriving DecidableEq, Repr

/-- An outstanding report to the Ranking Engine: its cause, the carrier it is about, and the records still to be
evaluated, in order (R61). -/
structure EvalReport where
  cause : EvalCause
  carrier : Option CarrierIdx
  services : List ServiceIdx
  deriving DecidableEq, Repr

/-- R56, R75. Reports stand oldest first. -/
structure RankingEngine where
  settings : Settings
  evals : List EvalReport
  deriving DecidableEq, Repr

/-! ### Input Control (05_inputs_feeds_and_the_tuning_budget.md) -/

/-- R76. -/
inductive InputKind where
  | unused | satellite | terrestrial | cable
  deriving DecidableEq, Repr

/-- R76, R81: SETTLING holds the time at which the settle ends. -/
inductive FeedState where
  | steady
  | settling (endsAt : Nat)
  deriving DecidableEq, Repr

/-- R84: a waiting path with the time of its request. -/
structure Waiter where
  path : PathIdx
  since : Nat
  deriving DecidableEq, Repr

/-- R76. -/
structure InputRec where
  kind : InputKind
  carrierCount : Nat
  feed : Feed
  feedState : FeedState
  attached : List PathIdx
  history : List Nat
  waitList : List Waiter
  deriving DecidableEq, Repr

/-- R89. -/
def InputRec.powerOn : InputRec :=
  { kind := .unused, carrierCount := 0, feed := ⟨.low, .vertical⟩, feedState := .steady, attached := [],
    history := [], waitList := [] }

/-! ### Path Bank (06_demodulator_paths_and_visits.md) -/

/-- R90. -/
inductive PathState where
  | idle | awaitTune | tuning | engaged | dwell | recovery
  deriving DecidableEq, Repr

/-- R90. -/
inductive Use where
  | sweep | queue | carry
  deriving DecidableEq, Repr

/-- R48: what the accumulator holds once a sample is gathered. -/
structure Extremes where
  leastLevel : Word
  leastMargin : Word
  greatestMargin : Word
  leastIntegrity : Word
  deriving DecidableEq, Repr

/-- R48. -/
structure Accum where
  count : Nat
  extremes : Option Extremes
  burstDone : Bool
  deriving DecidableEq, Repr

/-- R48: an empty accumulator. -/
def Accum.empty : Accum := { count := 0, extremes := none, burstDone := false }

/-- R31: the collection. Its version is absent until the first section is held. -/
structure Collection where
  version : Option RosterVersion
  last : Nat
  held : List AnnSection
  malformed : Bool
  deriving DecidableEq, Repr

/-- R31: a collection begins empty, with no version and its malformed mark clear. -/
def Collection.empty : Collection := { version := none, last := 0, held := [], malformed := false }

/-- R90. `sampleDue` is the next moment of the sample grid (R46); `demod` is what the demodulator is tuned to, absent
while it is stopped (R85, R93, R103, R104). -/
structure PathRec where
  state : PathState
  use : Option Use
  carrier : Option CarrierIdx
  lockTime : Option Nat
  lockHeld : Bool
  relocks : Nat
  cutPending : Bool
  forgotten : Bool
  accum : Accum
  collection : Option Collection
  listening : Bool
  lockTimer : Option Nat
  rosterTimer : Option Nat
  dwellEnd : Option Nat
  recoveryEnd : Option Nat
  sampleDue : Option Nat
  demod : Option CarrierParams
  deriving DecidableEq, Repr

/-- R109; the demodulator stopped: DESIGN CHOICE, log 17. -/
def PathRec.powerOn : PathRec :=
  { state := .idle, use := none, carrier := none, lockTime := none, lockHeld := false, relocks := 0,
    cutPending := false, forgotten := false, accum := .empty, collection := none, listening := false,
    lockTimer := none, rosterTimer := none, dwellEnd := none, recoveryEnd := none, sampleDue := none, demod := none }

/-! ### Path Arbiter and Scan Planner (07_path_arbitration_and_scan_planning.md) -/

/-- R110. -/
inductive Mode where
  | standby | active | stopping
  deriving DecidableEq, Repr

/-- R110, R114, R117. `cuts` holds each claim's outstanding cuts as pairs. `due` is the model's own: an event of R115
has come in this step and arbitration is still to be taken (log 12); it is clear between steps. -/
structure Arbiter where
  mode : Mode
  reserve : Nat
  cuts : List (ChannelIdx × PathIdx)
  due : Bool
  deriving DecidableEq, Repr

/-- R114, R119, R120, R121. -/
structure Planner where
  cursor : CarrierIdx
  passCount : Word
  sweepEnabled : Bool
  queue : List CarrierIdx
  underQueue : List CarrierIdx
  deriving DecidableEq, Repr

/-! ### Claim Table (08_distribution_claims_and_handover.md) -/

/-- R126. -/
inductive ClaimState where
  | free | waiting | acquiring | carrying | handover | recovering
  deriving DecidableEq, Repr

/-- R126, R128. -/
inductive Reason where
  | noSource | noPath | feedConflict | standby
  deriving DecidableEq, Repr

/-- R126. -/
structure ClaimRec where
  state : ClaimState
  reason : Option Reason
  service : Option ServiceIdx
  current : Option CarrierIdx
  target : Option CarrierIdx
  path : Option PathIdx
  deriving DecidableEq, Repr

/-- R143: a FREE claim. -/
def ClaimRec.free : ClaimRec :=
  { state := .free, reason := none, service := none, current := none, target := none, path := none }

/-- R126, R141. The changed-claims set stands in rising order, each channel once. -/
structure ClaimTable where
  recs : Vector ClaimRec 32
  changed : List ChannelIdx
  deriving DecidableEq, Repr

/-! ### Monitor Unit (11_activity_monitors.md) -/

/-- R179. -/
inductive Event where
  | carryLockLoss | handoverDone | visitFailed | claimWaiting | selectionChanged | rosterVersionChanged
  | portOverrun | preemption | visitQueueFull
  deriving DecidableEq, Repr

/-- R178: a held sample. -/
structure HeldSample where
  event : Event
  service : Option ServiceIdx
  carrier : Option CarrierIdx
  deriving DecidableEq, Repr

/-- R178. An absent select is NONE. -/
structure Monitor where
  select : Option Event
  count : Nat
  threshold : Word
  sample : Option HeldSample
  deriving DecidableEq, Repr

/-- R178. -/
def Monitor.powerOn : Monitor := { select := none, count := 0, threshold := 0, sample := none }

/-! ### Request Port and Request Processor (09_the_request_port.md, 10_requests.md) -/

/-- R145. -/
inductive Handling where
  | awaiting | idle | storing | broken | dropped
  deriving DecidableEq, Repr

/-- R145: the frame-in-progress record. -/
structure Frame where
  words : Nat
  first : Option Word
  second : Option Word
  partialBits : List Bool
  handling : Handling
  deriving DecidableEq, Repr

/-- R148: what the data-out line presents for the word under way. -/
inductive Presented where
  /-- the select line is high, or no frame is in progress -/
  | nothing
  /-- FFFFh, the response FIFO being empty at the start of the word -/
  | filler
  /-- the word at the head of the response FIFO -/
  | head
  deriving DecidableEq, Repr

/-- R146: an entry of the request FIFO with its marks. -/
structure ReqEntry where
  header : Word
  args : List Word
  ended : Bool
  overLong : Bool
  partialMark : Bool
  broken : Bool
  deriving DecidableEq, Repr

/-- R145 to R150. -/
structure Port where
  selectLow : Bool
  frame : Option Frame
  out : Presented
  reqFifo : List ReqEntry
  respFifo : List Word
  dropped : Nat
  attentionLevel : Nat
  deriving DecidableEq, Repr

/-- What a request stays in execution for: STANDBY (R162), SETTLE with its captured set and the time its timer expires
(R171), or SET RANKING until its last service has been taken (R58). -/
inductive HeldFor where
  | standby
  | settle (captured : List CarrierIdx) (timer : Nat)
  | setRanking
  deriving DecidableEq, Repr

/-- R151, R153: the request in execution between two steps. -/
structure Execution where
  header : Word
  suppressed : Bool
  heldFor : HeldFor
  deriving DecidableEq, Repr

/-- The state of the part. `now` is the clock in milliseconds (log 1); `pending` is the queue of commands, the first
to be taken first. -/
structure State where
  port : Port
  inExec : Option Execution
  svcs : ServiceTable
  carriers : Vector CarrierRec 192
  rank : RankingEngine
  inputs : Vector InputRec 6
  paths : Vector PathRec 8
  arb : Arbiter
  plan : Planner
  claims : ClaimTable
  mons : Vector Monitor 4
  now : Nat
  pending : List Instr
  deriving DecidableEq, Repr

/-- The part right after power-on reset: R22, R45, R56, R75, R89, R109, R125, R143, R155, R178. The select line is
high (DESIGN CHOICE, log 9), nothing is presented (log 10) and the clock stands at 0 (log 1). -/
def State.reset : State :=
  { port := { selectLow := false, frame := none, out := .nothing, reqFifo := [], respFifo := [], dropped := 0,
              attentionLevel := 1 },
    inExec := none,
    svcs := { recs := Vector.replicate 512 .powerOn, suppressed := [], epoch := 0, discoveryOverflow := 0 },
    carriers := Vector.replicate 192 .powerOn,
    rank := { settings := .powerOn, evals := [] },
    inputs := Vector.replicate 6 .powerOn,
    paths := Vector.replicate 8 .powerOn,
    arb := { mode := .standby, reserve := 1, cuts := [], due := false },
    plan := { cursor := 0, passCount := 0, sweepEnabled := true, queue := [], underQueue := [] },
    claims := { recs := Vector.replicate 32 .free, changed := [] },
    mons := Vector.replicate 4 .powerOn,
    now := 0,
    pending := [] }

end Sys2Proof.Machine
end

