-- ==== Sys2Proof/Machine/Operands.lean ====
section
/-! DEFINITION. The words of requests and responses: headers, argument words and their used bits, completion codes,
and the layouts of the records reported (R156, R157, R160, R183, R184). -/

namespace Sys2Proof.Machine

/-! ### Request codes -/

/-- The assigned request codes (R183). -/
inductive ReqCode where
  | activate | standby | scanControl | setRanking | setPort | defineInput | defineCarrier | forgetCarrier
  | carrierInfo | carrierServices | enrol | lookup | listServices | listChanged | pin | unpin | retire | unsuppress
  | refresh | settle | claim | releaseClaim | claimStatus | claimChanges | setMonitor | readMonitors | ackAlert
  | status
  deriving DecidableEq, Repr

/-- R183: the request of a code, absent where the code is unassigned. -/
def ReqCode.ofNat? (n : Nat) : Option ReqCode :=
  match n with
  | 1 => some .activate
  | 2 => some .standby
  | 3 => some .scanControl
  | 4 => some .setRanking
  | 5 => some .setPort
  | 8 => some .defineInput
  | 9 => some .defineCarrier
  | 10 => some .forgetCarrier
  | 11 => some .carrierInfo
  | 12 => some .carrierServices
  | 16 => some .enrol
  | 17 => some .lookup
  | 18 => some .listServices
  | 19 => some .listChanged
  | 20 => some .pin
  | 21 => some .unpin
  | 22 => some .retire
  | 23 => some .unsuppress
  | 24 => some .refresh
  | 25 => some .settle
  | 32 => some .claim
  | 33 => some .releaseClaim
  | 34 => some .claimStatus
  | 35 => some .claimChanges
  | 40 => some .setMonitor
  | 41 => some .readMonitors
  | 42 => some .ackAlert
  | 48 => some .status
  | _ => none

/-- R160: the largest response of a request, in words. -/
def ReqCode.largest : ReqCode → Nat
  | .activate => 2 | .standby => 2 | .defineInput => 7 | .defineCarrier => 3 | .forgetCarrier => 2
  | .carrierInfo => 21 | .carrierServices => 36 | .enrol => 4 | .lookup => 38 | .listServices => 42
  | .listChanged => 42 | .pin => 3 | .unpin => 3 | .retire => 3 | .unsuppress => 2 | .setRanking => 10
  | .scanControl => 2 | .refresh => 3 | .settle => 3 | .claim => 4 | .releaseClaim => 2 | .claimStatus => 10
  | .claimChanges => 34 | .setMonitor => 2 | .readMonitors => 26 | .ackAlert => 2 | .status => 32 | .setPort => 2

/-- R183: how many low bits of an argument word are used, and whether the absent value is allowed. -/
structure ArgShape where
  bits : Nat
  absentOk : Bool
  deriving DecidableEq, Repr

/-- R183: an argument that uses its low `n` bits. -/
def argBits (n : Nat) : ArgShape := ⟨n, false⟩

/-- R160, R163 to R175, R183: the arguments of each request in order. -/
def ReqCode.args : ReqCode → List ArgShape
  | .activate => []
  | .standby => []
  | .scanControl => [argBits 2, argBits 16]
  | .setRanking => [argBits 16, argBits 16, argBits 16, argBits 16, argBits 16, argBits 4, argBits 2, argBits 16]
  | .setPort => [argBits 7]
  | .defineInput => [argBits 3, argBits 3]
  | .defineCarrier => [argBits 3, ⟨2, true⟩, argBits 6, argBits 16, argBits 16, argBits 3]
  | .forgetCarrier => [argBits 8]
  | .carrierInfo => [argBits 8]
  | .carrierServices => [argBits 8, argBits 8]
  | .enrol => [argBits 16, argBits 16]
  | .lookup => [argBits 16, argBits 16, argBits 16]
  | .listServices => [argBits 16, ⟨3, true⟩]
  | .listChanged => [argBits 16, argBits 16, argBits 16]
  | .pin => [argBits 16, argBits 8, argBits 16]
  | .unpin => [argBits 16]
  | .retire => [argBits 16, argBits 16, argBits 16]
  | .unsuppress => [argBits 16, argBits 16]
  | .refresh => [argBits 16, argBits 16]
  | .settle => [argBits 16]
  | .claim => [argBits 16, argBits 16]
  | .releaseClaim => [argBits 16]
  | .claimStatus => [argBits 16]
  | .claimChanges => []
  | .setMonitor => [argBits 2, argBits 4, argBits 16]
  | .readMonitors => []
  | .ackAlert => [argBits 2]
  | .status => []

/-! ### Words -/

/-- The absent value (00, Absent values). -/
def absentWord : Word := 0xFFFF

/-- Each word of the port reset frame (R147). -/
def portResetWord : Word := 0x5AA5

/-- R183: the request code of a header, bits 15 to 10. -/
def headerCode (w : Word) : Nat := w.toNat / 1024

/-- R183: the argument count of a header, bits 9 to 6. -/
def headerCount (w : Word) : Nat := w.toNat / 64 % 16

/-- R183: the sequence of a header, bits 5 to 0. -/
def headerSeq (w : Word) : Nat := w.toNat % 64

/-- A number as one word. -/
def word (n : Nat) : Word := BitVec.ofNat 16 n

/-- A number as two words, most significant first (00, Words and numbers). -/
def twoWords (n : Nat) : List Word := [word (n / 65536), word n]

/-- The number of two words, most significant first. -/
def fromTwo (hi lo : Word) : Nat := hi.toNat * 65536 + lo.toNat

/-- Two values in one word, the first in bits 15 to 8 (R184; counts likewise, log 14). -/
def packed (a b : Nat) : Word := word (a % 256 * 256 + b % 256)

/-- The index an argument word names, absent where it is out of range. -/
def toIdx (n : Nat) (w : Word) : Option (Fin n) :=
  if h : w.toNat < n then some ⟨w.toNat, h⟩ else none

/-- An index as a result word, an absent one as FFFFh. -/
def idxWord {n : Nat} (o : Option (Fin n)) : Word :=
  match o with
  | some i => word i.val
  | none => absentWord

/-- A number as a result word, an absent one as FFFFh. -/
def natWord (o : Option Nat) : Word :=
  match o with
  | some n => word n
  | none => absentWord

/-- A flag as a result word: 0 no, 1 yes (R184). -/
def boolWord (b : Bool) : Word := if b then 1 else 0

/-! ### Completion codes and enumerations (R158, R184) -/

/-- R158. -/
inductive Completion where
  | done | unknown | form | mode | range | absent | stale | inUse | full | conflict | timeout | overrun
  deriving DecidableEq, Repr

/-- R184. -/
def Completion.code : Completion → Nat
  | .done => 0 | .unknown => 1 | .form => 2 | .mode => 3 | .range => 4 | .absent => 5 | .stale => 6 | .inUse => 7
  | .full => 8 | .conflict => 9 | .timeout => 10 | .overrun => 11

/-- R184. -/
def SvcState.code : SvcState → Nat
  | .free => 0 | .provisional => 1 | .listed => 2 | .degraded => 3 | .orphaned => 4 | .retired => 5

/-- R166, R184: a state filter that names a state a record can be listed in. -/
def SvcState.ofFilter? (n : Nat) : Option SvcState :=
  match n with
  | 1 => some .provisional
  | 2 => some .listed
  | 3 => some .degraded
  | 4 => some .orphaned
  | 5 => some .retired
  | _ => none

/-- R184. -/
def Kind.code : Kind → Nat
  | .television => 0 | .radio => 1 | .data => 2 | .unknown => 3

/-- R39: a kind announced as other than the three is taken as UNKNOWN. -/
def Kind.ofAnnounced : AnnouncedKind → Kind
  | .television => .television | .radio => .radio | .data => .data | .other => .unknown

/-- R184. -/
def CarState.code : CarState → Nat
  | .free => 0 | .unvisited => 1 | .live => 2 | .silent => 3 | .lost => 4

/-- R184. -/
def InputKind.code : InputKind → Nat
  | .unused => 0 | .satellite => 1 | .terrestrial => 2 | .cable => 3

/-- R78, R184: a kind that is one of the four. -/
def InputKind.ofNat? (n : Nat) : Option InputKind :=
  match n with
  | 0 => some .unused
  | 1 => some .satellite
  | 2 => some .terrestrial
  | 3 => some .cable
  | _ => none

/-- R184. -/
def FeedState.code : FeedState → Nat
  | .steady => 0 | .settling _ => 1

/-- R184. -/
def Mode.code : Mode → Nat
  | .standby => 0 | .active => 1 | .stopping => 2

/-- R184. -/
def ClaimState.code : ClaimState → Nat
  | .free => 0 | .waiting => 1 | .acquiring => 2 | .carrying => 3 | .handover => 4 | .recovering => 5

/-- R184. -/
def Reason.code : Reason → Nat
  | .noSource => 0 | .noPath => 1 | .feedConflict => 2 | .standby => 3

/-- R184. -/
def Event.code : Event → Nat
  | .carryLockLoss => 1 | .handoverDone => 2 | .visitFailed => 3 | .claimWaiting => 4 | .selectionChanged => 5
  | .rosterVersionChanged => 6 | .portOverrun => 7 | .preemption => 8 | .visitQueueFull => 9

/-- R175, R184: an event select in range, NONE being absent; out of range where it names no event. -/
def Event.ofSelect? (n : Nat) : Option (Option Event) :=
  match n with
  | 0 => some none
  | 1 => some (some .carryLockLoss)
  | 2 => some (some .handoverDone)
  | 3 => some (some .visitFailed)
  | 4 => some (some .claimWaiting)
  | 5 => some (some .selectionChanged)
  | 6 => some (some .rosterVersionChanged)
  | 7 => some (some .portOverrun)
  | 8 => some (some .preemption)
  | 9 => some (some .visitQueueFull)
  | _ => none

/-- R183: bit 1 band, bit 0 polarity. -/
def Feed.code (f : Feed) : Nat :=
  (match f.band with | .low => 0 | .high => 2) + (match f.polarity with | .vertical => 0 | .horizontal => 1)

/-- R183: the feed setting of an argument's low two bits. -/
def Feed.ofNat (n : Nat) : Feed :=
  ⟨if n / 2 % 2 = 1 then .high else .low, if n % 2 = 1 then .horizontal else .vertical⟩

/-! ### The checks of a frame (R156, R157) -/

/-- R157, R183: a word whose unused bits are 0, or the absent value where it is allowed. -/
def ArgShape.fits (a : ArgShape) (w : Word) : Bool :=
  (a.absentOk && w == absentWord) || decide (w.toNat < 2 ^ a.bits)

/-- R183: the request code of an entry. -/
def ReqEntry.code? (e : ReqEntry) : Option ReqCode := ReqCode.ofNat? (headerCode e.header)

/-- The argument word at a place; after the length check every place the request uses holds one. -/
def ReqEntry.arg (e : ReqEntry) (n : Nat) : Word := e.args.getD n 0

/-- How many words of the request FIFO an entry takes: its header and its stored arguments (R146). -/
def ReqEntry.words (e : ReqEntry) : Nat := 1 + e.args.length

/-- R157: whether the entry passes the length check of its code. -/
def ReqEntry.formOk (e : ReqEntry) (c : ReqCode) : Bool :=
  !e.overLong && !e.partialMark
    && decide (headerCount e.header = e.args.length)
    && decide (e.args.length = c.args.length)
    && (c.args.zip e.args).all (fun x => x.1.fits x.2)
    && !(decide (c = .lookup) && decide (e.arg 0 = 0) && decide (e.arg 2 ≠ 0))

/-- R151, R160: the free words of the response FIFO that an entry needs. -/
def ReqEntry.roomNeeded (e : ReqEntry) : Nat :=
  if e.broken then 2
  else match e.code? with
    | some c => c.largest
    | none => 2

/-- R159: what the mode makes of a request. -/
inductive Admission where
  | taken | doneNoEffect | refusedMode
  deriving DecidableEq, Repr

/-- R159. -/
def ReqCode.admission (c : ReqCode) (m : Mode) : Admission :=
  match c, m with
  | .activate, .standby => .taken
  | .activate, .active => .doneNoEffect
  | .activate, .stopping => .refusedMode
  | .standby, .standby => .doneNoEffect
  | .standby, .active => .taken
  | .standby, .stopping => .doneNoEffect
  | .defineInput, .standby => .taken
  | .defineInput, .active => .refusedMode
  | .defineInput, .stopping => .refusedMode
  | .settle, .standby => .refusedMode
  | .settle, .active => .taken
  | .settle, .stopping => .refusedMode
  | _, _ => .taken

/-! ### Responses (R184) -/

/-- R184: the header of a response echoes code and sequence and holds the completion in bits 9 to 6. -/
def responseHeader (header : Word) (c : Completion) : Word :=
  word (headerCode header * 1024 + c.code * 64 + headerSeq header)

/-- R184: a whole response: header, count, result words. -/
def responseWords (header : Word) (c : Completion) (results : List Word) : List Word :=
  responseHeader header c :: word results.length :: results

/-- R184: a name in eight words, two characters each. -/
def nameWords (o : Option (List Byte)) : List Word :=
  match o with
  | none => List.replicate 8 absentWord
  | some cs => (List.range 8).map (fun k => packed (cs.getD (2 * k) 0).toNat (cs.getD (2 * k + 1) 0).toNat)

/-- R184: the key as two words. -/
def keyWords (o : Option Key) : List Word :=
  match o with
  | none => [absentWord, absentWord]
  | some k => [k.network, k.service]

/-- R184: carrier in bits 15 to 8 and lead in bits 7 to 0. -/
def challengerWord (o : Option Challenger) : Word :=
  match o with
  | none => absentWord
  | some c => packed c.carrier.val c.lead

/-- R184: a score, or the absent value in each of its words. -/
def scoreWords (o : Option Quality) : List Word :=
  match o with
  | none => [absentWord, absentWord]
  | some q => twoWords q.score

/-- R184: the four lanes, absent together. -/
def laneWords (o : Option Quality) : List Word :=
  match o with
  | none => List.replicate 4 absentWord
  | some q => [q.lanes.level, q.lanes.margin, q.lanes.integrity, q.lanes.steadiness]

/-- R164, R184: input, feed setting, frequency, symbol rate or bandwidth, modulation class, absent together in FREE. -/
def paramWords (o : Option CarrierParams) : List Word :=
  match o with
  | none => List.replicate 6 absentWord
  | some q => [word q.input.val, natWord (q.feed.map Feed.code)] ++ twoWords q.frequency ++ [word q.rate, word q.modClass]

/-- R164, R184: the 19 words of CARRIER INFO. -/
def carrierWords (c : CarrierIdx) (r : CarrierRec) : List Word :=
  [word c.val, word r.state.code] ++ paramWords r.params ++ [word r.failures] ++ laneWords r.quality
    ++ scoreWords r.quality ++ [idxWord r.rosterVersion,
      word ((if r.stale then 1 else 0) + (if r.malformed then 2 else 0)), word r.announced.length, idxWord r.carrying]

/-- R166, R184: a LIST entry. -/
def listEntryWords (i : ServiceIdx) (r : ServiceRec) : List Word :=
  [word i.val, packed r.state.code r.kind.code] ++ keyWords r.key

/-- R164, R76: the five words of DEFINE INPUT. -/
def inputWords (i : InputIdx) (r : InputRec) : List Word :=
  [word i.val, word r.kind.code, word r.carrierCount, word r.feed.code, word r.feedState.code]

/-- R163: the eight words of SET RANKING. -/
def settingsWords (g : Settings) : List Word :=
  [g.level, g.margin, g.integrity, g.steadiness, g.beatMargin, word g.persistence] ++ twoWords g.floor

/-- R176: the six words of one monitor. -/
def monitorWords (m : Monitor) : List Word :=
  [word (match m.select with | none => 0 | some e => e.code), word m.count, m.threshold]
    ++ (match m.sample with
        | none => [absentWord, absentWord, absentWord]
        | some x => [word x.event.code, idxWord x.service, idxWord x.carrier])

/-- R174, R184: the eight words of CLAIM STATUS, the last being the carrying path of the target carrier. -/
def claimWords (ch : ChannelIdx) (c : ClaimRec) (targetPath : Option PathIdx) : List Word :=
  [word ch.val, word c.state.code, natWord (c.reason.map Reason.code), idxWord c.service, idxWord c.current,
    idxWord c.target, idxWord c.path, idxWord targetPath]

end Sys2Proof.Machine
end

