-- ==== Sys2Proof/Machine/Ops.lean ====
section
/-! DEFINITION. The shared operations over the tables of the part: reading and writing one record, the clock, the
counting of events, the generation change, and the writing of responses. -/

namespace Sys2Proof.Machine

/-! ### Tables -/

/-- A table with every record changed alike. -/
def vmap {α : Type} {n : Nat} (f : α → α) (v : Vector α n) : Vector α n :=
  ⟨⟨v.toList.map f⟩, by simp⟩

/-- The records of a table with their indices, lowest first. -/
def indexed {α : Type} {n : Nat} (v : Vector α n) : List (Fin n × α) := (List.finRange n).zip v.toList

/-- The lowest index whose record meets a test. -/
def firstIdx {α : Type} {n : Nat} (v : Vector α n) (p : α → Bool) : Option (Fin n) :=
  ((indexed v).find? (fun x => p x.2)).map (fun x => x.1)

/-- The indices whose records meet a test, lowest first. -/
def idxWhere {α : Type} {n : Nat} (v : Vector α n) (p : α → Bool) : List (Fin n) :=
  ((indexed v).filter (fun x => p x.2)).map (fun x => x.1)

/-- How many records of a table meet a test. -/
def countWhere {α : Type} {n : Nat} (v : Vector α n) (p : α → Bool) : Nat := v.toList.countP p

/-- A set kept in rising order without repeats: put in one member. -/
def insertIdx {n : Nat} (x : Fin n) : List (Fin n) → List (Fin n)
  | [] => [x]
  | y :: ys => if x = y then y :: ys else if x < y then x :: y :: ys else y :: insertIdx x ys

/-- A list without a member, the order of the others kept. -/
def without {α : Type} [DecidableEq α] (x : α) (l : List α) : List α := l.filter (fun y => decide (y ≠ x))

/-! ### One record -/

namespace State

def svc (s : State) (i : ServiceIdx) : ServiceRec := s.svcs.recs[i]
def setSvc (i : ServiceIdx) (r : ServiceRec) (s : State) : State :=
  { s with svcs := { s.svcs with recs := s.svcs.recs.set i r } }

def car (s : State) (c : CarrierIdx) : CarrierRec := s.carriers[c]
def setCar (c : CarrierIdx) (r : CarrierRec) (s : State) : State := { s with carriers := s.carriers.set c r }
def modCar (c : CarrierIdx) (f : CarrierRec → CarrierRec) (s : State) : State := s.setCar c (f (s.car c))

def inp (s : State) (i : InputIdx) : InputRec := s.inputs[i]
def setInp (i : InputIdx) (r : InputRec) (s : State) : State := { s with inputs := s.inputs.set i r }
def modInp (i : InputIdx) (f : InputRec → InputRec) (s : State) : State := s.setInp i (f (s.inp i))

def path (s : State) (p : PathIdx) : PathRec := s.paths[p]
def setPath (p : PathIdx) (r : PathRec) (s : State) : State := { s with paths := s.paths.set p r }
def modPath (p : PathIdx) (f : PathRec → PathRec) (s : State) : State := s.setPath p (f (s.path p))

def claim (s : State) (ch : ChannelIdx) : ClaimRec := s.claims.recs[ch]

def mon (s : State) (m : MonitorIdx) : Monitor := s.mons[m]
def setMon (m : MonitorIdx) (r : Monitor) (s : State) : State := { s with mons := s.mons.set m r }

end State

/-- R141: a change of a claim record that alters any of its fields adds the channel to the changed-claims set. -/
def setClaim (ch : ChannelIdx) (c : ClaimRec) (s : State) : State :=
  if s.claim ch = c then s
  else { s with claims := { recs := s.claims.recs.set ch c, changed := insertIdx ch s.claims.changed } }

/-! ### The clock (log 1, log 3) -/

/-- The clock has reached a moment. -/
def reach (t : Nat) (s : State) : State := { s with now := max s.now t }

/-! ### Events at the Monitor Unit (R179, R180) -/

/-- R180: an occurrence reaches a monitor. -/
def Monitor.take (e : Event) (svc : Option ServiceIdx) (car : Option CarrierIdx) (m : Monitor) : Monitor :=
  if m.select = some e then
    if m.count < 65535 then
      { m with
        count := m.count + 1,
        sample := if 0 < m.threshold.toNat ∧ m.count + 1 = m.threshold.toNat ∧ m.sample = none
                  then some ⟨e, svc, car⟩ else m.sample }
    else m
  else m

/-- R179: one occurrence, told to every monitor. -/
def countEvent (e : Event) (svc : Option ServiceIdx) (car : Option CarrierIdx) (s : State) : State :=
  { s with mons := vmap (Monitor.take e svc car) s.mons }

/-! ### Generation changes (R6, R7) -/

/-- R7: the table epoch advanced, staying at 4,294,967,295. -/
def nextEpoch (e : BitVec 32) : BitVec 32 := if e = 4294967295 then e else e + 1

/-- R6: whether a change of a record includes one of the items the host must notice. -/
def noticed (r r' : ServiceRec) : Bool :=
  !(decide (r.state = r'.state) && decide (r.selected = r'.selected) && decide (r.candidates = r'.candidates)
    && decide (r.pin = r'.pin) && decide (r.name = r'.name) && decide (r.kind = r'.kind))

/-- R6, R7: a change taken whole to one record. One generation change is made if the change is one to be noticed; the
stamps of the new record are the old record's otherwise. -/
def commit (i : ServiceIdx) (r' : ServiceRec) (s : State) : State :=
  let r := s.svc i
  if noticed r r' then
    let e := nextEpoch s.svcs.epoch
    let s := { s with svcs := { s.svcs with epoch := e } }
    s.setSvc i { r' with generation := r.generation + 1, changeEpoch := e }
  else
    s.setSvc i { r' with generation := r.generation, changeEpoch := r.changeEpoch }

/-! ### Arbitration due (R115) -/

/-- An event of R115: arbitration is to be taken in this step (log 12). -/
def raiseArb (s : State) : State := { s with arb := { s.arb with due := true } }

/-! ### The request FIFO and responses (R146, R152, R153) -/

/-- The words in the request FIFO. -/
def reqWords (s : State) : Nat := (s.port.reqFifo.map ReqEntry.words).sum

/-- The free words of the response FIFO. -/
def respFree (s : State) : Nat := Config.fifoWords - s.port.respFifo.length

/-- R152: a response is written whole at the tail of the response FIFO. -/
def respond (header : Word) (c : Completion) (results : List Word) (s : State) : State :=
  { s with port := { s.port with respFifo := s.port.respFifo ++ responseWords header c results } }

/-- R152, R153: the request in execution completes. Its response is written unless a port reset has suppressed it. -/
def finish (c : Completion) (results : List Word) (s : State) : State :=
  match s.inExec with
  | none => s
  | some x =>
    let s := { s with inExec := none }
    if x.suppressed then s else respond x.header c results s

/-- R171: a report that a queue visit of a carrier has ended, or that its entry was removed because its carrying path
was set, takes the carrier from the captured set of a held SETTLE, which completes DONE when the set is empty. -/
def visitEnded (c : CarrierIdx) (s : State) : State :=
  match s.inExec with
  | some ⟨h, sup, .settle captured timer⟩ =>
    if c ∈ captured then
      if without c captured = [] then finish .done [0] s
      else { s with inExec := some ⟨h, sup, .settle (without c captured) timer⟩ }
    else s
  | _ => s

end Sys2Proof.Machine
end

