-- ==== Sys2Proof/Machine/Flags.lean ====
section
/-! DEFINITION. What is read off the state: eligibility, the carried and needed tests, the count in CARRY use, the
pending alert, the attention line and the other output lines (R24, R29, R107, R113, R127, R150, R181). -/

namespace Sys2Proof.Machine

/-- R8. -/
def SvcState.live : SvcState → Bool
  | .provisional | .listed | .degraded | .orphaned => true
  | .free | .retired => false

/-- R24: LIVE with a quality vector. -/
def eligible (s : State) (c : CarrierIdx) : Bool :=
  decide ((s.car c).state = .live) && (s.car c).quality.isSome

/-- The score of a carrier, 0 where it has none; ranking reads it for eligible carriers alone. -/
def score (s : State) (c : CarrierIdx) : Nat :=
  match (s.car c).quality with
  | some q => q.score
  | none => 0

/-- R3: the key map, the record in a state other than FREE that holds a key. -/
def keyMap (s : State) (k : Key) : Option ServiceIdx :=
  firstIdx s.svcs.recs (fun r => decide (r.state ≠ .free) && decide (r.key = some k))

/-- R127: whether a claim holds a carrier, as current or as target. -/
def ClaimRec.holds (c : ClaimRec) (x : CarrierIdx) : Bool :=
  decide (c.current = some x) || decide (c.target = some x)

/-- R127: a carrier is needed while at least one claim holds it. -/
def needed (s : State) (x : CarrierIdx) : Bool := s.claims.recs.toList.any (fun c => c.holds x)

/-- R113: the paths in CARRY use, from grant until IDLE. -/
def carryCount (s : State) : Nat := countWhere s.paths (fun r => decide (r.use = some .carry))

/-- R113: a step that would raise the count may be made. -/
def underLimit (s : State) : Bool := decide (carryCount s < 8 - s.arb.reserve)

/-- R79: attached in AWAIT-TUNE, TUNING, ENGAGED and DWELL. -/
def PathState.onCarrier : PathState → Bool
  | .awaitTune | .tuning | .engaged | .dwell => true
  | .idle | .recovery => false

/-- The states a cut, an abandonment or a release is taken in (R100, R102, R103). -/
def PathState.working : PathState → Bool
  | .awaitTune | .tuning | .engaged => true
  | .idle | .dwell | .recovery => false

/-- SWEEP or QUEUE use (00, Terms: scan path). -/
def PathRec.scan (r : PathRec) : Bool := decide (r.use = some .sweep) || decide (r.use = some .queue)

/-- R116 step 1: the path on a carrier, lowest-numbered. -/
def pathOn (s : State) (c : CarrierIdx) : Option PathIdx :=
  firstIdx s.paths (fun r => decide (r.carrier = some c) && r.state.onCarrier)

/-- The lowest-numbered IDLE path (R116, R119). -/
def idlePath (s : State) : Option PathIdx := firstIdx s.paths (fun r => decide (r.state = .idle))

/-- Every path is IDLE (R111, R112). -/
def allIdle (s : State) : Bool := s.paths.toList.all (fun r => decide (r.state = .idle))

/-- R107: stream output p delivers while path p is ENGAGED in CARRY use. -/
def streamOn (s : State) (p : PathIdx) : Bool :=
  decide ((s.path p).state = .engaged) && decide ((s.path p).use = some .carry)

/-- R76, R78: the feed setting presented to the dish equipment, on a SATELLITE input alone. -/
def feedPresented (s : State) (i : InputIdx) : Option Feed :=
  if (s.inp i).kind = .satellite then some (s.inp i).feed else none

/-- R150, R181: an alert is pending. -/
def alertPending (s : State) : Bool :=
  !s.claims.changed.isEmpty || s.mons.toList.any (fun m => m.sample.isSome)

/-- R150: the attention line. -/
def attention (s : State) : Bool :=
  decide (s.port.attentionLevel ≤ s.port.respFifo.length) || alertPending s

/-- R148: the word presented on the data-out line, where a word is under way. -/
def presentedWord (s : State) : Option Word :=
  match s.port.out with
  | .nothing => none
  | .filler => some absentWord
  | .head => s.port.respFifo.head?

end Sys2Proof.Machine
end

