-- ==== Sys2Proof/Machine/Planner.lean ====
section
/-! DEFINITION. The visit queue of the Scan Planner and the ends of scan visits (R70, R121, R122, R123). -/

namespace Sys2Proof.Machine

/-- R95, R122: the kinds of end of a scan visit. -/
inductive VisitEnd where
  | completed | cut | converted | abandonedByForget | abandonedByStandby
  deriving DecidableEq, Repr

/-- A carrier joins the visit queue at its tail (R121), an event of R115. -/
def joinQueue (c : CarrierIdx) (s : State) : State :=
  raiseArb { s with plan := { s.plan with queue := s.plan.queue ++ [c] } }

/-- An entry leaves the visit queue, the order of the others kept (R123). -/
def dropEntry (c : CarrierIdx) (s : State) : State :=
  { s with plan := { s.plan with queue := without c s.plan.queue } }

/-- R70: one carrier offered by the Ranking Engine. -/
def offer (s : State) (c : CarrierIdx) : State :=
  if (s.car c).carrying.isSome then s
  else if c ∈ s.plan.queue then s
  else if s.plan.queue.length < Config.visitQueueMax then joinQueue c s
  else countEvent .visitQueueFull none (some c) s

/-- R122: the carrier ceases to be under a queue visit. -/
def endUnderQueue (c : CarrierIdx) (s : State) : State :=
  { s with plan := { s.plan with underQueue := without c s.plan.underQueue } }

/-- R122: a carrier is put back at the head of the queue. -/
def putBack (c : CarrierIdx) (s : State) : State :=
  let s := endUnderQueue c s
  let q := s.plan.queue
  if c ∈ q then { s with plan := { s.plan with queue := c :: without c q } }
  else if q.length < Config.visitQueueMax then
    raiseArb { s with plan := { s.plan with queue := c :: q } }
  else
    let s := countEvent .visitQueueFull none q.getLast? s
    raiseArb { s with plan := { s.plan with queue := c :: q.dropLast } }

/-- R122: the Scan Planner is told of the end of a scan visit. -/
def visitEndReport (u : Use) (c : CarrierIdx) (k : VisitEnd) (s : State) : State :=
  match u with
  | .queue =>
    match k with
    | .completed | .converted | .abandonedByForget => visitEnded c (endUnderQueue c s)
    | .cut | .abandonedByStandby => putBack c s
  | .sweep | .carry => s

/-- R123: the carrying path of a carrier has been set, so its queue entry is removed, and the removal is told as an
ended visit. -/
def queueCarried (c : CarrierIdx) (s : State) : State :=
  if c ∈ s.plan.queue then visitEnded c (dropEntry c s) else s

end Sys2Proof.Machine
end

