-- ==== Sys2Proof/Machine/Inputs.lean ====
section
/-! DEFINITION. Input Control: attachment, the feed, the wait list and the tune budget (R79 to R87). -/

namespace Sys2Proof.Machine

/-- R80: how a carrier's feed setting stands against its input. -/
inductive FeedAnswer where
  | agrees | switchable | blocked
  deriving DecidableEq, Repr

/-- R80. -/
def feedAnswer (s : State) (q : CarrierParams) : FeedAnswer :=
  let r := s.inp q.input
  if r.kind ≠ .satellite then .agrees
  else if q.feed = some r.feed then .agrees
  else if r.attached = [] then .switchable
  else .blocked

/-- R80 for a carrier record: a FREE carrier names no input and is never granted. -/
def carrierAnswer (s : State) (c : CarrierIdx) : FeedAnswer :=
  match (s.car c).params with
  | some q => feedAnswer s q
  | none => .blocked

/-- R84: grant order, by time of request, then by path index. -/
def Waiter.before (a b : Waiter) : Bool :=
  decide (a.since < b.since) || (decide (a.since = b.since) && decide (a.path < b.path))

/-- R84: a path takes its place on a wait list. -/
def insertWaiter (x : Waiter) : List Waiter → List Waiter
  | [] => [x]
  | y :: ys => if x.before y then x :: y :: ys else y :: insertWaiter x ys

/-- R84: a path asks for a tune start now. -/
def joinWait (i : InputIdx) (p : PathIdx) (s : State) : State :=
  s.modInp i (fun r => { r with waitList := insertWaiter ⟨p, s.now⟩ r.waitList })

/-- R87: a path's waiting ends without a tune start. -/
def leaveWait (p : PathIdx) (s : State) : State :=
  { s with inputs := vmap (fun r => { r with waitList := r.waitList.filter (fun x => decide (x.path ≠ p)) }) s.inputs }

/-- R79: a path is attached to an input. -/
def attach (i : InputIdx) (p : PathIdx) (s : State) : State :=
  s.modInp i (fun r => { r with attached := insertIdx p r.attached })

/-- R79: a path is detached, an event of R115. -/
def detach (p : PathIdx) (s : State) : State :=
  raiseArb { s with inputs := vmap (fun r => { r with attached := without p r.attached }) s.inputs }

/-- R81: a feed switch to a carrier's setting, with its settle to end 15 ms later. -/
def feedSwitch (i : InputIdx) (f : Feed) (s : State) : State :=
  s.modInp i (fun r => { r with feed := f, feedState := .settling (s.now + Config.feedSettle) })

/-- R83: the earliest moment at which the budget of an input allows a start. -/
def budgetMoment (h : List Nat) : Nat :=
  max (match h.getLast? with | some t => t + Config.tuneSpacing | none => 0)
    (if h.length < Config.tuneHistory then 0
     else match h.head? with | some t => t + Config.tuneWindow | none => 0)

/-- R83: a start is appended to the history, the oldest removed when four are held. -/
def pushStart (h : List Nat) (t : Nat) : List Nat :=
  (if h.length < Config.tuneHistory then h else h.drop 1) ++ [t]

end Sys2Proof.Machine
end

