-- ==== Sys2Proof/Machine/Paths.lean ====
section
/-! DEFINITION. How a path leaves its carrier: the end of a visit, a cut, an abandonment, a release, the dwell and
the recovery (R87, R95, R100 to R104). -/

namespace Sys2Proof.Machine

/-- R52, R102, R103: what a path that leaves its carrier no longer runs: burst, listening, collection, cut-pending,
lock timer, roster timeout and sampling. -/
def PathRec.quiet (r : PathRec) : PathRec :=
  { r with cutPending := false, accum := .empty, collection := none, listening := false, lockTimer := none,
           rosterTimer := none, sampleDue := none }

/-- R104: entry to RECOVERY. The path detaches and its demodulator is stopped. -/
def enterRecovery (p : PathIdx) (s : State) : State :=
  detach p (s.setPath p { (s.path p).quiet with
    state := .recovery, dwellEnd := none, recoveryEnd := some (s.now + Config.recovery), demod := none })

/-- R103: entry to DWELL, to end 250 ms after the lock. -/
def enterDwell (p : PathIdx) (lockedAt : Nat) (s : State) : State :=
  s.setPath p { (s.path p).quiet with state := .dwell, dwellEnd := some (lockedAt + Config.dwell) }

/-- R87, R99, R100, R102: a path in AWAIT-TUNE leaves its wait list; a path in TUNING stops its demodulator. -/
def stopTuning (p : PathIdx) (s : State) : State :=
  match (s.path p).state with
  | .awaitTune => leaveWait p s
  | .tuning => s.modPath p (fun r => { r with lockTimer := none, demod := none })
  | .idle | .engaged | .dwell | .recovery => s

/-- R103: a path leaves its carrier, its next state chosen by its lock time. -/
def leaveCarrier (p : PathIdx) (s : State) : State :=
  let s := stopTuning p s
  match (s.path p).lockTime with
  | none => enterRecovery p s
  | some t => if s.now < t + Config.dwell then enterDwell p t s else enterRecovery p s

/-- R95: a scan visit ends, is reported to the Scan Planner, and the path leaves its carrier. -/
def endScanVisit (p : PathIdx) (k : VisitEnd) (s : State) : State :=
  match (s.path p).use, (s.path p).carrier with
  | some u, some c => leaveCarrier p (visitEndReport u c k s)
  | _, _ => leaveCarrier p s

/-- R100, R101: a cut. It is taken on a scan path alone. -/
def cutPath (p : PathIdx) (s : State) : State :=
  let r := s.path p
  if r.scan && !r.cutPending then
    match r.state with
    | .awaitTune | .tuning => endScanVisit p .cut s
    | .engaged =>
      if r.accum.burstDone then endScanVisit p .cut s
      else if r.accum.count < Config.halfBurst then
        s.setPath p { r with cutPending := true, listening := false, collection := none, rosterTimer := none }
      else endScanVisit p .cut s
    | .idle | .dwell | .recovery => s
  else s

/-- R95, R102, R111: the STANDBY request abandons a scan visit, which ends CUT where a cut had been taken on it. -/
def abandonForStandby (p : PathIdx) (s : State) : State :=
  let r := s.path p
  if r.scan && r.state.working then
    endScanVisit p (if r.cutPending then .cut else .abandonedByStandby) s
  else s

/-- R43 step 1, R102: the carrier of a path is forgotten. A scan visit at work is abandoned; any other path that still
names the carrier only has it marked. -/
def forgetOnPath (c : CarrierIdx) (s : State) (p : PathIdx) : State :=
  let r := s.path p
  if r.carrier = some c then
    let s := s.setPath p { r with forgotten := true }
    if r.scan && r.state.working then endScanVisit p .abandonedByForget s else s
  else s

/-- R29: the carrying path of a carrier is cleared. -/
def clearCarrying (c : CarrierIdx) (s : State) : State := s.modCar c (fun r => { r with carrying := none })

/-- R102, R103: the release of a carry path, or the abandonment of one that has not locked in this visit. Either
clears the carrying path and leaves the carrier; on a path already leaving there is no effect. -/
def releaseCarry (p : PathIdx) (s : State) : State :=
  let r := s.path p
  if decide (r.use = some .carry) && r.state.working then
    match r.carrier with
    | some c => leaveCarrier p (clearCarrying c s)
    | none => leaveCarrier p s
  else s

end Sys2Proof.Machine
end

