-- ==== Sys2Proof/Machine/Claims.lean ====
section
/-! DEFINITION. The Claim Table: examination, joining, following the selection, and what each path report does to the
claims (R127, R128, R130 to R138). -/

namespace Sys2Proof.Machine

/-- The channels in order from lowest, each as one change. -/
def forChannels (f : ChannelIdx → State → State) (s : State) : State :=
  (List.finRange 32).foldl (fun s ch => f ch s) s

/-- R126: a WAITING claim. -/
def ClaimRec.waiting (svc : ServiceIdx) (why : Reason) : ClaimRec :=
  { state := .waiting, reason := some why, service := some svc, current := none, target := none, path := none }

/-- R130: what a claim becomes by what the carrying path it joins is doing. A carrying path is never in the states of
the last line. -/
def joinState (r : PathRec) : ClaimState :=
  match r.state with
  | .engaged => .carrying
  | .awaitTune | .tuning => if r.lockTime.isNone then .acquiring else .recovering
  | .idle | .dwell | .recovery => .recovering

/-- R130: a claim joined to the carrying path of a carrier. -/
def joined (s : State) (svc : ServiceIdx) (c : CarrierIdx) (p : PathIdx) : ClaimRec :=
  { state := joinState (s.path p), reason := none, service := some svc, current := some c, target := none,
    path := some p }

/-- R128: what an examination makes of a claim on a service. -/
def examined (s : State) (svc : ServiceIdx) : ClaimRec :=
  if s.arb.mode ≠ .active then .waiting svc .standby
  else match (s.svc svc).selected with
    | none => .waiting svc .noSource
    | some c =>
      if eligible s c then
        match (s.car c).carrying with
        | some p => joined s svc c p
        | none => .waiting svc .noPath
      else .waiting svc .noSource

/-- R127: a claim is demand: WAITING with reason NO-PATH or FEED-CONFLICT, or HANDOVER to an eligible target that has
no carrying path. -/
def isDemand (s : State) (c : ClaimRec) : Bool :=
  decide (c.reason = some .noPath) || decide (c.reason = some .feedConflict)
    || (decide (c.state = .handover) && (match c.target with
        | some x => eligible s x && (s.car x).carrying.isNone
        | none => false))

/-- R127: a claim change. One that raises, changes or withdraws demand is an event of R115. -/
def changeClaim (ch : ChannelIdx) (c : ClaimRec) (s : State) : State :=
  let old := s.claim ch
  let s := setClaim ch c s
  if isDemand s old || isDemand s c then raiseArb s else s

/-- R128: a claim is examined. -/
def examine (ch : ChannelIdx) (svc : ServiceIdx) (s : State) : State := changeClaim ch (examined s svc) s

/-- R128: a claim enters WAITING from another state than FREE, counts CLAIM WAITING, and is examined. -/
def becomeWaiting (ch : ChannelIdx) (svc : ServiceIdx) (s : State) : State :=
  examine ch svc (countEvent .claimWaiting (some svc) none s)

/-- R116, R127: a carrier that has a carrying path and that no claim holds is no longer needed, and its path, which
names the carrier, is released or abandoned. Of that, only a detachment at the entry to RECOVERY is an event of
R115. -/
def releaseUnneeded (c : CarrierIdx) (s : State) : State :=
  match (s.car c).carrying with
  | some p => if needed s c || decide ((s.path p).carrier ≠ some c) then s else releaseCarry p s
  | none => s

/-- `releaseUnneeded` for an optional carrier field. -/
def releaseUnneeded? (o : Option CarrierIdx) (s : State) : State :=
  match o with
  | some c => releaseUnneeded c s
  | none => s

/-- R131, R134, R135: a claim moves to a carrier by a completed handover, and HANDOVER DONE is counted. -/
def completeHandover (ch : ChannelIdx) (svc : ServiceIdx) (c : CarrierIdx) (p : PathIdx) (s : State) : State :=
  countEvent .handoverDone (some svc) (some c)
    (changeClaim ch { state := .carrying, reason := none, service := some svc, current := some c, target := none,
                      path := some p } s)

/-- The carrying path of a carrier, if it is ENGAGED (R134). -/
def engagedCarrying (s : State) (c : CarrierIdx) : Option PathIdx :=
  match (s.car c).carrying with
  | some p => if (s.path p).state = .engaged then some p else none
  | none => none

/-- R134, R135: a claim on the air moves to a new selection, at once where that has an ENGAGED carrying path, and by a
handover otherwise. -/
def moveTo (ch : ChannelIdx) (svc : ServiceIdx) (new : CarrierIdx) (s : State) : State :=
  match engagedCarrying s new with
  | some p => completeHandover ch svc new p s
  | none => changeClaim ch { s.claim ch with state := .handover, target := some new } s

/-- R133 to R135: a claim is told of its service's selection, which has changed. -/
def toldSelection (ch : ChannelIdx) (svc : ServiceIdx) (s : State) : State :=
  let c := s.claim ch
  let sel := (s.svc svc).selected
  match c.state with
  | .free => s
  | .waiting => if c.reason = some .standby then s else examine ch svc s
  | .acquiring | .recovering =>
    if sel = c.current then s
    else
      let s := match sel with
        | none => becomeWaiting ch svc s
        | some new =>
          match (s.car new).carrying with
          | some p => changeClaim ch (joined s svc new p) s
          | none => becomeWaiting ch svc s
      releaseUnneeded? c.current s
  | .carrying =>
    if sel = c.current then s
    else
      let s := match sel with
        | none => becomeWaiting ch svc s
        | some new => moveTo ch svc new s
      releaseUnneeded? c.current s
  | .handover =>
    if sel = c.target then s
    else
      let s := match sel with
        | none => becomeWaiting ch svc s
        | some new =>
          if c.current = some new then changeClaim ch { c with state := .carrying, target := none } s
          else moveTo ch svc new s
      releaseUnneeded? c.target (releaseUnneeded? c.current s)

/-- R71: a change of a record's selected carrier is counted, where a carrier is selected, and told to each claim on
the service. -/
def reportSelection (svc : ServiceIdx) (s : State) : State :=
  let s := match (s.svc svc).selected with
    | some c => countEvent .selectionChanged (some svc) (some c) s
    | none => s
  forChannels (fun ch s => if (s.claim ch).service = some svc then toldSelection ch svc s else s) s

/-- A WAITING claim, other than one with reason STANDBY, whose service selects a carrier. -/
def waitsFor (s : State) (c : ClaimRec) (x : CarrierIdx) : Bool :=
  decide (c.state = .waiting) && decide (c.reason ≠ some .standby)
    && (match c.service with
        | some svc => decide ((s.svc svc).selected = some x)
        | none => false)

/-- R128, R130, R136: the WAITING claims selecting a carrier are examined again. -/
def examineWaiting (x : CarrierIdx) (ch : ChannelIdx) (s : State) : State :=
  match (s.claim ch).service with
  | some svc => if waitsFor s (s.claim ch) x then examine ch svc s else s
  | none => s

/-- R127, R136: a HANDOVER claim to a carrier without a carrying path, whose eligibility has changed, raises or
withdraws its demand. -/
def handoverDemand (x : CarrierIdx) (ch : ChannelIdx) (s : State) : State :=
  if (s.claim ch).state = .handover ∧ (s.claim ch).target = some x ∧ (s.car x).carrying = none then raiseArb s else s

/-- R136: the Claim Table is told of a change of a carrier's eligibility. -/
def eligibilityToClaims (x : CarrierIdx) (s : State) : State :=
  forChannels (fun ch s => handoverDemand x ch (examineWaiting x ch s)) s

/-- R130: the Claim Table is told that the carrying path of a carrier has been set. -/
def carryingSetToClaims (x : CarrierIdx) (s : State) : State := forChannels (examineWaiting x) s

/-- R131: path p is engaged on a carrier, or has relocked. -/
def engagedToClaims (p : PathIdx) (x : CarrierIdx) (s : State) : State :=
  forChannels (fun ch s =>
    let c := s.claim ch
    match c.state, c.service with
    | .acquiring, _ | .recovering, _ =>
      if c.path = some p then changeClaim ch { c with state := .carrying } s else s
    | .handover, some svc =>
      if c.target = some x then releaseUnneeded? c.current (completeHandover ch svc x p s) else s
    | _, _ => s) s

/-- R115, R127: a HANDOVER claim that is demand for a carrier. -/
def handoverNeeds (s : State) (x : CarrierIdx) (ch : ChannelIdx) : Bool :=
  decide ((s.claim ch).state = .handover) && decide ((s.claim ch).target = some x) && isDemand s (s.claim ch)

/-- R115, R127: the demand of the HANDOVER claims for a carrier, as it stood in `before`, departs by the engagement on the
carrier that completes them (log 34). -/
def demandDeparts (x : CarrierIdx) (before s : State) : State :=
  if (List.finRange 32).any (handoverNeeds before x) then raiseArb s else s

/-- R132: the acquisition of a carrier by path p has failed. -/
def acquisitionFailedToClaims (p : PathIdx) (x : CarrierIdx) (s : State) : State :=
  forChannels (fun ch s =>
    let c := s.claim ch
    match c.state, c.service with
    | .acquiring, some svc => if c.path = some p then becomeWaiting ch svc s else s
    | .handover, _ => if c.target = some x ∧ isDemand s c = true then raiseArb s else s
    | _, _ => s) s

/-- R137: carry path p on a carrier has lost lock. -/
def lockLossToClaims (p : PathIdx) (x : CarrierIdx) (s : State) : State :=
  releaseUnneeded x (forChannels (fun ch s =>
    let c := s.claim ch
    if c.path = some p then
      match c.state, c.service, c.target with
      | .carrying, _, _ => changeClaim ch { c with state := .recovering } s
      | .handover, some svc, some b =>
        match (s.car b).carrying with
        | some q => changeClaim ch (joined s svc b q) s
        | none => becomeWaiting ch svc s
      | _, _, _ => s
    else s) s)

/-- R138: the relocks of path p are exhausted. The HANDOVER claims to its carrier stay as they are. -/
def exhaustedToClaims (p : PathIdx) (s : State) : State :=
  forChannels (fun ch s =>
    let c := s.claim ch
    match c.state, c.service with
    | .recovering, some svc => if c.path = some p then becomeWaiting ch svc s else s
    | _, _ => s) s

end Sys2Proof.Machine
end

