-- ==== Sys2Proof/Machine/Ranking.lean ====
section
/-! DEFINITION. The Ranking Engine: scores, rank order, evaluations, and what a change of a record tells the other
blocks (R54, R60 to R71). -/

namespace Sys2Proof.Machine

/-! ### Scores (R54) -/

/-- R54: one lane's term. -/
def laneTerm (lane weight : Word) : Nat := lane.toNat * weight.toNat / 65536

/-- R54: the score of a vector under the weights. -/
def scoreOf (g : Settings) (v : Lanes) : Nat :=
  laneTerm v.level g.level + laneTerm v.margin g.margin + laneTerm v.integrity g.integrity
    + laneTerm v.steadiness g.steadiness

/-! ### Rank order (R60) -/

/-- R60: by score from highest to lowest, then by the lower carrier index. -/
def ranksBefore (s : State) (a b : CarrierIdx) : Bool :=
  decide (score s b < score s a) || (decide (score s a = score s b) && decide (a < b))

/-- One carrier put into a ranked list. -/
def insertRanked (s : State) (a : CarrierIdx) : List CarrierIdx → List CarrierIdx
  | [] => [a]
  | b :: l => if ranksBefore s a b then a :: b :: l else b :: insertRanked s a l

/-- R60: the eligible candidates by score, then the others in the order they joined. -/
def rankOrder (s : State) (candidates : List CarrierIdx) : List CarrierIdx :=
  (candidates.filter (eligible s)).foldr (insertRanked s) [] ++ candidates.filter (fun c => !eligible s c)

/-- R60: the first eligible candidate in rank order. -/
def firstEligible (s : State) (candidates : List CarrierIdx) : Option CarrierIdx :=
  (rankOrder s candidates).find? (eligible s)

/-! ### Evaluations (R62 to R68) -/

/-- R68: the verdict on a selected carrier. -/
def verdict (s : State) (c : CarrierIdx) : SvcState :=
  if eligible s c ∧ s.rank.settings.floor ≤ score s c then .listed else .degraded

/-- A record that takes a carrier as its selection, its challenger cleared, with the verdict (R63, R64, R67, R69). -/
def withSelection (s : State) (r : ServiceRec) (c : CarrierIdx) : ServiceRec :=
  { r with selected := some c, challenger := none, state := verdict s c }

/-- A record that keeps its selection and takes the verdict (R62, R65, R66, R68). -/
def keptSelection (s : State) (r : ServiceRec) (c : CarrierIdx) (k : Option Challenger) : ServiceRec :=
  { r with challenger := k, state := verdict s c }

/-- R65: the best masked candidate, the first in rank order that beats the selection by more than the margin. -/
def bestMasked (s : State) (r : ServiceRec) (sel : CarrierIdx) : Option CarrierIdx :=
  (rankOrder s r.candidates).find? (fun c =>
    eligible s c && decide (c ≠ sel)
      && decide (score s sel + s.rank.settings.beatMargin.toNat < score s c))

/-- R65: the lead a best masked candidate has after one more win. -/
def nextLead (held : Option Challenger) (best : CarrierIdx) : Nat :=
  match held with
  | some k => if k.carrier = best then k.lead + 1 else 1
  | none => 1

/-- R65, R67: tracking by a burst-caused evaluation. -/
def trackedBurst (s : State) (r : ServiceRec) (sel : CarrierIdx) : ServiceRec :=
  match bestMasked s r sel with
  | none => keptSelection s r sel none
  | some b =>
    let lead := nextLead r.challenger b
    if s.rank.settings.persistence ≤ lead then withSelection s r b
    else keptSelection s r sel (some ⟨b, lead⟩)

/-- R66: tracking by an evaluation that is not burst-caused: a held challenger stays only while it is the best masked
candidate. -/
def trackedOther (s : State) (r : ServiceRec) (sel : CarrierIdx) : ServiceRec :=
  keptSelection s r sel (match r.challenger with
    | some k => if bestMasked s r sel = some k.carrier then some k else none
    | none => none)

/-- R62 to R66: what an evaluation makes of a record, by the first course that applies. -/
def evaluated (s : State) (burst : Bool) (r : ServiceRec) : ServiceRec :=
  match r.pin with
  | some c => keptSelection s { r with selected := some c } c none
  | none =>
    match r.selected with
    | none =>
      match firstEligible s r.candidates with
      | some c => withSelection s r c
      | none => r
    | some sel =>
      if eligible s sel then
        if burst then trackedBurst s r sel else trackedOther s r sel
      else
        match firstEligible s r.candidates with
        | some c => withSelection s r c
        | none => keptSelection s r sel none

/-! ### A change of a record and what it tells (R70, R71) -/

/-- R70: a record that has entered DEGRADED offers its candidates other than the selection, in rank order. -/
def offerOthers (r : ServiceRec) (s : State) : State :=
  ((rankOrder s r.candidates).filter (fun c => decide (r.selected ≠ some c))).foldl offer s

/-- One change to one record, then the report of a changed selection, then the offers of a record that entered
DEGRADED (R68, R69, R70, R71; the order of the last two: log 11). -/
def applyChange (i : ServiceIdx) (r' : ServiceRec) (s : State) : State :=
  let r := s.svc i
  let s := commit i r' s
  let s := if r.selected ≠ r'.selected then reportSelection i s else s
  if r.state ≠ .degraded ∧ r'.state = .degraded then offerOthers r' s else s

/-! ### Reports and outstanding evaluations (R61) -/

/-- R61: a report that names records is taken. -/
def pushReport (cause : EvalCause) (c : Option CarrierIdx) (services : List ServiceIdx) (s : State) : State :=
  if services = [] then s
  else { s with rank := { s.rank with evals := s.rank.evals ++ [⟨cause, c, services⟩] } }

/-- R61: whether an evaluation asked by a report is made of a record. -/
def EvalReport.appliesTo (q : EvalReport) (r : ServiceRec) : Bool :=
  r.state.live && decide (r.state ≠ .orphaned)
    && (match q.carrier with
        | some c => decide (c ∈ r.candidates)
        | none => true)

/-- R58 step 3, R61: one evaluation is made. SET RANKING clears the challenger first, in the same change. -/
def evaluate (q : EvalReport) (i : ServiceIdx) (s : State) : State :=
  let r := s.svc i
  if q.appliesTo r then
    match q.cause with
    | .burst => applyChange i (evaluated s true r) s
    | .eligibility | .merge => applyChange i (evaluated s false r) s
    | .setRanking => applyChange i (evaluated s false { r with challenger := none }) s
  else s

/-- R61: the reports left when the first record of the n-th has been taken. -/
def withoutFirst (n : Nat) (l : List EvalReport) : List EvalReport :=
  match l[n]? with
  | none => l
  | some q =>
    if q.services.length ≤ 1 then l.eraseIdx n
    else l.set n { q with services := q.services.drop 1 }

end Sys2Proof.Machine
end

