-- ==== Sys2Proof/Machine/Services.lean ====
section
/-! DEFINITION. The Service Table: allocation, candidate joins and departures, retirement and orphan aging (R10, R11,
R13, R15, R16, R18). -/

namespace Sys2Proof.Machine

/-- A count that saturates. -/
def satSucc (limit n : Nat) : Nat := if n < limit then n + 1 else n

/-! ### Allocation (R13) -/

/-- R13 steps 1 to 3: a slot that becomes PROVISIONAL for a key, with no candidates, selection, pin or challenger, and
with its counts 0. -/
def ServiceRec.allocated (r : ServiceRec) (k : Key) (kind : Kind) (name : Option (List Byte)) : ServiceRec :=
  { r with state := .provisional, key := some k, kind := kind, name := name, candidates := [], selected := none,
           pin := none, challenger := none, claimCount := 0, orphanAge := 0, overflow := 0 }

/-- R13 step 3: of two RETIRED slots in index order, the one to reuse. -/
def olderTombstone (best : Option (ServiceIdx × ServiceRec)) (x : ServiceIdx × ServiceRec) :
    Option (ServiceIdx × ServiceRec) :=
  if x.2.state = .retired then
    match best with
    | none => some x
    | some b => if x.2.changeEpoch < b.2.changeEpoch then some x else best
  else best

/-- R13: the slot an allocation takes, with its record as it becomes. ENROL gives no kind and name, so a revival keeps
the tombstone's and a new record has kind UNKNOWN and an absent name. Absent where the table is full. -/
def allocation (s : State) (k : Key) : Option (ServiceIdx × ServiceRec) :=
  match firstIdx s.svcs.recs (fun r => decide (r.state = .retired) && decide (r.key = some k)) with
  | some i => some (i, (s.svc i).allocated k (s.svc i).kind (s.svc i).name)
  | none =>
    match firstIdx s.svcs.recs (fun r => decide (r.state = .free)) with
    | some i => some (i, (s.svc i).allocated k .unknown none)
    | none =>
      match (indexed s.svcs.recs).foldl olderTombstone none with
      | some (i, r) => some (i, r.allocated k .unknown none)
      | none => none

/-- R3, R39: the live record that holds a key. -/
def liveRecord (s : State) (k : Key) : Option ServiceIdx :=
  match keyMap s k with
  | some i => if (s.svc i).state.live then some i else none
  | none => none

/-! ### Joins and departures (R10, R11, R41) -/

/-- R10: a candidate joins a record that has room; an ORPHANED record becomes PROVISIONAL. -/
def withCandidate (r : ServiceRec) (c : CarrierIdx) : ServiceRec :=
  if r.state = .orphaned then
    { r with candidates := r.candidates ++ [c], state := .provisional, orphanAge := 0 }
  else { r with candidates := r.candidates ++ [c] }

/-- R11 steps 1 to 3: the carrier leaves the list, with a pin and a challenger that named it. -/
def withoutCandidate (r : ServiceRec) (c : CarrierIdx) : ServiceRec :=
  { r with
    candidates := without c r.candidates,
    pin := if r.pin = some c then none else r.pin,
    challenger := match r.challenger with
      | some k => if k.carrier = c then none else some k
      | none => none }

/-- R11 step 5: the last candidate of a LISTED or DEGRADED record has left. -/
def orphaned (r : ServiceRec) : ServiceRec :=
  { r with state := .orphaned, selected := none, pin := none, challenger := none, orphanAge := 0 }

/-- R69: the immediate reselection among the candidates that remain. -/
def reselected (s : State) (r : ServiceRec) : ServiceRec :=
  match firstEligible s r.candidates with
  | some c => withSelection s r c
  | none => { r with selected := none, challenger := none, state := .degraded }

/-- R11: what a departure makes of a record. -/
def departed (s : State) (r : ServiceRec) (c : CarrierIdx) : ServiceRec :=
  let r' := withoutCandidate r c
  match r.state with
  | .listed | .degraded =>
    if r'.candidates = [] then orphaned r'
    else if r.selected = some c then reselected s r'
    else r'
  | .free | .provisional | .orphaned | .retired => r'

/-- R41: a service is appended to a carrier's announced list. -/
def announce (c : CarrierIdx) (i : ServiceIdx) (s : State) : State :=
  s.modCar c (fun r => { r with announced := r.announced ++ [i] })

/-- R41: a service is removed from a carrier's announced list. -/
def unannounce (i : ServiceIdx) (s : State) (c : CarrierIdx) : State :=
  s.modCar c (fun r => { r with announced := without i r.announced })

/-- R11, R41: a carrier leaves a record's candidates. -/
def depart (c : CarrierIdx) (s : State) (i : ServiceIdx) : State :=
  let s := unannounce i s c
  if c ∈ (s.svc i).candidates then applyChange i (departed s (s.svc i) c) s else s

/-! ### Retirement and aging (R15, R16, R18) -/

/-- R16, R17: a record that becomes a tombstone. -/
def tombstone (r : ServiceRec) : ServiceRec :=
  { r with state := .retired, candidates := [], selected := none, pin := none, challenger := none, orphanAge := 0 }

/-- R16: the effect of RETIRE on a live record: every candidate leaves, and the service leaves their announced
lists. -/
def retireRecord (i : ServiceIdx) (s : State) : State :=
  let r := s.svc i
  applyChange i (tombstone r) (r.candidates.foldl (unannounce i) s)

/-- R18: a key is added at the tail of the suppression list, once. -/
def suppress (k : Key) (s : State) : State :=
  if k ∈ s.svcs.suppressed then s
  else { s with svcs := { s.svcs with suppressed := s.svcs.suppressed ++ [k] } }

/-- R15: one record at a pass end, aged where it is ORPHANED. -/
def ageOrphan (s : State) (i : ServiceIdx) : State :=
  let r := s.svc i
  let age := satSucc Config.orphanAgeMax r.orphanAge
  if r.state = .orphaned then
    if age = Config.orphanAgeMax ∧ r.claimCount = 0 then applyChange i (tombstone r) s
    else applyChange i { r with orphanAge := age } s
  else s

/-- R15: a pass end, each ORPHANED record as a change of its own. R15 takes them in turn and gives no order; the lowest
index comes first (log 27). -/
def passEnd (s : State) : State :=
  (idxWhere s.svcs.recs (fun r => decide (r.state = .orphaned))).foldl ageOrphan s

end Sys2Proof.Machine
end

