-- ==== Sys2Proof/Machine/Carriers.lean ====
section
/-! DEFINITION. The Carrier Table: what the outcomes of visits do to a carrier record (R24 to R28, R53, R54). -/

namespace Sys2Proof.Machine

/-- R24, R61, R136: a change of a carrier's eligibility that no burst result made is reported to the Ranking Engine
and to the Claim Table. -/
def reportEligibility (c : CarrierIdx) (s : State) : State :=
  eligibilityToClaims c (pushReport .eligibility (some c) (s.car c).announced s)

/-- R25: a lock outcome. -/
def lockOutcome (c : CarrierIdx) (s : State) : State :=
  let r := s.car c
  if r.state = .free then s
  else
    let was := eligible s c
    let s := s.setCar c { r with state := .live, failures := 0 }
    if eligible s c = was then s else reportEligibility c s

/-- R26: the state a failed visit leaves, by the state before and the failure count it reaches. -/
def failedState (st : CarState) (failures : Nat) : CarState :=
  match st with
  | .unvisited => .silent
  | .live => if failures < Config.failuresToLost then .live else .lost
  | .free => .free
  | .silent => .silent
  | .lost => .lost

/-- R26: a failed-visit outcome. -/
def failedVisit (c : CarrierIdx) (s : State) : State :=
  let r := s.car c
  if r.state = .free then s
  else
    let was := eligible s c
    let n := satSucc Config.failuresToLost r.failures
    let s := countEvent .visitFailed none (some c) (s.setCar c { r with state := failedState r.state n, failures := n })
    if eligible s c = was then s else reportEligibility c s

/-- R27: relock exhaustion sets the carrier LOST; the eligibility change is reported after the claims have been told
(R138). -/
def setLost (c : CarrierIdx) (s : State) : State :=
  if (s.car c).state = .free then s
  else s.modCar c (fun r => { r with state := .lost, failures := Config.failuresToLost })

/-! ### Burst results (R28, R53) -/

/-- R53: one lane smoothed, a quarter of the way for a full result, an eighth for a half one. -/
def smoothLane (full : Bool) (old new : Word) : Word :=
  if full then word ((3 * old.toNat + new.toNat) / 4) else word ((7 * old.toNat + new.toNat) / 8)

/-- R53: the vector after a result. -/
def smoothed (full : Bool) (old : Option Quality) (x : Lanes) : Lanes :=
  match old with
  | none => x
  | some q =>
    { level := smoothLane full q.lanes.level x.level, margin := smoothLane full q.lanes.margin x.margin,
      integrity := smoothLane full q.lanes.integrity x.integrity,
      steadiness := smoothLane full q.lanes.steadiness x.steadiness }

/-- R54: a vector with its score under the settings in effect. -/
def scored (g : Settings) (v : Lanes) : Quality := { lanes := v, score := scoreOf g v }

/-- R28, R53, R54, R61: a burst result is applied to a LIVE carrier. -/
def burstResult (c : CarrierIdx) (full : Bool) (x : Lanes) (s : State) : State :=
  let r := s.car c
  if r.state = .live then
    let was := eligible s c
    let s := s.setCar c { r with quality := some (scored s.rank.settings (smoothed full r.quality x)) }
    let s := pushReport .burst (some c) r.announced s
    if eligible s c = was then s else eligibilityToClaims c s
  else s

end Sys2Proof.Machine
end

