-- ==== Sys2Proof/Machine/Rosters.lean ====
section
/-! DEFINITION. Announcement sections, collections and the merge (R30, R31, R33, R34, R38 to R41). -/

namespace Sys2Proof.Machine

/-! ### Sections and collections -/

/-- R30: a section that is ignored and marks the collection. -/
def sectionMalformed (x : AnnSection) : Bool :=
  decide (Config.lastSectionMax < x.number) || decide (Config.lastSectionMax < x.last) || decide (x.last < x.number)
    || decide (Config.sectionEntriesMax < x.entries.length)
    || x.entries.any (fun e => decide (Config.nameMax < e.name.length))

/-- R30: a name character outside 20h to 7Eh is kept as 3Fh. -/
def keptChar (b : Byte) : Byte := if 0x20 ≤ b.toNat ∧ b.toNat ≤ 0x7E then b else 0x3F

/-- R30: a valid section as it is held. -/
def keptSection (x : AnnSection) : AnnSection :=
  { x with entries := x.entries.map (fun e => { e with name := e.name.map keptChar }) }

/-- R31: a valid section confirms the roster of a carrier. -/
def confirming (r : CarrierRec) (x : AnnSection) : Bool :=
  decide (r.rosterVersion = some x.version) && !r.stale

/-- The sections held, in section-number order (R34). -/
def insertSection (x : AnnSection) : List AnnSection → List AnnSection
  | [] => [x]
  | y :: ys => if x.number < y.number then x :: y :: ys else y :: insertSection x ys

/-- R31 step 2, R33: a collection that holds its first section, or restarts with it; the malformed mark is kept. -/
def Collection.start (k : Collection) (x : AnnSection) : Collection :=
  { version := some x.version, last := x.last, held := [keptSection x], malformed := k.malformed }

/-- R31 steps 4 to 6: a section of the collection version. -/
def Collection.add (k : Collection) (x : AnnSection) : Collection :=
  if x.last ≠ k.last then { k with malformed := true }
  else if k.held.any (fun y => decide (y.number = x.number)) then k
  else { k with held := insertSection (keptSection x) k.held }

/-- R31 steps 2 to 6, R33, R37: a section that does not confirm. -/
def Collection.take (k : Collection) (x : AnnSection) : Collection :=
  if k.version = some x.version then k.add x else k.start x

/-- R31: complete when every section number from 0 to the last is held. -/
def Collection.complete (k : Collection) : Bool :=
  k.version.isSome && (List.range (k.last + 1)).all (fun n => k.held.any (fun y => decide (y.number = n)))

/-! ### The merge -/

/-- R39: an entry of a roster with its key and its kind as recorded. -/
structure KeyedEntry where
  key : Key
  kind : Kind
  name : List Byte
  deriving DecidableEq, Repr

/-- R39: the entries of the held sections in order. -/
def keyedEntries (held : List AnnSection) : List KeyedEntry :=
  held.flatMap (fun x => x.entries.map (fun e => ⟨⟨x.network, e.service⟩, Kind.ofAnnounced e.kind, e.name⟩))

/-- R39 step 4, R41: a record joined to the carrier, with whatever else the entry brings, as one change. -/
def joinRecord (c : CarrierIdx) (i : ServiceIdx) (r : ServiceRec) (acc : State × List ServiceIdx) :
    State × List ServiceIdx :=
  (announce c i (applyChange i (withCandidate r c) acc.1), acc.2 ++ [i])

/-- R39: one entry is applied, which may be of a key that an earlier entry of the same roster has (`again`): such an
entry finds the record from the first and asks no second join. Where the first was skipped there is no record to find,
and the entry goes through the steps as the first did (log 32). The list gathers the services this merge joined to the
carrier. -/
def mergeEntry (c : CarrierIdx) (again : Bool) (acc : State × List ServiceIdx) (e : KeyedEntry) :
    State × List ServiceIdx :=
  let s := acc.1
  if e.key ∈ s.svcs.suppressed then acc
  else
    match liveRecord s e.key with
    | some i =>
      let r := { s.svc i with kind := e.kind, name := some e.name }
      if again ∨ c ∈ r.candidates then (applyChange i r s, acc.2)
      else if r.candidates.length < Config.maxCandidates then joinRecord c i r acc
      else (applyChange i { r with overflow := satSucc 255 r.overflow } s, acc.2)
    | none =>
      match allocation s e.key with
      | some (i, r) => joinRecord c i { r with kind := e.kind, name := some e.name } acc
      | none =>
        ({ s with svcs := { s.svcs with discoveryOverflow := satSucc 65535 s.svcs.discoveryOverflow } }, acc.2)

/-- R39: the entries of a roster in order, after entries with the keys `seen`. -/
def mergeEntries (c : CarrierIdx) : List Key → List KeyedEntry → State × List ServiceIdx → State × List ServiceIdx
  | _, [], acc => acc
  | seen, e :: es, acc => mergeEntries c (e.key :: seen) es (mergeEntry c (decide (e.key ∈ seen)) acc e)

/-- R38: the carrier's part at the beginning of a merge. -/
def mergeHead (c : CarrierIdx) (v : RosterVersion) (malformed : Bool) (s : State) : State :=
  let s := if (s.car c).rosterVersion ≠ some v then countEvent .rosterVersionChanged none (some c) s else s
  s.modCar c (fun r => { r with rosterVersion := some v, stale := false, malformed := malformed })

/-- R40: the services of the old announced list that no entry names lose the carrier, in the order of the list. -/
def mergeDepartures (c : CarrierIdx) (old : List ServiceIdx) (keys : List Key) (s : State) : State :=
  (old.filter (fun i => match (s.svc i).key with
    | some k => decide (k ∉ keys)
    | none => true)).foldl (depart c) s

/-- R40, R41: the announced list rebuilt, the services that hold a candidate on the carrier in roster order. -/
def mergeRebuild (c : CarrierIdx) (keys : List Key) (s : State) : State :=
  let l := ((keys.filterMap (keyMap s)).filter (fun i => decide (c ∈ (s.svc i).candidates))).eraseDups
  s.modCar c (fun r => { r with announced := l })

/-- R40: the evaluations asked at the end of a merge on an eligible carrier, in announced-list order. -/
def mergeEvaluations (c : CarrierIdx) (new : List ServiceIdx) (s : State) : State :=
  if eligible s c then
    pushReport .merge (some c) ((s.car c).announced.filter (fun i => decide (i ∈ new))) s
  else s

/-- R38 to R40: the merge of a complete roster, one step with the section that completes it (log 19). An outcome for a
FREE carrier is ignored (R44). -/
def merge (c : CarrierIdx) (k : Collection) (s : State) : State :=
  match k.version with
  | none => s
  | some v =>
    if (s.car c).state = .free then s
    else
      let old := (s.car c).announced
      let es := keyedEntries k.held
      let keys := es.map KeyedEntry.key
      let acc := mergeEntries c [] es (mergeHead c v k.malformed s, [])
      mergeEvaluations c acc.2 (mergeRebuild c keys (mergeDepartures c old keys acc.1))

end Sys2Proof.Machine
end

