-- ==== Sys2Proof/Machine/Arbiter.lean ====
section
/-! DEFINITION. The Path Arbiter: grants, conversions, resumptions, cuts, scan work and the sweep, and the rounds of
arbitration (R91, R105, R106, R113 to R120, R123). -/

namespace Sys2Proof.Machine

/-! ### Carrying paths and grants -/

/-- R29, R123, R130: the carrying path of a carrier is set; its queue entry is removed and the waiting claims join. -/
def setCarrying (c : CarrierIdx) (p : PathIdx) (s : State) : State :=
  carryingSetToClaims c (queueCarried c (s.modCar c (fun r => { r with carrying := some p })))

/-- R91: the path record at a grant. -/
def grantedPath (u : Use) (c : CarrierIdx) : PathRec :=
  { PathRec.powerOn with state := .awaitTune, use := some u, carrier := some c }

/-- R80, R81: the feed switch that the grant of a switchable carrier starts. -/
def switchFor (q : CarrierParams) (s : State) : State :=
  match feedAnswer s q, q.feed with
  | .switchable, some f => feedSwitch q.input f s
  | _, _ => s

/-- R79, R80, R81, R84, R91: a grant of a use and a carrier to an IDLE path. A switchable carrier starts a feed
switch. A grant of CARRY use sets the carrying path. -/
def grant (p : PathIdx) (u : Use) (c : CarrierIdx) (s : State) : State :=
  match (s.car c).params with
  | none => s
  | some q =>
    let s := joinWait q.input p (attach q.input p ((switchFor q s).setPath p (grantedPath u c)))
    if u = .carry then setCarrying c p s else s

/-- R117: a path in CARRY use is no outstanding cut. -/
def forgetCutsOfPath (p : PathIdx) (s : State) : State :=
  { s with arb := { s.arb with cuts := s.arb.cuts.filter (fun x => decide (x.2 ≠ p)) } }

/-- R117: a claim's outstanding cuts are forgotten. -/
def forgetCutsOfClaim (ch : ChannelIdx) (s : State) : State :=
  { s with arb := { s.arb with cuts := s.arb.cuts.filter (fun x => decide (x.1 ≠ ch)) } }

/-- R51, R105: the path record at a conversion. A burst and a collection under way are kept. -/
def convertedPath (r : PathRec) : PathRec :=
  { r with
    use := some .carry, cutPending := false, rosterTimer := none, listening := false,
    accum := { r.accum with burstDone := false },
    collection := if r.state = .engaged then some (r.collection.getD .empty) else r.collection }

/-- R95, R105: the scan visit of a path ends CONVERTED. With cut-pending set, the CUT row of R95 applies as well as its
CONVERTED row with R105; the model chooses CONVERTED, so nothing is put back into the visit queue (log 33). -/
def endConverted (p : PathIdx) (c : CarrierIdx) (s : State) : State :=
  match (s.path p).use with
  | some u => visitEndReport u c .converted s
  | none => s

/-- R105, R115: the conversion of a scan path to CARRY use on its carrier. That of an ENGAGED path completes the HANDOVER
claims to the carrier, so their demand departs. -/
def convert (p : PathIdx) (c : CarrierIdx) (s : State) : State :=
  let r := s.path p
  let t := setCarrying c p (forgetCutsOfPath p ((endConverted p c s).setPath p (convertedPath r)))
  if r.state = .engaged then engagedToClaims p c (demandDeparts c s t) else t

/-- R46, R106: the next moment of the sample grid after now. -/
def nextGrid (lockedAt now : Nat) : Nat :=
  lockedAt + Config.samplePeriod * ((now - lockedAt) / Config.samplePeriod + 1)

/-- R106, R115: the resumption of a path in DWELL. It completes the HANDOVER claims to the carrier, so their demand
departs. -/
def resume (p : PathIdx) (c : CarrierIdx) (s : State) : State :=
  let r := s.path p
  let t := s.setPath p { r with
    state := .engaged, use := some .carry, dwellEnd := none, accum := .empty, collection := some .empty,
    sampleDue := r.lockTime.map (fun t => nextGrid t s.now) }
  engagedToClaims p c (demandDeparts c s (setCarrying c p (forgetCutsOfPath p t)))

/-! ### Cuts (R117, R118) -/

/-- R117, R118: a path is cut on a claim's behalf and becomes one of its outstanding cuts; PREEMPTION is counted. -/
def cutFor (ch : ChannelIdx) (s : State) (p : PathIdx) : State :=
  let car := (s.path p).carrier
  let s := { s with arb := { s.arb with cuts := s.arb.cuts ++ [(ch, p)] } }
  cutPath p (countEvent .preemption none car s)

/-- Whether a claim has outstanding cuts. -/
def hasCuts (s : State) (ch : ChannelIdx) : Bool := s.arb.cuts.any (fun x => decide (x.1 = ch))

/-- R118: the scan path to cut, one not yet locked first. -/
def preemptable (s : State) : Option PathIdx :=
  match firstIdx s.paths (fun r => r.scan && (decide (r.state = .awaitTune) || decide (r.state = .tuning))) with
  | some p => some p
  | none => firstIdx s.paths (fun r => r.scan && decide (r.state = .engaged) && !r.cutPending)

/-- R118: one path is cut for a claim left without an IDLE path, unless it has an outstanding cut. -/
def preempt (ch : ChannelIdx) (s : State) : State :=
  if hasCuts s ch then s
  else match preemptable s with
    | some p => cutFor ch s p
    | none => s

/-- R117: the paths a feed-conflicted claim cuts on an input: none where a CARRY path is attached, else each scan path
at work with cut-pending clear. R117 gives their order no word; the lowest-numbered comes first (log 29). -/
def conflictCuts (s : State) (i : InputIdx) : List PathIdx :=
  let att := (s.inp i).attached
  if att.all (fun p => (s.path p).scan) then
    att.filter (fun p => (s.path p).state.working && !(s.path p).cutPending)
  else []

/-- R117: a feed-conflicted claim with no outstanding cuts cuts the scan paths that hold the feed, in the order of
`conflictCuts` (log 29). -/
def cutConflict (ch : ChannelIdx) (c : CarrierIdx) (s : State) : State :=
  if hasCuts s ch then s
  else match (s.car c).params with
    | some q => (conflictCuts s q.input).foldl (cutFor ch) s
    | none => s

/-! ### Claim items (R115, R116) -/

/-- R116: the Claim Table is told the reason of a WAITING claim that could not be served. -/
def tellReason (ch : ChannelIdx) (why : Reason) (s : State) : State :=
  let c := s.claim ch
  if c.state = .waiting then setClaim ch { c with reason := some why } s else s

/-- R116: a claim item, naming a carrier, is served by the first step that applies. -/
def serveItem (ch : ChannelIdx) (c : CarrierIdx) (s : State) : State :=
  match pathOn s c with
  | some p =>
    let r := s.path p
    if r.scan && r.state.working && !r.forgotten then
      if underLimit s then forgetCutsOfClaim ch (convert p c s) else tellReason ch .noPath s
    else if decide (r.state = .dwell) && r.lockHeld && !r.forgotten then
      if r.use = some .carry ∨ underLimit s then forgetCutsOfClaim ch (resume p c s) else tellReason ch .noPath s
    else tellReason ch .noPath s
  | none =>
    if underLimit s then
      match carrierAnswer s c with
      | .blocked => cutConflict ch c (tellReason ch .feedConflict s)
      | .agrees | .switchable =>
        match idlePath s with
        | some p => forgetCutsOfClaim ch (grant p .carry c s)
        | none => preempt ch (tellReason ch .noPath s)
    else tellReason ch .noPath s

/-- R115 item 1: the carrier a WAITING claim is demand for. -/
def acquisitionItem (s : State) (ch : ChannelIdx) : Option CarrierIdx :=
  let c := s.claim ch
  if c.state = .waiting then
    match c.service with
    | none => none
    | some svc =>
      match (s.svc svc).selected with
      | none => none
      | some x => if eligible s x && (s.car x).carrying.isNone then some x else none
  else none

/-- R115 item 2, R127: the carrier a HANDOVER claim is demand for. -/
def handoverItem (s : State) (ch : ChannelIdx) : Option CarrierIdx :=
  let c := s.claim ch
  if c.state = .handover then
    match c.target with
    | none => none
    | some x => if eligible s x && (s.car x).carrying.isNone then some x else none
  else none

/-- R115: the items of one kind, in order of output channel. -/
def serveItems (item : State → ChannelIdx → Option CarrierIdx) (s : State) : State :=
  forChannels (fun ch s =>
    match item s ch with
    | some c => serveItem ch c s
    | none => s) s

/-- R117: a claim that needs no path has no outstanding cuts (log 16). -/
def pruneCuts (s : State) : State :=
  { s with arb := { s.arb with
      cuts := s.arb.cuts.filter (fun x => (acquisitionItem s x.1).isSome || (handoverItem s x.1).isSome) } }

/-! ### Scan work (R119, R120) -/

/-- R119: a carrier grantable as scan work. -/
def grantable (s : State) (c : CarrierIdx) : Bool :=
  decide ((s.car c).state ≠ .free) && (s.car c).carrying.isNone && decide (carrierAnswer s c ≠ .blocked)
    && (pathOn s c).isNone

/-- R120: the carrier the sweep chooses, and whether the cursor passes index 191. -/
def sweepChoice (s : State) : Option (CarrierIdx × Bool) :=
  let l := List.finRange 192
  match l.find? (fun c => decide (s.plan.cursor ≤ c) && grantable s c) with
  | some c => some (c, decide (c.val = 191))
  | none =>
    match l.find? (fun c => decide (c < s.plan.cursor) && grantable s c) with
    | some c => some (c, true)
    | none => none

/-- R120: the cursor takes the index after the carrier found, 192 taken as 0, and a pass may end. -/
def sweepAdvance (c : CarrierIdx) (passes : Bool) (s : State) : State :=
  let s := { s with plan := { s.plan with cursor := c + 1 } }
  if passes then passEnd { s with plan := { s.plan with passCount := s.plan.passCount + 1 } } else s

/-- R119: a queue entry that a grant takes leaves the queue, and its carrier is under a queue visit. -/
def takeEntry (c : CarrierIdx) (s : State) : State :=
  let s := dropEntry c s
  { s with plan := { s.plan with underQueue := s.plan.underQueue ++ [c] } }

/-- R119: one IDLE path is offered to scan work: the first grantable queue entry, else the sweep. -/
def scanGrant (s : State) : Option State :=
  match idlePath s with
  | none => none
  | some p =>
    match s.plan.queue.find? (grantable s) with
    | some c => some (grant p .queue c (takeEntry c s))
    | none =>
      if s.plan.sweepEnabled then
        match sweepChoice s with
        | some (c, passes) => some (grant p .sweep c (sweepAdvance c passes s))
        | none => none
      else none

/-- R119: each IDLE path that remains, at most eight of them. -/
def scanGrants : Nat → State → State
  | 0, s => s
  | n + 1, s =>
    match scanGrant s with
    | some s' => scanGrants n s'
    | none => s

/-! ### Arbitration (R115) -/

/-- R115: the claim items of one arbitration, in order of priority. -/
def serveClaims (s : State) : State := serveItems handoverItem (serveItems acquisitionItem s)

/-- R115: one arbitration, in order of priority. Scan work is offered an IDLE path only when no claim item can be given
it: where serving the claims has itself brought an event of R115 about, such as an input unattached by a cut, the claims
are served afresh first (R124). -/
def arbitrateOnce (s : State) : State :=
  let t := serveClaims (pruneCuts s)
  pruneCuts (if t.arb.due then t else scanGrants 8 t)

/-- R110, R115: arbitration in ACTIVE, taken afresh while it has itself brought an event of R115 about (log 12). -/
def arbitrate : Nat → State → State
  | 0, s => { s with arb := { s.arb with due := false } }
  | n + 1, s =>
    if s.arb.due ∧ s.arb.mode = .active then
      arbitrate n (arbitrateOnce { s with arb := { s.arb with due := false } })
    else { s with arb := { s.arb with due := false } }

/-- The end of a step that can bring an event of R115 about: the arbitration its events call for, within a bound that
no step reaches (log 12). -/
def closeStep (s : State) : State := if s.arb.due then pruneCuts (arbitrate 64 s) else s

end Sys2Proof.Machine
end

