-- ==== Sys2Proof/Machine/Visits.lean ====
section
/-! DEFINITION. The events of paths and inputs: tune starts, settles, locks, lock timers, samples, sections, roster
timeouts, dwell ends and recovery ends (R31, R32, R35, R37, R46 to R51, R81, R85, R92 to R99, R103, R104, R112). -/

namespace Sys2Proof.Machine

/-! ### Tune starts and feed settles -/

/-- R85, R92: a path whose tune start has come, its demodulator handed the carrier's parameters. -/
def tuningPath (r : PathRec) (params : Option CarrierParams) (now : Nat) : PathRec :=
  { r with state := .tuning, lockTimer := some (now + Config.lockTimeout), demod := params }

/-- The parameters of the carrier of a path. -/
def pathParams (s : State) (p : PathIdx) : Option CarrierParams :=
  match (s.path p).carrier with
  | some c => (s.car c).params
  | none => none

/-- R83, R84: the head of the wait list is granted its tune start, which the history takes in. -/
def startedInput (r : InputRec) (now : Nat) : InputRec :=
  { r with waitList := r.waitList.drop 1, history := pushStart r.history now }

/-- R85, R92: Input Control grants the head of the wait list its tune start, at the first moment the budget allows
(log 3), and the path enters TUNING with its lock timer running. -/
def tuneStartEffect (i : InputIdx) (s : State) : State :=
  let r := s.inp i
  match r.waitList, r.feedState with
  | [], _ => s
  | _ :: _, .settling _ => s
  | x :: _, .steady =>
    let s := reach (budgetMoment r.history) s
    (s.setInp i (startedInput r s.now)).setPath x.path (tuningPath (s.path x.path) (pathParams s x.path) s.now)

/-- R81, R82: the settle of a feed switch ends. -/
def feedSettleEndEffect (i : InputIdx) (s : State) : State :=
  match (s.inp i).feedState with
  | .steady => s
  | .settling t => (reach t s).modInp i (fun r => { r with feedState := .steady })

/-! ### Lock and the lock timer -/

/-- R92: what every lock sets: ENGAGED, the lock time, an empty accumulator and collection, the sample grid. -/
def lockedPath (r : PathRec) (now : Nat) : PathRec :=
  { r with state := .engaged, lockTime := some now, lockHeld := true, accum := .empty, collection := some .empty,
           lockTimer := none, sampleDue := some (now + Config.samplePeriod), relocks := 0 }

/-- R92, R99: the demodulator of a TUNING path reports lock. In any other state the report is not taken. -/
def lockEffect (p : PathIdx) (s : State) : State :=
  let r := s.path p
  match r.state, r.carrier with
  | .tuning, some c =>
    if r.use = some .carry then
      engagedToClaims p c (lockOutcome c (s.setPath p (lockedPath r s.now)))
    else
      lockOutcome c (s.setPath p { lockedPath r s.now with
        listening := true, rosterTimer := some (s.now + Config.rosterTimeout) })
  | _, _ => s

/-- R98, R93: a carry path asks for a tune start for a relock attempt. -/
def askRelock (p : PathIdx) (attempt : Nat) (s : State) : State :=
  let r := s.path p
  let s := s.setPath p { r with state := .awaitTune, relocks := attempt }
  match r.carrier with
  | none => s
  | some c =>
    match (s.car c).params with
    | none => s
    | some q => joinWait q.input p s

/-- R27, R93, R138: the third relock attempt of a carry path has failed. -/
def relocksExhausted (p : PathIdx) (c : CarrierIdx) (s : State) : State :=
  let was := eligible s c
  let s := exhaustedToClaims p (releaseCarry p (setLost c s))
  if eligible s c = was then s else reportEligibility c s

/-- R93: the lock timer of a path in TUNING expires. -/
def lockTimerExpiryEffect (p : PathIdx) (s : State) : State :=
  let r := s.path p
  match r.state, r.lockTimer, r.carrier with
  | .tuning, some t, some c =>
    let s := stopTuning p (reach t s)
    if r.use = some .carry then
      if r.lockTime.isNone then
        leaveCarrier p (acquisitionFailedToClaims p c (failedVisit c (clearCarrying c s)))
      else if r.relocks < Config.relockAttempts then askRelock p (r.relocks + 1) s
      else relocksExhausted p c s
    else endScanVisit p .completed (failedVisit c s)
  | _, _, _ => s

/-! ### Samples and bursts -/

/-- R49: a sample gathered into the accumulator. -/
def Extremes.gather (o : Option Extremes) (x : Sample) : Extremes :=
  match o with
  | none => ⟨x.level, x.margin, x.margin, x.integrity⟩
  | some e =>
    ⟨if x.level < e.leastLevel then x.level else e.leastLevel,
     if x.margin < e.leastMargin then x.margin else e.leastMargin,
     if e.greatestMargin < x.margin then x.margin else e.greatestMargin,
     if x.integrity < e.leastIntegrity then x.integrity else e.leastIntegrity⟩

/-- R49: the result formed from the accumulator. -/
def Extremes.result (e : Extremes) : Lanes :=
  ⟨e.leastLevel, e.leastMargin, e.leastIntegrity, word (65535 - (e.greatestMargin.toNat - e.leastMargin.toNat))⟩

/-- R98: a carry path loses lock. -/
def carryLockLoss (p : PathIdx) (c : CarrierIdx) (s : State) : State :=
  let s := s.modPath p (fun r => { r with accum := .empty, collection := none, lockHeld := false, sampleDue := none })
  let s := countEvent .carryLockLoss none (some c) s
  lockLossToClaims p c (askRelock p 1 s)

/-- R47, R96: a scan path loses lock. -/
def scanLockLoss (p : PathIdx) (c : CarrierIdx) (s : State) : State :=
  let cut := (s.path p).cutPending
  let s := s.modPath p (fun r => { r with accum := .empty, collection := none, listening := false, lockHeld := false })
  endScanVisit p (if cut then .cut else .completed) (failedVisit c s)

/-- R94: the visit's work has ended when both its halves have. -/
def endWork (p : PathIdx) (s : State) : State :=
  let r := s.path p
  if r.accum.burstDone && !r.listening then endScanVisit p .completed s else s

/-- R49 to R51: a sample that held lock on a scan path. -/
def scanSample (p : PathIdx) (c : CarrierIdx) (x : Sample) (s : State) : State :=
  let r := s.path p
  if r.accum.burstDone then s
  else
    let n := r.accum.count + 1
    let e := Extremes.gather r.accum.extremes x
    let done := s.setPath p { r with accum := { count := 0, extremes := none, burstDone := true } }
    if n = Config.halfBurst ∧ r.cutPending then endScanVisit p .cut (burstResult c false e.result done)
    else if Config.burst ≤ n then endWork p (burstResult c true e.result done)
    else s.setPath p { r with accum := { count := n, extremes := some e, burstDone := false } }

/-- R49, R51, R97: a sample that held lock on a carry path, whose bursts run back to back. -/
def carrySample (p : PathIdx) (c : CarrierIdx) (x : Sample) (s : State) : State :=
  let r := s.path p
  let n := r.accum.count + 1
  let e := Extremes.gather r.accum.extremes x
  if Config.burst ≤ n then burstResult c true e.result (s.setPath p { r with accum := .empty })
  else s.setPath p { r with accum := { count := n, extremes := some e, burstDone := false } }

/-- R46: an ENGAGED path takes its sample, at the moment of its grid (log 3). A path in any other state takes none. -/
def sampleEffect (p : PathIdx) (x : Sample) (s : State) : State :=
  let r := s.path p
  match r.state, r.sampleDue, r.carrier with
  | .engaged, some t, some c =>
    let s := (reach t s).modPath p (fun r => { r with sampleDue := some (t + Config.samplePeriod) })
    if r.use = some .carry then
      if x.lockHeld then carrySample p c x s else carryLockLoss p c s
    else
      if x.lockHeld then scanSample p c x s else scanLockLoss p c s
  | _, _, _ => s

/-! ### Sections -/

/-- R32, R34, R35: the listening of a scan path ends and its collection is discarded. -/
def endListening (p : PathIdx) (s : State) : State :=
  s.modPath p (fun r => { r with listening := false, collection := none, rosterTimer := none })

/-- R31: a valid section reaches a listening scan path. -/
def scanSection (p : PathIdx) (c : CarrierIdx) (k : Collection) (x : AnnSection) (s : State) : State :=
  if k.version ≠ some x.version ∧ confirming (s.car c) x then
    endWork p ((endListening p s).modCar c (fun r => { r with malformed := k.malformed }))
  else
    let k' := k.take x
    if k'.complete then endWork p (merge c k' (endListening p s))
    else s.modPath p (fun r => { r with collection := some k' })

/-- R37: a valid section reaches an engaged carry path. -/
def carrySection (p : PathIdx) (c : CarrierIdx) (k : Collection) (x : AnnSection) (s : State) : State :=
  if confirming (s.car c) x then s.modPath p (fun r => { r with collection := some .empty })
  else
    let k' := k.take x
    if k'.complete then merge c k' (s.modPath p (fun r => { r with collection := some .empty }))
    else s.modPath p (fun r => { r with collection := some k' })

/-- R30, R31, R37: a section is delivered. A path that is not ENGAGED, or a scan path that is not listening, has no
collection and ignores it. -/
def sectionEffect (p : PathIdx) (x : AnnSection) (s : State) : State :=
  let r := s.path p
  match r.state, r.collection, r.carrier with
  | .engaged, some k, some c =>
    if sectionMalformed x then s.modPath p (fun r => { r with collection := some { k with malformed := true } })
    else if r.use = some .carry then carrySection p c k x s
    else scanSection p c k x s
  | _, _, _ => s

/-- R35: the roster timeout of a scan path still listening. -/
def rosterTimeoutEffect (p : PathIdx) (s : State) : State :=
  let r := s.path p
  match r.state, r.rosterTimer, r.carrier with
  | .engaged, some t, some c =>
    let mark := match r.collection with
      | some k => k.malformed
      | none => false
    endWork p ((endListening p (reach t s)).modCar c (fun r => { r with stale := true, malformed := mark }))
  | _, _, _ => s

/-! ### Dwell and recovery -/

/-- R103: the dwell of a path ends. -/
def dwellEndEffect (p : PathIdx) (s : State) : State :=
  match (s.path p).state, (s.path p).dwellEnd with
  | .dwell, some t => enterRecovery p (reach t s)
  | _, _ => s

/-- R112: STOPPING ends when the last path that was not IDLE enters IDLE, and the held STANDBY request completes. -/
def standbyComplete (s : State) : State :=
  if s.arb.mode = .stopping ∧ allIdle s then
    let s := { s with arb := { s.arb with mode := .standby } }
    match s.inExec with
    | some ⟨_, _, .standby⟩ => finish .done [] s
    | _ => s
  else s

/-- R104: the recovery of a path ends and it enters IDLE, an event of R115. -/
def recoveryEndEffect (p : PathIdx) (s : State) : State :=
  match (s.path p).state, (s.path p).recoveryEnd with
  | .recovery, some t =>
    let s := (reach t s).setPath p .powerOn
    standbyComplete (raiseArb (forgetCutsOfPath p s))
  | _, _ => s

/-! ### The meanings -/

/-- TUNE_START. -/
def execTuneStart (i : InputIdx) (s : State) : Host.Outcome State Fault Refusal :=
  .next (tuneStartEffect i s)

/-- FEED_SETTLE_END. -/
def execFeedSettleEnd (i : InputIdx) (s : State) : Host.Outcome State Fault Refusal :=
  .next (feedSettleEndEffect i s)

/-- LOCK. -/
def execLock (p : PathIdx) (s : State) : Host.Outcome State Fault Refusal := .next (closeStep (lockEffect p s))

/-- LOCK_TIMER_EXPIRY. -/
def execLockTimerExpiry (p : PathIdx) (s : State) : Host.Outcome State Fault Refusal :=
  .next (closeStep (lockTimerExpiryEffect p s))

/-- SAMPLE. -/
def execSample (p : PathIdx) (x : Sample) (s : State) : Host.Outcome State Fault Refusal :=
  .next (closeStep (sampleEffect p x s))

/-- ANNOUNCEMENT_SECTION. -/
def execAnnouncementSection (p : PathIdx) (x : AnnSection) (s : State) : Host.Outcome State Fault Refusal :=
  .next (closeStep (sectionEffect p x s))

/-- ROSTER_TIMEOUT. -/
def execRosterTimeout (p : PathIdx) (s : State) : Host.Outcome State Fault Refusal :=
  .next (closeStep (rosterTimeoutEffect p s))

/-- DWELL_END. -/
def execDwellEnd (p : PathIdx) (s : State) : Host.Outcome State Fault Refusal :=
  .next (closeStep (dwellEndEffect p s))

/-- RECOVERY_END. -/
def execRecoveryEnd (p : PathIdx) (s : State) : Host.Outcome State Fault Refusal :=
  .next (closeStep (recoveryEndEffect p s))

end Sys2Proof.Machine
end

