-- ==== Sys2Proof/Machine/Processor.lean ====
section
/-! DEFINITION. The Request Processor: the taking of the entry at the head of the request FIFO and the checks that
every request passes (R151, R152, R156, R159). -/

namespace Sys2Proof.Machine

/-- R151: the three conditions for taking an entry that stands at the head. -/
def mayTake (s : State) (e : ReqEntry) : Bool :=
  s.inExec.isNone && e.ended && decide (e.roomNeeded ≤ respFree s)

/-- R151: the entry at the head, where it may be taken now. -/
def takeable (s : State) : Option ReqEntry :=
  match s.port.reqFifo with
  | [] => none
  | e :: _ => if mayTake s e then some e else none

/-- R151: the head entry leaves the request FIFO. -/
def dropHead (s : State) : State := { s with port := { s.port with reqFifo := s.port.reqFifo.drop 1 } }

/-- The answer to the request in execution, written whole (R152). -/
def reply (e : ReqEntry) (c : Completion) (results : List Word) (s : State) : State := respond e.header c results s

/-- R156 steps 2 and 3, R159: what becomes of an entry of an assigned code before its own checks. -/
def checked (c : ReqCode) (run : ReqEntry → State → State) (e : ReqEntry) (s : State) : State :=
  if e.formOk c then
    match c.admission s.arb.mode with
    | .refusedMode => reply e .mode [] s
    | .doneNoEffect => reply e .done [] s
    | .taken => run e s
  else reply e .form [] s

/-- R151, R156: the entry at the head is taken if it is a request of this code that may be taken now. While it may not,
or while another entry stands there, the processor waits (log 5). -/
def takeRequest (c : ReqCode) (run : ReqEntry → State → State) (s : State) : State :=
  match takeable s with
  | some e => if e.broken = false ∧ e.code? = some c then checked c run e (dropHead s) else s
  | none => s

/-- R152: an entry marked broken is answered OVERRUN, whatever its code. -/
def takeBroken (s : State) : State :=
  match takeable s with
  | some e => if e.broken = true then reply e .overrun [] (dropHead s) else s
  | none => s

/-- R156 step 1: an entry of an unassigned code is refused UNKNOWN. -/
def takeUnknown (s : State) : State :=
  match takeable s with
  | some e => if e.broken = false ∧ e.code? = none then reply e .unknown [] (dropHead s) else s
  | none => s

/-- BROKEN_ENTRY. -/
def execBrokenEntry (s : State) : Host.Outcome State Fault Refusal := .next (takeBroken s)

/-- UNKNOWN_REQUEST. -/
def execUnknownRequest (s : State) : Host.Outcome State Fault Refusal := .next (takeUnknown s)

end Sys2Proof.Machine
end

