-- ==== Sys2Proof/Machine/ClaimRequests.lean ====
section
/-! DEFINITION. The requests about output channels and monitors: CLAIM, RELEASE CLAIM, CLAIM STATUS, CLAIM CHANGES,
SET MONITOR, READ MONITORS, ACK ALERT (R129, R139, R141, R173 to R176, R181). -/

namespace Sys2Proof.Machine

/-- R20: the claim count of a record is set. -/
def setClaimCount (i : ServiceIdx) (n : Nat) (s : State) : State := s.setSvc i { s.svc i with claimCount := n }

/-- R20, R129: the claim takes the service, the claim count is raised, and the claim is examined, in one change. -/
def claimEffects (ch : ChannelIdx) (i : ServiceIdx) (s : State) : State :=
  examine ch i (setClaimCount i ((s.svc i).claimCount + 1) s)

/-- R129, R173. -/
def runClaim (e : ReqEntry) (s : State) : State :=
  match toIdx 32 (e.arg 0), toIdx 512 (e.arg 1) with
  | some ch, some i =>
    if (s.claim ch).state ≠ .free then reply e .inUse [] s
    else if (s.svc i).state.live = false then reply e .absent [] s
    else
      let s := claimEffects ch i s
      reply e .done [word (s.claim ch).state.code, natWord ((s.claim ch).reason.map Reason.code)] s
  | _, _ => reply e .range [] s

/-- R20, R127, R139: the claim becomes FREE and the carriers it held are no longer needed unless another claim holds
them. -/
def releaseEffects (ch : ChannelIdx) (s : State) : State :=
  let c := s.claim ch
  match c.service with
  | none => s
  | some i =>
    let s := setClaimCount i ((s.svc i).claimCount - 1) s
    releaseUnneeded? c.target (releaseUnneeded? c.current (changeClaim ch .free s))

/-- R139, R173. -/
def runReleaseClaim (e : ReqEntry) (s : State) : State :=
  match toIdx 32 (e.arg 0) with
  | none => reply e .range [] s
  | some ch => reply e .done [] (releaseEffects ch s)

/-- R174: the carrying path of a claim's target carrier. -/
def targetPath (s : State) (c : ClaimRec) : Option PathIdx :=
  match c.target with
  | some x => (s.car x).carrying
  | none => none

/-- R174. -/
def runClaimStatus (e : ReqEntry) (s : State) : State :=
  match toIdx 32 (e.arg 0) with
  | none => reply e .range [] s
  | some ch => reply e .done (claimWords ch (s.claim ch) (targetPath s (s.claim ch))) s

/-- R141, R174: the changed-claims set is read and emptied in one change. -/
def runClaimChanges (e : ReqEntry) (s : State) : State :=
  reply e .done (s.claims.changed.map (fun ch => word ch.val)) { s with claims := { s.claims with changed := [] } }

/-- R175, R181. -/
def runSetMonitor (e : ReqEntry) (s : State) : State :=
  match toIdx 4 (e.arg 0), Event.ofSelect? (e.arg 1).toNat with
  | some m, some sel =>
    reply e .done [] (s.setMon m { select := sel, count := 0, threshold := e.arg 2, sample := none })
  | _, _ => reply e .range [] s

/-- R176. -/
def runReadMonitors (e : ReqEntry) (s : State) : State := reply e .done (s.mons.toList.flatMap monitorWords) s

/-- R175, R181. -/
def runAckAlert (e : ReqEntry) (s : State) : State :=
  match toIdx 4 (e.arg 0) with
  | none => reply e .range [] s
  | some m => reply e .done [] (s.setMon m { s.mon m with count := 0, sample := none })

/-- CLAIM. -/
def execClaim (s : State) : Host.Outcome State Fault Refusal := .next (closeStep (takeRequest .claim runClaim s))

/-- RELEASE CLAIM. -/
def execReleaseClaim (s : State) : Host.Outcome State Fault Refusal :=
  .next (closeStep (takeRequest .releaseClaim runReleaseClaim s))

/-- CLAIM STATUS. -/
def execClaimStatus (s : State) : Host.Outcome State Fault Refusal :=
  .next (takeRequest .claimStatus runClaimStatus s)

/-- CLAIM CHANGES. -/
def execClaimChanges (s : State) : Host.Outcome State Fault Refusal :=
  .next (takeRequest .claimChanges runClaimChanges s)

/-- SET MONITOR. -/
def execSetMonitor (s : State) : Host.Outcome State Fault Refusal :=
  .next (takeRequest .setMonitor runSetMonitor s)

/-- READ MONITORS. -/
def execReadMonitors (s : State) : Host.Outcome State Fault Refusal :=
  .next (takeRequest .readMonitors runReadMonitors s)

/-- ACK ALERT. -/
def execAckAlert (s : State) : Host.Outcome State Fault Refusal :=
  .next (takeRequest .ackAlert runAckAlert s)

end Sys2Proof.Machine
end

