-- ==== Sys2Proof/Machine/ControlRequests.lean ====
section
/-! DEFINITION. The requests that set how the part works, and SETTLE: ACTIVATE, STANDBY, SCAN CONTROL, SET RANKING,
SET PORT, SETTLE and the expiry of its timer (R58, R111, R112, R114, R140, R162, R163, R171, R172). -/

namespace Sys2Proof.Machine

/-- R112, R140, R162: taken in STANDBY. The mode becomes ACTIVE and the claims with reason STANDBY are examined. -/
def runActivate (e : ReqEntry) (s : State) : State :=
  let s := { s with arb := { s.arb with mode := .active } }
  let s := forChannels (fun ch s =>
    match (s.claim ch).service with
    | some svc => if (s.claim ch).reason = some .standby then examine ch svc s else s
    | none => s) s
  raiseArb (reply e .done [] s)

/-- R111 step 1, R140: a non-FREE claim becomes WAITING with reason STANDBY. -/
def standbyClaim (ch : ChannelIdx) (s : State) : State :=
  match (s.claim ch).service with
  | some svc => setClaim ch (.waiting svc .standby) s
  | none => s

/-- R111: the effects of the STANDBY request on the claims, the outstanding cuts and the paths. R111 gives the paths no
order; the lowest-numbered comes first (log 28). -/
def standbyEffects (s : State) : State :=
  let s := forChannels standbyClaim s
  let s := { s with arb := { s.arb with cuts := [] } }
  let s := (List.finRange 8).foldl (fun s p => abandonForStandby p s) s
  (List.finRange 8).foldl (fun s p => releaseCarry p s) s

/-- R111, R162: taken in ACTIVE. The request is held unless every path is IDLE. -/
def runStandby (e : ReqEntry) (s : State) : State :=
  if allIdle s then
    reply e .done [] (standbyEffects { s with arb := { s.arb with mode := .standby } })
  else
    { standbyEffects { s with arb := { s.arb with mode := .stopping } } with
      inExec := some ⟨e.header, false, .standby⟩ }

/-- R114: the reserve and the sweep-enabled flag take values. -/
def setScan (reserve : Nat) (sweep : Bool) (s : State) : State :=
  { s with arb := { s.arb with reserve := reserve }, plan := { s.plan with sweepEnabled := sweep } }

/-- R114, R163. -/
def runScanControl (e : ReqEntry) (s : State) : State :=
  let reserve := (e.arg 0).toNat
  let sweep := (e.arg 1).toNat
  if 2 < reserve ∨ 1 < sweep then reply e .range [] s
  else if 8 - reserve < carryCount s then reply e .inUse [] s
  else
    let wakes := decide (reserve < s.arb.reserve) || (decide (sweep = 1) && !s.plan.sweepEnabled)
    let s := reply e .done [] (setScan reserve (decide (sweep = 1)) s)
    if wakes then raiseArb s else s

/-- R163: the settings a SET RANKING names. -/
def settingsOf (e : ReqEntry) : Settings :=
  { level := e.arg 0, margin := e.arg 1, integrity := e.arg 2, steadiness := e.arg 3, beatMargin := e.arg 4,
    persistence := (e.arg 5).toNat, floor := fromTwo (e.arg 6) (e.arg 7) }

/-- R58 step 2: the score of a carrier that holds a vector, under the settings. -/
def rescored (g : Settings) (r : CarrierRec) : CarrierRec :=
  { r with quality := r.quality.map (fun q => scored g q.lanes) }

/-- R58 steps 1 to 3: the settings are replaced, the scores recomputed, and every live record asked to be evaluated. -/
def setRankingEffects (g : Settings) (s : State) : State :=
  let s := { s with rank := { s.rank with settings := g } }
  let s := { s with carriers := vmap (rescored g) s.carriers }
  pushReport .setRanking none (idxWhere s.svcs.recs (fun r => r.state.live)) s

/-- R57, R58, R163: SET RANKING stays in execution until its last service has been taken (log 8). -/
def runSetRanking (e : ReqEntry) (s : State) : State :=
  let g := settingsOf e
  if g.persistence = 0 ∨ 8 < g.persistence ∨ Config.scoreMax < g.floor then reply e .range [] s
  else
    let s := setRankingEffects g s
    if s.svcs.recs.toList.any (fun r => r.state.live) then
      { s with inExec := some ⟨e.header, false, .setRanking⟩ }
    else reply e .done (settingsWords g) s

/-- R150, R163. -/
def runSetPort (e : ReqEntry) (s : State) : State :=
  let level := (e.arg 0).toNat
  if level = 0 ∨ 64 < level then reply e .range [] s
  else reply e .done [] { s with port := { s.port with attentionLevel := level } }

/-- R171: the captured set, the carriers in the visit queue and those under a queue visit, each once. -/
def capturedSet (s : State) : List CarrierIdx :=
  s.plan.queue ++ s.plan.underQueue.filter (fun c => decide (c ∉ s.plan.queue))

/-- R171. -/
def runSettle (e : ReqEntry) (s : State) : State :=
  let t := (e.arg 0).toNat
  if t < 100 ∨ 60000 < t then reply e .range [] s
  else if capturedSet s = [] then reply e .done [0] s
  else { s with inExec := some ⟨e.header, false, .settle (capturedSet s) (s.now + t)⟩ }

/-- R172: the SETTLE timer expires while SETTLE is held. -/
def settleTimerExpiryEffect (s : State) : State :=
  match s.inExec with
  | some ⟨_, _, .settle captured t⟩ => finish .timeout [word captured.length] (reach t s)
  | _ => s

/-- R58 step 4, R163: SET RANKING completes when no evaluation of its own is outstanding. -/
def setRankingComplete (s : State) : State :=
  match s.inExec with
  | some ⟨_, _, .setRanking⟩ =>
    if s.rank.evals.any (fun q => decide (q.cause = .setRanking)) then s
    else finish .done (settingsWords s.rank.settings) s
  | _ => s

/-- R61: the next record of the n-th outstanding report is evaluated. It is not taken while an older report still names
that record, whose evaluation comes first (log 7). -/
def serviceEvaluationEffect (n : Nat) (s : State) : State :=
  match s.rank.evals[n]? with
  | none => s
  | some q =>
    match q.services with
    | [] => s
    | i :: _ =>
      if (s.rank.evals.take n).any (fun x => decide (i ∈ x.services)) then s
      else
        let s := { s with rank := { s.rank with evals := withoutFirst n s.rank.evals } }
        setRankingComplete (evaluate q i s)

/-! ### The meanings -/

/-- ACTIVATE. -/
def execActivate (s : State) : Host.Outcome State Fault Refusal := .next (closeStep (takeRequest .activate runActivate s))

/-- STANDBY. -/
def execStandby (s : State) : Host.Outcome State Fault Refusal := .next (closeStep (takeRequest .standby runStandby s))

/-- SCAN CONTROL. -/
def execScanControl (s : State) : Host.Outcome State Fault Refusal :=
  .next (closeStep (takeRequest .scanControl runScanControl s))

/-- SET RANKING. -/
def execSetRanking (s : State) : Host.Outcome State Fault Refusal :=
  .next (closeStep (takeRequest .setRanking runSetRanking s))

/-- SET PORT. -/
def execSetPort (s : State) : Host.Outcome State Fault Refusal := .next (takeRequest .setPort runSetPort s)

/-- SETTLE. -/
def execSettle (s : State) : Host.Outcome State Fault Refusal := .next (takeRequest .settle runSettle s)

/-- SETTLE_TIMER_EXPIRY. -/
def execSettleTimerExpiry (s : State) : Host.Outcome State Fault Refusal :=
  .next (settleTimerExpiryEffect s)

/-- SERVICE_EVALUATION. -/
def execServiceEvaluation (n : Nat) (s : State) : Host.Outcome State Fault Refusal :=
  .next (closeStep (serviceEvaluationEffect n s))

end Sys2Proof.Machine
end

