-- ==== Sys2Proof/Machine/Clock.lean ====
section
/-! DEFINITION. The part's own events: what it does of its accord while no command waits (log 2, log 6), and the
millisecond that passes when nothing is due (log 1). -/

namespace Sys2Proof.Machine

/-- A moment that has come. -/
def dueBy (now : Nat) (t : Option Nat) : Bool :=
  match t with
  | some x => decide (x ≤ now)
  | none => false

/-- R81: the settle of a feed has come to its end. -/
def settleDue (now : Nat) (r : InputRec) : Bool :=
  match r.feedState with
  | .settling t => decide (t ≤ now)
  | .steady => false

/-- R85: a tune start can be granted on an input now. -/
def tuneDue (now : Nat) (r : InputRec) : Bool :=
  decide (r.waitList ≠ []) && decide (r.feedState = .steady) && decide (budgetMoment r.history ≤ now)

/-- R171, R172: the timer of a held SETTLE has expired. -/
def settleTimerDue (s : State) : Bool :=
  match s.inExec with
  | some ⟨_, _, .settle _ t⟩ => decide (t ≤ s.now)
  | _ => false

/-- The taking command of a request code. -/
def ReqCode.command : ReqCode → Instr
  | .activate => .activate | .standby => .standby | .scanControl => .scanControl | .setRanking => .setRanking
  | .setPort => .setPort | .defineInput => .defineInput | .defineCarrier => .defineCarrier
  | .forgetCarrier => .forgetCarrier | .carrierInfo => .carrierInfo | .carrierServices => .carrierServices
  | .enrol => .enrol | .lookup => .lookup | .listServices => .listServices | .listChanged => .listChanged
  | .pin => .pin | .unpin => .unpin | .retire => .retire | .unsuppress => .unsuppress | .refresh => .refresh
  | .settle => .settle | .claim => .claim | .releaseClaim => .releaseClaim | .claimStatus => .claimStatus
  | .claimChanges => .claimChanges | .setMonitor => .setMonitor | .readMonitors => .readMonitors
  | .ackAlert => .ackAlert | .status => .status

/-- R151, R152, R156: the command that takes an entry. -/
def ReqEntry.command (e : ReqEntry) : Instr :=
  if e.broken then .brokenEntry
  else match e.code? with
    | some c => c.command
    | none => .unknownRequest

/-- The first of the part's timers whose moment has come, in the model's order (log 6). -/
def timerDue (s : State) : Option Instr :=
  ((firstIdx s.inputs (settleDue s.now)).map .feedSettleEnd).or <|
  ((firstIdx s.paths (fun r => dueBy s.now r.lockTimer)).map .lockTimerExpiry).or <|
  ((firstIdx s.paths (fun r => dueBy s.now r.rosterTimer)).map .rosterTimeout).or <|
  ((firstIdx s.paths (fun r => dueBy s.now r.dwellEnd)).map .dwellEnd).or <|
  ((firstIdx s.paths (fun r => dueBy s.now r.recoveryEnd)).map .recoveryEnd).or <|
  (if settleTimerDue s then some .settleTimerExpiry else none)

/-- R61: an outstanding evaluation, that of the oldest report. -/
def evaluationDue (s : State) : Option Instr :=
  if s.rank.evals = [] then none else some (.serviceEvaluation 0)

/-- R85: a tune start that the budget allows. -/
def tuneStartDue (s : State) : Option Instr := (firstIdx s.inputs (tuneDue s.now)).map .tuneStart

/-- R151: the taking of the entry at the head. -/
def takingDue (s : State) : Option Instr := (takeable s).map ReqEntry.command

/-- What the part does next of its own accord, at the present moment (log 6). -/
def nextOwn (s : State) : Option Instr :=
  (timerDue s).or <| (evaluationDue s).or <| (tuneStartDue s).or (takingDue s)

/-- One millisecond passes (log 1, log 2). -/
def tick (s : State) : State := { s with now := s.now + 1 }

end Sys2Proof.Machine
end

