-- ==== Sys2Proof/Machine/PortEvents.lean ====
section
/-! DEFINITION. The reset pin and the SPI port: frames, the storing of words, the port reset, and the shifting of
responses (R22, R144 to R149, R153, R155). -/

namespace Sys2Proof.Machine

/-! ### Power-on reset -/

/-- R22, R45, R56, R75, R89, R109, R125, R143, R155, R178. The select line is driven by the host and stays as it is
(R155); the clock and the queue of commands are the model's own (log 9). -/
def powerOnResetEffect (s : State) : State :=
  { State.reset with
    port := { State.reset.port with selectLow := s.port.selectLow }, now := s.now, pending := s.pending }

/-! ### What the data-out line presents (R148) -/

/-- R148: what is presented at the start of a word. -/
def presentNext (q : Port) : Presented := if q.respFifo = [] then .filler else .head

/-- R148: a word received completes the word presented beside it. A filler gives way to the next presentation; a
response word stays until it has been shifted (log 10). -/
def afterWord (q : Port) : Presented :=
  match q.out with
  | .head => .head
  | .filler => presentNext q
  | .nothing => .nothing

/-! ### Frames -/

/-- R145: the frame-in-progress record at a select fall. -/
def newFrame : Frame := { words := 0, first := none, second := none, partialBits := [], handling := .awaiting }

/-- R145, R148: a fall of the select line begins a frame. While the line is low already there is no fall. -/
def selectFallEffect (s : State) : State :=
  if s.port.selectLow then s
  else { s with port := { s.port with selectLow := true, frame := some newFrame, out := presentNext s.port } }

/-- R145: a complete word is counted in the frame record. -/
def Frame.got (f : Frame) (w : Word) (h : Handling) : Frame :=
  { f with
    words := f.words + 1,
    first := if f.words = 0 then some w else f.first,
    second := if f.words = 1 then some w else f.second,
    handling := h }

/-- R146: the entry a header makes, not yet ended. -/
def newEntry (w : Word) : ReqEntry :=
  { header := w, args := [], ended := false, overLong := false, partialMark := false, broken := false }

/-- The tail entry of the request FIFO changed: the entry of the frame under way (R146). -/
def changeTail (f : ReqEntry → ReqEntry) : List ReqEntry → List ReqEntry
  | [] => []
  | [e] => [f e]
  | e :: l => e :: changeTail f l

/-- R145, R149: a frame is dropped. -/
def dropFrame (s : State) : State :=
  countEvent .portOverrun none none { s with port := { s.port with dropped := satSucc 255 s.port.dropped } }

/-- R145: the port takes a complete word into the frame record. -/
def gotWord (f : Frame) (w : Word) (h : Handling) (s : State) : State :=
  { s with port := { s.port with frame := some (f.got w h), out := afterWord s.port } }

/-- R145: the first complete word of a frame. -/
def firstWordEffect (w : Word) (s : State) : State :=
  match s.port.frame with
  | none => s
  | some f =>
    if f.handling = .awaiting then
      if w = absentWord then gotWord f w .idle s
      else if reqWords s < Config.fifoWords then
        gotWord f w .storing { s with port := { s.port with reqFifo := s.port.reqFifo ++ [newEntry w] } }
      else dropFrame (gotWord f w .dropped s)
    else s

/-- R146: how many words of its frame the tail entry holds. -/
def tailWords (s : State) : Nat :=
  match s.port.reqFifo.getLast? with
  | some e => e.words
  | none => 0

/-- The frame's entry changed. -/
def modTail (f : ReqEntry → ReqEntry) (s : State) : State :=
  { s with port := { s.port with reqFifo := changeTail f s.port.reqFifo } }

/-- R146: a later complete word of a frame. -/
def argumentWordEffect (w : Word) (s : State) : State :=
  match s.port.frame with
  | none => s
  | some f =>
    match f.handling with
    | .awaiting => s
    | .idle => gotWord f w .idle s
    | .broken => gotWord f w .broken s
    | .dropped => gotWord f w .dropped s
    | .storing =>
      if tailWords s < Config.frameWords then
        if reqWords s < Config.fifoWords then
          gotWord f w .storing (modTail (fun e => { e with args := e.args ++ [w] }) s)
        else
          countEvent .portOverrun none none
            (gotWord f w .broken (modTail (fun e => { e with args := [], broken := true }) s))
      else gotWord f w .storing (modTail (fun e => { e with overLong := true }) s)

/-- R147: a frame of exactly two complete words, both 5AA5h, and no partial word. -/
def Frame.isPortReset (f : Frame) : Bool :=
  decide (f.words = 2) && decide (f.first = some portResetWord) && decide (f.second = some portResetWord)
    && f.partialBits.isEmpty

/-- R147, R153: the effects of a port reset. -/
def portReset (s : State) : State :=
  { s with
    port := { s.port with reqFifo := [], respFifo := [], dropped := 0 },
    inExec := s.inExec.map (fun x => { x with suppressed := true }) }

/-- R146: the entry of a frame that ends is marked ended, and partial where a partial word was received. -/
def endEntry (f : Frame) (e : ReqEntry) : ReqEntry :=
  { e with ended := true, partialMark := e.partialMark || (!e.broken && !f.partialBits.isEmpty) }

/-- R146, R147: what the end of a frame does. -/
def endFrame (f : Frame) (s : State) : State :=
  if f.isPortReset then portReset s
  else
    match f.handling with
    | .storing | .broken => modTail (endEntry f) s
    | .awaiting | .idle | .dropped => s

/-- R145, R146, R155: a rise of the select line, with the bits of a partial word. -/
def selectRiseEffect (bits : List Bool) (s : State) : State :=
  let s := match s.port.frame with
    | none => s
    | some f => endFrame { f with partialBits := bits } s
  { s with port := { s.port with selectLow := false, frame := none, out := .nothing } }

/-- R148: the sixteenth bit of a presented response word has been sampled, and the word leaves the FIFO. -/
def responseWordShiftedEffect (s : State) : State :=
  if s.port.out = .head then
    let q := { s.port with respFifo := s.port.respFifo.drop 1 }
    { s with port := { q with out := presentNext q } }
  else s

/-! ### The meanings -/

/-- POWER_ON_RESET. -/
def execPowerOnReset (s : State) : Host.Outcome State Fault Refusal := .next (powerOnResetEffect s)

/-- SELECT_FALL. -/
def execSelectFall (s : State) : Host.Outcome State Fault Refusal := .next (selectFallEffect s)

/-- FIRST_WORD. -/
def execFirstWord (w : Word) (s : State) : Host.Outcome State Fault Refusal := .next (firstWordEffect w s)

/-- ARGUMENT_WORD. -/
def execArgumentWord (w : Word) (s : State) : Host.Outcome State Fault Refusal :=
  .next (argumentWordEffect w s)

/-- SELECT_RISE. -/
def execSelectRise (bits : List Bool) (s : State) : Host.Outcome State Fault Refusal :=
  .next (selectRiseEffect bits s)

/-- RESPONSE_WORD_SHIFTED. -/
def execResponseWordShifted (s : State) : Host.Outcome State Fault Refusal :=
  .next (responseWordShiftedEffect s)

end Sys2Proof.Machine
end

