-- ==== Sys2Proof/Machine/ReadRequests.lean ====
section
/-! DEFINITION. The requests that report records: CARRIER INFO, CARRIER SERVICES, LOOKUP, LIST SERVICES, LIST CHANGED,
STATUS (R161, R164 to R167, R177). -/

namespace Sys2Proof.Machine

/-- R164. -/
def runCarrierInfo (e : ReqEntry) (s : State) : State :=
  match toIdx 192 (e.arg 0) with
  | none => reply e .range [] s
  | some c => reply e .done (carrierWords c (s.car c)) s

/-- R164: the members of an announced list from a position onward, up to 16, each with its record's generation. -/
def announcedWords (s : State) (l : List ServiceIdx) (start : Nat) : List Word :=
  ((l.drop start).take 16).flatMap (fun i => [word i.val, (s.svc i).generation])

/-- R164. -/
def runCarrierServices (e : ReqEntry) (s : State) : State :=
  let start := (e.arg 1).toNat
  match toIdx 192 (e.arg 0) with
  | none => reply e .range [] s
  | some c =>
    if 47 < start then reply e .range [] s
    else
      let l := (s.car c).announced
      reply e .done ([word l.length, word start] ++ announcedWords s l start) s

/-- R165, R184: one candidate entry of LOOKUP: index, score and eligibility. R24 has LOOKUP report the state of each
candidate too, but the layout of R184 has no word for it; the layout is followed (log 31). -/
def candidateWords (s : State) (c : CarrierIdx) : List Word :=
  word c.val :: scoreWords (s.car c).quality ++ [boolWord (eligible s c)]

/-- R165, R184: the four candidate entries in rank order, those missing sent absent. -/
def candidateEntries (s : State) (l : List CarrierIdx) : List Word :=
  let l := rankOrder s l
  (List.range 4).flatMap (fun k =>
    match l[k]? with
    | some c => candidateWords s c
    | none => List.replicate 4 absentWord)

/-- R165, R184: the 36 words of LOOKUP. -/
def lookupWords (s : State) (i : ServiceIdx) : List Word :=
  let r := s.svc i
  [word i.val, packed r.state.code r.kind.code, r.generation] ++ keyWords r.key ++ twoWords r.changeEpoch.toNat
    ++ nameWords r.name
    ++ [idxWord r.selected, idxWord r.pin, packed r.claimCount r.orphanAge, word r.overflow, challengerWord r.challenger]
    ++ candidateEntries s r.candidates

/-- R165. -/
def runLookup (e : ReqEntry) (s : State) : State :=
  match (e.arg 0).toNat with
  | 0 =>
    match toIdx 512 (e.arg 1) with
    | none => reply e .range [] s
    | some i => reply e .done (lookupWords s i) s
  | 1 =>
    match keyMap s ⟨e.arg 1, e.arg 2⟩ with
    | none => reply e .absent [] s
    | some i => reply e .done (lookupWords s i) s
  | _ => reply e .range [] s

/-- R166, R167: a page of up to ten matching records from a start index upward. R161 lets changes fall between the
looks of a page; here the request is one step, and none does (log 30). -/
def pageWords (s : State) (start : Nat) (p : ServiceRec → Bool) : List Word :=
  (((indexed s.svcs.recs).filter (fun x => decide (start ≤ x.1.val) && p x.2)).take 10).flatMap
    (fun x => listEntryWords x.1 x.2)

/-- R166: the records a state filter matches; with the filter absent, the live records. -/
def filterMatches (w : Word) : Option (ServiceRec → Bool) :=
  if w = absentWord then some (fun r => r.state.live)
  else
    match SvcState.ofFilter? w.toNat with
    | some st => some (fun r => decide (r.state = st))
    | none => none

/-- R166. -/
def runListServices (e : ReqEntry) (s : State) : State :=
  let start := (e.arg 0).toNat
  if 511 < start then reply e .range [] s
  else
    match filterMatches (e.arg 1) with
    | none => reply e .range [] s
    | some p => reply e .done (pageWords s start p) s

/-- R167. -/
def runListChanged (e : ReqEntry) (s : State) : State :=
  let epoch := fromTwo (e.arg 0) (e.arg 1)
  let start := (e.arg 2).toNat
  if 511 < start then reply e .range [] s
  else reply e .done (pageWords s start (fun r => decide (epoch < r.changeEpoch.toNat))) s

/-- R8, R177: a count of service records in a state. -/
def svcCount (s : State) (st : SvcState) : Word := word (countWhere s.svcs.recs (fun r => decide (r.state = st)))

/-- R177: a count of claims in a state. -/
def claimStateCount (s : State) (st : ClaimState) : Word :=
  word (countWhere s.claims.recs (fun c => decide (c.state = st)))

/-- R177: a count of paths in a state. -/
def pathCount (s : State) (st : PathState) : Word := word (countWhere s.paths (fun r => decide (r.state = st)))

/-- R177, R184: the 30 words of STATUS. -/
def statusWords (s : State) : List Word :=
  [word s.arb.mode.code, boolWord s.plan.sweepEnabled, word s.arb.reserve,
    svcCount s .free, svcCount s .provisional, svcCount s .listed, svcCount s .degraded, svcCount s .orphaned,
    svcCount s .retired,
    word (countWhere s.carriers (fun r => decide (r.state ≠ .free))),
    claimStateCount s .free, claimStateCount s .waiting, claimStateCount s .acquiring, claimStateCount s .carrying,
    claimStateCount s .handover, claimStateCount s .recovering,
    pathCount s .idle, pathCount s .awaitTune, pathCount s .tuning, pathCount s .engaged, pathCount s .dwell,
    pathCount s .recovery,
    word (carryCount s), word s.plan.queue.length, s.plan.passCount]
    ++ twoWords s.svcs.epoch.toNat
    ++ [word s.svcs.suppressed.length, word s.svcs.discoveryOverflow, word s.port.dropped]

/-- R149, R177: the counts are reported and the dropped-frame count set to 0, in one look. -/
def runStatus (e : ReqEntry) (s : State) : State :=
  reply e .done (statusWords s) { s with port := { s.port with dropped := 0 } }

/-- CARRIER INFO. -/
def execCarrierInfo (s : State) : Host.Outcome State Fault Refusal :=
  .next (takeRequest .carrierInfo runCarrierInfo s)

/-- CARRIER SERVICES. -/
def execCarrierServices (s : State) : Host.Outcome State Fault Refusal :=
  .next (takeRequest .carrierServices runCarrierServices s)

/-- LOOKUP. -/
def execLookup (s : State) : Host.Outcome State Fault Refusal := .next (takeRequest .lookup runLookup s)

/-- LIST SERVICES. -/
def execListServices (s : State) : Host.Outcome State Fault Refusal :=
  .next (takeRequest .listServices runListServices s)

/-- LIST CHANGED. -/
def execListChanged (s : State) : Host.Outcome State Fault Refusal :=
  .next (takeRequest .listChanged runListChanged s)

/-- STATUS. -/
def execStatus (s : State) : Host.Outcome State Fault Refusal := .next (takeRequest .status runStatus s)

end Sys2Proof.Machine
end

