-- ==== Sys2Proof/Machine/TableRequests.lean ====
section
/-! DEFINITION. The requests that change records of inputs, carriers, services and the visit queue: DEFINE INPUT,
DEFINE CARRIER, FORGET CARRIER, ENROL, PIN, UNPIN, RETIRE, UNSUPPRESS, REFRESH (R14, R16, R19, R42, R43, R72, R73, R78,
R121, R164, R168 to R170). -/

namespace Sys2Proof.Machine

/-! ### Inputs and carriers -/

/-- R78, R164. -/
def runDefineInput (e : ReqEntry) (s : State) : State :=
  match toIdx 6 (e.arg 0), InputKind.ofNat? (e.arg 1).toNat with
  | some i, some k =>
    if (s.inp i).kind ≠ k ∧ 0 < (s.inp i).carrierCount then reply e .inUse [] s
    else
      let s := s.modInp i (fun r => { r with kind := k })
      reply e .done (inputWords i (s.inp i)) s
  | _, _ => reply e .range [] s

/-- R23, R42: the ranges of a carrier's parameters for the kind of its input. -/
def paramsInRange (k : InputKind) (q : CarrierParams) : Bool :=
  match k with
  | .unused => false
  | .satellite =>
    q.feed.isSome && decide (950000 ≤ q.frequency) && decide (q.frequency ≤ 2150000)
      && decide (1000 ≤ q.rate) && decide (q.rate ≤ 45000) && decide (q.modClass ≤ 7)
  | .terrestrial =>
    q.feed.isNone && decide (45000 ≤ q.frequency) && decide (q.frequency ≤ 870000)
      && (decide (q.rate = 6) || decide (q.rate = 7) || decide (q.rate = 8)) && decide (q.modClass ≤ 7)
  | .cable =>
    q.feed.isNone && decide (45000 ≤ q.frequency) && decide (q.frequency ≤ 870000)
      && decide (1000 ≤ q.rate) && decide (q.rate ≤ 45000) && decide (q.modClass ≤ 7)

/-- R164, R183: the parameters a DEFINE CARRIER names, on an input in range. -/
def paramsOf (e : ReqEntry) (i : InputIdx) : CarrierParams :=
  { input := i,
    feed := if e.arg 1 = absentWord then none else some (Feed.ofNat (e.arg 1).toNat),
    frequency := fromTwo (e.arg 2) (e.arg 3), rate := (e.arg 4).toNat, modClass := (e.arg 5).toNat }

/-- R42: a carrier not FREE holds the same input, feed setting and frequency. -/
def alreadyDefined (s : State) (q : CarrierParams) : Bool :=
  s.carriers.toList.any (fun r => decide (r.state ≠ .free) && (match r.params with
    | some x => decide (x.input = q.input) && decide (x.feed = q.feed) && decide (x.frequency = q.frequency)
    | none => false))

/-- R42: the lowest-indexed FREE slot that no path names as its carrier. -/
def openSlot (s : State) : Option CarrierIdx :=
  (idxWhere s.carriers (fun r => decide (r.state = .free))).find? (fun c =>
    s.paths.toList.all (fun r => decide (r.carrier ≠ some c)))

/-- R42: a new carrier. -/
def newCarrier (q : CarrierParams) : CarrierRec := { CarrierRec.powerOn with state := .unvisited, params := some q }

/-- R42, R77, R164. -/
def runDefineCarrier (e : ReqEntry) (s : State) : State :=
  match toIdx 6 (e.arg 0) with
  | none => reply e .range [] s
  | some i =>
    let q := paramsOf e i
    if paramsInRange (s.inp i).kind q then
      if alreadyDefined s q then reply e .conflict [] s
      else
        match openSlot s with
        | none => reply e .full [] s
        | some c =>
          let s := (s.setCar c (newCarrier q)).modInp i (fun r => { r with carrierCount := r.carrierCount + 1 })
          raiseArb (reply e .done [word c.val] s)
    else reply e .range [] s

/-- R43 steps 1 to 4, R77: a carrier is forgotten. -/
def forgetEffects (c : CarrierIdx) (s : State) : State :=
  let s := (List.finRange 8).foldl (forgetOnPath c) s
  let s := dropEntry c s
  let s := (s.car c).announced.foldl (depart c) s
  let s := match (s.car c).params with
    | some q => s.modInp q.input (fun r => { r with carrierCount := r.carrierCount - 1 })
    | none => s
  s.setCar c .powerOn

/-- R43, R164. -/
def runForgetCarrier (e : ReqEntry) (s : State) : State :=
  match toIdx 192 (e.arg 0) with
  | none => reply e .range [] s
  | some c =>
    if (s.car c).state = .free then reply e .absent [] s
    else if needed s c then reply e .inUse [] s
    else reply e .done [] (forgetEffects c s)

/-! ### Service records -/

/-- The key two argument words name. -/
def keyOf (network service : Word) : Key := ⟨network, service⟩

/-- R14, R168. -/
def runEnrol (e : ReqEntry) (s : State) : State :=
  let k := keyOf (e.arg 0) (e.arg 1)
  if k ∈ s.svcs.suppressed then reply e .conflict [] s
  else
    match liveRecord s k with
    | some i => reply e .done [word i.val, (s.svc i).generation] s
    | none =>
      match allocation s k with
      | some (i, r) =>
        let s := applyChange i r s
        reply e .done [word i.val, (s.svc i).generation] s
      | none => reply e .full [] s

/-- R72: the record a PIN leaves: pin and selection at the carrier, the challenger cleared, the verdict given. -/
def pinned (s : State) (r : ServiceRec) (c : CarrierIdx) : ServiceRec := { withSelection s r c with pin := some c }

/-- R72, R169. -/
def runPin (e : ReqEntry) (s : State) : State :=
  match toIdx 512 (e.arg 0), toIdx 192 (e.arg 1) with
  | some i, some c =>
    let r := s.svc i
    if r.state = .free then reply e .absent [] s
    else if r.generation ≠ e.arg 2 then reply e .stale [] s
    else if c ∉ r.candidates then reply e .absent [] s
    else if eligible s c = false then reply e .conflict [] s
    else
      let s := if r.pin = some c then s else applyChange i (pinned s r c) s
      reply e .done [(s.svc i).generation] s
  | _, _ => reply e .range [] s

/-- R73, R169. -/
def runUnpin (e : ReqEntry) (s : State) : State :=
  match toIdx 512 (e.arg 0) with
  | none => reply e .range [] s
  | some i =>
    let r := s.svc i
    if r.state = .free then reply e .absent [] s
    else
      let s := if r.pin = none then s else applyChange i (evaluated s false { r with pin := none }) s
      reply e .done [(s.svc i).generation] s

/-- R16: the key a RETIRE with the suppress flag would add finds the list full. -/
def suppressionFull (s : State) (r : ServiceRec) : Bool :=
  match r.key with
  | some k => decide (k ∉ s.svcs.suppressed) && decide (Config.suppressionMax ≤ s.svcs.suppressed.length)
  | none => false

/-- R16, R18: the effects of a RETIRE that passes its checks. -/
def retireEffects (i : ServiceIdx) (suppressIt : Bool) (s : State) : State :=
  let r := s.svc i
  let s := if r.state.live then retireRecord i s else s
  match suppressIt, r.key with
  | true, some k => suppress k s
  | _, _ => s

/-- R16, R169. -/
def runRetire (e : ReqEntry) (s : State) : State :=
  let flag := (e.arg 2).toNat
  match toIdx 512 (e.arg 0) with
  | none => reply e .range [] s
  | some i =>
    let r := s.svc i
    if 1 < flag then reply e .range [] s
    else if r.state = .free then reply e .absent [] s
    else if r.generation ≠ e.arg 1 then reply e .stale [] s
    else if 0 < r.claimCount then reply e .inUse [] s
    else if flag = 1 ∧ suppressionFull s r then reply e .full [] s
    else
      let s := retireEffects i (decide (flag = 1)) s
      reply e .done [(s.svc i).generation] s

/-- R19, R168. -/
def runUnsuppress (e : ReqEntry) (s : State) : State :=
  let k := keyOf (e.arg 0) (e.arg 1)
  if k ∈ s.svcs.suppressed then
    reply e .done [] { s with svcs := { s.svcs with suppressed := without k s.svcs.suppressed } }
  else reply e .absent [] s

/-! ### REFRESH -/

/-- R121: the carriers of a REFRESH that are neither carried nor queued already. -/
def refreshable (s : State) (l : List CarrierIdx) : List CarrierIdx :=
  l.filter (fun c => (s.car c).carrying.isNone && decide (c ∉ s.plan.queue))

/-- R121, R170: carriers are added at the tail if they all fit, and none is added otherwise. -/
def refreshWith (e : ReqEntry) (l : List CarrierIdx) (s : State) : State :=
  let add := refreshable s l
  if s.plan.queue.length + add.length ≤ Config.visitQueueMax then
    let s := add.foldl (fun s c => joinQueue c s) s
    reply e .done [word s.plan.queue.length] s
  else reply e .full [] s

/-- R121, R170. -/
def runRefresh (e : ReqEntry) (s : State) : State :=
  match (e.arg 0).toNat with
  | 0 =>
    match toIdx 192 (e.arg 1) with
    | none => reply e .range [] s
    | some c => if (s.car c).state = .free then reply e .absent [] s else refreshWith e [c] s
  | 1 =>
    match toIdx 512 (e.arg 1) with
    | none => reply e .range [] s
    | some i =>
      if (s.svc i).state = .free then reply e .absent [] s
      else refreshWith e (rankOrder s (s.svc i).candidates) s
  | _ => reply e .range [] s

/-! ### The meanings -/

/-- DEFINE INPUT. -/
def execDefineInput (s : State) : Host.Outcome State Fault Refusal :=
  .next (takeRequest .defineInput runDefineInput s)

/-- DEFINE CARRIER. -/
def execDefineCarrier (s : State) : Host.Outcome State Fault Refusal :=
  .next (closeStep (takeRequest .defineCarrier runDefineCarrier s))

/-- FORGET CARRIER. -/
def execForgetCarrier (s : State) : Host.Outcome State Fault Refusal :=
  .next (closeStep (takeRequest .forgetCarrier runForgetCarrier s))

/-- ENROL. -/
def execEnrol (s : State) : Host.Outcome State Fault Refusal := .next (closeStep (takeRequest .enrol runEnrol s))

/-- PIN. -/
def execPin (s : State) : Host.Outcome State Fault Refusal := .next (closeStep (takeRequest .pin runPin s))

/-- UNPIN. -/
def execUnpin (s : State) : Host.Outcome State Fault Refusal := .next (closeStep (takeRequest .unpin runUnpin s))

/-- RETIRE. -/
def execRetire (s : State) : Host.Outcome State Fault Refusal := .next (closeStep (takeRequest .retire runRetire s))

/-- UNSUPPRESS. -/
def execUnsuppress (s : State) : Host.Outcome State Fault Refusal :=
  .next (takeRequest .unsuppress runUnsuppress s)

/-- REFRESH. -/
def execRefresh (s : State) : Host.Outcome State Fault Refusal := .next (closeStep (takeRequest .refresh runRefresh s))

end Sys2Proof.Machine
end

