-- ==== Sys2Proof/Machine/Dispatch.lean ====
section
/-! DEFINITION. Every command and its meaning, one arm each. -/

namespace Sys2Proof.Machine

def exec (i : Instr) (s : State) : Host.Outcome State Fault Refusal :=
  match i with
  | .powerOnReset => Sys2Proof.Machine.execPowerOnReset s
  | .selectFall => Sys2Proof.Machine.execSelectFall s
  | .firstWord w => Sys2Proof.Machine.execFirstWord w s
  | .argumentWord w => Sys2Proof.Machine.execArgumentWord w s
  | .selectRise partialBits => Sys2Proof.Machine.execSelectRise partialBits s
  | .responseWordShifted => Sys2Proof.Machine.execResponseWordShifted s
  | .brokenEntry => Sys2Proof.Machine.execBrokenEntry s
  | .unknownRequest => Sys2Proof.Machine.execUnknownRequest s
  | .activate => Sys2Proof.Machine.execActivate s
  | .standby => Sys2Proof.Machine.execStandby s
  | .scanControl => Sys2Proof.Machine.execScanControl s
  | .setRanking => Sys2Proof.Machine.execSetRanking s
  | .setPort => Sys2Proof.Machine.execSetPort s
  | .defineInput => Sys2Proof.Machine.execDefineInput s
  | .defineCarrier => Sys2Proof.Machine.execDefineCarrier s
  | .forgetCarrier => Sys2Proof.Machine.execForgetCarrier s
  | .carrierInfo => Sys2Proof.Machine.execCarrierInfo s
  | .carrierServices => Sys2Proof.Machine.execCarrierServices s
  | .enrol => Sys2Proof.Machine.execEnrol s
  | .lookup => Sys2Proof.Machine.execLookup s
  | .listServices => Sys2Proof.Machine.execListServices s
  | .listChanged => Sys2Proof.Machine.execListChanged s
  | .pin => Sys2Proof.Machine.execPin s
  | .unpin => Sys2Proof.Machine.execUnpin s
  | .retire => Sys2Proof.Machine.execRetire s
  | .unsuppress => Sys2Proof.Machine.execUnsuppress s
  | .refresh => Sys2Proof.Machine.execRefresh s
  | .settle => Sys2Proof.Machine.execSettle s
  | .settleTimerExpiry => Sys2Proof.Machine.execSettleTimerExpiry s
  | .claim => Sys2Proof.Machine.execClaim s
  | .releaseClaim => Sys2Proof.Machine.execReleaseClaim s
  | .claimStatus => Sys2Proof.Machine.execClaimStatus s
  | .claimChanges => Sys2Proof.Machine.execClaimChanges s
  | .setMonitor => Sys2Proof.Machine.execSetMonitor s
  | .readMonitors => Sys2Proof.Machine.execReadMonitors s
  | .ackAlert => Sys2Proof.Machine.execAckAlert s
  | .status => Sys2Proof.Machine.execStatus s
  | .tuneStart inp => Sys2Proof.Machine.execTuneStart inp s
  | .feedSettleEnd inp => Sys2Proof.Machine.execFeedSettleEnd inp s
  | .lock p => Sys2Proof.Machine.execLock p s
  | .lockTimerExpiry p => Sys2Proof.Machine.execLockTimerExpiry p s
  | .sample p x => Sys2Proof.Machine.execSample p x s
  | .announcementSection p x => Sys2Proof.Machine.execAnnouncementSection p x s
  | .rosterTimeout p => Sys2Proof.Machine.execRosterTimeout p s
  | .serviceEvaluation report => Sys2Proof.Machine.execServiceEvaluation report s
  | .dwellEnd p => Sys2Proof.Machine.execDwellEnd p s
  | .recoveryEnd p => Sys2Proof.Machine.execRecoveryEnd p s

end Sys2Proof.Machine
end

