-- ==== Sys2Proof/Machine/Step.lean ====
section
/-! DEFINITION. One step of the block: the command at the front of the queue, or, on an empty queue, what the part does
of its own accord. -/

namespace Sys2Proof.Machine

/-- The command at the front of the queue is executed on the state with the queue's rest. On an empty queue the part
takes its own next event, or a millisecond passes (log 2). -/
def step (s : State) : Host.Outcome State Fault Refusal :=
  match s.pending with
  | c :: rest => exec c { s with pending := rest }
  | [] =>
    match nextOwn s with
    | some c => exec c s
    | none => .next (tick s)

/-- The command a table word spells, put at the front of the queue; no row has bits, so no word spells one. -/
def State.withFetchWord (s : State) (nbits w : Nat) : State :=
  match decodeTableWord nbits w with
  | some c => { s with pending := c :: s.pending }
  | none => s

end Sys2Proof.Machine
end

