-- ==== Sys2Proof/Safety.lean ====
section
/-! DEFINITION. What a sound state of the part is: the laws that the spec states of its tables, each as a property of
one state. No step stops the part (there is no fault and no refusal), so these laws are what there is to be safe. -/

namespace Sys2Proof.Machine

/-! ### Service records (R2 to R5, R7, R18) -/

/-- R2: which fields a record holds in its state. -/
def ServiceRec.fieldsOfState (r : ServiceRec) : Prop :=
  match r.state with
  | .free =>
    r.key = none ∧ r.candidates = [] ∧ r.selected = none ∧ r.pin = none ∧ r.challenger = none ∧ r.claimCount = 0
      ∧ r.orphanAge = 0 ∧ r.kind = .unknown ∧ r.name = none ∧ r.overflow = 0
  | .provisional =>
    r.key ≠ none ∧ r.selected = none ∧ r.pin = none ∧ r.challenger = none ∧ r.orphanAge = 0
  | .listed => r.key ≠ none ∧ r.candidates ≠ [] ∧ r.selected ≠ none ∧ r.orphanAge = 0
  | .degraded => r.key ≠ none ∧ r.candidates ≠ [] ∧ r.orphanAge = 0
  | .orphaned =>
    r.key ≠ none ∧ r.candidates = [] ∧ r.selected = none ∧ r.pin = none ∧ r.challenger = none ∧ r.orphanAge ≤ 3
  | .retired =>
    r.key ≠ none ∧ r.candidates = [] ∧ r.selected = none ∧ r.pin = none ∧ r.challenger = none ∧ r.claimCount = 0
      ∧ r.orphanAge = 0

/-- R4, R5: at most four candidates, none twice; the selection is one of them; a pin is the selection; a challenger is
a candidate other than the selection, with a lead of at least 1. -/
def ServiceRec.choicesOk (r : ServiceRec) : Prop :=
  r.candidates.length ≤ 4 ∧ r.candidates.Nodup
    ∧ (∀ c, r.selected = some c → c ∈ r.candidates)
    ∧ (∀ c, r.pin = some c → r.selected = some c)
    ∧ (∀ k, r.challenger = some k →
        k.carrier ∈ r.candidates ∧ r.selected ≠ none ∧ r.selected ≠ some k.carrier ∧ 1 ≤ k.lead)

/-- R2, R4, R5: a service record as it may stand. -/
def ServiceRec.shaped (r : ServiceRec) : Prop := r.choicesOk ∧ r.fieldsOfState

/-- R2, R4, R5: every service record is as it may stand. -/
def ServicesShaped (s : State) : Prop := ∀ i : ServiceIdx, (s.svc i).shaped

/-- R7: no record's change epoch exceeds the table epoch. -/
def EpochsBounded (s : State) : Prop := ∀ i : ServiceIdx, (s.svc i).changeEpoch ≤ s.svcs.epoch

/-- R18: the suppression list holds at most 64 keys, none twice. -/
def SuppressionBounded (s : State) : Prop := s.svcs.suppressed.length ≤ 64 ∧ s.svcs.suppressed.Nodup

/-- R3: no two records in a state other than FREE hold one key. -/
def KeysDistinct (s : State) : Prop :=
  ∀ (i j : ServiceIdx) (k : Key), (s.svc i).state ≠ .free → (s.svc j).state ≠ .free →
    (s.svc i).key = some k → (s.svc j).key = some k → i = j

/-- R18: no suppressed key is held by a live record. -/
def NoneSuppressedLive (s : State) : Prop :=
  ∀ (i : ServiceIdx) (k : Key), (s.svc i).state.live = true → (s.svc i).key = some k → k ∉ s.svcs.suppressed

/-! ### Claims (R20, R126, R141) -/

/-- R126: which fields a claim holds in its state. -/
def ClaimRec.shaped (c : ClaimRec) : Prop :=
  match c.state with
  | .free => c.reason = none ∧ c.service = none ∧ c.current = none ∧ c.target = none ∧ c.path = none
  | .waiting => c.reason ≠ none ∧ c.service ≠ none ∧ c.current = none ∧ c.target = none ∧ c.path = none
  | .acquiring | .carrying | .recovering =>
    c.reason = none ∧ c.service ≠ none ∧ c.current ≠ none ∧ c.target = none ∧ c.path ≠ none
  | .handover => c.reason = none ∧ c.service ≠ none ∧ c.current ≠ none ∧ c.target ≠ none ∧ c.path ≠ none

/-- R126: every claim is as its state requires. -/
def ClaimsShaped (s : State) : Prop := ∀ ch : ChannelIdx, (s.claim ch).shaped

/-- R20: how many claims name a service. -/
def claimsOn (s : State) (i : ServiceIdx) : Nat :=
  (List.finRange 32).countP (fun ch => decide ((s.claim ch).service = some i))

/-- R20: every record's claim count is the number of claims that name it. -/
def ClaimsCounted (s : State) : Prop := ∀ i : ServiceIdx, (s.svc i).claimCount = claimsOn s i

/-- R141: the changed-claims set holds no channel twice and stands in order from lowest. -/
def ChangedInOrder (s : State) : Prop := s.claims.changed.Pairwise (fun a b => a < b)

/-! ### Paths, inputs and the visit queue (R79, R83, R84, R113, R114, R121) -/

/-- R113, R114: the scan reserve is at most 2, and the paths in CARRY use are at most eight minus the reserve. -/
def CarryWithinReserve (s : State) : Prop := s.arb.reserve ≤ 2 ∧ carryCount s ≤ 8 - s.arb.reserve

/-- R83: a tune-start history holds at most four times, oldest first, no two less than 4 ms apart, none later than the
present. -/
def historyOk (now : Nat) (h : List Nat) : Prop :=
  h.length ≤ 4 ∧ h.Pairwise (fun a b => a + 4 ≤ b) ∧ ∀ t ∈ h, t ≤ now

/-- R83: every input's tune-start history. -/
def BudgetsKept (s : State) : Prop := ∀ i : InputIdx, historyOk s.now (s.inp i).history

/-- R79: the paths attached to an input are a set: no path stands twice in the list, which is in order from lowest. -/
def AttachedInOrder (s : State) : Prop := ∀ i : InputIdx, (s.inp i).attached.Pairwise (fun a b => a < b)

/-- R84: grant order, by time of request, and then by path number. -/
def Waiter.noLater (a b : Waiter) : Prop := a.since < b.since ∨ a.since = b.since ∧ a.path ≤ b.path

/-- R84: every wait list stands in grant order. -/
def WaitersInOrder (s : State) : Prop := ∀ i : InputIdx, (s.inp i).waitList.Pairwise Waiter.noLater

/-- R121: the visit queue holds at most 16 carriers. -/
def QueueBounded (s : State) : Prop := s.plan.queue.length ≤ 16

/-- R121: the visit queue holds no carrier twice. -/
def QueueDistinct (s : State) : Prop := s.plan.queue.Nodup

/-! ### The port (R145, R146, R148, R150, R151) -/

/-- R160: the words that the request in execution may still write. -/
def roomHeld (o : Option Execution) : Nat :=
  match o with
  | none => 0
  | some x => match x.heldFor with
    | .standby => 2
    | .settle _ _ => 3
    | .setRanking => 10

/-- R148, R151: the response FIFO holds at most 64 words, the response of the request in execution included. -/
def ResponsesFit (s : State) : Prop := s.port.respFifo.length + roomHeld s.inExec ≤ 64

/-- R145, R146: the request FIFO holds at most 64 words, in entries of at most 16. -/
def RequestsFit (s : State) : Prop := reqWords s ≤ 64 ∧ ∀ e ∈ s.port.reqFifo, e.words ≤ 16

/-- R150: the attention level lies in 1 to 64. -/
def AttentionInRange (s : State) : Prop := 1 ≤ s.port.attentionLevel ∧ s.port.attentionLevel ≤ 64

/-! ### Which commands change what -/

/-- The commands that may move the clock (log 3). -/
def timed (c : Instr) : Bool :=
  match c with
  | .settleTimerExpiry | .tuneStart _ | .feedSettleEnd _ | .lockTimerExpiry _ | .sample _ _ | .rosterTimeout _
  | .dwellEnd _ | .recoveryEnd _ => true
  | _ => false

/-- The commands that may change a service record that is not ORPHANED (an ORPHANED one may age at any arbitration,
R15). -/
def changesRecords (c : Instr) : Bool :=
  match c with
  | .powerOnReset | .forgetCarrier | .enrol | .pin | .unpin | .retire | .claim | .releaseClaim
  | .announcementSection _ _ | .serviceEvaluation _ => true
  | _ => false

/-- The commands that may change a carrier record otherwise than in its carrying path. -/
def changesCarriers (c : Instr) : Bool :=
  match c with
  | .powerOnReset | .setRanking | .defineCarrier | .forgetCarrier | .retire | .lock _ | .lockTimerExpiry _
  | .sample _ _ | .announcementSection _ _ | .rosterTimeout _ => true
  | _ => false

end Sys2Proof.Machine
end

