-- ==== Sys2Proof/Certificates/Slice0/Obligations.lean ====
section
/-! DEFINITION. The statements about the part, for the provers. -/

namespace Sys2Proof.Machine

/-! ### Words the statements share -/

/-- R151, R156, R157: the entry `e` of request code `c` stands at the head of the request FIFO, the Request Processor
takes it now, and it passes the first two checks. Between steps no arbitration is due (log 12). -/
abbrev Taken (c : ReqCode) (e : ReqEntry) (s : State) : Prop :=
  s.port.reqFifo.head? = some e ∧ s.inExec = none ∧ e.ended = true ∧ e.broken = false ∧ e.code? = some c
    ∧ s.port.respFifo.length + c.largest ≤ 64 ∧ e.formOk c = true ∧ s.arb.due = false

/-- R151, R152, R184: the port once the head entry has been taken and its response written whole at the tail of the
response FIFO: the header with the completion code, the count of result words, and the result words. -/
abbrev answeredPort (e : ReqEntry) (k : Completion) (results : List Word) (s : State) : Port :=
  { s.port with
    reqFifo := s.port.reqFifo.drop 1,
    respFifo := s.port.respFifo ++ ([responseHeader e.header k, word results.length] ++ results) }

/-- The state in which the head entry has been taken and answered and nothing else has changed. -/
abbrev answered (e : ReqEntry) (k : Completion) (results : List Word) (s : State) : State :=
  { s with port := answeredPort e k results s }

/-- R156: the request is refused with a completion code, and nothing else changes. -/
abbrev Refuses (i : Instr) (e : ReqEntry) (k : Completion) (s : State) : Prop :=
  exec i s = .next (answered e k [] s)

/-- Every part of the state but the service records and their table, the claims, the monitors, the visit queue and the
paths is as it was: what a change of one service record can leave (R70, R71). -/
abbrev OnlyRecord (i : ServiceIdx) (s u : State) : Prop :=
  (∀ j, j ≠ i → u.svc j = s.svc j) ∧ u.rank = s.rank ∧ u.now = s.now
    ∧ ∀ c, { u.car c with carrying := none } = { s.car c with carrying := none }

/-- R84: a wait list `l` once a path has joined it as `x`: it stands behind the requests of earlier times and those of
its own time from lower paths, before every other, and the others keep their order. -/
abbrev Queued (x : Waiter) (l l' : List Waiter) : Prop :=
  ∃ a b, l = a ++ b ∧ l' = a ++ x :: b
    ∧ (∀ w ∈ a, ¬ (x.since < w.since ∨ x.since = w.since ∧ x.path < w.path))
    ∧ ∀ w, b.head? = some w → x.since < w.since ∨ x.since = w.since ∧ x.path < w.path

/-- R84, R86: a path asks for a tune start on an input at a moment, and nothing else of the inputs changes. -/
abbrev AsksTune (p : PathIdx) (m : Nat) (i : InputIdx) (s t : State) : Prop :=
  Queued ⟨p, m⟩ (s.inp i).waitList (t.inp i).waitList ∧ { t.inp i with waitList := (s.inp i).waitList } = s.inp i
    ∧ ∀ j, j ≠ i → t.inp j = s.inp j

/-- R79, R80, R81, R84, R91: a path that has been granted a use and a carrier with these parameters. -/
abbrev Granted (p : PathIdx) (u : Use) (c : CarrierIdx) (k : CarrierParams) (s t : State) : Prop :=
  t.path p = { PathRec.powerOn with state := .awaitTune, use := some u, carrier := some c }
    ∧ (∀ q, q ≠ p → t.path q = s.path q)
    ∧ { t.inp k.input with
          waitList := (s.inp k.input).waitList, feed := (s.inp k.input).feed, feedState := (s.inp k.input).feedState }
        = { s.inp k.input with attached := insertIdx p (s.inp k.input).attached }
    ∧ Queued ⟨p, s.now⟩ (s.inp k.input).waitList (t.inp k.input).waitList
    ∧ (∀ i, i ≠ k.input → t.inp i = s.inp i)
    ∧ (∀ f, (s.inp k.input).kind = .satellite → k.feed = some f → f ≠ (s.inp k.input).feed →
        (s.inp k.input).attached = [] →
      (t.inp k.input).feed = f ∧ (t.inp k.input).feedState = .settling (s.now + 15))
    ∧ ((s.inp k.input).kind ≠ .satellite ∨ k.feed = some (s.inp k.input).feed →
      (t.inp k.input).feed = (s.inp k.input).feed ∧ (t.inp k.input).feedState = (s.inp k.input).feedState)

/-- R15: what a pass end makes of a service record. -/
abbrev Aged (r r' : ServiceRec) : Prop :=
  (r.state ≠ .orphaned → r' = r)
    ∧ (r.state = .orphaned → r.orphanAge < 2 ∨ 0 < r.claimCount →
      r' = { r with orphanAge := if r.orphanAge < 3 then r.orphanAge + 1 else r.orphanAge })
    ∧ (r.state = .orphaned → 2 ≤ r.orphanAge → r.claimCount = 0 →
      r'.state = .retired ∧ r'.key = r.key ∧ r'.orphanAge = 0 ∧ r'.generation = r.generation + 1)

/-- R52, R102 to R104: the record of a path that leaves its carrier at a moment: it dwells until 250 ms after its latest
lock, and enters RECOVERY for 3 ms where it has not locked or that time has passed. What the demodulator holds is the
model's reading (log 17), as are the fields kept until the recovery end (log 21). -/
abbrev LeavesCarrier (now : Nat) (r r' : PathRec) : Prop :=
  (∀ a, r.lockTime = some a → now < a + 250 → r' = { r with
      state := .dwell, dwellEnd := some (a + 250), cutPending := false, accum := ⟨0, none, false⟩, collection := none,
      listening := false, lockTimer := none, rosterTimer := none, sampleDue := none,
      demod := if r.state = .tuning then none else r.demod })
  ∧ ((∀ a, r.lockTime = some a → a + 250 ≤ now) → r' = { r with
      state := .recovery, dwellEnd := none, recoveryEnd := some (now + 3), demod := none, cutPending := false,
      accum := ⟨0, none, false⟩, collection := none, listening := false, lockTimer := none, rosterTimer := none,
      sampleDue := none })

/-- R79, R84, R87, R99, R100, R104: the record of an input once paths have left their carriers: a path that has entered
RECOVERY is detached, and one that has left AWAIT-TUNE is off the wait list. The other paths stay attached and keep
their places, and nothing else of the record changes. -/
abbrev inputLeft (s t : State) (r : InputRec) : InputRec :=
  { r with
    attached := r.attached.filter (fun q => decide ((s.path q).state = .recovery ∨ (t.path q).state ≠ .recovery)),
    waitList := r.waitList.filter (fun w =>
      decide ((s.path w.path).state ≠ .awaitTune ∨ (t.path w.path).state = .awaitTune)) }

/-- R79, R87, R104: the inputs have followed the paths that have left their carriers, and nothing else of them has
changed. -/
abbrev InputsFollow (s t : State) : Prop := ∀ i, t.inp i = inputLeft s t (s.inp i)

/-- R100, R101: the record of a scan path at work on which a cut is taken: an ENGAGED path whose burst has fewer than
four samples is left to its half boundary, and every other leaves its carrier. -/
abbrev CutTaken (now : Nat) (r r' : PathRec) : Prop :=
  (r.state = .engaged → r.accum.burstDone = false → r.accum.count < 4 →
    r' = { r with cutPending := true, listening := false, collection := none, rosterTimer := none })
  ∧ (r.state ≠ .engaged ∨ r.accum.burstDone = true ∨ 4 ≤ r.accum.count → LeavesCarrier now r r')

/-- R122: the plan once a carrier has been put back at the head of the visit queue: moved there where it is an entry,
and otherwise put before the entries, of which a full queue loses its last. It is under a queue visit no longer. -/
abbrev putBackIn (c : CarrierIdx) (q : Planner) : Planner :=
  { q with
    queue := c :: (if c ∈ q.queue then q.queue.filter (fun d => decide (d ≠ c))
      else if q.queue.length < 16 then q.queue else q.queue.dropLast),
    underQueue := q.underQueue.filter (fun d => decide (d ≠ c)) }

/-- R122: the plan and the monitors once a carrier has been put back: the entry that a full queue loses is counted. -/
abbrev putBackTo (c : CarrierIdx) (s : State) : State :=
  { (if c ∉ s.plan.queue ∧ 16 ≤ s.plan.queue.length then countEvent .visitQueueFull none s.plan.queue.getLast? s
      else s) with plan := putBackIn c s.plan }

/-- R95, R122: what the report of an ended scan visit makes of the plan, the monitors and a held SETTLE, by the use of
its path: nothing on a sweep visit; on a queue visit the carrier is under one no longer, and is put back (`back`) or
its visit has ended. -/
abbrev VisitEnds (use : Option Use) (c : CarrierIdx) (back : Bool) (s t : State) : Prop :=
  (use = some .sweep → t.plan = s.plan ∧ t.mons = s.mons ∧ t.inExec = s.inExec ∧ t.port = s.port)
  ∧ (use = some .queue → back = false →
    t.plan = { s.plan with underQueue := s.plan.underQueue.filter (fun d => decide (d ≠ c)) } ∧ t.mons = s.mons
    ∧ t.inExec = (visitEnded c s).inExec ∧ t.port = (visitEnded c s).port)
  ∧ (use = some .queue → back = true →
    t.plan = (putBackTo c s).plan ∧ t.mons = (putBackTo c s).mons ∧ t.inExec = s.inExec ∧ t.port = s.port)

/-- R95, R100, R118, R122: the plan and the monitors once a cut of a scan path at work has been counted and taken: the
carrier of a queue visit is put back, unless the path is left to its half boundary. -/
abbrev cutCounted (r : PathRec) (s : State) : State :=
  match r.carrier with
  | none => countEvent .preemption none none s
  | some c =>
    if r.use = some .queue ∧ ¬ (r.state = .engaged ∧ r.accum.burstDone = false ∧ r.accum.count < 4) then
      putBackTo c (countEvent .preemption none (some c) s)
    else countEvent .preemption none (some c) s

/-- R60, R63: the first eligible candidate in rank order: of the eligible ones of the list the one of the highest score,
and of those the one of the lowest index. -/
abbrev RanksFirst (s : State) (l : List CarrierIdx) (c : CarrierIdx) : Prop :=
  c ∈ l ∧ eligible s c = true
    ∧ ∀ d ∈ l, eligible s d = true → score s d < score s c ∨ score s d = score s c ∧ c ≤ d

/-- R11, R69: what the departure of a carrier makes of a record, up to its stamps. -/
abbrev Departs (s : State) (c : CarrierIdx) (r r' : ServiceRec) : Prop :=
  ∀ b : ServiceRec, b = { r with
      candidates := r.candidates.filter (fun d => decide (d ≠ c)),
      pin := if r.pin = some c then none else r.pin,
      challenger := match r.challenger with
        | some k => if k.carrier = c then none else some k
        | none => none } →
    (r.state ≠ .listed ∧ r.state ≠ .degraded ∨ b.candidates ≠ [] ∧ r.selected ≠ some c → r' = b)
    ∧ (r.state = .listed ∨ r.state = .degraded →
      (b.candidates = [] →
        r' = { b with state := .orphaned, selected := none, pin := none, challenger := none, orphanAge := 0 })
      ∧ (b.candidates ≠ [] → r.selected = some c →
        ((∀ d ∈ b.candidates, eligible s d = false) →
          r' = { b with selected := none, challenger := none, state := .degraded })
        ∧ ∀ d, RanksFirst s b.candidates d →
          r' = { b with selected := some d, challenger := none,
                        state := if s.rank.settings.floor ≤ score s d then .listed else .degraded }))

/-- R130: what a claim on a service becomes by joining the carrying path of a carrier. -/
abbrev Joins (s : State) (i : ServiceIdx) (x : CarrierIdx) (p : PathIdx) (c : ClaimRec) : Prop :=
  ((s.path p).state = .engaged → c = ⟨.carrying, none, some i, some x, none, some p⟩)
    ∧ ((s.path p).state = .awaitTune ∨ (s.path p).state = .tuning →
      c = ⟨if (s.path p).lockTime = none then .acquiring else .recovering, none, some i, some x, none, some p⟩)

/-- R128: what an examination makes of a claim on a service. -/
abbrev Examined (s : State) (i : ServiceIdx) (c : ClaimRec) : Prop :=
  (s.arb.mode ≠ .active → c = .waiting i .standby)
    ∧ (s.arb.mode = .active → (s.svc i).selected = none → c = .waiting i .noSource)
    ∧ ∀ x, s.arb.mode = .active → (s.svc i).selected = some x →
      (eligible s x = false → c = .waiting i .noSource)
      ∧ (eligible s x = true → (s.car x).carrying = none → c = .waiting i .noPath)
      ∧ ∀ p, eligible s x = true → (s.car x).carrying = some p → Joins s i x p c

/-- R127: no claim holds a carrier. -/
abbrev Unneeded (s : State) (x : CarrierIdx) : Prop := ∀ d, (s.claim d).current ≠ some x ∧ (s.claim d).target ≠ some x

/-- R130: every WAITING claim on a service that selects a carrier joins the carrying path the carrier has been given. -/
abbrev WaitersJoin (s t : State) (x : CarrierIdx) (p : PathIdx) : Prop :=
  ∀ d i, (s.claim d).state = .waiting → (s.claim d).reason ≠ some .standby → (s.claim d).service = some i →
    (s.svc i).selected = some x → eligible s x = true → s.arb.mode = .active → Joins t i x p (t.claim d)

/-- R29, R102, R103, R127: the carrying path of a carrier, at work on it in CARRY use, is abandoned or released. -/
abbrev LetsGo (s t : State) (x : CarrierIdx) : Prop :=
  ∀ q, (s.car x).carrying = some q → (s.path q).use = some .carry → (s.path q).state.working = true →
    (s.path q).carrier = some x → LeavesCarrier s.now (s.path q) (t.path q) ∧ (t.car x).carrying = none

/-- R23, R42: the ranges of a carrier's parameters, by the kind of its input. -/
abbrev InRange (k : InputKind) (q : CarrierParams) : Prop :=
  q.modClass ≤ 7
    ∧ (k = .satellite ∧ q.feed ≠ none ∧ 950000 ≤ q.frequency ∧ q.frequency ≤ 2150000 ∧ 1000 ≤ q.rate ∧ q.rate ≤ 45000
      ∨ k = .terrestrial ∧ q.feed = none ∧ 45000 ≤ q.frequency ∧ q.frequency ≤ 870000
          ∧ (q.rate = 6 ∨ q.rate = 7 ∨ q.rate = 8)
      ∨ k = .cable ∧ q.feed = none ∧ 45000 ≤ q.frequency ∧ q.frequency ≤ 870000 ∧ 1000 ≤ q.rate ∧ q.rate ≤ 45000)

/-- R80, R119: a carrier grantable as scan work: it is not FREE, has no carrying path, has no path attached to it, and
is not feed-blocked. -/
abbrev Grantable (s : State) (c : CarrierIdx) : Prop :=
  (s.car c).state ≠ .free ∧ (s.car c).carrying = none
    ∧ (∀ p, (s.path p).carrier = some c → (s.path p).state = .idle ∨ (s.path p).state = .recovery)
    ∧ ∃ q, (s.car c).params = some q ∧ ((s.inp q.input).kind ≠ .satellite ∨ q.feed = some (s.inp q.input).feed
        ∨ (s.inp q.input).attached = [])

/-- R49: a sample gathered into what the accumulator has gathered. -/
abbrev gathered (o : Option Extremes) (x : Sample) : Extremes :=
  match o with
  | none => ⟨x.level, x.margin, x.margin, x.integrity⟩
  | some e => ⟨if x.level < e.leastLevel then x.level else e.leastLevel,
                if x.margin < e.leastMargin then x.margin else e.leastMargin,
                if e.greatestMargin < x.margin then x.margin else e.greatestMargin,
                if x.integrity < e.leastIntegrity then x.integrity else e.leastIntegrity⟩

/-- R49, R50: the four lanes of a result. -/
abbrev lanesOf (e : Extremes) : Lanes :=
  { level := e.leastLevel, margin := e.leastMargin, integrity := e.leastIntegrity,
    steadiness := BitVec.ofNat 16 (65535 - (e.greatestMargin.toNat - e.leastMargin.toNat)) }

/-- R61: the outstanding evaluations once a report has been taken that names the services a carrier announces. -/
abbrev evalsWith (s : State) (cause : EvalCause) (c : CarrierIdx) : List EvalReport :=
  if (s.car c).announced = [] then s.rank.evals else s.rank.evals ++ [⟨cause, some c, (s.car c).announced⟩]

/-- R61: an evaluation asked by a report is made of a record: it is live and not ORPHANED, and where the report is about
a carrier, the carrier is still a candidate of it. -/
abbrev EvaluationMade (q : EvalReport) (r : ServiceRec) : Prop :=
  (r.state ≠ .free ∧ r.state ≠ .retired ∧ r.state ≠ .orphaned) ∧ ∀ c, q.carrier = some c → c ∈ r.candidates

/-- R136: a claim is examined when the eligibility of a carrier changes: it is WAITING, other than with reason STANDBY,
and its service selects the carrier. -/
abbrev AwaitsCarrier (s : State) (ch : ChannelIdx) (c : CarrierIdx) : Prop :=
  (s.claim ch).state = .waiting ∧ (s.claim ch).reason ≠ some .standby
    ∧ ∃ i, (s.claim ch).service = some i ∧ (s.svc i).selected = some c

/-- R136: the claims once they have been told of a change of a carrier's eligibility. -/
abbrev ToldEligibility (s t : State) (c : CarrierIdx) : Prop :=
  ∀ ch, (∀ i, AwaitsCarrier s ch c → (s.claim ch).service = some i → Examined t i (t.claim ch))
    ∧ (¬ AwaitsCarrier s ch c → t.claim ch = s.claim ch)
    ∧ ((s.claim ch).state = .handover → (s.claim ch).target = some c → (s.car c).carrying = none → t.arb.due = true)

/-- R61, R136: the evaluations and the claims that await a carrier, once its eligibility has been lost with its state
LOST, or kept or lacked. -/
abbrev ToldLoss (s t : State) (c : CarrierIdx) : Prop :=
  ((s.car c).state = .live → (s.car c).quality ≠ none → (t.car c).state = .lost →
    t.rank.evals = evalsWith s .eligibility c
    ∧ ∀ ch i, AwaitsCarrier s ch c → (s.claim ch).service = some i →
      t.claim ch = .waiting i (if s.arb.mode = .active then .noSource else .standby))
  ∧ ((s.car c).state ≠ .live ∨ (s.car c).quality = none ∨ (t.car c).state ≠ .lost →
    t.rank.evals = s.rank.evals ∧ ∀ ch, AwaitsCarrier s ch c → t.claim ch = s.claim ch)

/-- R115, R127: a HANDOVER claim that is demand for a carrier. -/
abbrev HandoverDemand (s : State) (ch : ChannelIdx) (c : CarrierIdx) : Prop :=
  (s.claim ch).state = .handover ∧ (s.claim ch).target = some c ∧ eligible s c = true ∧ (s.car c).carrying = none

/-- R116: a claim that the Path Arbiter could not serve: a WAITING claim takes the reason. -/
abbrev unserved (s : State) (ch : ChannelIdx) (why : Reason) : ClaimRec :=
  if (s.claim ch).state = .waiting then { s.claim ch with reason := some why } else s.claim ch

end Sys2Proof.Machine

open Sys2Proof Sys2Proof.Machine

/-! ### The machine -/

/-- A step of a state with a command at the front of its queue is that command on the state with the queue's rest. -/
def Obligations.StepRunsFrontCommand : Prop :=
  ∀ (s : State) (c : Instr) (rest : List Instr), s.pending = c :: rest →
    step s = exec c { s with pending := rest }

/-- On an empty queue the part takes its own next event, or one millisecond passes: the model's choice, log 2 and
log 6. -/
def Obligations.StepOnEmptyQueue : Prop :=
  ∀ s : State, s.pending = [] →
    (∀ c, nextOwn s = some c → step s = exec c s) ∧ (nextOwn s = none → step s = .next { s with now := s.now + 1 })

/-- No command stops the part. That each command, POWER_ON_RESET included, keeps the queue of the others and never runs
the clock back is the model's choice: the queue and the clock are its own (log 1, log 3, log 9, log 25). -/
def Obligations.EveryCommandCompletes : Prop :=
  ∀ (c : Instr) (s : State), ∃ t, exec c s = .next t ∧ t.pending = s.pending ∧ s.now ≤ t.now

/-- The frame of every command but POWER_ON_RESET: which commands may change the values that the host sets, the
tune-start histories, the mode, the clock, the service records (R15 apart: an ORPHANED one may age whenever a step ends
with an arbitration) and the carrier records (their carrying paths apart). R141: a channel whose claim a command changes
enters the changed-claims set, and CLAIM CHANGES alone takes channels out of it. That the timed commands alone move the
clock is the model's choice (log 3, log 20). -/
def Obligations.CommandFrame : Prop :=
  ∀ (c : Instr) (s t : State), c ≠ .powerOnReset → exec c s = .next t →
    (c ≠ .setRanking → t.rank.settings = s.rank.settings)
    ∧ (c ≠ .scanControl → t.arb.reserve = s.arb.reserve ∧ t.plan.sweepEnabled = s.plan.sweepEnabled)
    ∧ (c ≠ .retire → c ≠ .unsuppress → t.svcs.suppressed = s.svcs.suppressed)
    ∧ (c ≠ .defineInput → ∀ i, (t.inp i).kind = (s.inp i).kind)
    ∧ (c ≠ .defineCarrier → c ≠ .forgetCarrier →
        (∀ i, (t.inp i).carrierCount = (s.inp i).carrierCount) ∧ ∀ k, (t.car k).params = (s.car k).params)
    ∧ ((∀ i, c ≠ .tuneStart i) → ∀ i, (t.inp i).history = (s.inp i).history)
    ∧ (c ≠ .setPort → t.port.attentionLevel = s.port.attentionLevel)
    ∧ (c ≠ .activate → c ≠ .standby →
        t.arb.mode = s.arb.mode ∨ (s.arb.mode = .stopping ∧ t.arb.mode = .standby))
    ∧ (c ≠ .setMonitor → ∀ m, (t.mon m).select = (s.mon m).select ∧ (t.mon m).threshold = (s.mon m).threshold)
    ∧ (timed c = false → t.now = s.now)
    ∧ (changesRecords c = false → ∀ i, (s.svc i).state ≠ .orphaned → t.svc i = s.svc i)
    ∧ (changesCarriers c = false → ∀ k, { t.car k with carrying := none } = { s.car k with carrying := none })
    ∧ (c ≠ .claimChanges → (∀ ch ∈ s.claims.changed, ch ∈ t.claims.changed)
        ∧ ∀ ch, t.claim ch ≠ s.claim ch → ch ∈ t.claims.changed)

/-- The values that power-on reset gives every table (R22, R45, R56, R75, R89, R109, R125, R143, R178). -/
def Obligations.ResetValues : Prop :=
  (∀ i, State.reset.svc i =
      { state := .free, key := none, kind := .unknown, name := none, generation := 0, changeEpoch := 0,
        candidates := [], selected := none, pin := none, challenger := none, claimCount := 0, orphanAge := 0,
        overflow := 0 })
    ∧ State.reset.svcs.epoch = 0 ∧ State.reset.svcs.suppressed = [] ∧ State.reset.svcs.discoveryOverflow = 0
    ∧ (∀ k, keyMap State.reset k = none)
    ∧ (∀ c, State.reset.car c =
      { state := .free, params := none, failures := 0, quality := none, rosterVersion := none, stale := false,
        malformed := false, announced := [], carrying := none })
    ∧ State.reset.rank = { settings := ⟨16384, 32768, 32768, 16384, 2048, 3, 8192⟩, evals := [] }
    ∧ (∀ i, State.reset.inp i =
      { kind := .unused, carrierCount := 0, feed := ⟨.low, .vertical⟩, feedState := .steady, attached := [],
        history := [], waitList := [] })
    ∧ (∀ p, (State.reset.path p).state = .idle ∧ (State.reset.path p).use = none ∧ (State.reset.path p).carrier = none
      ∧ (State.reset.path p).lockTime = none ∧ (State.reset.path p).lockHeld = false
      ∧ (State.reset.path p).relocks = 0 ∧ (State.reset.path p).cutPending = false
      ∧ (State.reset.path p).forgotten = false ∧ (State.reset.path p).listening = false
      ∧ (State.reset.path p).accum = ⟨0, none, false⟩ ∧ (State.reset.path p).collection = none
      ∧ (State.reset.path p).lockTimer = none ∧ (State.reset.path p).rosterTimer = none
      ∧ (State.reset.path p).dwellEnd = none ∧ (State.reset.path p).recoveryEnd = none
      ∧ streamOn State.reset p = false)
    ∧ State.reset.arb.mode = .standby ∧ State.reset.arb.reserve = 1 ∧ State.reset.arb.cuts = []
    ∧ State.reset.plan = { cursor := 0, passCount := 0, sweepEnabled := true, queue := [], underQueue := [] }
    ∧ (∀ ch, State.reset.claim ch =
      { state := .free, reason := none, service := none, current := none, target := none, path := none })
    ∧ State.reset.claims.changed = []
    ∧ (∀ m, State.reset.mon m = { select := none, count := 0, threshold := 0, sample := none })

/-- R155: the port and the Request Processor after power-on reset, whatever the state before; all else stands as in
State.reset, the clock and the queue apart, which are the model's own (log 9). -/
def Obligations.PowerOnReset : Prop :=
  ∀ s : State, ∃ t, exec .powerOnReset s = .next t
    ∧ t = { State.reset with
            port := { State.reset.port with selectLow := s.port.selectLow }, now := s.now, pending := s.pending }
    ∧ t.port.reqFifo = [] ∧ t.port.respFifo = [] ∧ t.port.dropped = 0 ∧ t.port.attentionLevel = 1
    ∧ t.port.frame = none ∧ t.inExec = none ∧ t.port.selectLow = s.port.selectLow ∧ attention t = false
    ∧ (s.port.selectLow = true → exec .selectFall t = .next t ∧
        ∀ w, exec (.firstWord w) t = .next t ∧ exec (.argumentWord w) t = .next t)
    ∧ (s.port.selectLow = false → ∃ u, exec .selectFall t = .next u ∧ u.port.out = .filler
        ∧ presentedWord u = some 0xFFFF)
    ∧ (∀ bits, ∃ u v, exec (.selectRise bits) t = .next u ∧ u.port.selectLow = false
        ∧ exec .selectFall u = .next v ∧ presentedWord v = some 0xFFFF)
    ∧ (portReset t).port.attentionLevel = t.port.attentionLevel

/-! ### The port -/

/-- R145, R149: what the first complete word of a frame does, by that word and the room in the request FIFO. What is
presented after the word, `afterWord`, is the model's reading: a response word under way stays, and a filler gives way
to a response written meanwhile (log 10). -/
def Obligations.FirstWordSetsHandling : Prop :=
  ∀ (s : State) (w : Word) (f : Frame), s.port.frame = some f → f.handling = .awaiting →
    (w = 0xFFFF → exec (.firstWord w) s = .next
      { s with port := { s.port with frame := some (f.got w .idle), out := afterWord s.port } })
    ∧ (w ≠ 0xFFFF → reqWords s < 64 → exec (.firstWord w) s = .next
      { s with port := { s.port with
          reqFifo := s.port.reqFifo ++ [{ header := w, args := [], ended := false, overLong := false,
                                           partialMark := false, broken := false }],
          frame := some (f.got w .storing), out := afterWord s.port } })
    ∧ (w ≠ 0xFFFF → 64 ≤ reqWords s → exec (.firstWord w) s = .next (countEvent .portOverrun none none
      { s with port := { s.port with
          dropped := if s.port.dropped < 255 then s.port.dropped + 1 else s.port.dropped,
          frame := some (f.got w .dropped), out := afterWord s.port } }))

/-- R146: what a later complete word of a frame does, by the frame's handling, the words of its entry and the room in
the request FIFO. What is presented after the word, `afterWord`, is the model's reading (log 10). -/
def Obligations.ArgumentWordByHandling : Prop :=
  ∀ (s : State) (w : Word) (f : Frame), s.port.frame = some f →
    (∀ h, h = .idle ∨ h = .broken ∨ h = .dropped → f.handling = h → exec (.argumentWord w) s = .next
      { s with port := { s.port with frame := some (f.got w h), out := afterWord s.port } })
    ∧ (∀ (l : List ReqEntry) (e : ReqEntry), s.port.reqFifo = l ++ [e] → f.handling = .storing →
      (e.words < 16 → reqWords s < 64 → exec (.argumentWord w) s = .next
        { s with port := { s.port with
            reqFifo := l ++ [{ e with args := e.args ++ [w] }],
            frame := some (f.got w .storing), out := afterWord s.port } })
      ∧ (e.words < 16 → 64 ≤ reqWords s → exec (.argumentWord w) s = .next (countEvent .portOverrun none none
        { s with port := { s.port with
            reqFifo := l ++ [{ e with args := [], broken := true }],
            frame := some (f.got w .broken), out := afterWord s.port } }))
      ∧ (16 ≤ e.words → exec (.argumentWord w) s = .next
        { s with port := { s.port with
            reqFifo := l ++ [{ e with overLong := true }],
            frame := some (f.got w .storing), out := afterWord s.port } }))

/-- R146, R147, R153: what a select rise does: the port reset of a frame of exactly two words 5AA5h and no partial
word, and the end of every other frame. The model's choice: nothing is presented while select is high (log 10). -/
def Obligations.SelectRiseEndsFrame : Prop :=
  ∀ (s : State) (bits : List Bool) (f : Frame), s.port.frame = some f →
    (f.words = 2 → f.first = some 0x5AA5 → f.second = some 0x5AA5 → bits = [] →
      exec (.selectRise bits) s = .next
        { s with
          port := { s.port with reqFifo := [], respFifo := [], dropped := 0, selectLow := false, frame := none,
                                out := .nothing },
          inExec := s.inExec.map (fun x => { x with suppressed := true }) })
    ∧ (¬ (f.words = 2 ∧ f.first = some 0x5AA5 ∧ f.second = some 0x5AA5 ∧ bits = []) →
      (∀ (l : List ReqEntry) (e : ReqEntry), s.port.reqFifo = l ++ [e] →
          f.handling = .storing ∨ f.handling = .broken →
        exec (.selectRise bits) s = .next
          { s with port := { s.port with
              reqFifo := l ++ [{ e with ended := true,
                                        partialMark := e.partialMark || (!e.broken && !bits.isEmpty) }],
              selectLow := false, frame := none, out := .nothing } })
      ∧ (f.handling = .awaiting ∨ f.handling = .idle ∨ f.handling = .dropped →
        exec (.selectRise bits) s = .next
          { s with port := { s.port with selectLow := false, frame := none, out := .nothing } }))

/-- R145, R148: a select fall begins a frame and presents the head of the response FIFO, or FFFFh where it is empty.
The head word leaves the FIFO when it has been shifted out, and the next word is presented; a filler takes no word.
That the shifting-out is an event of its own is the model's reading (log 10). -/
def Obligations.ResponsePresentation : Prop :=
  ∀ s : State,
    (s.port.selectLow = false → exec .selectFall s = .next
      { s with port := { s.port with
          selectLow := true,
          frame := some { words := 0, first := none, second := none, partialBits := [], handling := .awaiting },
          out := if s.port.respFifo = [] then .filler else .head } })
    ∧ (s.port.selectLow = true → exec .selectFall s = .next s)
    ∧ (s.port.out = .head → exec .responseWordShifted s = .next
      { s with port := { s.port with
          respFifo := s.port.respFifo.drop 1,
          out := if s.port.respFifo.drop 1 = [] then .filler else .head } })
    ∧ (s.port.out ≠ .head → exec .responseWordShifted s = .next s)
    ∧ (s.port.out = .filler → presentedWord s = some 0xFFFF)
    ∧ ∀ w, s.port.out = .head → s.port.respFifo.head? = some w → presentedWord s = some w

/-! ### The taking of an entry -/

/-- R151, R152, R156 step 1: an entry marked broken is answered OVERRUN, one of an unassigned code UNKNOWN, and nothing
else changes. While a request is in execution, or the head entry is not ended or has no room for its response, the
Request Processor takes nothing; nor does the command of one request take the entry of another (log 5). -/
def Obligations.EntryTaking : Prop :=
  (∀ (s : State) (e : ReqEntry), s.port.reqFifo.head? = some e → s.inExec = none → e.ended = true →
    s.port.respFifo.length + 2 ≤ 64 →
    (e.broken = true → Refuses .brokenEntry e .overrun s)
    ∧ (e.broken = false → ReqCode.ofNat? (headerCode e.header) = none → Refuses .unknownRequest e .unknown s))
  ∧ (∀ s : State, (s.inExec ≠ none ∨ s.port.reqFifo = [] ∨ ∃ e, s.port.reqFifo.head? = some e
      ∧ (e.ended = false ∨ 64 < s.port.respFifo.length + 2)) →
    exec .brokenEntry s = .next s ∧ exec .unknownRequest s = .next s)
  ∧ ∀ (c : ReqCode) (s : State), s.arb.due = false →
    (s.inExec ≠ none ∨ s.port.reqFifo = [] ∨ ∃ e, s.port.reqFifo.head? = some e
      ∧ (e.ended = false ∨ e.broken = true ∨ ReqCode.ofNat? (headerCode e.header) ≠ some c
        ∨ 64 < s.port.respFifo.length + c.largest)) →
    exec c.command s = .next s

/-- R156, R157, R159: which entries of an assigned code are refused FORM; the requests that a mode refuses, and those it
answers DONE without effect. -/
def Obligations.FormAndModeChecks : Prop :=
  (∀ (c : ReqCode) (s : State) (e : ReqEntry), s.port.reqFifo.head? = some e → s.inExec = none → e.ended = true →
    e.broken = false → ReqCode.ofNat? (headerCode e.header) = some c → s.port.respFifo.length + c.largest ≤ 64 →
    s.arb.due = false →
    (e.overLong = true ∨ e.partialMark = true ∨ headerCount e.header ≠ e.args.length
      ∨ e.args.length ≠ c.args.length
      ∨ (∃ x ∈ c.args.zip e.args, ¬ (x.1.absentOk = true ∧ x.2 = 0xFFFF) ∧ 2 ^ x.1.bits ≤ x.2.toNat)
      ∨ (c = .lookup ∧ e.arg 0 = 0 ∧ e.arg 2 ≠ 0)) →
    Refuses c.command e .form s)
  ∧ ∀ (c : ReqCode) (s : State) (e : ReqEntry), Taken c e s →
    ((c = .activate ∧ s.arb.mode = .stopping) ∨ (c = .defineInput ∧ s.arb.mode ≠ .standby)
        ∨ (c = .settle ∧ s.arb.mode ≠ .active) → Refuses c.command e .mode s)
    ∧ ((c = .activate ∧ s.arb.mode = .active) ∨ (c = .standby ∧ s.arb.mode ≠ .active) →
        exec c.command s = .next (answered e .done [] s))

/-! ### Control requests -/

/-- R112, R140, R162: ACTIVATE taken in STANDBY. The response is written before the arbitration that ends the step.
The arbitration at the end of the step: log 12. -/
def Obligations.ActivateEntersActive : Prop :=
  ∀ (s : State) (e : ReqEntry), Taken .activate e s → s.arb.mode = .standby →
    ∃ u, exec .activate s = .next (closeStep u) ∧ u.arb = { s.arb with mode := .active, due := true }
      ∧ u.port = answeredPort e .done [] s ∧ u.inExec = none
      ∧ u.svcs = s.svcs ∧ u.carriers = s.carriers ∧ u.inputs = s.inputs ∧ u.paths = s.paths ∧ u.plan = s.plan
      ∧ u.rank = s.rank ∧ u.mons = s.mons
      ∧ ∀ ch, ((s.claim ch).reason ≠ some .standby → u.claim ch = s.claim ch)
        ∧ ∀ i, (s.claim ch).reason = some .standby → (s.claim ch).service = some i →
          ((s.svc i).selected = none → u.claim ch = .waiting i .noSource)
          ∧ ∀ c, (s.svc i).selected = some c →
            (eligible s c = false → u.claim ch = .waiting i .noSource)
            ∧ (eligible s c = true → (s.car c).carrying = none → u.claim ch = .waiting i .noPath)

/-- R29, R79, R87, R95, R102 to R104, R111, R122, R140, R162: STANDBY taken in ACTIVE, answered at once where every path
is IDLE and held otherwise: the claims it makes WAITING, the paths that leave their carriers, the carrying paths it
clears, and the carriers of queue visits that it puts back at the head of the queue. The inputs follow: a path at
RECOVERY is detached, one that has left AWAIT-TUNE is off the wait list, and the others keep their places. That the
lowest-numbered path comes first is the model's choice (log 28), and so is the arbitration at the end of the step (log
12). -/
def Obligations.StandbyStopsPaths : Prop :=
  ∀ (s : State) (e : ReqEntry), Taken .standby e s → s.arb.mode = .active →
    ∃ u, exec .standby s = .next (closeStep u)
      ∧ ((∀ p, (s.path p).state = .idle) → u.arb.mode = .standby ∧ u.inExec = none ∧ u.port = answeredPort e .done [] s)
      ∧ ((∃ p, (s.path p).state ≠ .idle) → u.arb.mode = .stopping ∧ u.inExec = some ⟨e.header, false, .standby⟩
          ∧ u.port = { s.port with reqFifo := s.port.reqFifo.drop 1 })
      ∧ (∀ ch i, (s.claim ch).service = some i → u.claim ch = .waiting i .standby)
      ∧ (∀ ch, (s.claim ch).service = none → u.claim ch = s.claim ch)
      ∧ u.arb.cuts = []
      ∧ (∀ p, ((s.path p).use ≠ none → (s.path p).state.working = true →
            LeavesCarrier s.now (s.path p) (u.path p))
          ∧ ((s.path p).state.working = false → u.path p = s.path p)
          ∧ ∀ c, (s.path p).use = some .carry → (s.path p).state.working = true → (s.path p).carrier = some c →
            (u.car c).carrying = none)
      ∧ InputsFollow s u
      ∧ (∀ c, (∀ p, (s.path p).use = some .carry → (s.path p).state.working = true →
          (s.path p).carrier ≠ some c) → u.car c = s.car c)
      ∧ u.plan.cursor = s.plan.cursor ∧ u.plan.passCount = s.plan.passCount
      ∧ u.plan.sweepEnabled = s.plan.sweepEnabled ∧ u.svcs = s.svcs ∧ u.rank = s.rank
      ∧ ∀ l, l = (List.finRange 8).filterMap (fun p =>
            if (s.path p).use = some .queue ∧ (s.path p).state.working = true then (s.path p).carrier else none) →
        u.plan = (l.foldl (fun v c => putBackTo c v) s).plan ∧ u.mons = (l.foldl (fun v c => putBackTo c v) s).mons
        ∧ (∀ c ∈ l, c ∉ u.plan.underQueue) ∧ (l = [] → u.plan = s.plan)
        ∧ ∀ c, l = [c] → u.plan = putBackIn c s.plan

/-- R114, R163: SCAN CONTROL. The arbitration at the end of the step: log 12. -/
def Obligations.ScanControlSetsReserveAndSweep : Prop :=
  ∀ (s : State) (e : ReqEntry), Taken .scanControl e s →
    (2 < (e.arg 0).toNat ∨ 1 < (e.arg 1).toNat → Refuses .scanControl e .range s)
    ∧ ((e.arg 0).toNat ≤ 2 → (e.arg 1).toNat ≤ 1 →
      (8 - (e.arg 0).toNat < carryCount s → Refuses .scanControl e .inUse s)
      ∧ (carryCount s ≤ 8 - (e.arg 0).toNat → exec .scanControl s = .next (closeStep
          { s with
            port := answeredPort e .done [] s,
            arb := { s.arb with
              reserve := (e.arg 0).toNat,
              due := decide ((e.arg 0).toNat < s.arb.reserve)
                || (decide ((e.arg 1).toNat = 1) && !s.plan.sweepEnabled) },
            plan := { s.plan with sweepEnabled := decide ((e.arg 1).toNat = 1) } })))

/-- R57, R58, R163: SET RANKING: its refusal; the settings and the scores; and the request held for the evaluation of
the live records, or answered at once where there is none. That the request is held until its evaluations have been
taken is the model's reading (log 8). -/
def Obligations.SetRankingRescores : Prop :=
  ∀ (s : State) (e : ReqEntry) (g : Settings), Taken .setRanking e s →
    g = ⟨e.arg 0, e.arg 1, e.arg 2, e.arg 3, e.arg 4, (e.arg 5).toNat, (e.arg 6).toNat * 65536 + (e.arg 7).toNat⟩ →
    (g.persistence = 0 ∨ 8 < g.persistence ∨ 262136 < g.floor → Refuses .setRanking e .range s)
    ∧ (1 ≤ g.persistence → g.persistence ≤ 8 → g.floor ≤ 262136 →
      ∃ u, exec .setRanking s = .next u ∧ u.rank.settings = g
        ∧ (∀ c, u.car c = { s.car c with quality := (s.car c).quality.map (fun q => ⟨q.lanes,
            q.lanes.level.toNat * g.level.toNat / 65536 + q.lanes.margin.toNat * g.margin.toNat / 65536
              + q.lanes.integrity.toNat * g.integrity.toNat / 65536
              + q.lanes.steadiness.toNat * g.steadiness.toNat / 65536⟩) })
        ∧ u.svcs = s.svcs ∧ u.inputs = s.inputs ∧ u.paths = s.paths ∧ u.arb = s.arb ∧ u.plan = s.plan
        ∧ u.claims = s.claims ∧ u.mons = s.mons
        ∧ ((∀ i, (s.svc i).state.live = false) → u.rank.evals = s.rank.evals ∧ u.inExec = none
          ∧ u.port = answeredPort e .done [g.level, g.margin, g.integrity, g.steadiness, g.beatMargin,
              word g.persistence, word (g.floor / 65536), word g.floor] s)
        ∧ ((∃ i, (s.svc i).state.live = true) →
          u.rank.evals = s.rank.evals
            ++ [⟨.setRanking, none, (List.finRange 512).filter (fun i => (s.svc i).state.live)⟩]
          ∧ u.inExec = some ⟨e.header, false, .setRanking⟩
          ∧ u.port = { s.port with reqFifo := s.port.reqFifo.drop 1 }))

/-- R150: when the attention line is asserted; how the attention level is set, kept and reset; and that no step takes
it out of 1 to 64. -/
def Obligations.AttentionLine : Prop :=
  (∀ s : State, attention s = true ↔
    (s.port.attentionLevel ≤ s.port.respFifo.length ∨ s.claims.changed ≠ [] ∨ ∃ m, (s.mon m).sample ≠ none))
  ∧ State.reset.port.attentionLevel = 1
  ∧ (∀ s : State, (portReset s).port.attentionLevel = s.port.attentionLevel)
  ∧ (∀ s t : State, AttentionInRange s → step s = .next t → AttentionInRange t)
  ∧ ∀ (s : State) (e : ReqEntry), Taken .setPort e s →
    (((e.arg 0).toNat = 0 ∨ 64 < (e.arg 0).toNat) → Refuses .setPort e .range s)
    ∧ (1 ≤ (e.arg 0).toNat → (e.arg 0).toNat ≤ 64 → exec .setPort s = .next
        { s with port := { answeredPort e .done [] s with attentionLevel := (e.arg 0).toNat } })

/-- R153, R171, R172: SETTLE captures the carriers queued and under a queue visit, and is held with its timer unless
there is none. The report of an ended visit takes its carrier from the captured set, and the one that empties the set
completes SETTLE DONE with result 0. When the timer expires first it completes TIMEOUT with the number of carriers left.
No response is written where a port reset has suppressed it. The clock moved to the timer's moment is the model's choice
(log 3). -/
def Obligations.SettleHoldsUntilTimer : Prop :=
  (∀ (s : State) (e : ReqEntry) (l : List CarrierIdx), Taken .settle e s → s.arb.mode = .active →
    l = s.plan.queue ++ s.plan.underQueue.filter (fun c => decide (c ∉ s.plan.queue)) →
    ((e.arg 0).toNat < 100 ∨ 60000 < (e.arg 0).toNat → Refuses .settle e .range s)
    ∧ (100 ≤ (e.arg 0).toNat → (e.arg 0).toNat ≤ 60000 →
      (l = [] → exec .settle s = .next (answered e .done [0] s))
      ∧ (l ≠ [] → exec .settle s = .next
          { s with
            port := { s.port with reqFifo := s.port.reqFifo.drop 1 },
            inExec := some ⟨e.header, false, .settle l (s.now + (e.arg 0).toNat)⟩ })))
  ∧ (∀ (s : State) (h : Word) (sup : Bool) (l : List CarrierIdx) (t : Nat) (c : CarrierIdx),
      s.inExec = some ⟨h, sup, .settle l t⟩ →
    (c ∉ l → visitEnded c s = s)
    ∧ (c ∈ l → (∃ d ∈ l, d ≠ c) →
      visitEnded c s = { s with inExec := some ⟨h, sup, .settle (l.filter (fun d => decide (d ≠ c))) t⟩ })
    ∧ (c ∈ l → (∀ d ∈ l, d = c) →
      visitEnded c s = { s with
        inExec := none,
        port := { s.port with respFifo := s.port.respFifo ++ (if sup then [] else [responseHeader h .done, 1, 0]) } }))
  ∧ ∀ (s : State) (h : Word) (sup : Bool) (l : List CarrierIdx) (t : Nat), s.inExec = some ⟨h, sup, .settle l t⟩ →
    exec .settleTimerExpiry s = .next
      { s with
        now := max s.now t,
        inExec := none,
        port := { s.port with respFifo := s.port.respFifo
          ++ (if sup then [] else [responseHeader h .timeout, 1, word l.length]) } }

/-! ### Requests about inputs and carriers -/

/-- R23, R42, R77, R78, R164: DEFINE INPUT, taken in STANDBY; and DEFINE CARRIER, by the parameters its words name and
their ranges by the kind of the input. -/
def Obligations.DefineInputAndCarrier : Prop :=
  (∀ (s : State) (e : ReqEntry), Taken .defineInput e s → s.arb.mode = .standby →
    (6 ≤ (e.arg 0).toNat ∨ 4 ≤ (e.arg 1).toNat → Refuses .defineInput e .range s)
    ∧ ∀ (i : InputIdx) (k : InputKind), (e.arg 0).toNat = i.val → (e.arg 1).toNat = k.code →
      ((s.inp i).kind ≠ k → 0 < (s.inp i).carrierCount → Refuses .defineInput e .inUse s)
      ∧ ((s.inp i).kind = k ∨ (s.inp i).carrierCount = 0 → exec .defineInput s = .next
        (answered e .done [word i.val, word k.code, word (s.inp i).carrierCount, word (s.inp i).feed.code,
            word (s.inp i).feedState.code] (s.setInp i { s.inp i with kind := k }))))
  ∧ ∀ (s : State) (e : ReqEntry), Taken .defineCarrier e s →
    (6 ≤ (e.arg 0).toNat → Refuses .defineCarrier e .range s)
    ∧ ∀ (i : InputIdx) (q : CarrierParams), (e.arg 0).toNat = i.val →
        q = { input := i,
              feed := if e.arg 1 = 0xFFFF then none
                else some ⟨if (e.arg 1).toNat / 2 % 2 = 1 then .high else .low,
                  if (e.arg 1).toNat % 2 = 1 then .horizontal else .vertical⟩,
              frequency := (e.arg 2).toNat * 65536 + (e.arg 3).toNat,
              rate := (e.arg 4).toNat,
              modClass := (e.arg 5).toNat } →
      (¬ InRange (s.inp i).kind q → Refuses .defineCarrier e .range s)
      ∧ (InRange (s.inp i).kind q →
        ((∃ d x, (s.car d).state ≠ .free ∧ (s.car d).params = some x ∧ x.input = q.input ∧ x.feed = q.feed
            ∧ x.frequency = q.frequency) → Refuses .defineCarrier e .conflict s)
        ∧ ((∀ d x, (s.car d).state ≠ .free → (s.car d).params = some x →
              ¬ (x.input = q.input ∧ x.feed = q.feed ∧ x.frequency = q.frequency)) →
          ((∀ d, (s.car d).state = .free → ∃ p, (s.path p).carrier = some d) → Refuses .defineCarrier e .full s)
          ∧ ∀ c, (s.car c).state = .free → (∀ p, (s.path p).carrier ≠ some c) →
              (∀ d, d < c → (s.car d).state = .free → ∃ p, (s.path p).carrier = some d) →
            ∃ u, exec .defineCarrier s = .next (closeStep u)
              ∧ u.car c = { state := .unvisited, params := some q, failures := 0, quality := none,
                            rosterVersion := none, stale := false, malformed := false, announced := [],
                            carrying := none }
              ∧ (∀ d, d ≠ c → u.car d = s.car d)
              ∧ u.inp i = { s.inp i with carrierCount := (s.inp i).carrierCount + 1 }
              ∧ (∀ j, j ≠ i → u.inp j = s.inp j)
              ∧ u.port = answeredPort e .done [word c.val] s ∧ u.inExec = none
              ∧ u.svcs = s.svcs ∧ u.paths = s.paths ∧ u.claims = s.claims ∧ u.plan = s.plan ∧ u.rank = s.rank
              ∧ u.mons = s.mons ∧ u.arb = { s.arb with due := true }))

/-- R11, R43, R69, R77, R79, R87, R102, R104, R164: FORGET CARRIER: its refusals; the scan visit on the carrier
abandoned and every path that names it marked; its entry gone from the visit queue, to which departures may offer other
carriers at the tail; its departure from every service that it announced; its input with one carrier fewer; the slot
FREE. The inputs follow: a path at RECOVERY is detached, one that has left AWAIT-TUNE is off the wait list, and the
others keep their places. -/
def Obligations.ForgetCarrierClears : Prop :=
  ∀ (s : State) (e : ReqEntry), Taken .forgetCarrier e s →
    (192 ≤ (e.arg 0).toNat → Refuses .forgetCarrier e .range s)
    ∧ ∀ c : CarrierIdx, (e.arg 0).toNat = c.val →
      ((s.car c).state = .free → Refuses .forgetCarrier e .absent s)
      ∧ ((s.car c).state ≠ .free →
        ((∃ ch, (s.claim ch).current = some c ∨ (s.claim ch).target = some c) → Refuses .forgetCarrier e .inUse s)
        ∧ ((∀ ch, (s.claim ch).current ≠ some c ∧ (s.claim ch).target ≠ some c) →
          ∃ u, exec .forgetCarrier s = .next (closeStep u)
            ∧ u.car c = { state := .free, params := none, failures := 0, quality := none, rosterVersion := none,
                          stale := false, malformed := false, announced := [], carrying := none }
            ∧ (∀ p, (s.path p).carrier = some c → (s.path p).scan = true → (s.path p).state.working = true →
              LeavesCarrier s.now { s.path p with forgotten := true } (u.path p)
              ∧ ((s.path p).use = some .queue → c ∉ u.plan.underQueue))
            ∧ (∀ p, (s.path p).use ≠ some .carry ∨ (s.path p).state.working = false →
                ¬ ((s.path p).carrier = some c ∧ (s.path p).scan = true ∧ (s.path p).state.working = true) →
              u.path p = { s.path p with
                forgotten := (s.path p).forgotten || decide ((s.path p).carrier = some c) })
            ∧ (∀ i n, n = (if (s.car c).params.any (fun q => decide (q.input = i)) = true
                  then (s.inp i).carrierCount - 1 else (s.inp i).carrierCount) →
                u.inp i = { inputLeft s u (s.inp i) with carrierCount := n })
            ∧ (∃ l, u.plan.queue = s.plan.queue.filter (fun d => decide (d ≠ c)) ++ l ∧ c ∉ l)
            ∧ (∀ i, i ∈ (s.car c).announced → c ∈ (s.svc i).candidates →
              ∃ r, Departs s c (s.svc i) r
                ∧ u.svc i = { r with
                    generation := (s.svc i).generation + 1, changeEpoch := (u.svc i).changeEpoch })
            ∧ (∀ i, i ∉ (s.car c).announced ∨ c ∉ (s.svc i).candidates → u.svc i = s.svc i)
            ∧ (∀ q, (s.car c).params = some q →
                (u.inp q.input).carrierCount = (s.inp q.input).carrierCount - 1)
            ∧ u.rank.settings = s.rank.settings
            ∧ u.port = answeredPort e .done [] s ∧ u.inExec = none))

/-- R164, R184: the nineteen words of CARRIER INFO, and a page of the announced list by CARRIER SERVICES. -/
def Obligations.CarrierReports : Prop :=
  (∀ (s : State) (e : ReqEntry), Taken .carrierInfo e s →
    (192 ≤ (e.arg 0).toNat → Refuses .carrierInfo e .range s)
    ∧ ∀ c : CarrierIdx, (e.arg 0).toNat = c.val →
      exec .carrierInfo s = .next (answered e .done
        ([word c.val, word (s.car c).state.code]
          ++ (match (s.car c).params with
              | none => [0xFFFF, 0xFFFF, 0xFFFF, 0xFFFF, 0xFFFF, 0xFFFF]
              | some q => [word q.input.val, natWord (q.feed.map Feed.code), word (q.frequency / 65536),
                            word q.frequency, word q.rate, word q.modClass])
          ++ [word (s.car c).failures]
          ++ (match (s.car c).quality with
              | none => [0xFFFF, 0xFFFF, 0xFFFF, 0xFFFF, 0xFFFF, 0xFFFF]
              | some q => [q.lanes.level, q.lanes.margin, q.lanes.integrity, q.lanes.steadiness,
                            word (q.score / 65536), word q.score])
          ++ [idxWord (s.car c).rosterVersion,
              word ((if (s.car c).stale then 1 else 0) + (if (s.car c).malformed then 2 else 0)),
              word (s.car c).announced.length, idxWord (s.car c).carrying]) s))
  ∧ ∀ (s : State) (e : ReqEntry), Taken .carrierServices e s →
    (192 ≤ (e.arg 0).toNat ∨ 47 < (e.arg 1).toNat → Refuses .carrierServices e .range s)
    ∧ ∀ c : CarrierIdx, (e.arg 0).toNat = c.val → (e.arg 1).toNat ≤ 47 →
      exec .carrierServices s = .next (answered e .done
        ([word (s.car c).announced.length, e.arg 1]
          ++ (((s.car c).announced.drop (e.arg 1).toNat).take 16).flatMap
              (fun i => [word i.val, (s.svc i).generation])) s)

/-! ### Requests about service records -/

/-- R13, R14, R19, R168: ENROL: the suppressed key, the live record, and the slot that an allocation takes. UNSUPPRESS:
its refusal, and the key it removes. -/
def Obligations.EnrolAndUnsuppress : Prop :=
  (∀ (s : State) (e : ReqEntry) (k : Key), Taken .unsuppress e s → k = ⟨e.arg 0, e.arg 1⟩ →
    (k ∉ s.svcs.suppressed → Refuses .unsuppress e .absent s)
    ∧ (k ∈ s.svcs.suppressed → exec .unsuppress s = .next (answered e .done []
        { s with svcs := { s.svcs with suppressed := s.svcs.suppressed.filter (fun x => decide (x ≠ k)) } })))
  ∧ ∀ (s : State) (e : ReqEntry) (k : Key), Taken .enrol e s → k = ⟨e.arg 0, e.arg 1⟩ →
    (k ∈ s.svcs.suppressed → Refuses .enrol e .conflict s)
    ∧ (k ∉ s.svcs.suppressed →
      (∀ i, (s.svc i).state.live = true → (s.svc i).key = some k →
          (∀ j, (s.svc j).state ≠ .free → (s.svc j).key = some k → j = i) →
        exec .enrol s = .next (answered e .done [word i.val, (s.svc i).generation] s))
      ∧ (∀ i, (s.svc i).state = .retired → (s.svc i).key = some k →
          (∀ j, (s.svc j).state ≠ .free → (s.svc j).key = some k → j = i) →
        ∃ u, exec .enrol s = .next (closeStep u) ∧ OnlyRecord i s u
          ∧ u.svc i = { state := .provisional, key := some k, kind := (s.svc i).kind, name := (s.svc i).name,
                        generation := (s.svc i).generation + 1, changeEpoch := nextEpoch s.svcs.epoch,
                        candidates := [], selected := none, pin := none, challenger := none, claimCount := 0,
                        orphanAge := 0, overflow := 0 }
          ∧ u.port = answeredPort e .done [word i.val, (s.svc i).generation + 1] s ∧ u.inExec = none)
      ∧ ((∀ j, (s.svc j).state ≠ .free → (s.svc j).key ≠ some k) →
        (∀ i, ((s.svc i).state = .free ∧ (∀ j, j < i → (s.svc j).state ≠ .free)
              ∨ (∀ j, (s.svc j).state ≠ .free) ∧ (s.svc i).state = .retired
                ∧ ∀ j, (s.svc j).state = .retired → (s.svc i).changeEpoch < (s.svc j).changeEpoch
                    ∨ ((s.svc i).changeEpoch = (s.svc j).changeEpoch ∧ i ≤ j)) →
          ∃ u, exec .enrol s = .next (closeStep u) ∧ OnlyRecord i s u
            ∧ u.svc i = { state := .provisional, key := some k, kind := .unknown, name := none,
                          generation := (s.svc i).generation + 1, changeEpoch := nextEpoch s.svcs.epoch,
                          candidates := [], selected := none, pin := none, challenger := none, claimCount := 0,
                          orphanAge := 0, overflow := 0 }
            ∧ u.port = answeredPort e .done [word i.val, (s.svc i).generation + 1] s ∧ u.inExec = none)
        ∧ ((∀ j, (s.svc j).state.live = true) → Refuses .enrol e .full s)))

/-- R165, R184: the 36 words of LOOKUP, by index and by key. The packing of the two counts is the model's reading (log
14). -/
def Obligations.LookupReportsRecord : Prop :=
  ∀ (s : State) (e : ReqEntry), Taken .lookup e s →
    (1 < (e.arg 0).toNat ∨ (e.arg 0).toNat = 0 ∧ 512 ≤ (e.arg 1).toNat → Refuses .lookup e .range s)
    ∧ ((e.arg 0).toNat = 1 → (∀ j, (s.svc j).state ≠ .free → (s.svc j).key ≠ some ⟨e.arg 1, e.arg 2⟩) →
        Refuses .lookup e .absent s)
    ∧ ∀ (i : ServiceIdx), ((e.arg 0).toNat = 0 ∧ (e.arg 1).toNat = i.val
          ∨ (e.arg 0).toNat = 1 ∧ (s.svc i).state ≠ .free ∧ (s.svc i).key = some ⟨e.arg 1, e.arg 2⟩
            ∧ ∀ j, (s.svc j).state ≠ .free → (s.svc j).key = some ⟨e.arg 1, e.arg 2⟩ → j = i) →
      exec .lookup s = .next (answered e .done
        ([word i.val, word ((s.svc i).state.code * 256 + (s.svc i).kind.code), (s.svc i).generation]
          ++ (match (s.svc i).key with
              | none => [0xFFFF, 0xFFFF]
              | some k => [k.network, k.service])
          ++ [word ((s.svc i).changeEpoch.toNat / 65536), word (s.svc i).changeEpoch.toNat]
          ++ nameWords (s.svc i).name
          ++ [idxWord (s.svc i).selected, idxWord (s.svc i).pin, packed (s.svc i).claimCount (s.svc i).orphanAge,
              word (s.svc i).overflow,
              (match (s.svc i).challenger with
                | none => 0xFFFF
                | some k => packed k.carrier.val k.lead)]
          ++ (List.range 4).flatMap (fun n =>
              match (rankOrder s (s.svc i).candidates)[n]? with
              | none => [0xFFFF, 0xFFFF, 0xFFFF, 0xFFFF]
              | some c => [word c.val]
                  ++ (match (s.car c).quality with
                      | none => [0xFFFF, 0xFFFF]
                      | some q => [word (q.score / 65536), word q.score])
                  ++ [if eligible s c then 1 else 0])) s)

/-- R166, R167: the pages of LIST SERVICES and LIST CHANGED. That no change falls between the looks of one page is the
model's choice (log 30). -/
def Obligations.ListPages : Prop :=
  (∀ (s : State) (e : ReqEntry), Taken .listServices e s →
    (511 < (e.arg 0).toNat ∨ (e.arg 1 ≠ 0xFFFF ∧ ((e.arg 1).toNat = 0 ∨ 5 < (e.arg 1).toNat)) →
      Refuses .listServices e .range s)
    ∧ ((e.arg 0).toNat ≤ 511 → (e.arg 1 = 0xFFFF ∨ 1 ≤ (e.arg 1).toNat ∧ (e.arg 1).toNat ≤ 5) →
      exec .listServices s = .next (answered e .done
        ((((List.finRange 512).filter (fun i => decide ((e.arg 0).toNat ≤ i.val)
            && (if e.arg 1 = 0xFFFF then (s.svc i).state.live
                else decide ((s.svc i).state.code = (e.arg 1).toNat)))).take 10).flatMap
          (fun i => [word i.val, word ((s.svc i).state.code * 256 + (s.svc i).kind.code)]
            ++ keyWords (s.svc i).key)) s)))
  ∧ (∀ (s : State) (e : ReqEntry), Taken .listChanged e s →
    (511 < (e.arg 2).toNat → Refuses .listChanged e .range s)
    ∧ ((e.arg 2).toNat ≤ 511 → exec .listChanged s = .next (answered e .done
        ((((List.finRange 512).filter (fun i => decide ((e.arg 2).toNat ≤ i.val)
            && decide ((e.arg 0).toNat * 65536 + (e.arg 1).toNat < (s.svc i).changeEpoch.toNat))).take 10).flatMap
          (fun i => [word i.val, word ((s.svc i).state.code * 256 + (s.svc i).kind.code)]
            ++ keyWords (s.svc i).key)) s)))

/-- R72, R169: PIN: its checks in order, and the record it leaves. -/
def Obligations.PinChecksAndRecord : Prop :=
  ∀ (s : State) (e : ReqEntry), Taken .pin e s →
    (512 ≤ (e.arg 0).toNat ∨ 192 ≤ (e.arg 1).toNat → Refuses .pin e .range s)
    ∧ ∀ (i : ServiceIdx) (c : CarrierIdx), (e.arg 0).toNat = i.val → (e.arg 1).toNat = c.val →
      ((s.svc i).state = .free → Refuses .pin e .absent s)
      ∧ ((s.svc i).state ≠ .free → (s.svc i).generation ≠ e.arg 2 → Refuses .pin e .stale s)
      ∧ ((s.svc i).state ≠ .free → (s.svc i).generation = e.arg 2 →
        (c ∉ (s.svc i).candidates → Refuses .pin e .absent s)
        ∧ (c ∈ (s.svc i).candidates →
          (eligible s c = false → Refuses .pin e .conflict s)
          ∧ (eligible s c = true → (s.svc i).pin = some c →
              exec .pin s = .next (answered e .done [(s.svc i).generation] s))
          ∧ (eligible s c = true → (s.svc i).pin ≠ some c →
              ∃ u, exec .pin s = .next (closeStep u) ∧ OnlyRecord i s u
                ∧ u.svc i = { s.svc i with
                    pin := some c, selected := some c, challenger := none,
                    state := if s.rank.settings.floor ≤ score s c then .listed else .degraded,
                    generation := (s.svc i).generation + 1, changeEpoch := nextEpoch s.svcs.epoch }
                ∧ ((s.svc i).selected = some c → u.claims = s.claims)
                ∧ u.port = answeredPort e .done [(s.svc i).generation + 1] s ∧ u.inExec = none)))

/-- R73, R169: UNPIN: its refusals, and the record it leaves, evaluated without its pin in the same change. -/
def Obligations.UnpinClearsAndEvaluates : Prop :=
  ∀ (s : State) (e : ReqEntry), Taken .unpin e s →
    (512 ≤ (e.arg 0).toNat → Refuses .unpin e .range s)
    ∧ ∀ i : ServiceIdx, (e.arg 0).toNat = i.val →
      ((s.svc i).state = .free → Refuses .unpin e .absent s)
      ∧ ((s.svc i).state ≠ .free →
        ((s.svc i).pin = none → exec .unpin s = .next (answered e .done [(s.svc i).generation] s))
        ∧ ∀ c, (s.svc i).pin = some c → (s.svc i).selected = some c →
          ∃ u, exec .unpin s = .next (closeStep u) ∧ OnlyRecord i s u
            ∧ (eligible s c = true → (s.svc i).challenger = none →
              u.svc i = { s.svc i with
                pin := none, state := if s.rank.settings.floor ≤ score s c then .listed else .degraded,
                generation := (s.svc i).generation + 1, changeEpoch := nextEpoch s.svcs.epoch })
            ∧ (eligible s c = false → ∀ d, firstEligible s (s.svc i).candidates = some d →
              u.svc i = { s.svc i with
                pin := none, selected := some d, challenger := none,
                state := if s.rank.settings.floor ≤ score s d then .listed else .degraded,
                generation := (s.svc i).generation + 1, changeEpoch := nextEpoch s.svcs.epoch })
            ∧ (eligible s c = false → firstEligible s (s.svc i).candidates = none →
              u.svc i = { s.svc i with
                pin := none, challenger := none, state := .degraded,
                generation := (s.svc i).generation + 1, changeEpoch := nextEpoch s.svcs.epoch })
            ∧ u.port = answeredPort e .done [(s.svc i).generation + 1] s ∧ u.inExec = none)

/-- R16, R17, R18, R169: RETIRE: its checks in order, the tombstone it leaves, and the suppression list. -/
def Obligations.RetireLeavesTombstone : Prop :=
  ∀ (s : State) (e : ReqEntry), Taken .retire e s →
    (512 ≤ (e.arg 0).toNat ∨ 1 < (e.arg 2).toNat → Refuses .retire e .range s)
    ∧ ∀ i : ServiceIdx, (e.arg 0).toNat = i.val → (e.arg 2).toNat ≤ 1 →
      ((s.svc i).state = .free → Refuses .retire e .absent s)
      ∧ ((s.svc i).state ≠ .free → (s.svc i).generation ≠ e.arg 1 → Refuses .retire e .stale s)
      ∧ ((s.svc i).state ≠ .free → (s.svc i).generation = e.arg 1 →
        (0 < (s.svc i).claimCount → Refuses .retire e .inUse s)
        ∧ ∀ k, (s.svc i).claimCount = 0 → (s.svc i).key = some k →
          ((e.arg 2).toNat = 1 → k ∉ s.svcs.suppressed → 64 ≤ s.svcs.suppressed.length →
            Refuses .retire e .full s)
          ∧ ((e.arg 2).toNat = 0 ∨ k ∈ s.svcs.suppressed ∨ s.svcs.suppressed.length < 64 →
            ∃ u, exec .retire s = .next (closeStep u) ∧ u.inExec = none
              ∧ (∀ j, j ≠ i → u.svc j = s.svc j) ∧ u.rank = s.rank
              ∧ u.svcs.suppressed = (if (e.arg 2).toNat = 1 ∧ k ∉ s.svcs.suppressed then s.svcs.suppressed ++ [k]
                                      else s.svcs.suppressed)
              ∧ ((s.svc i).state = .retired → u.svc i = s.svc i
                ∧ u.port = answeredPort e .done [(s.svc i).generation] s)
              ∧ ((s.svc i).state.live = true →
                u.svc i = { s.svc i with
                  state := .retired, candidates := [], selected := none, pin := none, challenger := none,
                  orphanAge := 0, generation := (s.svc i).generation + 1,
                  changeEpoch := nextEpoch s.svcs.epoch }
                ∧ (∀ c, c ∈ (s.svc i).candidates → i ∉ (u.car c).announced)
                ∧ u.port = answeredPort e .done [(s.svc i).generation + 1] s)))

/-- R121, R170: REFRESH of a carrier and of a service: what joins the visit queue before the arbitration that ends the
step. -/
def Obligations.RefreshJoinsVisitQueue : Prop :=
  ∀ (s : State) (e : ReqEntry), Taken .refresh e s →
    (1 < (e.arg 0).toNat ∨ (e.arg 0).toNat = 0 ∧ 192 ≤ (e.arg 1).toNat
        ∨ (e.arg 0).toNat = 1 ∧ 512 ≤ (e.arg 1).toNat → Refuses .refresh e .range s)
    ∧ (∀ c : CarrierIdx, (e.arg 0).toNat = 0 → (e.arg 1).toNat = c.val → (s.car c).state = .free →
        Refuses .refresh e .absent s)
    ∧ (∀ i : ServiceIdx, (e.arg 0).toNat = 1 → (e.arg 1).toNat = i.val → (s.svc i).state = .free →
        Refuses .refresh e .absent s)
    ∧ ∀ add : List CarrierIdx,
      ((∃ c : CarrierIdx, (e.arg 0).toNat = 0 ∧ (e.arg 1).toNat = c.val ∧ (s.car c).state ≠ .free
          ∧ add = if (s.car c).carrying = none ∧ c ∉ s.plan.queue then [c] else [])
        ∨ (∃ i : ServiceIdx, (e.arg 0).toNat = 1 ∧ (e.arg 1).toNat = i.val ∧ (s.svc i).state ≠ .free
          ∧ add = (rankOrder s (s.svc i).candidates).filter (fun c =>
              (s.car c).carrying.isNone && decide (c ∉ s.plan.queue)))) →
      (16 < s.plan.queue.length + add.length → Refuses .refresh e .full s)
      ∧ (s.plan.queue.length + add.length ≤ 16 → exec .refresh s = .next (closeStep
          { s with
            port := answeredPort e .done [word (s.plan.queue.length + add.length)] s,
            plan := { s.plan with queue := s.plan.queue ++ add },
            arb := { s.arb with due := !add.isEmpty } }))

/-! ### Requests about claims and monitors, and STATUS -/

/-- R20, R128, R129, R173: CLAIM: its refusals, the claim it makes by the mode and the selection, and the claim count.
The response is written before the arbitration that ends the step. -/
def Obligations.ClaimChecksAndClaim : Prop :=
  ∀ (s : State) (e : ReqEntry), Taken .claim e s →
    (32 ≤ (e.arg 0).toNat ∨ 512 ≤ (e.arg 1).toNat → Refuses .claim e .range s)
    ∧ ∀ (ch : ChannelIdx) (i : ServiceIdx), (e.arg 0).toNat = ch.val → (e.arg 1).toNat = i.val →
      ((s.claim ch).state ≠ .free → Refuses .claim e .inUse s)
      ∧ ((s.claim ch).state = .free →
        ((s.svc i).state.live = false → Refuses .claim e .absent s)
        ∧ ((s.svc i).state.live = true →
          ∃ u, exec .claim s = .next (closeStep u) ∧ u.inExec = none
            ∧ u.svc i = { s.svc i with claimCount := (s.svc i).claimCount + 1 }
            ∧ (∀ j, j ≠ i → u.svc j = s.svc j)
            ∧ (∀ d, d ≠ ch → u.claim d = s.claim d) ∧ ch ∈ u.claims.changed
            ∧ u.carriers = s.carriers ∧ u.paths = s.paths ∧ u.inputs = s.inputs ∧ u.plan = s.plan
            ∧ u.rank = s.rank ∧ u.mons = s.mons
            ∧ u.port = answeredPort e .done
                [word (u.claim ch).state.code, natWord ((u.claim ch).reason.map Reason.code)] s
            ∧ (s.arb.mode ≠ .active → u.claim ch = .waiting i .standby)
            ∧ (s.arb.mode = .active → (s.svc i).selected = none → u.claim ch = .waiting i .noSource)
            ∧ ∀ c, s.arb.mode = .active → (s.svc i).selected = some c →
              (eligible s c = false → u.claim ch = .waiting i .noSource)
              ∧ (eligible s c = true → (s.car c).carrying = none → u.claim ch = .waiting i .noPath)
              ∧ ∀ p, eligible s c = true → (s.car c).carrying = some p →
                ((s.path p).state = .engaged → u.claim ch = ⟨.carrying, none, some i, some c, none, some p⟩)
                ∧ ((s.path p).state = .awaitTune ∨ (s.path p).state = .tuning →
                  u.claim ch = ⟨if (s.path p).lockTime = none then .acquiring else .recovering, none, some i, some c,
                    none, some p⟩)))

/-- R20, R79, R87, R99, R102 to R104, R127, R139, R173: RELEASE CLAIM of a FREE channel and of a claimed one; the
carrying path of a carrier that no claim holds any longer is abandoned or released, and every other path stands. The
inputs follow: a path at RECOVERY is detached, one that has left AWAIT-TUNE is off the wait list, and the others keep
their places. -/
def Obligations.ReleaseClaimFreesChannel : Prop :=
  ∀ (s : State) (e : ReqEntry), Taken .releaseClaim e s →
    (32 ≤ (e.arg 0).toNat → Refuses .releaseClaim e .range s)
    ∧ ∀ ch : ChannelIdx, (e.arg 0).toNat = ch.val →
      ((s.claim ch).service = none → exec .releaseClaim s = .next (answered e .done [] s))
      ∧ ∀ i, (s.claim ch).service = some i →
        ∃ u, exec .releaseClaim s = .next (closeStep u) ∧ u.inExec = none
          ∧ u.claim ch = { state := .free, reason := none, service := none, current := none, target := none,
                           path := none }
          ∧ (∀ d, d ≠ ch → u.claim d = s.claim d) ∧ ch ∈ u.claims.changed
          ∧ u.svc i = { s.svc i with claimCount := (s.svc i).claimCount - 1 }
          ∧ OnlyRecord i s u ∧ u.mons = s.mons
          ∧ (∀ x, (s.claim ch).current = some x ∨ (s.claim ch).target = some x → Unneeded u x → LetsGo s u x)
          ∧ (∀ q, (∀ x, (s.car x).carrying = some q → ¬ Unneeded u x) → u.path q = s.path q)
          ∧ InputsFollow s u
          ∧ (∀ x, (s.car x).carrying = none → (u.car x).carrying = none)
          ∧ u.port = answeredPort e .done [] s

/-- R174: CLAIM STATUS, and CLAIM CHANGES with its channels in order from lowest. -/
def Obligations.ClaimReports : Prop :=
  (∀ (s : State) (e : ReqEntry), Taken .claimStatus e s →
    (32 ≤ (e.arg 0).toNat → Refuses .claimStatus e .range s)
    ∧ ∀ ch : ChannelIdx, (e.arg 0).toNat = ch.val →
      exec .claimStatus s = .next (answered e .done
        [word ch.val, word (s.claim ch).state.code, natWord ((s.claim ch).reason.map Reason.code),
          idxWord (s.claim ch).service, idxWord (s.claim ch).current, idxWord (s.claim ch).target,
          idxWord (s.claim ch).path,
          (match (s.claim ch).target with
            | none => 0xFFFF
            | some b => idxWord (s.car b).carrying)] s))
  ∧ (∀ (s : State) (e : ReqEntry), Taken .claimChanges e s →
    exec .claimChanges s = .next
      { answered e .done (s.claims.changed.map (fun ch => word ch.val)) s with
        claims := { s.claims with changed := [] } })
  ∧ ∀ s : State, ChangedInOrder s →
    (s.claims.changed.map (fun ch => word ch.val)).Pairwise (fun a b => a.toNat < b.toNat)

/-- R175, R176, R180, R181: SET MONITOR, READ MONITORS and ACK ALERT, the pending alert, and what an occurrence does at
each monitor. -/
def Obligations.MonitorsCountAndReport : Prop :=
  (∀ (s : State) (x : Event) (i : Option ServiceIdx) (c : Option CarrierIdx) (m : MonitorIdx),
    ((s.mon m).select ≠ some x → (countEvent x i c s).mon m = s.mon m)
    ∧ ((s.mon m).select = some x →
      (65535 ≤ (s.mon m).count → (countEvent x i c s).mon m = s.mon m)
      ∧ ((s.mon m).count < 65535 →
        (0 < (s.mon m).threshold.toNat → (s.mon m).count + 1 = (s.mon m).threshold.toNat →
            (s.mon m).sample = none →
          (countEvent x i c s).mon m = { s.mon m with count := (s.mon m).count + 1, sample := some ⟨x, i, c⟩ })
        ∧ (¬ (0 < (s.mon m).threshold.toNat ∧ (s.mon m).count + 1 = (s.mon m).threshold.toNat
            ∧ (s.mon m).sample = none) →
          (countEvent x i c s).mon m = { s.mon m with count := (s.mon m).count + 1 }))))
  ∧ (∀ s : State, alertPending s = true ↔ ((∃ m, (s.mon m).sample ≠ none) ∨ s.claims.changed ≠ []))
  ∧ (∀ s : State, alertPending s = true → attention s = true)
  ∧ (∀ (s : State) (e : ReqEntry), Taken .setMonitor e s →
    (4 ≤ (e.arg 0).toNat ∨ 10 ≤ (e.arg 1).toNat → Refuses .setMonitor e .range s)
    ∧ ∀ (m : MonitorIdx) (sel : Option Event), (e.arg 0).toNat = m.val →
      (e.arg 1).toNat = (match sel with | none => 0 | some x => x.code) →
      exec .setMonitor s = .next (answered e .done []
        (s.setMon m { select := sel, count := 0, threshold := e.arg 2, sample := none })))
  ∧ (∀ (s : State) (e : ReqEntry), Taken .ackAlert e s →
    (4 ≤ (e.arg 0).toNat → Refuses .ackAlert e .range s)
    ∧ ∀ m : MonitorIdx, (e.arg 0).toNat = m.val →
      exec .ackAlert s = .next (answered e .done []
        (s.setMon m { select := (s.mon m).select, count := 0, threshold := (s.mon m).threshold, sample := none })))
  ∧ (∀ (s : State) (e : ReqEntry), Taken .readMonitors e s →
    exec .readMonitors s = .next (answered e .done
      ((List.finRange 4).flatMap (fun m =>
        [word (match (s.mon m).select with | none => 0 | some x => x.code), word (s.mon m).count, (s.mon m).threshold]
          ++ (match (s.mon m).sample with
              | none => [0xFFFF, 0xFFFF, 0xFFFF]
              | some x => [word x.event.code, idxWord x.service, idxWord x.carrier]))) s))

/-- R177, R149: the thirty words of STATUS, and the dropped-frame count it sets to 0. -/
def Obligations.StatusReportsPart : Prop :=
  ∀ (s : State) (e : ReqEntry), Taken .status e s →
    exec .status s = .next
      { s with port := { answeredPort e .done
        ([word s.arb.mode.code, if s.plan.sweepEnabled then 1 else 0, word s.arb.reserve]
          ++ [SvcState.free, .provisional, .listed, .degraded, .orphaned, .retired].map (fun st =>
              word (s.svcs.recs.toList.countP (fun r => decide (r.state = st))))
          ++ [word (s.carriers.toList.countP (fun r => decide (r.state ≠ .free)))]
          ++ [ClaimState.free, .waiting, .acquiring, .carrying, .handover, .recovering].map (fun st =>
              word (s.claims.recs.toList.countP (fun r => decide (r.state = st))))
          ++ [PathState.idle, .awaitTune, .tuning, .engaged, .dwell, .recovery].map (fun st =>
              word (s.paths.toList.countP (fun r => decide (r.state = st))))
          ++ [word (s.paths.toList.countP (fun r => decide (r.use = some .carry))), word s.plan.queue.length,
              s.plan.passCount, word (s.svcs.epoch.toNat / 65536), word s.svcs.epoch.toNat,
              word s.svcs.suppressed.length, word s.svcs.discoveryOverflow, word s.port.dropped]) s with
        dropped := 0 } }

/-! ### Inputs, paths and visits -/

/-- R81, R83, R84, R85, R92: the settle of a feed switch ends. A tune start goes to the head of the wait list at the
first moment that the budget allows, on an input that is STEADY; so the first and the fifth of five starts are at
least 40 ms apart. The clock moved to the event's moment is the model's choice (log 3); what the demodulator holds is
its reading (log 17). -/
def Obligations.InputEvents : Prop :=
  ∀ (s : State) (i : InputIdx),
    ((s.inp i).feedState = .steady → exec (.feedSettleEnd i) s = .next s)
    ∧ (∀ t, (s.inp i).feedState = .settling t →
      exec (.feedSettleEnd i) s = .next { s.setInp i { s.inp i with feedState := .steady } with now := max s.now t })
    ∧ ((s.inp i).waitList = [] ∨ (∃ t, (s.inp i).feedState = .settling t) → exec (.tuneStart i) s = .next s)
    ∧ ∀ (x : Waiter) (rest : List Waiter) (m : Nat), (s.inp i).waitList = x :: rest → (s.inp i).feedState = .steady →
      m = max s.now (max (match (s.inp i).history.getLast? with | some a => a + 4 | none => 0)
        (if (s.inp i).history.length < 4 then 0
          else match (s.inp i).history.head? with | some a => a + 40 | none => 0)) →
      (∀ a, (s.inp i).history.getLast? = some a → a + 4 ≤ m)
      ∧ (∀ a b c d, (s.inp i).history = [a, b, c, d] → a + 40 ≤ m)
      ∧ ∃ t, exec (.tuneStart i) s = .next t ∧ t.now = m
        ∧ t.inp i = { s.inp i with
            waitList := rest,
            history := (if (s.inp i).history.length < 4 then (s.inp i).history else (s.inp i).history.drop 1) ++ [m] }
        ∧ (∀ j, j ≠ i → t.inp j = s.inp j)
        ∧ t.path x.path = { s.path x.path with
            state := .tuning, lockTimer := some (m + 120),
            demod := match (s.path x.path).carrier with
              | some c => (s.car c).params
              | none => none }
        ∧ (∀ p, p ≠ x.path → t.path p = s.path p)
        ∧ t.port = s.port ∧ t.inExec = s.inExec ∧ t.svcs = s.svcs ∧ t.carriers = s.carriers ∧ t.rank = s.rank
        ∧ t.arb = s.arb ∧ t.plan = s.plan ∧ t.claims = s.claims ∧ t.mons = s.mons

/-- R25, R61, R92, R99, R136: the lock of a path in TUNING, on a scan path and in CARRY use, and the lock that is not
taken. A lock that makes a carrier with a vector eligible joins an evaluation report of its announced list and is told
to the claims; any other lock does neither. The moment of the next sample as a field is the model's reading (log 26). -/
def Obligations.LockEngagesPath : Prop :=
  ∀ (s : State) (p : PathIdx),
    ((s.path p).state ≠ .tuning → s.arb.due = false → exec (.lock p) s = .next s)
    ∧ ∀ c, (s.path p).state = .tuning → (s.path p).carrier = some c → (s.car c).state ≠ .free →
      ∃ v u, exec (.lock p) s = .next (closeStep u)
        ∧ ((s.path p).use ≠ some .carry → u = v)
        ∧ ((s.path p).use = some .carry → u = engagedToClaims p c v)
        ∧ v.path p = { s.path p with
            state := .engaged, lockTime := some s.now, lockHeld := true, relocks := 0,
            accum := ⟨0, none, false⟩, collection := some ⟨none, 0, [], false⟩, lockTimer := none,
            sampleDue := some (s.now + 20),
            listening := if (s.path p).use = some .carry then (s.path p).listening else true,
            rosterTimer := if (s.path p).use = some .carry then (s.path p).rosterTimer else some (s.now + 1500) }
        ∧ (∀ q, q ≠ p → v.path q = s.path q)
        ∧ v.car c = { s.car c with state := .live, failures := 0 }
        ∧ (∀ d, d ≠ c → v.car d = s.car d)
        ∧ v.svcs = s.svcs ∧ v.inputs = s.inputs ∧ v.plan = s.plan ∧ v.mons = s.mons ∧ v.port = s.port
        ∧ v.inExec = s.inExec ∧ v.now = s.now ∧ v.rank.settings = s.rank.settings
        ∧ ((s.car c).state ≠ .live → (s.car c).quality ≠ none →
          v.rank.evals = evalsWith s .eligibility c ∧ ToldEligibility s v c)
        ∧ ((s.car c).state = .live ∨ (s.car c).quality = none → v.rank.evals = s.rank.evals ∧ v.claims = s.claims)

/-- R79, R87, R99, R103, R104, R127, R131: the claims when a carrying path is engaged on a carrier: what each becomes;
HANDOVER DONE counted for each handover it completes, with the service and the carrier, in order of output channel; and
the carriers left that no claim holds any longer, which lose their path; the inputs follow. -/
def Obligations.EngagementToldToClaims : Prop :=
  ∀ (s t : State) (p : PathIdx) (c : CarrierIdx), t = engagedToClaims p c s →
    (∀ ch, ((s.claim ch).state = .acquiring ∨ (s.claim ch).state = .recovering →
        ((s.claim ch).path = some p → t.claim ch = { s.claim ch with state := .carrying })
        ∧ ((s.claim ch).path ≠ some p → t.claim ch = s.claim ch))
      ∧ (∀ i, (s.claim ch).state = .handover → (s.claim ch).service = some i →
        ((s.claim ch).target = some c → t.claim ch = ⟨.carrying, none, some i, some c, none, some p⟩)
        ∧ ((s.claim ch).target ≠ some c → t.claim ch = s.claim ch))
      ∧ ((s.claim ch).state = .free ∨ (s.claim ch).state = .waiting ∨ (s.claim ch).state = .carrying →
        t.claim ch = s.claim ch)
      ∧ ∀ x, (s.claim ch).state = .handover → (s.claim ch).service ≠ none → (s.claim ch).target = some c →
        (s.claim ch).current = some x → Unneeded t x → LetsGo s t x)
    ∧ t.mons = ((List.finRange 32).foldl (fun u ch =>
        if (s.claim ch).state = .handover ∧ (s.claim ch).service ≠ none ∧ (s.claim ch).target = some c then
          countEvent .handoverDone (s.claim ch).service (some c) u else u) s).mons
    ∧ (∀ q, (∀ x, (s.car x).carrying = some q → ¬ Unneeded t x) → t.path q = s.path q) ∧ InputsFollow s t
    ∧ t.svcs = s.svcs ∧ t.plan = s.plan ∧ t.rank = s.rank

/-- R71, R79, R87, R99, R103, R104, R127, R130, R133 to R135: a change of a service's selection is counted where a
carrier is selected, and told to each claim on the service once, in order of output channel from lowest: what the claim
becomes by its state, which event is counted, and which carriers that no claim holds any longer lose their path; the
inputs follow. -/
def Obligations.ClaimsFollowSelection : Prop :=
  (∀ (s : State) (i : ServiceIdx),
    (∀ d, (s.claim d).service ≠ some i → (reportSelection i s).claim d = s.claim d)
    ∧ (∀ ch, (s.claim ch).service = some i → (∀ d, d ≠ ch → (s.claim d).service ≠ some i) →
      (reportSelection i s).claim ch = (toldSelection ch i s).claim ch)
    ∧ (∀ v, v = (match (s.svc i).selected with
          | some x => countEvent .selectionChanged (some i) (some x) s
          | none => s) →
      reportSelection i s = ((List.finRange 32).filter (fun ch => decide ((s.claim ch).service = some i))).foldl
        (fun u ch => toldSelection ch i u) v)
    ∧ ((∀ d, (s.claim d).service ≠ some i) →
      ((s.svc i).selected = none → reportSelection i s = s)
      ∧ ∀ x, (s.svc i).selected = some x →
        reportSelection i s = countEvent .selectionChanged (some i) (some x) s))
  ∧ ∀ (s t : State) (ch : ChannelIdx) (i : ServiceIdx) (c : ClaimRec), c = s.claim ch → c.service = some i →
      t = toldSelection ch i s →
    (∀ d, d ≠ ch → t.claim d = s.claim d) ∧ t.svcs = s.svcs ∧ t.plan = s.plan
    ∧ (c.state = .waiting →
      (c.reason = some .standby → t = s) ∧ (c.reason ≠ some .standby → Examined s i (t.claim ch)))
    ∧ (c.state = .acquiring ∨ c.state = .recovering →
      ((s.svc i).selected = c.current → t = s)
      ∧ ((s.svc i).selected ≠ c.current →
        ((s.svc i).selected = none →
          Examined s i (t.claim ch) ∧ t.mons = (countEvent .claimWaiting (some i) none s).mons)
        ∧ ∀ x, (s.svc i).selected = some x →
          (∀ q, (s.car x).carrying = some q → Joins s i x q (t.claim ch) ∧ t.mons = s.mons)
          ∧ ((s.car x).carrying = none →
            Examined s i (t.claim ch) ∧ t.mons = (countEvent .claimWaiting (some i) none s).mons)))
    ∧ (c.state = .carrying →
      ((s.svc i).selected = c.current → t = s)
      ∧ ((s.svc i).selected ≠ c.current →
        ((s.svc i).selected = none →
          Examined s i (t.claim ch) ∧ t.mons = (countEvent .claimWaiting (some i) none s).mons)
        ∧ ∀ x, (s.svc i).selected = some x →
          (∀ q, (s.car x).carrying = some q → (s.path q).state = .engaged →
            t.claim ch = ⟨.carrying, none, some i, some x, none, some q⟩
            ∧ t.mons = (countEvent .handoverDone (some i) (some x) s).mons)
          ∧ ((∀ q, (s.car x).carrying = some q → (s.path q).state ≠ .engaged) →
            t.claim ch = { c with state := .handover, target := some x } ∧ t.mons = s.mons)))
    ∧ (c.state = .handover →
      ((s.svc i).selected = c.target → t = s)
      ∧ ((s.svc i).selected ≠ c.target →
        ((s.svc i).selected = none →
          Examined s i (t.claim ch) ∧ t.mons = (countEvent .claimWaiting (some i) none s).mons)
        ∧ ∀ x, (s.svc i).selected = some x →
          (c.current = some x → t.claim ch = { c with state := .carrying, target := none } ∧ t.mons = s.mons)
          ∧ (c.current ≠ some x →
            (∀ q, (s.car x).carrying = some q → (s.path q).state = .engaged →
              t.claim ch = ⟨.carrying, none, some i, some x, none, some q⟩
              ∧ t.mons = (countEvent .handoverDone (some i) (some x) s).mons)
            ∧ ((∀ q, (s.car x).carrying = some q → (s.path q).state ≠ .engaged) →
              t.claim ch = { c with state := .handover, target := some x } ∧ t.mons = s.mons))))
    ∧ (∀ x, c.state ≠ .free → c.state ≠ .waiting → c.current = some x ∨ c.state = .handover ∧ c.target = some x →
        Unneeded t x → LetsGo s t x)
    ∧ InputsFollow s t
    ∧ ∀ q, (∀ x, (s.car x).carrying = some q → ¬ Unneeded t x) → t.path q = s.path q

/-- R79, R87, R99, R103, R104, R127, R132, R137, R138: the claims when the acquisition of a carrier by a path has
failed, when a carry path on a carrier has lost lock, and when the relocks of a path are exhausted; each claim that
enters WAITING is counted, in order of output channel. A carrier that no claim holds after a carry lock loss loses its
path, and the inputs follow; the other two leave every path and every input as it is. -/
def Obligations.ClaimsAfterPathFailures : Prop :=
  ∀ (s : State) (p : PathIdx) (x : CarrierIdx),
    (∀ t, t = acquisitionFailedToClaims p x s →
      (∀ ch i, (s.claim ch).state = .acquiring → (s.claim ch).path = some p → (s.claim ch).service = some i →
        Examined s i (t.claim ch))
      ∧ (∀ ch, (s.claim ch).state ≠ .acquiring ∨ (s.claim ch).path ≠ some p → t.claim ch = s.claim ch)
      ∧ (∀ ch, (s.claim ch).state = .handover → (s.claim ch).target = some x → eligible s x = true →
        (s.car x).carrying = none → t.arb.due = true)
      ∧ t.mons = ((List.finRange 32).foldl (fun u ch =>
          if (s.claim ch).state = .acquiring ∧ (s.claim ch).path = some p ∧ (s.claim ch).service ≠ none then
            countEvent .claimWaiting (s.claim ch).service none u else u) s).mons
      ∧ t.paths = s.paths ∧ t.inputs = s.inputs ∧ t.carriers = s.carriers ∧ t.svcs = s.svcs)
    ∧ (∀ t, t = lockLossToClaims p x s →
      (∀ ch, (s.claim ch).state = .carrying → (s.claim ch).path = some p →
        t.claim ch = { s.claim ch with state := .recovering })
      ∧ (∀ ch i b, (s.claim ch).state = .handover → (s.claim ch).path = some p → (s.claim ch).service = some i →
          (s.claim ch).target = some b →
        (∀ q, (s.car b).carrying = some q → Joins s i b q (t.claim ch))
        ∧ ((s.car b).carrying = none → Examined s i (t.claim ch)))
      ∧ (∀ ch, (s.claim ch).path ≠ some p ∨ (s.claim ch).state ≠ .carrying ∧ (s.claim ch).state ≠ .handover →
        t.claim ch = s.claim ch)
      ∧ t.mons = ((List.finRange 32).foldl (fun u ch =>
          if (s.claim ch).state = .handover ∧ (s.claim ch).path = some p ∧ (s.claim ch).service ≠ none
              ∧ (s.claim ch).target.any (fun b => decide ((s.car b).carrying = none)) = true then
            countEvent .claimWaiting (s.claim ch).service none u else u) s).mons
      ∧ (Unneeded t x → LetsGo s t x)
      ∧ (¬ Unneeded t x → t.paths = s.paths ∧ t.carriers = s.carriers)
      ∧ InputsFollow s t ∧ t.svcs = s.svcs)
    ∧ (∀ t, t = exhaustedToClaims p s →
      (∀ ch i, (s.claim ch).state = .recovering → (s.claim ch).path = some p → (s.claim ch).service = some i →
        Examined s i (t.claim ch))
      ∧ (∀ ch, (s.claim ch).state ≠ .recovering ∨ (s.claim ch).path ≠ some p → t.claim ch = s.claim ch)
      ∧ t.mons = ((List.finRange 32).foldl (fun u ch =>
          if (s.claim ch).state = .recovering ∧ (s.claim ch).path = some p ∧ (s.claim ch).service ≠ none then
            countEvent .claimWaiting (s.claim ch).service none u else u) s).mons
      ∧ t.paths = s.paths ∧ t.inputs = s.inputs ∧ t.carriers = s.carriers ∧ t.svcs = s.svcs)

/-- R26, R27, R29, R61, R79, R84, R86, R93, R95, R103, R104, R122, R132, R136, R138, R179: the lock timer of a path in
TUNING expires: on a scan path, whose visit ends COMPLETED, on a carry path not yet locked in this visit, and at relock
attempts 1, 2 and 3, with what the claims on the path become; a further attempt is asked for on the wait list, and a
path that leaves its carrier is no longer its carrying path and is detached where it enters RECOVERY. VISIT FAILED is
counted with the carrier on a failed visit, and CLAIM WAITING for each claim that enters WAITING. Where the carrier
loses its eligibility by it, an evaluation report of its announced list joins and the WAITING claims on it are examined;
where it does not, neither happens, and no relock attempt changes anything of ranking or claims. The clock moved to the
timer's moment is the model's choice (log 3); what the demodulator holds is its reading (log 17). -/
def Obligations.LockTimerExpiry : Prop :=
  ∀ (s : State) (p : PathIdx),
    ((s.path p).state ≠ .tuning → s.arb.due = false → exec (.lockTimerExpiry p) s = .next s)
    ∧ ∀ (t : Nat) (c : CarrierIdx), (s.path p).state = .tuning → (s.path p).lockTimer = some t →
        (s.path p).carrier = some c → (s.car c).state ≠ .free →
      ((s.path p).lockTime = none →
        ∃ u, exec (.lockTimerExpiry p) s = .next (closeStep u) ∧ u.now = max s.now t
          ∧ (u.path p).state = .recovery ∧ (u.path p).recoveryEnd = some (max s.now t + 3)
          ∧ (u.path p).demod = none ∧ (∀ q, q ≠ p → u.path q = s.path q) ∧ InputsFollow s u
          ∧ (u.car c).failures = (if (s.car c).failures < 3 then (s.car c).failures + 1 else (s.car c).failures)
          ∧ (u.car c).state = (match (s.car c).state with
              | .unvisited => .silent
              | .live => if (u.car c).failures < 3 then .live else .lost
              | st => st)
          ∧ ToldLoss s u c
          ∧ (∀ ch, ¬ AwaitsCarrier s ch c →
            (s.path p).use ≠ some .carry ∨ (s.claim ch).state ≠ .acquiring ∨ (s.claim ch).path ≠ some p →
            u.claim ch = s.claim ch)
          ∧ ((s.path p).use = some .carry → (u.car c).carrying = none
            ∧ ∀ ch i, (s.claim ch).service = some i → s.arb.mode = .active →
              ((s.claim ch).state = .acquiring → (s.claim ch).path = some p → (s.svc i).selected = some c →
                u.claim ch = .waiting i
                  (if (u.car c).state = .live ∧ (s.car c).quality ≠ none then .noPath else .noSource))
              ∧ ((s.claim ch).state = .handover → u.claim ch = s.claim ch))
          ∧ ∀ v, v = countEvent .visitFailed none (some c) s →
            VisitEnds (s.path p).use c false v u
            ∧ ((s.path p).use = some .carry → u.plan = s.plan ∧ u.inExec = s.inExec ∧ u.port = s.port
              ∧ u.mons = ((List.finRange 32).foldl (fun w ch =>
                  if (s.claim ch).state = .acquiring ∧ (s.claim ch).path = some p ∧ (s.claim ch).service ≠ none then
                    countEvent .claimWaiting (s.claim ch).service none w else w) v).mons))
      ∧ ((s.path p).use = some .carry → (s.path p).lockTime ≠ none → (s.path p).relocks < 3 →
        ∃ u, exec (.lockTimerExpiry p) s = .next (closeStep u)
          ∧ u.path p = { s.path p with
              state := .awaitTune, relocks := (s.path p).relocks + 1, lockTimer := none, demod := none }
          ∧ (∀ q, q ≠ p → u.path q = s.path q)
          ∧ (∀ q, (s.car c).params = some q → AsksTune p (max s.now t) q.input s u)
          ∧ u.carriers = s.carriers ∧ u.claims = s.claims ∧ u.rank = s.rank ∧ u.mons = s.mons ∧ u.plan = s.plan)
      ∧ ((s.path p).use = some .carry → (s.path p).lockTime ≠ none → 3 ≤ (s.path p).relocks →
        ∃ u, exec (.lockTimerExpiry p) s = .next (closeStep u)
          ∧ (u.car c).state = .lost ∧ (u.car c).failures = 3 ∧ (u.car c).quality = (s.car c).quality
          ∧ (u.car c).carrying = none
          ∧ LeavesCarrier (max s.now t) { s.path p with lockTimer := none, demod := none } (u.path p)
          ∧ (u.path p).demod = none ∧ (∀ q, q ≠ p → u.path q = s.path q) ∧ InputsFollow s u ∧ u.plan = s.plan
          ∧ u.mons = ((List.finRange 32).foldl (fun w ch =>
              if (s.claim ch).state = .recovering ∧ (s.claim ch).path = some p ∧ (s.claim ch).service ≠ none then
                countEvent .claimWaiting (s.claim ch).service none w else w) s).mons
          ∧ ToldLoss s u c
          ∧ (∀ ch, ¬ AwaitsCarrier s ch c → (s.claim ch).state ≠ .recovering ∨ (s.claim ch).path ≠ some p →
            u.claim ch = s.claim ch)
          ∧ ∀ ch i, (s.claim ch).service = some i → s.arb.mode = .active →
            ((s.claim ch).state = .recovering → (s.claim ch).path = some p → (s.svc i).selected = some c →
              u.claim ch = .waiting i .noSource)
            ∧ ((s.claim ch).state = .handover → u.claim ch = s.claim ch))

/-- R26, R27, R47 to R51, R61, R79, R84, R86, R94, R95, R97, R98, R101, R103, R104, R122, R136, R179: a sample taken by
an ENGAGED path: gathered into a running burst; ending a burst of eight on a carry path and on a scan visit, whose work
ends with it where listening has ended; ending a burst at its half boundary where a cut is pending; showing a carry lock
loss, by which the path joins the wait list for a relock; and showing a loss on a scan visit, with what the failed visit
makes of the carrier, the evaluations and the claims, counted VISIT FAILED with the carrier. A path whose visit is over
goes to DWELL or RECOVERY by its lock time, and the inputs follow. A queue visit that ends at a half boundary, or by a
loss with a cut pending, is put back. The clock moved to the sample's moment is the model's choice (log 3); the moment
of the next sample as a field is its reading (log 26), and so is a demodulator that stays tuned through a carry lock
loss (log 17). -/
def Obligations.SampleTaken : Prop :=
  ∀ (s : State) (p : PathIdx) (x : Sample) (t : Nat) (c : CarrierIdx), s.arb.due = false →
    (s.path p).state = .engaged → (s.path p).sampleDue = some t → (s.path p).carrier = some c →
    (x.lockHeld = true → (s.path p).accum.count + 1 < 8 →
        ((s.path p).use = some .carry
          ∨ (s.path p).accum.burstDone = false ∧ ((s.path p).cutPending = false ∨ (s.path p).accum.count + 1 ≠ 4)) →
      exec (.sample p x) s = .next
        { s.setPath p { s.path p with
            sampleDue := some (t + 20),
            accum := { count := (s.path p).accum.count + 1, burstDone := false,
                       extremes := some (gathered (s.path p).accum.extremes x) } }
          with now := max s.now t })
    ∧ (x.lockHeld = true → (s.path p).use = some .carry → (s.path p).accum.count = 7 →
      exec (.sample p x) s = .next (closeStep (burstResult c true
        (lanesOf (gathered (s.path p).accum.extremes x))
        { s.setPath p { s.path p with sampleDue := some (t + 20), accum := ⟨0, none, false⟩ }
          with now := max s.now t })))
    ∧ (∀ (full : Bool) (v : State), x.lockHeld = true → (s.path p).use ≠ some .carry →
        (s.path p).accum.burstDone = false →
        v = burstResult c full (lanesOf (gathered (s.path p).accum.extremes x))
          { s.setPath p { s.path p with sampleDue := some (t + 20), accum := ⟨0, none, true⟩ }
            with now := max s.now t } →
      ((s.path p).accum.count = 7 → full = true → (s.path p).listening = true →
        exec (.sample p x) s = .next (closeStep v))
      ∧ ((s.path p).accum.count = 7 ∧ full = true ∧ (s.path p).listening = false
          ∨ (s.path p).accum.count = 3 ∧ (s.path p).cutPending = true ∧ full = false →
        ∃ u, exec (.sample p x) s = .next (closeStep u)
          ∧ LeavesCarrier (max s.now t) (v.path p) (u.path p) ∧ (∀ q, q ≠ p → u.path q = s.path q)
          ∧ InputsFollow s u
          ∧ u.carriers = v.carriers ∧ u.claims = v.claims ∧ u.svcs = s.svcs ∧ u.rank = v.rank
          ∧ VisitEnds (s.path p).use c (!full) s u))
    ∧ (x.lockHeld = true → (s.path p).use ≠ some .carry → (s.path p).accum.burstDone = true →
      exec (.sample p x) s = .next
        { s.setPath p { s.path p with sampleDue := some (t + 20) } with now := max s.now t })
    ∧ (x.lockHeld = false → (s.path p).use = some .carry →
      ∃ v, exec (.sample p x) s = .next (closeStep (lockLossToClaims p c v))
        ∧ v.path p = { s.path p with
            state := .awaitTune, relocks := 1, lockHeld := false, accum := ⟨0, none, false⟩, collection := none,
            sampleDue := none }
        ∧ (∀ q, q ≠ p → v.path q = s.path q)
        ∧ (∀ q, (s.car c).params = some q → AsksTune p (max s.now t) q.input s v)
        ∧ v.carriers = s.carriers ∧ v.claims = s.claims
        ∧ ∀ m, v.mon m = (countEvent .carryLockLoss none (some c) s).mon m)
    ∧ (x.lockHeld = false → (s.path p).use ≠ some .carry → (s.car c).state ≠ .free →
      ∃ u, exec (.sample p x) s = .next (closeStep u)
        ∧ LeavesCarrier (max s.now t) { s.path p with lockHeld := false } (u.path p)
        ∧ (u.path p).lockHeld = false ∧ (u.path p).accum = ⟨0, none, false⟩ ∧ (u.path p).collection = none
        ∧ (u.path p).listening = false ∧ (∀ q, q ≠ p → u.path q = s.path q) ∧ InputsFollow s u
        ∧ (u.car c).failures = (if (s.car c).failures < 3 then (s.car c).failures + 1 else (s.car c).failures)
        ∧ (u.car c).quality = (s.car c).quality
        ∧ (u.car c).state = (match (s.car c).state with
            | .unvisited => .silent
            | .live => if (u.car c).failures < 3 then .live else .lost
            | st => st)
        ∧ ToldLoss s u c
        ∧ (∀ ch, ¬ AwaitsCarrier s ch c → u.claim ch = s.claim ch)
        ∧ VisitEnds (s.path p).use c (s.path p).cutPending (countEvent .visitFailed none (some c) s) u)

/-- R28, R49, R53, R54, R61, R136: what a burst result makes of a LIVE carrier's vector and score; that a burst-caused
report of the services it announces joins the evaluations, and that a first vector, which makes the carrier eligible, is
told to the claims; that no other carrier and no carrier that is not LIVE takes it. -/
def Obligations.BurstResultSmoothsVector : Prop :=
  ∀ (s : State) (c : CarrierIdx) (full : Bool) (x : Lanes),
    ((s.car c).state ≠ .live → burstResult c full x s = s)
    ∧ ((s.car c).state = .live →
      (∀ d, d ≠ c → (burstResult c full x s).car d = s.car d)
      ∧ (burstResult c full x s).svcs = s.svcs ∧ (burstResult c full x s).paths = s.paths
      ∧ (burstResult c full x s).rank.settings = s.rank.settings
      ∧ (burstResult c full x s).rank.evals = evalsWith s .burst c
      ∧ ((s.car c).quality = none → ToldEligibility s (burstResult c full x s) c)
      ∧ ((s.car c).quality ≠ none → (burstResult c full x s).claims = s.claims)
      ∧ ∃ v : Lanes, (burstResult c full x s).car c = { s.car c with quality := some ⟨v,
            v.level.toNat * s.rank.settings.level.toNat / 65536
              + v.margin.toNat * s.rank.settings.margin.toNat / 65536
              + v.integrity.toNat * s.rank.settings.integrity.toNat / 65536
              + v.steadiness.toNat * s.rank.settings.steadiness.toNat / 65536⟩ }
          ∧ ((s.car c).quality = none → v = x)
          ∧ ∀ q, (s.car c).quality = some q →
            (full = true → v.level.toNat = (3 * q.lanes.level.toNat + x.level.toNat) / 4
              ∧ v.margin.toNat = (3 * q.lanes.margin.toNat + x.margin.toNat) / 4
              ∧ v.integrity.toNat = (3 * q.lanes.integrity.toNat + x.integrity.toNat) / 4
              ∧ v.steadiness.toNat = (3 * q.lanes.steadiness.toNat + x.steadiness.toNat) / 4)
            ∧ (full = false → v.level.toNat = (7 * q.lanes.level.toNat + x.level.toNat) / 8
              ∧ v.margin.toNat = (7 * q.lanes.margin.toNat + x.margin.toNat) / 8
              ∧ v.integrity.toNat = (7 * q.lanes.integrity.toNat + x.integrity.toNat) / 8
              ∧ v.steadiness.toNat = (7 * q.lanes.steadiness.toNat + x.steadiness.toNat) / 8))

/-- R30 to R34, R37 to R41, R61, R79, R94, R95, R103, R104, R122: what a collection takes from a section: a start or a
restart at another version, a change of the last number, a section already held, and a section held in section-number
order, its names as they are kept; and when a collection is complete. A section delivered to an ENGAGED path with a
collection: malformed, confirming, held without completing the collection, and completing it, so that the roster is
merged: the version change counted, the entries applied in order, the carrier gone from the services that no entry
names, the announced list rebuilt, and the services joined evaluated where the carrier is eligible; and a section that
finds no collection. The scan visit whose listening it ends after its burst ends COMPLETED, and the inputs follow its
path. The model's readings: a confirmation on a carry path (log 13), the merge as one step with its section (log 19),
and a key's second appearance (log 32). -/
def Obligations.AnnouncementSectionByKind : Prop :=
  (∀ (k : Collection) (x y : AnnSection),
      y = { x with entries := x.entries.map (fun e => { e with
        name := e.name.map (fun b => if 0x20 ≤ b.toNat ∧ b.toNat ≤ 0x7E then b else 0x3F) }) } →
    (k.version ≠ some x.version → k.take x = ⟨some x.version, x.last, [y], k.malformed⟩)
    ∧ (k.version = some x.version → x.last ≠ k.last → k.take x = { k with malformed := true })
    ∧ (k.version = some x.version → x.last = k.last → (∃ z ∈ k.held, z.number = x.number) → k.take x = k)
    ∧ (k.version = some x.version → x.last = k.last → (∀ z ∈ k.held, z.number ≠ x.number) →
      ∃ as bs, k.held = as ++ bs ∧ k.take x = { k with held := as ++ y :: bs })
    ∧ (k.held.Pairwise (fun a b => a.number < b.number) →
      (k.take x).held.Pairwise (fun a b => a.number < b.number))
    ∧ (k.complete = true ↔ k.version ≠ none ∧ ∀ n, n ≤ k.last → ∃ z ∈ k.held, z.number = n))
  ∧ ∀ (s : State) (p : PathIdx) (x : AnnSection), s.arb.due = false →
    ((s.path p).state ≠ .engaged ∨ (s.path p).collection = none → exec (.announcementSection p x) s = .next s)
    ∧ ∀ (c : CarrierIdx) (k : Collection), (s.path p).state = .engaged → (s.path p).collection = some k →
        (s.path p).carrier = some c →
      ((5 < x.number ∨ 5 < x.last ∨ x.last < x.number ∨ 8 < x.entries.length
          ∨ ∃ y ∈ x.entries, 16 < y.name.length) →
        exec (.announcementSection p x) s = .next
          (s.setPath p { s.path p with collection := some { k with malformed := true } }))
      ∧ (x.number ≤ 5 → x.last ≤ 5 → x.number ≤ x.last → x.entries.length ≤ 8 →
          (∀ y ∈ x.entries, y.name.length ≤ 16) →
        ((s.path p).use = some .carry → (s.car c).rosterVersion = some x.version → (s.car c).stale = false →
          exec (.announcementSection p x) s = .next
            (s.setPath p { s.path p with collection := some ⟨none, 0, [], false⟩ }))
        ∧ ((s.path p).use ≠ some .carry → (s.car c).rosterVersion = some x.version → (s.car c).stale = false →
            k.version ≠ some x.version →
          ∃ u, exec (.announcementSection p x) s = .next (closeStep u)
            ∧ (u.path p).listening = false ∧ (u.path p).collection = none
            ∧ (u.car c).malformed = k.malformed ∧ (u.car c).stale = false
            ∧ (u.car c).rosterVersion = (s.car c).rosterVersion ∧ (u.car c).announced = (s.car c).announced
            ∧ u.svcs = s.svcs ∧ (∀ q, q ≠ p → u.path q = s.path q) ∧ InputsFollow s u
            ∧ ((s.path p).accum.burstDone = true →
              LeavesCarrier s.now (s.path p) (u.path p) ∧ VisitEnds (s.path p).use c false s u)
            ∧ ((s.path p).accum.burstDone = false →
              (u.path p).state = .engaged ∧ u.plan = s.plan ∧ u.mons = s.mons))
        ∧ (¬ ((s.car c).rosterVersion = some x.version ∧ (s.car c).stale = false) → (k.take x).complete = false →
          exec (.announcementSection p x) s = .next
            (s.setPath p { s.path p with collection := some (k.take x) }))
        ∧ (¬ ((s.car c).rosterVersion = some x.version ∧ (s.car c).stale = false) → (k.take x).complete = true →
            (s.car c).state ≠ .free →
          ∃ u, exec (.announcementSection p x) s = .next (closeStep u)
            ∧ (u.car c).rosterVersion = some x.version ∧ (u.car c).stale = false
            ∧ (u.car c).malformed = (k.take x).malformed ∧ (u.car c).state = (s.car c).state
            ∧ (u.car c).quality = (s.car c).quality ∧ (u.car c).failures = (s.car c).failures
            ∧ InputsFollow s u
            ∧ (∀ d, d ≠ c → { u.car d with carrying := none } = { s.car d with carrying := none })
            ∧ (∀ keys : List Key,
                keys = (k.take x).held.flatMap (fun y => y.entries.map (fun e => ⟨y.network, e.service⟩)) →
              (∀ i ∈ (u.car c).announced, c ∈ (u.svc i).candidates ∧ ∃ y ∈ keys, (u.svc i).key = some y)
              ∧ ∀ i ∈ (s.car c).announced, (∀ y ∈ keys, (u.svc i).key ≠ some y) → c ∉ (u.svc i).candidates)
            ∧ ((s.path p).use ≠ some .carry → (u.path p).listening = false ∧ (u.path p).collection = none)
            ∧ ((s.path p).use = some .carry → (u.path p).state = .engaged →
                (u.path p).collection = some ⟨none, 0, [], false⟩)
            ∧ ∀ (es : List KeyedEntry) (keys : List Key) (w h t : State) (acc : State × List ServiceIdx)
                (l new : List ServiceIdx),
              es = (k.take x).held.flatMap (fun y => y.entries.map (fun e => ⟨⟨y.network, e.service⟩,
                (match e.kind with
                  | .television => .television | .radio => .radio | .data => .data | .other => .unknown), e.name⟩)) →
              keys = es.map (fun y => y.key) →
              w = s.setPath p (if (s.path p).use = some .carry
                then { s.path p with collection := some ⟨none, 0, [], false⟩ }
                else { s.path p with listening := false, collection := none, rosterTimer := none }) →
              h = (if (s.car c).rosterVersion = some x.version then w
                  else countEvent .rosterVersionChanged none (some c) w).setCar c
                { s.car c with
                  rosterVersion := some x.version, stale := false, malformed := (k.take x).malformed } →
              acc = mergeEntries c [] es (h, []) →
              t = ((s.car c).announced.filter (fun i => match (acc.1.svc i).key with
                | some y => decide (y ∉ keys)
                | none => true)).foldl (depart c) acc.1 →
              l = ((keys.filterMap (keyMap t)).filter (fun i => decide (c ∈ (t.svc i).candidates))).eraseDups →
              new = l.filter (fun i => decide (i ∈ acc.2)) →
              u.svcs = t.svcs ∧ u.mons = t.mons ∧ u.claims = t.claims ∧ (u.car c).announced = l
              ∧ ((s.path p).use ≠ some .carry → (s.path p).accum.burstDone = true →
                VisitEnds (s.path p).use c false t u)
              ∧ ((s.path p).use = some .carry ∨ (s.path p).accum.burstDone = false → u.plan = t.plan)
              ∧ u.rank.settings = s.rank.settings
              ∧ u.rank.evals = (if eligible s c = true ∧ new ≠ [] then s.rank.evals ++ [⟨.merge, some c, new⟩]
                                else s.rank.evals)
              ∧ ∀ i, (i ∈ (s.car c).announced → (∀ y ∈ keys, (acc.1.svc i).key ≠ some y) →
                  c ∈ (acc.1.svc i).candidates →
                  ∃ r, Departs s c (acc.1.svc i) r ∧ t.svc i = { r with
                    generation := (acc.1.svc i).generation + 1, changeEpoch := (t.svc i).changeEpoch })
                ∧ (i ∉ (s.car c).announced ∨ (∃ y ∈ keys, (acc.1.svc i).key = some y)
                    ∨ c ∉ (acc.1.svc i).candidates → t.svc i = acc.1.svc i)))

/-- R10, R12, R13, R20, R39, R41: what one roster entry does: to a suppressed key; to a live record, with the carrier
among its candidates, with room for it, and without; to a tombstone of its key; to a key that no record holds. An entry
whose key an earlier entry of the roster has asks no join of the record it finds; that it goes through the steps where
it finds none is the model's reading (log 32). -/
def Obligations.MergeEntryChangesRecord : Prop :=
  (∀ (c : CarrierIdx) (acc : State × List ServiceIdx) (seen : List Key) (x : KeyedEntry) (xs : List KeyedEntry),
    mergeEntries c seen [] acc = acc
    ∧ mergeEntries c seen (x :: xs) acc
      = mergeEntries c (x.key :: seen) xs (mergeEntry c (decide (x.key ∈ seen)) acc x))
  ∧ ∀ (s u : State) (c : CarrierIdx) (again : Bool) (l m : List ServiceIdx) (x : KeyedEntry),
      mergeEntry c again (s, l) x = (u, m) →
    (x.key ∈ s.svcs.suppressed → u = s ∧ m = l)
    ∧ (x.key ∉ s.svcs.suppressed →
      (∀ (i : ServiceIdx) (r : ServiceRec), (s.svc i).state.live = true → (s.svc i).key = some x.key →
          (∀ j, (s.svc j).state ≠ .free → (s.svc j).key = some x.key → j = i) →
          r = { s.svc i with kind := x.kind, name := some x.name } →
        (∀ j, j ≠ i → u.svc j = s.svc j)
        ∧ (again = true ∨ c ∈ (s.svc i).candidates → m = l ∧ (u.car c).announced = (s.car c).announced
          ∧ ((s.svc i).kind = x.kind → (s.svc i).name = some x.name → u.svc i = s.svc i)
          ∧ ((s.svc i).kind ≠ x.kind ∨ (s.svc i).name ≠ some x.name →
            u.svc i = { r with generation := (s.svc i).generation + 1, changeEpoch := nextEpoch s.svcs.epoch }))
        ∧ (again = false → c ∉ (s.svc i).candidates → (s.svc i).candidates.length < 4 →
          m = l ++ [i] ∧ (u.car c).announced = (s.car c).announced ++ [i]
          ∧ u.svc i = { r with
              candidates := (s.svc i).candidates ++ [c],
              state := if (s.svc i).state = .orphaned then .provisional else (s.svc i).state,
              orphanAge := if (s.svc i).state = .orphaned then 0 else (s.svc i).orphanAge,
              generation := (s.svc i).generation + 1, changeEpoch := nextEpoch s.svcs.epoch })
        ∧ (again = false → c ∉ (s.svc i).candidates → 4 ≤ (s.svc i).candidates.length →
          m = l ∧ (u.car c).announced = (s.car c).announced
          ∧ ∀ n, n = (if (s.svc i).overflow < 255 then (s.svc i).overflow + 1 else (s.svc i).overflow) →
            ((s.svc i).kind = x.kind → (s.svc i).name = some x.name → u.svc i = { s.svc i with overflow := n })
            ∧ ((s.svc i).kind ≠ x.kind ∨ (s.svc i).name ≠ some x.name →
              u.svc i = { r with
                overflow := n, generation := (s.svc i).generation + 1, changeEpoch := nextEpoch s.svcs.epoch })))
      ∧ (∀ i : ServiceIdx,
          ((s.svc i).state = .retired ∧ (s.svc i).key = some x.key
              ∧ (∀ j, (s.svc j).state ≠ .free → (s.svc j).key = some x.key → j = i)
            ∨ (∀ j, (s.svc j).state ≠ .free → (s.svc j).key ≠ some x.key)
              ∧ ((s.svc i).state = .free ∧ (∀ j, j < i → (s.svc j).state ≠ .free)
                ∨ (∀ j, (s.svc j).state ≠ .free) ∧ (s.svc i).state = .retired
                  ∧ ∀ j, (s.svc j).state = .retired → (s.svc i).changeEpoch < (s.svc j).changeEpoch
                      ∨ ((s.svc i).changeEpoch = (s.svc j).changeEpoch ∧ i ≤ j))) →
        m = l ++ [i] ∧ (u.car c).announced = (s.car c).announced ++ [i] ∧ (∀ j, j ≠ i → u.svc j = s.svc j)
        ∧ u.svc i = { state := .provisional, key := some x.key, kind := x.kind, name := some x.name,
                      generation := (s.svc i).generation + 1, changeEpoch := nextEpoch s.svcs.epoch,
                      candidates := [c], selected := none, pin := none, challenger := none, claimCount := 0,
                      orphanAge := 0, overflow := 0 })
      ∧ ((∀ j, (s.svc j).state ≠ .free → (s.svc j).key ≠ some x.key) → (∀ j, (s.svc j).state.live = true) →
        m = l ∧ u = { s with svcs := { s.svcs with
            discoveryOverflow := if s.svcs.discoveryOverflow < 65535 then s.svcs.discoveryOverflow + 1
                                 else s.svcs.discoveryOverflow } }))

/-- R35, R79, R94, R95, R103, R104, R122: the roster timeout of a path still listening, and the end COMPLETED of the
visit whose burst is done, its input following. The clock moved to the timeout's moment is the model's choice (log
3). -/
def Obligations.RosterTimeout : Prop :=
  ∀ (s : State) (p : PathIdx),
    ((s.path p).state ≠ .engaged ∨ (s.path p).rosterTimer = none → s.arb.due = false →
      exec (.rosterTimeout p) s = .next s)
    ∧ ∀ (t : Nat) (c : CarrierIdx) (k : Collection), (s.path p).state = .engaged → (s.path p).rosterTimer = some t →
        (s.path p).carrier = some c → (s.path p).collection = some k →
      ∃ u, exec (.rosterTimeout p) s = .next (closeStep u) ∧ u.now = max s.now t
        ∧ (u.path p).listening = false ∧ (u.path p).collection = none ∧ (u.path p).rosterTimer = none
        ∧ (∀ q, q ≠ p → u.path q = s.path q) ∧ InputsFollow s u
        ∧ { u.car c with carrying := none } = { s.car c with stale := true, malformed := k.malformed, carrying := none }
        ∧ u.svcs = s.svcs
        ∧ ((s.path p).accum.burstDone = false → (u.path p).state = .engaged ∧ u.plan = s.plan ∧ u.mons = s.mons)
        ∧ ((s.path p).accum.burstDone = true →
          LeavesCarrier (max s.now t) (s.path p) (u.path p) ∧ VisitEnds (s.path p).use c false s u)

/-- R79, R103, R104, R112: the end of a dwell, at which the path is detached, and the end of a recovery. The clock moved
to the event's moment is the model's choice (log 3); the fields kept until the recovery end are its reading (log 21), as
is what the demodulator holds (log 17). -/
def Obligations.DwellAndRecoveryEnd : Prop :=
  ∀ (s : State) (p : PathIdx) (t : Nat),
    ((s.path p).state = .dwell → (s.path p).dwellEnd = some t →
      ∃ u, exec (.dwellEnd p) s = .next (closeStep u) ∧ u.now = max s.now t ∧ u.arb = { s.arb with due := true }
        ∧ u.path p = { s.path p with
            state := .recovery, dwellEnd := none, recoveryEnd := some (max s.now t + 3), demod := none,
            cutPending := false, accum := ⟨0, none, false⟩, collection := none, listening := false,
            lockTimer := none, rosterTimer := none, sampleDue := none }
        ∧ (∀ q, q ≠ p → u.path q = s.path q)
        ∧ InputsFollow s u
        ∧ (∀ i, p ∉ (u.inp i).attached ∧ ∀ q, q ≠ p → (q ∈ (u.inp i).attached ↔ q ∈ (s.inp i).attached))
        ∧ u.svcs = s.svcs ∧ u.carriers = s.carriers ∧ u.claims = s.claims ∧ u.plan = s.plan ∧ u.port = s.port)
    ∧ ((s.path p).state = .recovery → (s.path p).recoveryEnd = some t →
      ∃ u, exec (.recoveryEnd p) s = .next (closeStep u) ∧ u.now = max s.now t ∧ u.arb.due = true
        ∧ u.path p = PathRec.powerOn
        ∧ (∀ q, q ≠ p → u.path q = s.path q) ∧ u.inputs = s.inputs
        ∧ u.svcs = s.svcs ∧ u.carriers = s.carriers ∧ u.claims = s.claims ∧ u.plan = s.plan
        ∧ (s.arb.mode ≠ .stopping ∨ (∃ q, q ≠ p ∧ (s.path q).state ≠ .idle) →
            u.arb.mode = s.arb.mode ∧ u.inExec = s.inExec ∧ u.port = s.port)
        ∧ (s.arb.mode = .stopping → (∀ q, q ≠ p → (s.path q).state = .idle) → u.arb.mode = .standby
            ∧ ∀ h sup, s.inExec = some ⟨h, sup, .standby⟩ → u.inExec = none
              ∧ u.port.respFifo = s.port.respFifo ++ (if sup then [] else [responseHeader h .done, 0])))
    ∧ ((s.path p).state ≠ .dwell → s.arb.due = false → exec (.dwellEnd p) s = .next s)
    ∧ ((s.path p).state ≠ .recovery → s.arb.due = false → exec (.recoveryEnd p) s = .next s)

/-! ### Ranking -/

/-- R60: the rank order holds every candidate as often as the list does; the eligible ones stand first, by score and
then by the lower index; the others follow in the order of the list. -/
def Obligations.RankOrderByScore : Prop :=
  ∀ (s : State) (l : List CarrierIdx), (rankOrder s l).Perm l
    ∧ ∃ a, rankOrder s l = a ++ l.filter (fun c => !eligible s c) ∧ (∀ c ∈ a, eligible s c = true)
      ∧ (l.Nodup → a.Pairwise (fun c d => score s d < score s c ∨ score s d = score s c ∧ c < d))

/-- R60, R62 to R68: what an evaluation makes of a record, course by course. A carrier is in the mask where it is an
eligible candidate other than the selection, with a score above the selection's score by more than the margin; the best
of the mask is the first of it in rank order. The verdict is LISTED where the selection is eligible with a score not
below the floor. -/
def Obligations.EvaluationByCourse : Prop :=
  ∀ (s : State) (burst : Bool) (r : ServiceRec) (ok : CarrierIdx → SvcState) (mask : CarrierIdx → CarrierIdx → Prop),
    (∀ c, ok c = if eligible s c = true ∧ s.rank.settings.floor ≤ score s c then .listed else .degraded) →
    (∀ sel d, mask sel d ↔ d ∈ r.candidates ∧ eligible s d = true ∧ d ≠ sel
      ∧ score s sel + s.rank.settings.beatMargin.toNat < score s d) →
    (∀ c, r.pin = some c →
      evaluated s burst r = { r with selected := some c, challenger := none, state := ok c })
    ∧ (r.pin = none → r.selected = none →
      ((∀ d ∈ r.candidates, eligible s d = false) → evaluated s burst r = r)
      ∧ ∀ c, RanksFirst s r.candidates c →
        evaluated s burst r = { r with selected := some c, challenger := none, state := ok c })
    ∧ (∀ sel, r.pin = none → r.selected = some sel → eligible s sel = false →
      ((∀ d ∈ r.candidates, eligible s d = false) →
        evaluated s burst r = { r with challenger := none, state := .degraded })
      ∧ ∀ c, RanksFirst s r.candidates c →
        evaluated s burst r = { r with selected := some c, challenger := none, state := ok c })
    ∧ (∀ sel, r.pin = none → r.selected = some sel → eligible s sel = true →
      ((∀ d, ¬ mask sel d) → evaluated s burst r = { r with challenger := none, state := ok sel })
      ∧ ∀ b, mask sel b → (∀ d, mask sel d → score s d < score s b ∨ score s d = score s b ∧ b ≤ d) →
        (burst = false → r.challenger = none → evaluated s burst r = { r with state := ok sel })
        ∧ (∀ k, burst = false → r.challenger = some k →
          evaluated s burst r = { r with challenger := if b = k.carrier then some k else none, state := ok sel })
        ∧ (∀ n, burst = true →
            n = (match r.challenger with | some k => if k.carrier = b then k.lead + 1 else 1 | none => 1) →
          (s.rank.settings.persistence ≤ n →
            evaluated s burst r = { r with selected := some b, challenger := none, state := ok b })
          ∧ (n < s.rank.settings.persistence →
            evaluated s burst r = { r with challenger := some ⟨b, n⟩, state := ok sel })))

/-- R6, R7, R58, R61, R70, R71, R163: SERVICE_EVALUATION takes the first record of an outstanding report that no older
report names, and leaves it evaluated and stamped, or as it is where the record is no longer live, is ORPHANED, or no
longer holds the report's carrier as a candidate. A changed selection is told to the claims. A record that enters
DEGRADED offers its other candidates to the visit queue; that the claims are told before the offers is the model's
choice (log 11). Nothing else changes. A held SET RANKING completes DONE with its eight result words when no evaluation
of its own is left. The naming of a report by its place is the model's reading (log 7), and so is SET RANKING held until
its evaluations have been taken (log 8). -/
def Obligations.ServiceEvaluationTakesRecord : Prop :=
  ∀ (s : State) (n : Nat) (q : EvalReport) (i : ServiceIdx) (rest : List ServiceIdx), s.rank.evals[n]? = some q →
    q.services = i :: rest → (∀ m x, m < n → s.rank.evals[m]? = some x → i ∉ x.services) →
    ∃ u, exec (.serviceEvaluation n) s = .next (closeStep u) ∧ (∀ j, j ≠ i → u.svc j = s.svc j)
      ∧ u.rank.settings = s.rank.settings
      ∧ u.rank.evals = (if rest = [] then s.rank.evals.eraseIdx n
                        else s.rank.evals.set n { q with services := rest })
      ∧ (¬ EvaluationMade q (s.svc i) → u.svc i = s.svc i
        ∧ u = { s with rank := u.rank, inExec := u.inExec, port := u.port })
      ∧ (EvaluationMade q (s.svc i) →
        ∀ r, r = evaluated s (decide (q.cause = .burst))
              (if q.cause = .setRanking then { s.svc i with challenger := none } else s.svc i) →
          (r.state = (s.svc i).state → r.selected = (s.svc i).selected →
            u.svc i = { r with generation := (s.svc i).generation, changeEpoch := (s.svc i).changeEpoch })
          ∧ (r.state ≠ (s.svc i).state ∨ r.selected ≠ (s.svc i).selected →
            u.svc i = { r with generation := (s.svc i).generation + 1, changeEpoch := nextEpoch s.svcs.epoch })
          ∧ (∀ v w x : State, v = { s with svcs := u.svcs, rank := u.rank } →
              w = (if r.selected = (s.svc i).selected then v else reportSelection i v) →
              x = (if r.state = .degraded ∧ (s.svc i).state ≠ .degraded then
                  ((rankOrder s r.candidates).filter (fun d => decide (r.selected ≠ some d))).foldl offer w else w) →
            u = { x with inExec := u.inExec, port := u.port })
          ∧ (r.state ≠ .degraded ∨ (s.svc i).state = .degraded → u.plan = s.plan)
          ∧ ∀ add, r.state = .degraded → (s.svc i).state ≠ .degraded → r.selected = (s.svc i).selected →
              r.candidates.Nodup →
              add = (rankOrder s r.candidates).filter (fun d =>
                decide (r.selected ≠ some d) && (s.car d).carrying.isNone && decide (d ∉ s.plan.queue)) →
              s.plan.queue.length + add.length ≤ 16 →
            u.plan = { s.plan with queue := s.plan.queue ++ add })
      ∧ (∀ h sup, s.inExec = some ⟨h, sup, .setRanking⟩ →
        ((∃ x ∈ u.rank.evals, x.cause = .setRanking) → u.inExec = s.inExec ∧ u.port = s.port)
        ∧ ((∀ x ∈ u.rank.evals, x.cause ≠ .setRanking) → u.inExec = none
          ∧ u.port = { s.port with respFifo := s.port.respFifo ++ (if sup then [] else
              [responseHeader h .done, 8, s.rank.settings.level, s.rank.settings.margin, s.rank.settings.integrity,
                s.rank.settings.steadiness, s.rank.settings.beatMargin, word s.rank.settings.persistence,
                word (s.rank.settings.floor / 65536), word s.rank.settings.floor]) }))
      ∧ ((∀ h sup, s.inExec ≠ some ⟨h, sup, .setRanking⟩) → u.inExec = s.inExec ∧ u.port = s.port)

/-- R70, R71, R95, R121, R122, R123: the visit queue when a scan visit ends, by its use and kind; when the carrying path
of a carrier is set; and when the Ranking Engine offers a carrier, as a record that enters DEGRADED does with each
candidate other than its selection, in rank order, its changed selection told to the claims first (the model's choice,
log 11). -/
def Obligations.VisitQueueChanges : Prop :=
  (∀ (s : State) (c : CarrierIdx) (k : VisitEnd),
    visitEndReport .sweep c k s = s
    ∧ ∀ rest, rest = s.plan.underQueue.filter (fun d => decide (d ≠ c)) →
      (k = .completed ∨ k = .converted ∨ k = .abandonedByForget →
        visitEndReport .queue c k s = visitEnded c { s with plan := { s.plan with underQueue := rest } })
      ∧ (k = .cut ∨ k = .abandonedByStandby →
        (c ∈ s.plan.queue → visitEndReport .queue c k s = { s with plan := { s.plan with
          queue := c :: s.plan.queue.filter (fun d => decide (d ≠ c)), underQueue := rest } })
        ∧ (c ∉ s.plan.queue → s.plan.queue.length < 16 → visitEndReport .queue c k s = { s with
          plan := { s.plan with queue := c :: s.plan.queue, underQueue := rest }, arb := { s.arb with due := true } })
        ∧ ∀ l z, c ∉ s.plan.queue → 16 ≤ s.plan.queue.length → s.plan.queue = l ++ [z] →
          visitEndReport .queue c k s = countEvent .visitQueueFull none (some z) { s with
            plan := { s.plan with queue := c :: l, underQueue := rest }, arb := { s.arb with due := true } }))
  ∧ (∀ (s : State) (c : CarrierIdx),
    (c ∉ s.plan.queue → queueCarried c s = s)
    ∧ (c ∈ s.plan.queue → queueCarried c s = visitEnded c { s with plan := { s.plan with
        queue := s.plan.queue.filter (fun d => decide (d ≠ c)) } }))
  ∧ (∀ (s : State) (c : CarrierIdx),
    ((s.car c).carrying ≠ none ∨ c ∈ s.plan.queue → offer s c = s)
    ∧ ((s.car c).carrying = none → c ∉ s.plan.queue →
      (s.plan.queue.length < 16 → offer s c = { s with
        plan := { s.plan with queue := s.plan.queue ++ [c] }, arb := { s.arb with due := true } })
      ∧ (16 ≤ s.plan.queue.length → offer s c = countEvent .visitQueueFull none (some c) s)))
  ∧ ∀ (s : State) (i : ServiceIdx) (r : ServiceRec), ∃ v, v = { s with svcs := v.svcs }
      ∧ (∀ k, k ≠ i → v.svc k = s.svc k)
      ∧ ∀ w, w = (if r.selected = (s.svc i).selected then v else reportSelection i v) →
        ((s.svc i).state ≠ .degraded → r.state = .degraded → applyChange i r s
          = ((rankOrder s r.candidates).filter (fun d => decide (r.selected ≠ some d))).foldl offer w)
        ∧ ((s.svc i).state = .degraded ∨ r.state ≠ .degraded → applyChange i r s = w)

/-! ### What the end of a step does -/

/-- R79 to R81, R84, R91, R119, R120: scan work for the lowest-numbered IDLE path: none; the first grantable entry of
the visit queue; or the sweep's carrier, at or after the cursor, or from index 0 with the end of a pass; which carriers
are grantable being spelt out. The granted path is attached and takes its place on the wait list. -/
def Obligations.ScanGrantTakesWork : Prop :=
  ∀ s : State,
    ((∀ p, (s.path p).state ≠ .idle) → scanGrant s = none)
    ∧ ∀ p, (s.path p).state = .idle → (∀ q, q < p → (s.path q).state ≠ .idle) →
      ((∀ c, ¬ Grantable s c) → scanGrant s = none)
      ∧ ((∀ c ∈ s.plan.queue, ¬ Grantable s c) → s.plan.sweepEnabled = false → scanGrant s = none)
      ∧ (∀ (as bs : List CarrierIdx) (c : CarrierIdx) (k : CarrierParams), s.plan.queue = as ++ c :: bs →
          (∀ d ∈ as, ¬ Grantable s d) → Grantable s c → (s.car c).params = some k →
        ∃ t, scanGrant s = some t ∧ Granted p .queue c k s t ∧ t.carriers = s.carriers
          ∧ t.plan = { s.plan with
              queue := s.plan.queue.filter (fun d => decide (d ≠ c)), underQueue := s.plan.underQueue ++ [c] }
          ∧ t.svcs = s.svcs ∧ t.claims = s.claims ∧ t.port = s.port ∧ t.inExec = s.inExec)
      ∧ ∀ (c : CarrierIdx) (k : CarrierParams), ServicesShaped s → (∀ d ∈ s.plan.queue, ¬ Grantable s d) →
          s.plan.sweepEnabled = true → Grantable s c → (s.car c).params = some k →
        (s.plan.cursor ≤ c → (∀ d, s.plan.cursor ≤ d → d < c → ¬ Grantable s d) →
          ∃ t, scanGrant s = some t ∧ Granted p .sweep c k s t ∧ t.plan.cursor.val = (c.val + 1) % 192
            ∧ t.plan.queue = s.plan.queue ∧ t.plan.underQueue = s.plan.underQueue
            ∧ (c.val ≠ 191 → t.plan.passCount = s.plan.passCount ∧ t.svcs = s.svcs)
            ∧ (c.val = 191 → t.plan.passCount = s.plan.passCount + 1 ∧ ∀ i, Aged (s.svc i) (t.svc i)))
        ∧ (c < s.plan.cursor → (∀ d, s.plan.cursor ≤ d → ¬ Grantable s d) →
            (∀ d, d < c → ¬ Grantable s d) →
          ∃ t, scanGrant s = some t ∧ Granted p .sweep c k s t ∧ t.plan.cursor.val = (c.val + 1) % 192
            ∧ t.plan.queue = s.plan.queue ∧ t.plan.underQueue = s.plan.underQueue
            ∧ t.plan.passCount = s.plan.passCount + 1 ∧ ∀ i, Aged (s.svc i) (t.svc i))

/-- R29, R51, R79, R84, R91, R105, R106, R113, R115, R116, R117, R130: how a claim item that names a carrier is served:
a scan path at work on the carrier is converted, a path in DWELL that holds its lock is resumed, and the claim waits
NO-PATH where the reserve limit bars that or the lock is lost; with no path on the carrier, the claim waits NO-PATH at
the limit and FEED-CONFLICT where the carrier is feed-blocked, and else the lowest-numbered IDLE path is granted CARRY
use, attached and put in its place on the wait list. A conversion and a resumption leave every input as it is. A
conversion of an ENGAGED path and a resumption are told to the claims as an engagement, by which the demand of the
HANDOVER claims to the carrier departs, so that the claims are served afresh (log 34). The clearing of listening and the
collection kept are the model's reading (log 24), as is the moment of a resumed path's next sample (log 15). -/
def Obligations.ClaimItemServed : Prop :=
  ∀ (s : State) (ch : ChannelIdx) (c : CarrierIdx),
    (∀ p, pathOn s c = some p → (s.path p).scan = true → (s.path p).state.working = true →
        (s.path p).forgotten = false →
      (8 - s.arb.reserve ≤ carryCount s →
        (serveItem ch c s).claim ch = unserved s ch .noPath ∧ (serveItem ch c s).paths = s.paths)
      ∧ (carryCount s < 8 - s.arb.reserve →
        ∃ v w, serveItem ch c s = { w with arb := { w.arb with
            cuts := w.arb.cuts.filter (fun x => decide (x.1 ≠ ch)) } }
        ∧ ((s.path p).state ≠ .engaged → w = v)
        ∧ ((s.path p).state = .engaged → w = engagedToClaims p c v
          ∧ ((∃ d, HandoverDemand s d c) → w.arb.due = true))
        ∧ v.path p = { s.path p with
            use := some .carry, cutPending := false, rosterTimer := none, listening := false,
            accum := { (s.path p).accum with burstDone := false },
            collection := if (s.path p).state = .engaged then
                some (match (s.path p).collection with | some k => k | none => ⟨none, 0, [], false⟩)
              else (s.path p).collection }
        ∧ (∀ q, q ≠ p → v.path q = s.path q)
        ∧ v.car c = { s.car c with carrying := some p } ∧ (∀ d, d ≠ c → v.car d = s.car d)
        ∧ v.inputs = s.inputs ∧ c ∉ v.plan.queue ∧ ((s.path p).use = some .queue → c ∉ v.plan.underQueue)
        ∧ WaitersJoin s v c p ∧ v.arb.cuts = s.arb.cuts.filter (fun x => decide (x.2 ≠ p))))
    ∧ (∀ p, pathOn s c = some p → (s.path p).state = .dwell →
      ((s.path p).lockHeld = false ∨ (s.path p).use ≠ some .carry ∧ 8 - s.arb.reserve ≤ carryCount s →
        (serveItem ch c s).claim ch = unserved s ch .noPath ∧ (serveItem ch c s).paths = s.paths)
      ∧ ((s.path p).lockHeld = true → (s.path p).forgotten = false →
          (s.path p).use = some .carry ∨ carryCount s < 8 - s.arb.reserve →
        ∃ v w, serveItem ch c s = { w with arb := { w.arb with
            cuts := w.arb.cuts.filter (fun x => decide (x.1 ≠ ch)) } }
        ∧ w = engagedToClaims p c v ∧ ((∃ d, HandoverDemand s d c) → w.arb.due = true)
        ∧ v.path p = { s.path p with
            state := .engaged, use := some .carry, dwellEnd := none, accum := ⟨0, none, false⟩,
            collection := some ⟨none, 0, [], false⟩,
            sampleDue := match (s.path p).lockTime with
              | some a => some (a + 20 * ((s.now - a) / 20 + 1))
              | none => none }
        ∧ (∀ q, q ≠ p → v.path q = s.path q)
        ∧ v.car c = { s.car c with carrying := some p } ∧ (∀ d, d ≠ c → v.car d = s.car d)
        ∧ v.inputs = s.inputs ∧ c ∉ v.plan.queue
        ∧ WaitersJoin s v c p ∧ v.arb.cuts = s.arb.cuts.filter (fun x => decide (x.2 ≠ p))))
    ∧ (pathOn s c = none →
      (8 - s.arb.reserve ≤ carryCount s →
        (serveItem ch c s).claim ch = unserved s ch .noPath ∧ (serveItem ch c s).paths = s.paths)
      ∧ ∀ k, carryCount s < 8 - s.arb.reserve → (s.car c).params = some k →
        ((s.inp k.input).kind = .satellite → k.feed ≠ some (s.inp k.input).feed → (s.inp k.input).attached ≠ [] →
          (serveItem ch c s).claim ch = unserved s ch .feedConflict
          ∧ ((∃ x ∈ s.arb.cuts, x.1 = ch) ∨ (∃ q ∈ (s.inp k.input).attached, (s.path q).scan = false) →
            (serveItem ch c s).paths = s.paths ∧ (serveItem ch c s).arb.cuts = s.arb.cuts))
        ∧ ((s.inp k.input).kind ≠ .satellite ∨ k.feed = some (s.inp k.input).feed
              ∨ ((s.inp k.input).attached = [] ∧ k.feed ≠ none) →
          (∀ p, (s.path p).state = .idle → (∀ q, q < p → (s.path q).state ≠ .idle) →
            Granted p .carry c k s (serveItem ch c s)
            ∧ (serveItem ch c s).car c = { s.car c with carrying := some p }
            ∧ c ∉ (serveItem ch c s).plan.queue ∧ WaitersJoin s (serveItem ch c s) c p
            ∧ ∀ x ∈ (serveItem ch c s).arb.cuts, x ∈ s.arb.cuts ∧ x.1 ≠ ch)
          ∧ ((∀ p, (s.path p).state ≠ .idle) →
            (serveItem ch c s).claim ch = unserved s ch .noPath
            ∧ ((∃ x ∈ s.arb.cuts, x.1 = ch) →
              (serveItem ch c s).paths = s.paths ∧ (serveItem ch c s).arb.cuts = s.arb.cuts))))

/-- R79, R87, R95, R100, R101, R103, R104, R117, R118, R122: the cuts taken for a claim item under the reserve limit
that has no outstanding cuts, names a carrier with no path on it and is not granted one: of every scan path at work that
holds the feed of a feed-blocked carrier; or of one scan path, the lowest-numbered in AWAIT-TUNE or TUNING, else the
lowest-numbered in ENGAGED with cut-pending clear. Each becomes an outstanding cut and is counted, and the carrier of a
queue visit that it ends CUT is put back at the head of the visit queue. The inputs follow the paths cut. That the cuts
on one input are taken lowest path first is the model's choice (log 29). -/
def Obligations.CutsForClaim : Prop :=
  ∀ (s t : State) (ch : ChannelIdx) (c : CarrierIdx) (k : CarrierParams), t = serveItem ch c s → pathOn s c = none →
      carryCount s < 8 - s.arb.reserve → (∀ x ∈ s.arb.cuts, x.1 ≠ ch) → (s.car c).params = some k →
    (∀ l, (s.inp k.input).kind = .satellite → k.feed ≠ some (s.inp k.input).feed → (s.inp k.input).attached ≠ [] →
        (∀ q ∈ (s.inp k.input).attached, (s.path q).scan = true) →
        l = (s.inp k.input).attached.filter (fun q => (s.path q).state.working && !(s.path q).cutPending) →
      (∀ q ∈ l, CutTaken s.now (s.path q) (t.path q)) ∧ (∀ q, q ∉ l → t.path q = s.path q) ∧ InputsFollow s t
      ∧ t.arb.cuts = s.arb.cuts ++ l.map (fun q => (ch, q)) ∧ t.carriers = s.carriers
      ∧ (∀ m, (s.mon m).select = some .preemption →
        t.mon m = (l.foldl (fun u q => countEvent .preemption none (s.path q).carrier u) s).mon m)
      ∧ (AttachedInOrder s → t.plan = (l.foldl (fun u q => cutCounted (s.path q) u) s).plan
        ∧ t.mons = (l.foldl (fun u q => cutCounted (s.path q) u) s).mons))
    ∧ ((s.inp k.input).kind ≠ .satellite ∨ k.feed = some (s.inp k.input).feed
          ∨ ((s.inp k.input).attached = [] ∧ k.feed ≠ none) →
        (∀ p, (s.path p).state ≠ .idle) →
      (∀ p, (s.path p).scan = true → (s.path p).cutPending = false →
          ((s.path p).state = .awaitTune ∨ (s.path p).state = .tuning)
              ∧ (∀ q, q < p → (s.path q).scan = true → (s.path q).state ≠ .awaitTune ∧ (s.path q).state ≠ .tuning)
            ∨ (s.path p).state = .engaged
              ∧ (∀ q, (s.path q).scan = true → (s.path q).state ≠ .awaitTune ∧ (s.path q).state ≠ .tuning)
              ∧ (∀ q, q < p → (s.path q).scan = true → (s.path q).state = .engaged → (s.path q).cutPending = true) →
        CutTaken s.now (s.path p) (t.path p) ∧ (∀ q, q ≠ p → t.path q = s.path q) ∧ InputsFollow s t
        ∧ t.arb.cuts = s.arb.cuts ++ [(ch, p)] ∧ t.carriers = s.carriers
        ∧ t.plan = (cutCounted (s.path p) s).plan ∧ t.mons = (cutCounted (s.path p) s).mons)
      ∧ ((∀ p, (s.path p).scan = true → (s.path p).state ≠ .awaitTune ∧ (s.path p).state ≠ .tuning
            ∧ ((s.path p).state = .engaged → (s.path p).cutPending = true)) →
        t.paths = s.paths ∧ t.inputs = s.inputs ∧ t.arb.cuts = s.arb.cuts))

/-- R115, R124: the arbitration that ends a step: none where nothing called for one; no grant, conversion, resumption or
cut outside ACTIVE; what it leaves of the tables in every mode; and scan work offered a path only where serving the
claims has brought about nothing to serve them afresh for. The rounds are the model's choice (log 12). -/
def Obligations.ArbitrationFrame : Prop :=
  ∀ s : State, (s.arb.due = false → closeStep s = s) ∧ (closeStep s).arb.due = false
    ∧ (s.arb.mode ≠ .active → (closeStep s).paths = s.paths ∧ (closeStep s).claims = s.claims
      ∧ (closeStep s).inputs = s.inputs ∧ (closeStep s).plan = s.plan ∧ (closeStep s).svcs = s.svcs)
    ∧ (∀ i, (s.svc i).state ≠ .orphaned → (closeStep s).svc i = s.svc i)
    ∧ (∀ c, { (closeStep s).car c with carrying := none } = { s.car c with carrying := none })
    ∧ (∀ i, ((closeStep s).inp i).kind = (s.inp i).kind
      ∧ ((closeStep s).inp i).carrierCount = (s.inp i).carrierCount
      ∧ ((closeStep s).inp i).history = (s.inp i).history)
    ∧ (closeStep s).rank = s.rank ∧ (closeStep s).arb.reserve = s.arb.reserve ∧ (closeStep s).now = s.now
    ∧ (closeStep s).svcs.suppressed = s.svcs.suppressed
    ∧ (closeStep s).plan.sweepEnabled = s.plan.sweepEnabled
    ∧ (s.inExec = none → (closeStep s).port = s.port ∧ (closeStep s).inExec = none)
    ∧ ∀ v, v = serveItems handoverItem (serveItems acquisitionItem (pruneCuts s)) →
      (v.arb.due = true → arbitrateOnce s = pruneCuts v)
      ∧ (v.arb.due = false → arbitrateOnce s = pruneCuts (scanGrants 8 v))

/-! ### Invariants -/

/-- R2 to R5, R18, R20: every step keeps every service record as its state requires, no key held by two records that
are not FREE, no suppressed key held by a live record, and every claim count the number of claims on its record. -/
def Obligations.ServiceRecordsStayShaped : Prop :=
  (∀ s t : State, ServicesShaped s → step s = .next t → ServicesShaped t)
  ∧ (∀ s t : State, KeysDistinct s → step s = .next t → KeysDistinct t)
  ∧ (∀ s t : State, ServicesShaped s → KeysDistinct s → NoneSuppressedLive s → step s = .next t →
    NoneSuppressedLive t)
  ∧ ∀ s t : State, ServicesShaped s → ClaimsShaped s → ClaimsCounted s → step s = .next t → ClaimsCounted t

/-- R126: every step keeps every claim as its state requires. -/
def Obligations.ClaimsStayShaped : Prop :=
  ∀ s t : State, ClaimsShaped s → step s = .next t → ClaimsShaped t

/-- R113, R114: every step keeps the paths in CARRY use within eight minus the scan reserve. -/
def Obligations.CarryStaysWithinReserve : Prop :=
  ∀ s t : State, CarryWithinReserve s → step s = .next t → CarryWithinReserve t

/-- R83: every step keeps the tuning budget of every input: the history holds at most four starts, no two of them less
than 4 ms apart; and a step leaves a history as it is, empties it at a power-on reset, or appends one start, at least 4
ms after the latest and at least 40 ms after the first of four. -/
def Obligations.TuningBudgetKept : Prop :=
  ∀ s t : State, step s = .next t →
    (BudgetsKept s → BudgetsKept t)
    ∧ ∀ i, (t.inp i).history = (s.inp i).history ∨ (t.inp i).history = []
      ∨ ∃ m, (t.inp i).history
            = (if (s.inp i).history.length < 4 then (s.inp i).history else (s.inp i).history.drop 1) ++ [m]
          ∧ (∀ a, (s.inp i).history.getLast? = some a → a + 4 ≤ m)
          ∧ ∀ a b c d, (s.inp i).history = [a, b, c, d] → a + 40 ≤ m

/-- R7, R18, R79, R84, R121, R141: every step keeps the change epochs within the table epoch, the suppression list and
the visit queue within their sizes and free of duplicates, the changed-claims set and the paths attached to each input
in order, none twice, and every wait list in grant order; and none leaves an arbitration due (log 12). -/
def Obligations.ListsStayBounded : Prop :=
  (∀ s t : State, EpochsBounded s → step s = .next t → EpochsBounded t)
  ∧ (∀ s t : State, SuppressionBounded s → step s = .next t → SuppressionBounded t)
  ∧ (∀ s t : State, QueueBounded s → step s = .next t → QueueBounded t)
  ∧ (∀ s t : State, ServicesShaped s → QueueDistinct s → step s = .next t → QueueDistinct t)
  ∧ (∀ s t : State, ChangedInOrder s → step s = .next t → ChangedInOrder t)
  ∧ (∀ s t : State, AttachedInOrder s → step s = .next t → AttachedInOrder t)
  ∧ (∀ s t : State, WaitersInOrder s → step s = .next t → WaitersInOrder t)
  ∧ (∀ s t : State, s.arb.due = false → step s = .next t → t.arb.due = false)

/-- R145, R146, R148, R151: every step keeps both FIFOs within 64 words, the room of the request in execution
included. -/
def Obligations.FifosStayBounded : Prop :=
  (∀ s t : State, RequestsFit s → step s = .next t → RequestsFit t)
  ∧ (∀ s t : State, ChangedInOrder s → ResponsesFit s → step s = .next t → ResponsesFit t)

/-- Every invariant holds at reset, those of the service, carrier and claim tables, the inputs, the planner and the
request port. That no arbitration is due is a clause about the model's own mark (log 12). -/
def Obligations.InvariantsAtReset : Prop :=
  State.reset.arb.due = false ∧ ServicesShaped State.reset ∧ ClaimsShaped State.reset
    ∧ KeysDistinct State.reset ∧ NoneSuppressedLive State.reset ∧ ClaimsCounted State.reset
    ∧ CarryWithinReserve State.reset ∧ BudgetsKept State.reset ∧ EpochsBounded State.reset
    ∧ SuppressionBounded State.reset ∧ QueueBounded State.reset ∧ QueueDistinct State.reset
    ∧ ChangedInOrder State.reset ∧ AttachedInOrder State.reset ∧ WaitersInOrder State.reset
    ∧ RequestsFit State.reset ∧ ResponsesFit State.reset ∧ AttentionInRange State.reset
end

