-- ==== Sys2Proof/Laws/State.lean ====
section
/-! SUPPORT. What each update of one part of the state leaves: one lemma per field and per update, so that no proof
unfolds a record update or a table's indexing; and what the reads of a table by index answer. -/

namespace Sys2Proof.Machine

/-! ### Reading back a record that was written -/

@[simp] theorem State.svc_setSvc (s : State) (i j : ServiceIdx) (r : ServiceRec) :
    (s.setSvc i r).svc j = if i = j then r else s.svc j := by
  simp [State.svc, State.setSvc, Vector.getElem_set, Fin.ext_iff]

@[simp] theorem State.car_setCar (s : State) (c d : CarrierIdx) (r : CarrierRec) :
    (s.setCar c r).car d = if c = d then r else s.car d := by
  simp [State.car, State.setCar, Vector.getElem_set, Fin.ext_iff]

@[simp] theorem State.inp_setInp (s : State) (i j : InputIdx) (r : InputRec) :
    (s.setInp i r).inp j = if i = j then r else s.inp j := by
  simp [State.inp, State.setInp, Vector.getElem_set, Fin.ext_iff]

@[simp] theorem State.path_setPath (s : State) (p q : PathIdx) (r : PathRec) :
    (s.setPath p r).path q = if p = q then r else s.path q := by
  simp [State.path, State.setPath, Vector.getElem_set, Fin.ext_iff]

@[simp] theorem State.mon_setMon (s : State) (m n : MonitorIdx) (r : Monitor) :
    (s.setMon m r).mon n = if m = n then r else s.mon n := by
  simp [State.mon, State.setMon, Vector.getElem_set, Fin.ext_iff]

@[simp] theorem State.car_modCar (s : State) (c d : CarrierIdx) (f : CarrierRec → CarrierRec) :
    (s.modCar c f).car d = if c = d then f (s.car c) else s.car d := by
  simp [State.modCar]

@[simp] theorem State.inp_modInp (s : State) (i j : InputIdx) (f : InputRec → InputRec) :
    (s.modInp i f).inp j = if i = j then f (s.inp i) else s.inp j := by
  simp [State.modInp]

@[simp] theorem State.path_modPath (s : State) (p q : PathIdx) (f : PathRec → PathRec) :
    (s.modPath p f).path q = if p = q then f (s.path p) else s.path q := by
  simp [State.modPath]

/-! ### A table changed alike -/

@[simp] theorem getElem_vmap {α : Type} {n : Nat} (f : α → α) (v : Vector α n) (i : Nat) (h : i < n) :
    (vmap f v)[i] = f v[i] := by
  simp [vmap, Vector.toList]

/-! ### The fields an update leaves -/

section SetSvc
variable (s : State) (i : ServiceIdx) (r : ServiceRec)
@[simp] theorem State.port_setSvc : (s.setSvc i r).port = s.port := rfl
@[simp] theorem State.inExec_setSvc : (s.setSvc i r).inExec = s.inExec := rfl
@[simp] theorem State.carriers_setSvc : (s.setSvc i r).carriers = s.carriers := rfl
@[simp] theorem State.rank_setSvc : (s.setSvc i r).rank = s.rank := rfl
@[simp] theorem State.inputs_setSvc : (s.setSvc i r).inputs = s.inputs := rfl
@[simp] theorem State.paths_setSvc : (s.setSvc i r).paths = s.paths := rfl
@[simp] theorem State.arb_setSvc : (s.setSvc i r).arb = s.arb := rfl
@[simp] theorem State.plan_setSvc : (s.setSvc i r).plan = s.plan := rfl
@[simp] theorem State.claims_setSvc : (s.setSvc i r).claims = s.claims := rfl
@[simp] theorem State.mons_setSvc : (s.setSvc i r).mons = s.mons := rfl
@[simp] theorem State.now_setSvc : (s.setSvc i r).now = s.now := rfl
@[simp] theorem State.pending_setSvc : (s.setSvc i r).pending = s.pending := rfl
@[simp] theorem State.epoch_setSvc : (s.setSvc i r).svcs.epoch = s.svcs.epoch := rfl
@[simp] theorem State.suppressed_setSvc : (s.setSvc i r).svcs.suppressed = s.svcs.suppressed := rfl
@[simp] theorem State.overflow_setSvc : (s.setSvc i r).svcs.discoveryOverflow = s.svcs.discoveryOverflow := rfl
@[simp] theorem State.car_setSvc (c : CarrierIdx) : (s.setSvc i r).car c = s.car c := rfl
@[simp] theorem State.inp_setSvc (j : InputIdx) : (s.setSvc i r).inp j = s.inp j := rfl
@[simp] theorem State.path_setSvc (p : PathIdx) : (s.setSvc i r).path p = s.path p := rfl
@[simp] theorem State.claim_setSvc (ch : ChannelIdx) : (s.setSvc i r).claim ch = s.claim ch := rfl
@[simp] theorem State.mon_setSvc (m : MonitorIdx) : (s.setSvc i r).mon m = s.mon m := rfl
end SetSvc

section SetCar
variable (s : State) (i : CarrierIdx) (r : CarrierRec)
@[simp] theorem State.port_setCar : (s.setCar i r).port = s.port := rfl
@[simp] theorem State.inExec_setCar : (s.setCar i r).inExec = s.inExec := rfl
@[simp] theorem State.svcs_setCar : (s.setCar i r).svcs = s.svcs := rfl
@[simp] theorem State.rank_setCar : (s.setCar i r).rank = s.rank := rfl
@[simp] theorem State.inputs_setCar : (s.setCar i r).inputs = s.inputs := rfl
@[simp] theorem State.paths_setCar : (s.setCar i r).paths = s.paths := rfl
@[simp] theorem State.arb_setCar : (s.setCar i r).arb = s.arb := rfl
@[simp] theorem State.plan_setCar : (s.setCar i r).plan = s.plan := rfl
@[simp] theorem State.claims_setCar : (s.setCar i r).claims = s.claims := rfl
@[simp] theorem State.mons_setCar : (s.setCar i r).mons = s.mons := rfl
@[simp] theorem State.now_setCar : (s.setCar i r).now = s.now := rfl
@[simp] theorem State.pending_setCar : (s.setCar i r).pending = s.pending := rfl
@[simp] theorem State.svc_setCar (j : ServiceIdx) : (s.setCar i r).svc j = s.svc j := rfl
@[simp] theorem State.inp_setCar (j : InputIdx) : (s.setCar i r).inp j = s.inp j := rfl
@[simp] theorem State.path_setCar (p : PathIdx) : (s.setCar i r).path p = s.path p := rfl
@[simp] theorem State.claim_setCar (ch : ChannelIdx) : (s.setCar i r).claim ch = s.claim ch := rfl
@[simp] theorem State.mon_setCar (m : MonitorIdx) : (s.setCar i r).mon m = s.mon m := rfl
end SetCar

section SetInp
variable (s : State) (i : InputIdx) (r : InputRec)
@[simp] theorem State.port_setInp : (s.setInp i r).port = s.port := rfl
@[simp] theorem State.inExec_setInp : (s.setInp i r).inExec = s.inExec := rfl
@[simp] theorem State.svcs_setInp : (s.setInp i r).svcs = s.svcs := rfl
@[simp] theorem State.carriers_setInp : (s.setInp i r).carriers = s.carriers := rfl
@[simp] theorem State.rank_setInp : (s.setInp i r).rank = s.rank := rfl
@[simp] theorem State.paths_setInp : (s.setInp i r).paths = s.paths := rfl
@[simp] theorem State.arb_setInp : (s.setInp i r).arb = s.arb := rfl
@[simp] theorem State.plan_setInp : (s.setInp i r).plan = s.plan := rfl
@[simp] theorem State.claims_setInp : (s.setInp i r).claims = s.claims := rfl
@[simp] theorem State.mons_setInp : (s.setInp i r).mons = s.mons := rfl
@[simp] theorem State.now_setInp : (s.setInp i r).now = s.now := rfl
@[simp] theorem State.pending_setInp : (s.setInp i r).pending = s.pending := rfl
@[simp] theorem State.svc_setInp (j : ServiceIdx) : (s.setInp i r).svc j = s.svc j := rfl
@[simp] theorem State.car_setInp (c : CarrierIdx) : (s.setInp i r).car c = s.car c := rfl
@[simp] theorem State.path_setInp (p : PathIdx) : (s.setInp i r).path p = s.path p := rfl
@[simp] theorem State.claim_setInp (ch : ChannelIdx) : (s.setInp i r).claim ch = s.claim ch := rfl
@[simp] theorem State.mon_setInp (m : MonitorIdx) : (s.setInp i r).mon m = s.mon m := rfl
end SetInp

section ModInp
variable (s : State) (i : InputIdx) (f : InputRec → InputRec)
@[simp] theorem State.now_modInp : (s.modInp i f).now = s.now := rfl
@[simp] theorem State.pending_modInp : (s.modInp i f).pending = s.pending := rfl
@[simp] theorem State.port_modInp : (s.modInp i f).port = s.port := rfl
@[simp] theorem State.inExec_modInp : (s.modInp i f).inExec = s.inExec := rfl
@[simp] theorem State.arb_modInp : (s.modInp i f).arb = s.arb := rfl
end ModInp

section SetPath
variable (s : State) (i : PathIdx) (r : PathRec)
@[simp] theorem State.port_setPath : (s.setPath i r).port = s.port := rfl
@[simp] theorem State.inExec_setPath : (s.setPath i r).inExec = s.inExec := rfl
@[simp] theorem State.svcs_setPath : (s.setPath i r).svcs = s.svcs := rfl
@[simp] theorem State.carriers_setPath : (s.setPath i r).carriers = s.carriers := rfl
@[simp] theorem State.rank_setPath : (s.setPath i r).rank = s.rank := rfl
@[simp] theorem State.inputs_setPath : (s.setPath i r).inputs = s.inputs := rfl
@[simp] theorem State.arb_setPath : (s.setPath i r).arb = s.arb := rfl
@[simp] theorem State.plan_setPath : (s.setPath i r).plan = s.plan := rfl
@[simp] theorem State.claims_setPath : (s.setPath i r).claims = s.claims := rfl
@[simp] theorem State.mons_setPath : (s.setPath i r).mons = s.mons := rfl
@[simp] theorem State.now_setPath : (s.setPath i r).now = s.now := rfl
@[simp] theorem State.pending_setPath : (s.setPath i r).pending = s.pending := rfl
@[simp] theorem State.svc_setPath (j : ServiceIdx) : (s.setPath i r).svc j = s.svc j := rfl
@[simp] theorem State.car_setPath (c : CarrierIdx) : (s.setPath i r).car c = s.car c := rfl
@[simp] theorem State.inp_setPath (j : InputIdx) : (s.setPath i r).inp j = s.inp j := rfl
@[simp] theorem State.claim_setPath (ch : ChannelIdx) : (s.setPath i r).claim ch = s.claim ch := rfl
@[simp] theorem State.mon_setPath (m : MonitorIdx) : (s.setPath i r).mon m = s.mon m := rfl
end SetPath

section SetMon
variable (s : State) (i : MonitorIdx) (r : Monitor)
@[simp] theorem State.port_setMon : (s.setMon i r).port = s.port := rfl
@[simp] theorem State.inExec_setMon : (s.setMon i r).inExec = s.inExec := rfl
@[simp] theorem State.svcs_setMon : (s.setMon i r).svcs = s.svcs := rfl
@[simp] theorem State.carriers_setMon : (s.setMon i r).carriers = s.carriers := rfl
@[simp] theorem State.rank_setMon : (s.setMon i r).rank = s.rank := rfl
@[simp] theorem State.inputs_setMon : (s.setMon i r).inputs = s.inputs := rfl
@[simp] theorem State.paths_setMon : (s.setMon i r).paths = s.paths := rfl
@[simp] theorem State.arb_setMon : (s.setMon i r).arb = s.arb := rfl
@[simp] theorem State.plan_setMon : (s.setMon i r).plan = s.plan := rfl
@[simp] theorem State.claims_setMon : (s.setMon i r).claims = s.claims := rfl
@[simp] theorem State.now_setMon : (s.setMon i r).now = s.now := rfl
@[simp] theorem State.pending_setMon : (s.setMon i r).pending = s.pending := rfl
end SetMon

/-! ### Claims, arbitration and responses -/

@[simp] theorem claim_setClaim (s : State) (ch d : ChannelIdx) (c : ClaimRec) :
    (setClaim ch c s).claim d = if ch = d then c else s.claim d := by
  unfold setClaim
  split
  · rename_i h
    split
    · rename_i e; rw [← e, h]
    · rfl
  · simp [State.claim, Vector.getElem_set, Fin.ext_iff]

@[simp] theorem port_respond (s : State) (h : Word) (c : Completion) (l : List Word) :
    (respond h c l s).port = { s.port with respFifo := s.port.respFifo ++ responseWords h c l } := rfl

@[simp] theorem length_responseWords (h : Word) (c : Completion) (l : List Word) :
    (responseWords h c l).length = l.length + 2 := by
  simp [responseWords]

/-- R179: a counted occurrence reaches every monitor and nothing else. -/
theorem countEvent_mon (e : Event) (i : Option ServiceIdx) (c : Option CarrierIdx) (s : State) (m : MonitorIdx) :
    (countEvent e i c s).mon m = Monitor.take e i c (s.mon m) := by
  simp [countEvent, State.mon]

/-! ### Indices -/

theorem toIdx_eq_none (n : Nat) (w : Word) (h : n ≤ w.toNat) : toIdx n w = none := by
  unfold toIdx; rw [dif_neg (by omega)]

theorem toIdx_eq_some {n : Nat} (w : Word) (i : Fin n) (h : w.toNat = i.val) : toIdx n w = some i := by
  unfold toIdx
  rw [dif_pos (by rw [h]; exact i.isLt)]
  exact congrArg some (Fin.ext h)

theorem indexed_eq {α : Type} {n : Nat} (v : Vector α n) :
    indexed v = (List.finRange n).map (fun i => (i, v[i])) := by
  unfold indexed
  have h : v.toList = (List.finRange n).map (fun i => v[i]) := by
    apply List.ext_getElem
    · simp
    · intro i h1 h2; simp
  rw [h]
  generalize List.finRange n = l
  induction l with
  | nil => rfl
  | cons a l ih => exact congrArg ((a, v[a]) :: ·) ih

theorem firstIdx_eq {α : Type} {n : Nat} (v : Vector α n) (p : α → Bool) :
    firstIdx v p = (List.finRange n).find? (fun i => p v[i]) := by
  unfold firstIdx
  rw [indexed_eq, List.find?_map, Option.map_map]
  exact congrFun Option.map_id _

theorem firstIdx_eq_none {α : Type} {n : Nat} (v : Vector α n) (p : α → Bool) :
    firstIdx v p = none ↔ ∀ i : Fin n, p v[i] = false := by
  rw [firstIdx_eq, List.find?_eq_none]
  simp

theorem firstIdx_eq_some {α : Type} {n : Nat} (v : Vector α n) (p : α → Bool) (i : Fin n) :
    firstIdx v p = some i ↔ p v[i] = true ∧ ∀ j : Fin n, j < i → p v[j] = false := by
  rw [firstIdx_eq, List.find?_eq_some_iff_append]
  have sorted : (List.finRange n).Pairwise (fun a b => a < b) := List.pairwise_lt_finRange n
  constructor
  · rintro ⟨hp, as, bs, e, ha⟩
    refine ⟨hp, fun j hj => ?_⟩
    rw [e, List.pairwise_append] at sorted
    have mem : j ∈ as ++ i :: bs := e ▸ List.mem_finRange j
    rcases List.mem_append.mp mem with k | k
    · simpa using ha j k
    · rcases List.mem_cons.mp k with k | k
      · exact absurd hj (by rw [k]; exact lt_irrefl _)
      · exact absurd hj (not_lt.mpr (le_of_lt ((List.pairwise_cons.mp sorted.2.1).1 j k)))
  · rintro ⟨hp, hb⟩
    obtain ⟨as, bs, e⟩ := List.append_of_mem (List.mem_finRange i)
    refine ⟨hp, as, bs, e, fun a ha => ?_⟩
    rw [e, List.pairwise_append] at sorted
    simpa using hb a (sorted.2.2 a ha i (by simp))

theorem idxWhere_eq {α : Type} {n : Nat} (v : Vector α n) (p : α → Bool) :
    idxWhere v p = (List.finRange n).filter (fun i => p v[i]) := by
  unfold idxWhere
  rw [indexed_eq, List.filter_map, List.map_map]
  exact List.map_id _

end Sys2Proof.Machine
end

