-- ==== Sys2Proof/Laws/Keeps.lean ====
section
/-! SUPPORT. What every operation inside a step keeps, whatever it does: the relation `Keeps`, proved once for each
elementary update and composed by `Keeps.trans`. -/

namespace Sys2Proof.Machine

/-- R141: between two claim tables, every channel whose record differs has entered the changed-claims set, and none has
left it. -/
def Noted (a b : ClaimTable) : Prop :=
  (∀ ch ∈ a.changed, ch ∈ b.changed) ∧ ∀ ch : ChannelIdx, b.recs[ch] ≠ a.recs[ch] → ch ∈ b.changed

theorem Noted.refl (a : ClaimTable) : Noted a a := ⟨fun _ h => h, fun _ h => absurd rfl h⟩

theorem Noted.trans {a b c : ClaimTable} (h : Noted a b) (k : Noted b c) : Noted a c := by
  refine ⟨fun ch m => k.1 ch (h.1 ch m), fun ch m => ?_⟩
  by_cases e : c.recs[ch] = b.recs[ch]
  · exact k.1 ch (h.2 ch (by rw [← e]; exact m))
  · exact k.2 ch e

/-- What an operation inside a step keeps: the queue of commands, the clock, the settings of the host, the mode (R112
apart), the port up to its response FIFO (and that too while no request is in execution), the changed-claims set but for what it
gains, and every law of Safety.lean but the tally of the claims (R20). -/
structure KeepsBase (s t : State) : Prop where
  pending : t.pending = s.pending
  now : t.now = s.now
  settings : t.rank.settings = s.rank.settings
  mode : t.arb.mode = s.arb.mode ∨ (s.arb.mode = .stopping ∧ t.arb.mode = .standby)
  reserve : t.arb.reserve = s.arb.reserve
  sweep : t.plan.sweepEnabled = s.plan.sweepEnabled
  suppressed : t.svcs.suppressed = s.svcs.suppressed
  inputs : ∀ i, (t.inp i).kind = (s.inp i).kind ∧ (t.inp i).carrierCount = (s.inp i).carrierCount
    ∧ (t.inp i).history = (s.inp i).history
  params : ∀ c, (t.car c).params = (s.car c).params
  monitors : ∀ m, (t.mon m).select = (s.mon m).select ∧ (t.mon m).threshold = (s.mon m).threshold
  port : t.port = { s.port with respFifo := t.port.respFifo }
  idle : s.inExec = none → t.inExec = none ∧ t.port = s.port
  responses : ResponsesFit s → ResponsesFit t
  epochs : EpochsBounded s → EpochsBounded t
  epochRises : s.svcs.epoch ≤ t.svcs.epoch
  services : ServicesShaped s → ServicesShaped t
  claims : ClaimsShaped s → ClaimsShaped t
  changed : ChangedInOrder s → ChangedInOrder t
  carry : CarryWithinReserve s → CarryWithinReserve t
  queue : QueueBounded s → QueueBounded t
  noted : Noted s.claims t.claims
  attached : AttachedInOrder s → AttachedInOrder t
  waiters : WaitersInOrder s → WaitersInOrder t
  queued : ServicesShaped s → QueueDistinct s → QueueDistinct t
  keys : KeysDistinct s → KeysDistinct t
  unsuppressed : ServicesShaped s → NoneSuppressedLive s → NoneSuppressedLive t

/-- What every operation inside a step keeps, CLAIM and RELEASE CLAIM apart: it also leaves the claim counts, and the
service that each claim names (R20). -/
structure Keeps (s t : State) : Prop extends KeepsBase s t where
  counts : ServicesShaped s → ∀ i, (t.svc i).claimCount = (s.svc i).claimCount
  holders : ∀ ch, (t.claim ch).service = (s.claim ch).service

theorem KeepsBase.refl (s : State) : KeepsBase s s where
  pending := rfl
  now := rfl
  settings := rfl
  mode := Or.inl rfl
  reserve := rfl
  sweep := rfl
  suppressed := rfl
  inputs _ := ⟨rfl, rfl, rfl⟩
  params _ := rfl
  monitors _ := ⟨rfl, rfl⟩
  port := rfl
  idle h := ⟨h, rfl⟩
  responses := id
  epochs := id
  epochRises := BitVec.le_refl _
  services := id
  claims := id
  changed := id
  carry := id
  queue := id
  noted := Noted.refl _
  attached := id
  waiters := id
  queued _ := id
  keys := id
  unsuppressed _ := id

theorem Keeps.refl (s : State) : Keeps s s := { KeepsBase.refl s with counts := fun _ _ => rfl, holders := fun _ => rfl }

theorem KeepsBase.trans {s t u : State} (a : KeepsBase s t) (b : KeepsBase t u) : KeepsBase s u where
  pending := b.pending.trans a.pending
  now := b.now.trans a.now
  settings := b.settings.trans a.settings
  mode := by
    rcases a.mode with h | h
    · rw [← h]; exact b.mode
    · rcases b.mode with k | k
      · exact Or.inr ⟨h.1, k.trans h.2⟩
      · rw [h.2] at k; exact absurd k.1 (by simp)
  reserve := b.reserve.trans a.reserve
  sweep := b.sweep.trans a.sweep
  suppressed := b.suppressed.trans a.suppressed
  inputs i := ⟨(b.inputs i).1.trans (a.inputs i).1, (b.inputs i).2.1.trans (a.inputs i).2.1,
    (b.inputs i).2.2.trans (a.inputs i).2.2⟩
  params c := (b.params c).trans (a.params c)
  monitors m := ⟨(b.monitors m).1.trans (a.monitors m).1, (b.monitors m).2.trans (a.monitors m).2⟩
  port := by rw [b.port, a.port]
  idle h := ⟨(b.idle (a.idle h).1).1, (b.idle (a.idle h).1).2.trans (a.idle h).2⟩
  responses h := b.responses (a.responses h)
  epochs h := b.epochs (a.epochs h)
  epochRises := BitVec.le_trans a.epochRises b.epochRises
  services h := b.services (a.services h)
  claims h := b.claims (a.claims h)
  changed h := b.changed (a.changed h)
  carry h := b.carry (a.carry h)
  queue h := b.queue (a.queue h)
  noted := a.noted.trans b.noted
  attached h := b.attached (a.attached h)
  waiters h := b.waiters (a.waiters h)
  queued h k := b.queued (a.services h) (a.queued h k)
  keys h := b.keys (a.keys h)
  unsuppressed h k := b.unsuppressed (a.services h) (a.unsuppressed h k)

theorem Keeps.trans {s t u : State} (a : Keeps s t) (b : Keeps t u) : Keeps s u :=
  { a.toKeepsBase.trans b.toKeepsBase with
    counts := fun h i => (b.counts (a.services h) i).trans (a.counts h i)
    holders := fun ch => (b.holders ch).trans (a.holders ch) }

/-! ### Folds -/

theorem Keeps.foldl {α : Type} (f : State → α → State) (h : ∀ s a, Keeps s (f s a)) (l : List α) (s : State) :
    Keeps s (l.foldl f s) := by
  induction l generalizing s with
  | nil => exact Keeps.refl s
  | cons a l ih => exact (h s a).trans (ih _)

theorem Keeps.forChannels (f : ChannelIdx → State → State) (h : ∀ ch s, Keeps s (f ch s)) (s : State) :
    Keeps s (forChannels f s) :=
  Keeps.foldl _ (fun s ch => h ch s) _ s

/-! ### Updates of the parts no law speaks of -/

theorem keeps_countEvent (e : Event) (i : Option ServiceIdx) (c : Option CarrierIdx) (s : State) :
    Keeps s (countEvent e i c s) :=
  { Keeps.refl s with
    monitors := fun m => by
      have h : (countEvent e i c s).mon m = Monitor.take e i c (s.mon m) := by simp [countEvent, State.mon]
      rw [h]
      unfold Monitor.take
      split
      · split <;> exact ⟨rfl, rfl⟩
      · exact ⟨rfl, rfl⟩ }

theorem keeps_raiseArb (s : State) : Keeps s (raiseArb s) := { Keeps.refl s with }

theorem keeps_cuts (s : State) (l : List (ChannelIdx × PathIdx)) (d : Bool) :
    Keeps s { s with arb := { s.arb with cuts := l, due := d } } := { Keeps.refl s with }

theorem keeps_evals (s : State) (l : List EvalReport) : Keeps s { s with rank := { s.rank with evals := l } } :=
  { Keeps.refl s with }

theorem keeps_pushReport (k : EvalCause) (c : Option CarrierIdx) (l : List ServiceIdx) (s : State) :
    Keeps s (pushReport k c l s) := by
  unfold pushReport
  split
  · exact Keeps.refl s
  · exact keeps_evals s _

theorem keeps_setCar (s : State) (c : CarrierIdx) (r : CarrierRec) (h : r.params = (s.car c).params) :
    Keeps s (s.setCar c r) :=
  { Keeps.refl s with
    params := fun d => by
      by_cases e : c = d
      · subst e; simp [h]
      · simp [e] }

theorem keeps_modCar (s : State) (c : CarrierIdx) (f : CarrierRec → CarrierRec)
    (h : (f (s.car c)).params = (s.car c).params) : Keeps s (s.modCar c f) := keeps_setCar s c _ h

/-- An update of an input record leaves what the host sets and the history, and keeps the order of its paths and of its
wait list. -/
def SteadyInput (f : InputRec → InputRec) : Prop :=
  ∀ r, ((f r).kind = r.kind ∧ (f r).carrierCount = r.carrierCount ∧ (f r).history = r.history)
    ∧ (r.attached.Pairwise (fun a b => a < b) → (f r).attached.Pairwise (fun a b => a < b))
    ∧ (r.waitList.Pairwise Waiter.noLater → (f r).waitList.Pairwise Waiter.noLater)

theorem keeps_modInp (s : State) (i : InputIdx) (f : InputRec → InputRec) (h : SteadyInput f) :
    Keeps s (s.modInp i f) :=
  { Keeps.refl s with
    inputs := fun j => by
      by_cases e : i = j
      · subst e; simpa using (h (s.inp i)).1
      · simp [e]
    attached := fun w j => by
      by_cases e : i = j
      · subst e; simpa using (h (s.inp i)).2.1 (w i)
      · simpa [e] using w j
    waiters := fun w j => by
      by_cases e : i = j
      · subst e; simpa using (h (s.inp i)).2.2 (w i)
      · simpa [e] using w j }

theorem keeps_mapInputs (s : State) (f : InputRec → InputRec) (h : SteadyInput f) :
    Keeps s { s with inputs := vmap f s.inputs } :=
  { Keeps.refl s with
    inputs := fun i => by simpa [State.inp] using (h s.inputs[i]).1
    attached := fun w i => by simpa [State.inp] using (h s.inputs[i]).2.1 (w i)
    waiters := fun w i => by simpa [State.inp] using (h s.inputs[i]).2.2 (w i) }

/-! ### The visit queue -/

theorem keeps_plan (s : State) (q u : List CarrierIdx) (c : CarrierIdx) (n : Word)
    (h : s.plan.queue.length ≤ 16 → q.length ≤ 16)
    (hn : ServicesShaped s → s.plan.queue.Nodup → q.Nodup) :
    Keeps s { s with plan := { s.plan with queue := q, underQueue := u, cursor := c, passCount := n } } :=
  { Keeps.refl s with queue := h, queued := hn }

/-! ### Paths -/

theorem countP_set_le {α : Type} (p : α → Bool) (l : List α) (i : Nat) (x : α) (h : i < l.length)
    (hx : p x = true → p l[i] = true) : (l.set i x).countP p ≤ l.countP p := by
  induction l generalizing i with
  | nil => simp
  | cons a l ih =>
    cases i with
    | zero =>
      simp only [List.getElem_cons_zero] at hx
      simp only [List.set_cons_zero, List.countP_cons]
      by_cases e : p x = true
      · simp [e, hx e]
      · simp [e]
    | succ i =>
      simp only [List.length_cons, Nat.succ_lt_succ_iff] at h
      simp only [List.set_cons_succ, List.countP_cons]
      exact Nat.add_le_add_right (ih i h (by simpa using hx)) _

theorem countP_set_le_succ {α : Type} (p : α → Bool) (l : List α) (i : Nat) (x : α) :
    (l.set i x).countP p ≤ l.countP p + 1 := by
  induction l generalizing i with
  | nil => simp
  | cons a l ih =>
    cases i with
    | zero =>
      simp only [List.set_cons_zero, List.countP_cons]
      split <;> split <;> omega
    | succ i =>
      have := ih i
      simp only [List.set_cons_succ, List.countP_cons]
      omega

theorem carryCount_setPath_le (s : State) (p : PathIdx) (r : PathRec)
    (h : r.use = some .carry → (s.path p).use = some .carry) : carryCount (s.setPath p r) ≤ carryCount s := by
  unfold carryCount countWhere State.setPath
  simp only [Vector.toList_set]
  exact countP_set_le _ _ _ _ (by simp) (by simpa [State.path] using h)

theorem carryCount_setPath_le_succ (s : State) (p : PathIdx) (r : PathRec) :
    carryCount (s.setPath p r) ≤ carryCount s + 1 := by
  unfold carryCount countWhere State.setPath
  simp only [Vector.toList_set]
  exact countP_set_le_succ _ _ _ _

/-- A path that does not newly take CARRY use. -/
theorem keeps_setPath (s : State) (p : PathIdx) (r : PathRec)
    (h : r.use = some .carry → (s.path p).use = some .carry) : Keeps s (s.setPath p r) :=
  { Keeps.refl s with
    carry := fun w => ⟨w.1, Nat.le_trans (carryCount_setPath_le s p r h) w.2⟩ }

/-- R113: a path that takes CARRY use while the count is below the limit. -/
theorem keeps_setPath_carry (s : State) (p : PathIdx) (r : PathRec) (h : carryCount s < 8 - s.arb.reserve) :
    Keeps s (s.setPath p r) :=
  { Keeps.refl s with
    carry := fun w => ⟨w.1, by
      have := carryCount_setPath_le_succ s p r
      show carryCount (s.setPath p r) ≤ 8 - s.arb.reserve
      omega⟩ }

theorem keeps_modPath (s : State) (p : PathIdx) (f : PathRec → PathRec)
    (h : (f (s.path p)).use = (s.path p).use) : Keeps s (s.modPath p f) :=
  keeps_setPath s p _ (fun e => h ▸ e)

/-! ### Claims -/

theorem pairwise_insertIdx {n : Nat} (x : Fin n) (l : List (Fin n)) (h : l.Pairwise (fun a b => a < b)) :
    (insertIdx x l).Pairwise (fun a b => a < b) ∧ ∀ y ∈ insertIdx x l, y = x ∨ y ∈ l := by
  induction l with
  | nil => simp [insertIdx]
  | cons a l ih =>
    have ha := List.pairwise_cons.mp h
    have i := ih ha.2
    unfold insertIdx
    split
    · exact ⟨h, fun y hy => Or.inr hy⟩
    · split
      · rename_i hlt
        refine ⟨List.pairwise_cons.mpr ⟨?_, h⟩, ?_⟩
        · intro b hb
          rcases List.mem_cons.mp hb with e | e
          · exact e ▸ hlt
          · exact Fin.lt_trans hlt (ha.1 b e)
        · intro y hy
          rcases List.mem_cons.mp hy with e | e
          · exact Or.inl e
          · exact Or.inr e
      · rename_i hne hlt
        refine ⟨List.pairwise_cons.mpr ⟨?_, i.1⟩, ?_⟩
        · intro b hb
          rcases i.2 b hb with e | e
          · subst e; omega
          · exact ha.1 b e
        · intro y hy
          rcases List.mem_cons.mp hy with e | e
          · exact Or.inr (e ▸ List.mem_cons_self)
          · rcases i.2 y e with e' | e'
            · exact Or.inl e'
            · exact Or.inr (List.mem_cons_of_mem _ e')

theorem mem_insertIdx {n : Nat} (x : Fin n) (l : List (Fin n)) :
    x ∈ insertIdx x l ∧ ∀ y ∈ l, y ∈ insertIdx x l := by
  induction l with
  | nil => simp [insertIdx]
  | cons a l ih =>
    unfold insertIdx
    split
    · rename_i e
      exact ⟨e ▸ List.mem_cons_self, fun _ h => h⟩
    · split
      · exact ⟨List.mem_cons_self, fun _ h => List.mem_cons_of_mem _ h⟩
      · refine ⟨List.mem_cons_of_mem _ ih.1, fun y h => ?_⟩
        rcases List.mem_cons.mp h with e | e
        · exact e ▸ List.mem_cons_self
        · exact List.mem_cons_of_mem _ (ih.2 y e)

/-- R141: a claim changed to one as its state requires. -/
theorem base_setClaim (ch : ChannelIdx) (c : ClaimRec) (s : State) (h : ClaimsShaped s → c.shaped) :
    KeepsBase s (setClaim ch c s) := by
  have hc : ClaimsShaped s → ClaimsShaped (setClaim ch c s) := by
    intro w d
    rw [claim_setClaim]
    split
    · exact h w
    · exact w d
  revert hc
  unfold setClaim
  split
  · exact fun _ => KeepsBase.refl s
  · exact fun hc => { KeepsBase.refl s with
      claims := hc
      changed := fun w => (pairwise_insertIdx ch s.claims.changed w).1
      noted := ⟨(mem_insertIdx ch _).2, fun d n => by
        by_cases e : ch = d
        · exact e ▸ (mem_insertIdx ch _).1
        · exact absurd (Vector.getElem_set_ne (xs := s.claims.recs) ch.isLt d.isLt fun h => e (Fin.ext h)) n⟩ }

theorem svcs_setClaim (ch : ChannelIdx) (c : ClaimRec) (s : State) : (setClaim ch c s).svcs = s.svcs := by
  unfold setClaim; split <;> rfl

/-- A claim changed on the same service. -/
theorem keeps_setClaim (ch : ChannelIdx) (c : ClaimRec) (s : State) (h : ClaimsShaped s → c.shaped)
    (hs : c.service = (s.claim ch).service) : Keeps s (setClaim ch c s) :=
  { base_setClaim ch c s h with
    counts := fun _ i => by unfold State.svc; rw [svcs_setClaim]
    holders := fun d => by
      rw [claim_setClaim]
      split
      · rename_i e; rw [hs, e]
      · rfl }

/-- A claim change is a setting of the claim, after which an arbitration may be due. -/
theorem changeClaim_eq (ch : ChannelIdx) (c : ClaimRec) (s : State) :
    changeClaim ch c s = setClaim ch c s ∨ changeClaim ch c s = raiseArb (setClaim ch c s) := by
  unfold changeClaim
  simp only
  split
  · exact Or.inr rfl
  · exact Or.inl rfl

theorem base_changeClaim (ch : ChannelIdx) (c : ClaimRec) (s : State) (h : ClaimsShaped s → c.shaped) :
    KeepsBase s (changeClaim ch c s) := by
  rcases changeClaim_eq ch c s with e | e <;> rw [e]
  · exact base_setClaim ch c s h
  · exact (base_setClaim ch c s h).trans (keeps_raiseArb _).toKeepsBase

theorem keeps_changeClaim (ch : ChannelIdx) (c : ClaimRec) (s : State) (h : ClaimsShaped s → c.shaped)
    (hs : c.service = (s.claim ch).service) : Keeps s (changeClaim ch c s) := by
  rcases changeClaim_eq ch c s with e | e <;> rw [e]
  · exact keeps_setClaim ch c s h hs
  · exact (keeps_setClaim ch c s h hs).trans (keeps_raiseArb _)

/-! ### Service records -/

theorem le_nextEpoch (e : BitVec 32) : e ≤ nextEpoch e := by
  unfold nextEpoch
  split
  · exact BitVec.le_refl _
  · rename_i h
    rw [BitVec.le_def, BitVec.toNat_add]
    have h1 : e.toNat ≠ 4294967295 := fun w => h (BitVec.eq_of_toNat_eq (by simpa using w))
    have h2 := e.isLt
    have h3 : (1 : BitVec 32).toNat = 1 := rfl
    omega

theorem shaped_stamp (r : ServiceRec) (g : Word) (e : BitVec 32) :
    ServiceRec.shaped { r with generation := g, changeEpoch := e } ↔ r.shaped := Iff.rfl

/-- What a change of one record must be for the laws of the Service Table: the record it leaves is as it may stand (R2);
a key it gives is no other record's (R3), and none that is suppressed where the record is live (R18); and the claim count
stays (R20). -/
structure Lawful (i : ServiceIdx) (r' : ServiceRec) (s : State) : Prop where
  shaped : ServicesShaped s → r'.shaped
  key : KeysDistinct s → ∀ k, r'.state ≠ .free → r'.key = some k →
    ∀ j, j ≠ i → (s.svc j).state ≠ .free → (s.svc j).key ≠ some k
  unsuppressed : ServicesShaped s → NoneSuppressedLive s → ∀ k, r'.state.live = true → r'.key = some k →
    k ∉ s.svcs.suppressed
  count : ServicesShaped s → r'.claimCount = (s.svc i).claimCount

/-- A change that leaves the key and the claim count, and makes no record live that was not. -/
theorem Lawful.of_same {i : ServiceIdx} {r' : ServiceRec} {s : State} (shaped : ServicesShaped s → r'.shaped)
    (key : r'.key = (s.svc i).key) (free : r'.state ≠ .free → (s.svc i).state ≠ .free)
    (live : ServicesShaped s → r'.state.live = true → (s.svc i).state.live = true)
    (count : r'.claimCount = (s.svc i).claimCount) : Lawful i r' s where
  shaped := shaped
  key w k hf hk j hj hfj hkj := hj (w j i k hfj (free hf) hkj (key ▸ hk))
  unsuppressed w n k hl hk := n i k (live w hl) (key ▸ hk)
  count _ := count

/-- R6, R7: one lawful change to one record. -/
theorem keeps_commit (i : ServiceIdx) (r' : ServiceRec) (s : State) (h : Lawful i r' s) : Keeps s (commit i r' s) := by
  -- the record as stamped, with the epoch it is stamped by
  have stamped : ∀ (g : Word) (e f : BitVec 32), s.svcs.epoch ≤ e → (EpochsBounded s → f ≤ e) →
      Keeps s (({ s with svcs := { s.svcs with epoch := e } } : State).setSvc i
        { r' with generation := g, changeEpoch := f }) := by
    intro g e f he hf
    have at_ : ∀ j, (({ s with svcs := { s.svcs with epoch := e } } : State).setSvc i
        { r' with generation := g, changeEpoch := f }).svc j
          = if i = j then { r' with generation := g, changeEpoch := f } else s.svc j := fun j => State.svc_setSvc ..
    exact { Keeps.refl s with
      epochs := fun w j => by
        rw [at_ j]
        split
        · exact hf w
        · exact BitVec.le_trans (w j) he
      epochRises := he
      services := fun w j => by
        rw [at_ j]
        split
        · exact (shaped_stamp _ _ _).mpr (h.shaped w)
        · exact w j
      keys := fun w j j' k => by
        rw [at_ j, at_ j']
        split <;> split
        · rename_i e1 e2; intros; rw [← e1, ← e2]
        · rename_i e1 e2; intro a b c d; exact absurd d (h.key w k a c j' (Ne.symm e2) b)
        · rename_i e1 e2; intro a b c d; exact absurd c (h.key w k b d j (Ne.symm e1) a)
        · exact w j j' k
      unsuppressed := fun w n j k => by
        rw [at_ j]
        split
        · exact h.unsuppressed w n k
        · exact n j k
      counts := fun w j => by
        rw [at_ j]
        split
        · rename_i e; rw [← e]; exact h.count w
        · rfl }
  unfold commit
  simp only
  split
  · exact stamped _ _ _ (le_nextEpoch _) (fun _ => BitVec.le_refl _)
  · exact stamped (s.svc i).generation s.svcs.epoch (s.svc i).changeEpoch (BitVec.le_refl _) (fun w => w i)

/-! ### The request in execution -/

/-- R152: the request in execution completes with a response that fits the room held for it. -/
theorem keeps_finish (c : Completion) (l : List Word) (s : State)
    (h : ∀ x, s.inExec = some x → l.length + 2 ≤ roomHeld (some x)) : Keeps s (finish c l s) := by
  unfold finish
  split
  · exact Keeps.refl s
  · rename_i x e
    have hx := h x e
    simp only
    split
    · exact { Keeps.refl s with
        idle := fun n => by rw [n] at e; exact absurd e (by simp)
        responses := fun w => by
          unfold ResponsesFit at *
          simp only [roomHeld] at *
          omega }
    · exact { Keeps.refl s with
        port := rfl
        idle := fun n => by rw [n] at e; exact absurd e (by simp)
        responses := fun w => by
          unfold ResponsesFit at *
          rw [e] at w
          simp [roomHeld, respond, length_responseWords] at *
          omega }

theorem keeps_visitEnded (c : CarrierIdx) (s : State) : Keeps s (visitEnded c s) := by
  unfold visitEnded
  split
  · rename_i h sup cap t e
    split
    · split
      · exact keeps_finish _ _ _ (fun x ex => by rw [e] at ex; cases ex; simp [roomHeld])
      · exact { Keeps.refl s with
          idle := fun n => by rw [n] at e; exact absurd e (by simp)
          responses := fun w => by
            unfold ResponsesFit at *
            rw [e] at w
            simpa [roomHeld] using w }
    · exact Keeps.refl s
  · exact Keeps.refl s

end Sys2Proof.Machine
end

