-- ==== Sys2Proof/Laws/KeepsTables.lean ====
section
/-! SUPPORT. `Keeps` for the operations of the Scan Planner, Input Control, the Path Bank, the Claim Table, the Ranking
Engine and the Service Table. -/

namespace Sys2Proof.Machine

theorem length_without_le {α : Type} [DecidableEq α] (x : α) (l : List α) : (without x l).length ≤ l.length :=
  List.length_filter_le _ _

theorem nodup_without {α : Type} [DecidableEq α] (x : α) (l : List α) (h : l.Nodup) : (without x l).Nodup :=
  h.filter _

theorem mem_without {α : Type} [DecidableEq α] (x y : α) (l : List α) : y ∈ without x l ↔ y ∈ l ∧ y ≠ x := by
  simp [without]

/-- A list once a new member has joined at its tail. -/
theorem nodup_append_singleton {α : Type} (x : α) (l : List α) (hx : x ∉ l) (h : l.Nodup) : (l ++ [x]).Nodup := by
  rw [List.nodup_append]
  exact ⟨h, by simp, fun a ha b hb => by simp at hb; subst hb; exact fun e => hx (e ▸ ha)⟩

/-! ### Scan Planner -/

theorem keeps_joinQueue (c : CarrierIdx) (s : State) (h : s.plan.queue.length < 16)
    (hc : ServicesShaped s → c ∉ s.plan.queue) : Keeps s (joinQueue c s) :=
  (keeps_plan s (s.plan.queue ++ [c]) s.plan.underQueue s.plan.cursor s.plan.passCount
    (fun _ => by simp; omega) (fun w => nodup_append_singleton c _ (hc w))).trans (keeps_raiseArb _)

theorem keeps_dropEntry (c : CarrierIdx) (s : State) : Keeps s (dropEntry c s) :=
  keeps_plan s (without c s.plan.queue) s.plan.underQueue s.plan.cursor s.plan.passCount
    (fun h => Nat.le_trans (length_without_le _ _) h) (fun _ => nodup_without _ _)

theorem keeps_offer (s : State) (c : CarrierIdx) : Keeps s (offer s c) := by
  unfold offer
  split
  · exact Keeps.refl s
  · split
    · exact Keeps.refl s
    · rename_i hc
      split
      · rename_i h; exact keeps_joinQueue c s h (fun _ => hc)
      · exact keeps_countEvent _ _ _ s

theorem keeps_endUnderQueue (c : CarrierIdx) (s : State) : Keeps s (endUnderQueue c s) :=
  keeps_plan s s.plan.queue (without c s.plan.underQueue) s.plan.cursor s.plan.passCount id (fun _ => id)

theorem length_without_lt {α : Type} [DecidableEq α] (x : α) (l : List α) (h : x ∈ l) :
    (without x l).length < l.length := by
  unfold without
  exact List.length_filter_lt_length_iff_exists.mpr ⟨x, h, by simp⟩

theorem keeps_putBack (c : CarrierIdx) (s : State) : Keeps s (putBack c s) := by
  refine (keeps_endUnderQueue c s).trans ?_
  unfold putBack
  simp only
  generalize endUnderQueue c s = t
  split
  · rename_i h
    exact keeps_plan t (c :: without c t.plan.queue) t.plan.underQueue t.plan.cursor t.plan.passCount
      (fun w => by have := length_without_lt c t.plan.queue h; simp; omega)
      (fun _ n => List.nodup_cons.mpr ⟨fun m => ((mem_without _ _ _).mp m).2 rfl, nodup_without _ _ n⟩)
  · rename_i hc
    split
    · rename_i h
      exact (keeps_plan t (c :: t.plan.queue) t.plan.underQueue t.plan.cursor t.plan.passCount
        (fun _ => by have h' : t.plan.queue.length < 16 := h
                     simp; omega) (fun _ n => List.nodup_cons.mpr ⟨hc, n⟩)).trans (keeps_raiseArb _)
    · refine (keeps_countEvent .visitQueueFull none t.plan.queue.getLast? t).trans ?_
      refine Keeps.trans ?_ (keeps_raiseArb _)
      exact keeps_plan (countEvent .visitQueueFull none t.plan.queue.getLast? t) (c :: t.plan.queue.dropLast)
        t.plan.underQueue t.plan.cursor t.plan.passCount
        (fun w => by have w' : t.plan.queue.length ≤ 16 := w
                     rename_i h2
                     have h2' : ¬ t.plan.queue.length < 16 := h2
                     simp; omega)
        (fun _ n => List.nodup_cons.mpr ⟨fun m => hc (List.mem_of_mem_dropLast m),
          n.sublist (List.dropLast_sublist _)⟩)

theorem keeps_visitEndReport (u : Use) (c : CarrierIdx) (k : VisitEnd) (s : State) :
    Keeps s (visitEndReport u c k s) := by
  unfold visitEndReport
  split
  · split
    · exact (keeps_endUnderQueue c s).trans (keeps_visitEnded c _)
    · exact (keeps_endUnderQueue c s).trans (keeps_visitEnded c _)
    · exact (keeps_endUnderQueue c s).trans (keeps_visitEnded c _)
    · exact keeps_putBack c s
    · exact keeps_putBack c s
  · exact Keeps.refl s
  · exact Keeps.refl s

theorem keeps_queueCarried (c : CarrierIdx) (s : State) : Keeps s (queueCarried c s) := by
  unfold queueCarried
  split
  · exact (keeps_dropEntry c s).trans (keeps_visitEnded c _)
  · exact Keeps.refl s

/-! ### Input Control -/

/-- R84: a path takes its place: after the requests of grant order not after its own, and before the first that is. -/
theorem insertWaiter_place (x : Waiter) (l : List Waiter) :
    ∃ a b, l = a ++ b ∧ insertWaiter x l = a ++ x :: b ∧ (∀ w ∈ a, x.before w = false)
      ∧ ∀ w, b.head? = some w → x.before w = true := by
  induction l with
  | nil => exact ⟨[], [], rfl, rfl, by simp, by simp⟩
  | cons y l ih =>
    unfold insertWaiter
    split
    · rename_i h
      exact ⟨[], y :: l, rfl, rfl, by simp, fun w hw => by simp at hw; exact hw ▸ h⟩
    · rename_i h
      obtain ⟨a, b, e1, e2, e3, e4⟩ := ih
      refine ⟨y :: a, b, by rw [e1]; rfl, by rw [e2]; rfl, fun w hw => ?_, e4⟩
      rcases List.mem_cons.mp hw with e | e
      · rw [e]; simpa using h
      · exact e3 w e

theorem Waiter.before_iff (a b : Waiter) :
    a.before b = true ↔ a.since < b.since ∨ a.since = b.since ∧ a.path < b.path := by
  simp [Waiter.before]

theorem Waiter.noLater_of_not_before (a b : Waiter) (h : a.before b = false) : b.noLater a := by
  have h' := mt (Waiter.before_iff a b).mpr (by simp [h])
  simp only [Waiter.noLater, Fin.lt_def, Fin.le_def] at *
  omega

/-- R84: a wait list in grant order stays so when a path takes its place. -/
theorem pairwise_insertWaiter (x : Waiter) (l : List Waiter) (h : l.Pairwise Waiter.noLater) :
    (insertWaiter x l).Pairwise Waiter.noLater := by
  obtain ⟨a, b, e1, e2, e3, e4⟩ := insertWaiter_place x l
  rw [e1] at h
  obtain ⟨ha, hb, hab⟩ := List.pairwise_append.mp h
  have later : ∀ w ∈ b, x.noLater w := by
    cases b with
    | nil => simp
    | cons y b =>
      have hy := (Waiter.before_iff x y).mp (e4 y rfl)
      have first : x.noLater y := by simp only [Waiter.noLater, Fin.lt_def, Fin.le_def] at *; omega
      intro w hw
      rcases List.mem_cons.mp hw with e | e
      · exact e ▸ first
      · have := (List.pairwise_cons.mp hb).1 w e
        simp only [Waiter.noLater, Fin.lt_def, Fin.le_def] at *; omega
  rw [e2, List.pairwise_append]
  refine ⟨ha, List.pairwise_cons.mpr ⟨later, hb⟩, fun w hw v hv => ?_⟩
  rcases List.mem_cons.mp hv with e | e
  · exact e ▸ Waiter.noLater_of_not_before x w (e3 w hw)
  · exact hab w hw v e

theorem keeps_joinWait (i : InputIdx) (p : PathIdx) (s : State) : Keeps s (joinWait i p s) :=
  keeps_modInp s i _ (fun _ => ⟨⟨rfl, rfl, rfl⟩, id, pairwise_insertWaiter _ _⟩)

theorem keeps_leaveWait (p : PathIdx) (s : State) : Keeps s (leaveWait p s) :=
  keeps_mapInputs s _ (fun _ => ⟨⟨rfl, rfl, rfl⟩, id, List.Pairwise.filter _⟩)

theorem keeps_attach (i : InputIdx) (p : PathIdx) (s : State) : Keeps s (attach i p s) :=
  keeps_modInp s i _ (fun r => ⟨⟨rfl, rfl, rfl⟩, fun w => (pairwise_insertIdx p r.attached w).1, id⟩)

theorem keeps_detach (p : PathIdx) (s : State) : Keeps s (detach p s) := by
  refine Keeps.trans ?_ (keeps_raiseArb _)
  exact keeps_mapInputs s _ (fun _ => ⟨⟨rfl, rfl, rfl⟩, List.Pairwise.filter _, id⟩)

theorem keeps_feedSwitch (i : InputIdx) (f : Feed) (s : State) : Keeps s (feedSwitch i f s) :=
  keeps_modInp s i _ (fun _ => ⟨⟨rfl, rfl, rfl⟩, id, id⟩)

/-! ### Path Bank -/

theorem keeps_enterRecovery (p : PathIdx) (s : State) : Keeps s (enterRecovery p s) := by
  refine Keeps.trans ?_ (keeps_detach p _)
  exact keeps_setPath s p _ (fun h => h)

theorem keeps_enterDwell (p : PathIdx) (t : Nat) (s : State) : Keeps s (enterDwell p t s) :=
  keeps_setPath s p _ (fun h => h)

theorem keeps_stopTuning (p : PathIdx) (s : State) : Keeps s (stopTuning p s) := by
  unfold stopTuning
  split
  · exact keeps_leaveWait p s
  · exact keeps_modPath s p _ rfl
  all_goals exact Keeps.refl s

theorem keeps_leaveCarrier (p : PathIdx) (s : State) : Keeps s (leaveCarrier p s) := by
  refine (keeps_stopTuning p s).trans ?_
  unfold leaveCarrier
  simp only
  split
  · exact keeps_enterRecovery p _
  · split
    · exact keeps_enterDwell p _ _
    · exact keeps_enterRecovery p _

theorem keeps_endScanVisit (p : PathIdx) (k : VisitEnd) (s : State) : Keeps s (endScanVisit p k s) := by
  unfold endScanVisit
  split
  · exact (keeps_visitEndReport _ _ _ s).trans (keeps_leaveCarrier p _)
  · exact keeps_leaveCarrier p s

theorem keeps_cutPath (p : PathIdx) (s : State) : Keeps s (cutPath p s) := by
  unfold cutPath
  simp only
  split
  · split
    · exact keeps_endScanVisit p _ s
    · exact keeps_endScanVisit p _ s
    · split
      · exact keeps_endScanVisit p _ s
      · split
        · exact keeps_setPath s p _ (fun h => h)
        · exact keeps_endScanVisit p _ s
    all_goals exact Keeps.refl s
  · exact Keeps.refl s

theorem keeps_abandonForStandby (p : PathIdx) (s : State) : Keeps s (abandonForStandby p s) := by
  unfold abandonForStandby
  simp only
  split
  · exact keeps_endScanVisit p _ s
  · exact Keeps.refl s

theorem keeps_forgetOnPath (c : CarrierIdx) (s : State) (p : PathIdx) : Keeps s (forgetOnPath c s p) := by
  unfold forgetOnPath
  simp only
  split
  · have k : Keeps s (s.setPath p { s.path p with forgotten := true }) := keeps_setPath s p _ (fun h => h)
    split
    · exact k.trans (keeps_endScanVisit p _ _)
    · exact k
  · exact Keeps.refl s

theorem keeps_clearCarrying (c : CarrierIdx) (s : State) : Keeps s (clearCarrying c s) := keeps_modCar s c _ rfl

theorem keeps_releaseCarry (p : PathIdx) (s : State) : Keeps s (releaseCarry p s) := by
  unfold releaseCarry
  simp only
  split
  · split
    · exact (keeps_clearCarrying _ s).trans (keeps_leaveCarrier p _)
    · exact keeps_leaveCarrier p s
  · exact Keeps.refl s

/-! ### Claim Table -/

theorem shaped_waiting (i : ServiceIdx) (w : Reason) : (ClaimRec.waiting i w).shaped := by
  simp [ClaimRec.shaped, ClaimRec.waiting]

theorem shaped_joined (s : State) (i : ServiceIdx) (c : CarrierIdx) (p : PathIdx) : (joined s i c p).shaped := by
  unfold joined ClaimRec.shaped joinState
  cases (s.path p).state <;> cases (s.path p).lockTime <;> simp

theorem shaped_examined (s : State) (i : ServiceIdx) : (examined s i).shaped := by
  unfold examined
  split
  · exact shaped_waiting _ _
  · split
    · exact shaped_waiting _ _
    · split
      · split
        · exact shaped_joined _ _ _ _
        · exact shaped_waiting _ _
      · exact shaped_waiting _ _

/-- An examination leaves the claim on the service it is examined for. -/
theorem service_examined (s : State) (i : ServiceIdx) : (examined s i).service = some i := by
  unfold examined
  split
  · rfl
  · split
    · rfl
    · split
      · split <;> rfl
      · rfl

theorem base_examine (ch : ChannelIdx) (i : ServiceIdx) (s : State) : KeepsBase s (examine ch i s) :=
  base_changeClaim ch _ s (fun _ => shaped_examined s i)

theorem keeps_examine (ch : ChannelIdx) (i : ServiceIdx) (s : State) (h : (s.claim ch).service = some i) :
    Keeps s (examine ch i s) :=
  keeps_changeClaim ch _ s (fun _ => shaped_examined s i) ((service_examined s i).trans h.symm)

theorem keeps_becomeWaiting (ch : ChannelIdx) (i : ServiceIdx) (s : State) (h : (s.claim ch).service = some i) :
    Keeps s (becomeWaiting ch i s) :=
  (keeps_countEvent _ _ _ s).trans (keeps_examine ch i _ h)

theorem keeps_releaseUnneeded (c : CarrierIdx) (s : State) : Keeps s (releaseUnneeded c s) := by
  unfold releaseUnneeded
  split
  · split
    · exact Keeps.refl s
    · exact keeps_releaseCarry _ s
  · exact Keeps.refl s

theorem keeps_releaseUnneeded? (o : Option CarrierIdx) (s : State) : Keeps s (releaseUnneeded? o s) := by
  unfold releaseUnneeded?
  split
  · exact keeps_releaseUnneeded _ s
  · exact Keeps.refl s

theorem keeps_completeHandover (ch : ChannelIdx) (i : ServiceIdx) (c : CarrierIdx) (p : PathIdx) (s : State)
    (h : (s.claim ch).service = some i) : Keeps s (completeHandover ch i c p s) :=
  (keeps_changeClaim ch _ s (fun _ => by simp [ClaimRec.shaped]) h.symm).trans (keeps_countEvent _ _ _ _)

theorem keeps_moveTo (ch : ChannelIdx) (i : ServiceIdx) (n : CarrierIdx) (s : State)
    (h : (s.claim ch).state = .carrying ∨ (s.claim ch).state = .handover) (hs : (s.claim ch).service = some i) :
    Keeps s (moveTo ch i n s) := by
  unfold moveTo
  split
  · exact keeps_completeHandover _ _ _ _ s hs
  · refine keeps_changeClaim ch _ s (fun w => ?_) rfl
    have := w ch
    rcases h with h | h <;> simp [ClaimRec.shaped, h] at this ⊢ <;> simp [this]

theorem keeps_toldSelection (ch : ChannelIdx) (i : ServiceIdx) (s : State) (hs : (s.claim ch).service = some i) :
    Keeps s (toldSelection ch i s) := by
  unfold toldSelection
  simp only
  split
  · exact Keeps.refl s
  · split
    · exact Keeps.refl s
    · exact keeps_examine ch i s hs
  · split
    · exact Keeps.refl s
    · refine Keeps.trans ?_ (keeps_releaseUnneeded? _ _)
      split
      · exact keeps_becomeWaiting ch i s hs
      · split
        · exact keeps_changeClaim ch _ s (fun _ => shaped_joined _ _ _ _) hs.symm
        · exact keeps_becomeWaiting ch i s hs
  · split
    · exact Keeps.refl s
    · refine Keeps.trans ?_ (keeps_releaseUnneeded? _ _)
      split
      · exact keeps_becomeWaiting ch i s hs
      · split
        · exact keeps_changeClaim ch _ s (fun _ => shaped_joined _ _ _ _) hs.symm
        · exact keeps_becomeWaiting ch i s hs
  · rename_i h
    split
    · exact Keeps.refl s
    · refine Keeps.trans ?_ (keeps_releaseUnneeded? _ _)
      split
      · exact keeps_becomeWaiting ch i s hs
      · exact keeps_moveTo ch i _ s (Or.inl h) hs
  · rename_i h
    split
    · exact Keeps.refl s
    · refine Keeps.trans ?_ ((keeps_releaseUnneeded? _ _).trans (keeps_releaseUnneeded? _ _))
      split
      · exact keeps_becomeWaiting ch i s hs
      · split
        · refine keeps_changeClaim ch _ s (fun w => ?_) rfl
          have := w ch
          simp [ClaimRec.shaped, h] at this ⊢
          simp [this]
        · exact keeps_moveTo ch i _ s (Or.inr h) hs

theorem keeps_reportSelection (i : ServiceIdx) (s : State) : Keeps s (reportSelection i s) := by
  unfold reportSelection
  simp only
  refine Keeps.trans ?_ (Keeps.forChannels _ (fun ch t => ?_) _)
  · split
    · exact keeps_countEvent _ _ _ s
    · exact Keeps.refl s
  · split
    · rename_i h; exact keeps_toldSelection ch i t h
    · exact Keeps.refl t

theorem keeps_examineWaiting (x : CarrierIdx) (ch : ChannelIdx) (s : State) : Keeps s (examineWaiting x ch s) := by
  unfold examineWaiting
  split
  · rename_i h
    split
    · exact keeps_examine ch _ s h
    · exact Keeps.refl s
  · exact Keeps.refl s

theorem keeps_handoverDemand (x : CarrierIdx) (ch : ChannelIdx) (s : State) : Keeps s (handoverDemand x ch s) := by
  unfold handoverDemand
  split
  · exact keeps_raiseArb s
  · exact Keeps.refl s

theorem keeps_eligibilityToClaims (x : CarrierIdx) (s : State) : Keeps s (eligibilityToClaims x s) :=
  Keeps.forChannels _ (fun ch s => (keeps_examineWaiting x ch s).trans (keeps_handoverDemand x ch _)) s

theorem keeps_carryingSetToClaims (x : CarrierIdx) (s : State) : Keeps s (carryingSetToClaims x s) :=
  Keeps.forChannels _ (keeps_examineWaiting x) s

theorem keeps_engagedToClaims (p : PathIdx) (x : CarrierIdx) (s : State) : Keeps s (engagedToClaims p x s) := by
  refine Keeps.forChannels _ (fun ch s => ?_) s
  simp only
  split
  · rename_i h
    split
    · refine keeps_changeClaim ch _ s (fun w => ?_) rfl
      have := w ch
      simpa [ClaimRec.shaped, h] using this
    · exact Keeps.refl s
  · rename_i h
    split
    · refine keeps_changeClaim ch _ s (fun w => ?_) rfl
      have := w ch
      simpa [ClaimRec.shaped, h] using this
    · exact Keeps.refl s
  · rename_i hs
    split
    · exact (keeps_completeHandover _ _ _ _ s hs).trans (keeps_releaseUnneeded? _ _)
    · exact Keeps.refl s
  · exact Keeps.refl s

theorem keeps_acquisitionFailedToClaims (p : PathIdx) (x : CarrierIdx) (s : State) :
    Keeps s (acquisitionFailedToClaims p x s) := by
  refine Keeps.forChannels _ (fun ch s => ?_) s
  simp only
  split
  · rename_i hs
    split
    · exact keeps_becomeWaiting ch _ s hs
    · exact Keeps.refl s
  · split
    · exact keeps_raiseArb s
    · exact Keeps.refl s
  · exact Keeps.refl s

theorem keeps_lockLossToClaims (p : PathIdx) (x : CarrierIdx) (s : State) : Keeps s (lockLossToClaims p x s) := by
  refine Keeps.trans (Keeps.forChannels _ (fun ch s => ?_) s) (keeps_releaseUnneeded x _)
  simp only
  split
  · split
    · rename_i h
      refine keeps_changeClaim ch _ s (fun w => ?_) rfl
      have := w ch
      simpa [ClaimRec.shaped, h] using this
    · rename_i hs _
      split
      · exact keeps_changeClaim ch _ s (fun _ => shaped_joined _ _ _ _) hs.symm
      · exact keeps_becomeWaiting ch _ s hs
    · exact Keeps.refl s
  · exact Keeps.refl s

theorem keeps_exhaustedToClaims (p : PathIdx) (s : State) : Keeps s (exhaustedToClaims p s) := by
  refine Keeps.forChannels _ (fun ch s => ?_) s
  simp only
  split
  · rename_i hs
    split
    · exact keeps_becomeWaiting ch _ s hs
    · exact Keeps.refl s
  · exact Keeps.refl s

/-! ### Ranking Engine -/

theorem keeps_offerOthers (r : ServiceRec) (s : State) : Keeps s (offerOthers r s) := Keeps.foldl _ keeps_offer _ s

theorem keeps_applyChange (i : ServiceIdx) (r' : ServiceRec) (s : State) (h : Lawful i r' s) :
    Keeps s (applyChange i r' s) := by
  have a := keeps_commit i r' s h
  unfold applyChange
  simp only
  generalize commit i r' s = t at a ⊢
  have b : Keeps s (if (s.svc i).selected ≠ r'.selected then reportSelection i t else t) := by
    split
    · exact a.trans (keeps_reportSelection i _)
    · exact a
  generalize (if (s.svc i).selected ≠ r'.selected then reportSelection i t else t) = u at b ⊢
  split
  · exact b.trans (keeps_offerOthers r' _)
  · exact b

end Sys2Proof.Machine
end

