-- ==== Sys2Proof/Laws/KeepsRecords.lean ====
section
/-! SUPPORT. Evaluations, joins, departures, retirements and allocations leave a service record as it may stand (R2, R4,
R5), and `Keeps` for the operations of the Service Table, the Carrier Table and the merge. -/

namespace Sys2Proof.Machine

/-! ### Rank order -/

theorem mem_insertRanked (s : State) (a x : CarrierIdx) (l : List CarrierIdx) :
    x ∈ insertRanked s a l ↔ x = a ∨ x ∈ l := by
  induction l with
  | nil => simp [insertRanked]
  | cons b l ih =>
    unfold insertRanked
    split
    · simp
    · simp only [List.mem_cons, ih]; tauto

theorem mem_foldr_insertRanked (s : State) (x : CarrierIdx) (l : List CarrierIdx) :
    x ∈ l.foldr (insertRanked s) [] ↔ x ∈ l := by
  induction l with
  | nil => simp
  | cons a l ih => simp [mem_insertRanked, ih]

/-- R60: the rank order holds every candidate and nothing else. -/
theorem mem_rankOrder (s : State) (x : CarrierIdx) (l : List CarrierIdx) : x ∈ rankOrder s l ↔ x ∈ l := by
  unfold rankOrder
  rw [List.mem_append, mem_foldr_insertRanked, List.mem_filter, List.mem_filter]
  cases eligible s x <;> simp

theorem perm_insertRanked (s : State) (a : CarrierIdx) (l : List CarrierIdx) :
    (insertRanked s a l).Perm (a :: l) := by
  induction l with
  | nil => exact List.Perm.refl _
  | cons b l ih =>
    unfold insertRanked
    split
    · exact List.Perm.refl _
    · exact (ih.cons b).trans (List.Perm.swap a b l)

/-- R60: the rank order holds each candidate as often as the list does. -/
theorem perm_rankOrder (s : State) (l : List CarrierIdx) : (rankOrder s l).Perm l := by
  have sorted : ∀ l : List CarrierIdx, (l.foldr (insertRanked s) []).Perm l := by
    intro l
    induction l with
    | nil => exact List.Perm.refl _
    | cons a l ih => exact (perm_insertRanked s a _).trans (ih.cons a)
  exact ((sorted _).append_right _).trans (List.filter_append_perm _ l)

theorem firstEligible_mem (s : State) (l : List CarrierIdx) (c : CarrierIdx) (h : firstEligible s l = some c) :
    c ∈ l ∧ eligible s c = true :=
  ⟨(mem_rankOrder s c l).mp (List.mem_of_find?_eq_some h), List.find?_some h⟩

theorem bestMasked_mem (s : State) (r : ServiceRec) (sel c : CarrierIdx) (h : bestMasked s r sel = some c) :
    c ∈ r.candidates ∧ c ≠ sel := by
  unfold bestMasked at h
  refine ⟨(mem_rankOrder s c _).mp (List.mem_of_find?_eq_some h), ?_⟩
  have := List.find?_some h
  simp only [Bool.and_eq_true, decide_eq_true_eq] at this
  exact this.1.2

/-! ### Records that hold a selection -/

theorem verdict_cases (s : State) (c : CarrierIdx) : verdict s c = .listed ∨ verdict s c = .degraded := by
  unfold verdict; split <;> simp

/-- The states a record can be evaluated in (R61). -/
def ServiceRec.evaluable (r : ServiceRec) : Prop :=
  r.state = .provisional ∨ r.state = .listed ∨ r.state = .degraded

theorem evaluable_key_age (r : ServiceRec) (h : r.shaped) (hs : r.evaluable) : r.key ≠ none ∧ r.orphanAge = 0 := by
  have f := h.2
  unfold ServiceRec.fieldsOfState at f
  rcases hs with e | e | e <;> rw [e] at f <;> simp at f <;> simp [f]

theorem shaped_of_selection (r : ServiceRec) (c : CarrierIdx) (hst : r.state = .listed ∨ r.state = .degraded)
    (hsel : r.selected = some c) (hmem : c ∈ r.candidates) (hk : r.key ≠ none) (ha : r.orphanAge = 0)
    (hlen : r.candidates.length ≤ 4) (hnd : r.candidates.Nodup) (hpin : ∀ x, r.pin = some x → x = c)
    (hch : ∀ k, r.challenger = some k → k.carrier ∈ r.candidates ∧ k.carrier ≠ c ∧ 1 ≤ k.lead) : r.shaped := by
  have hne : r.candidates ≠ [] := List.ne_nil_of_mem hmem
  refine ⟨⟨hlen, hnd, ?_, ?_, ?_⟩, ?_⟩
  · intro x hx; rw [hsel] at hx; cases hx; exact hmem
  · intro x hx; rw [hpin x hx]; exact hsel
  · intro k hk'
    obtain ⟨a, b, d⟩ := hch k hk'
    refine ⟨a, by rw [hsel]; simp, ?_, d⟩
    rw [hsel]; intro e; cases e; exact b rfl
  · unfold ServiceRec.fieldsOfState
    rcases hst with e | e <;> rw [e] <;> simp [hk, hne, ha, hsel]

theorem shaped_withSelection (s : State) (r : ServiceRec) (c : CarrierIdx) (h : r.choicesOk) (hk : r.key ≠ none)
    (ha : r.orphanAge = 0) (hmem : c ∈ r.candidates) (hpin : ∀ x, r.pin = some x → x = c) :
    (withSelection s r c).shaped :=
  shaped_of_selection _ c (verdict_cases s c) rfl hmem hk ha h.1 h.2.1 hpin (by simp [withSelection])

theorem shaped_keptSelection (s : State) (r : ServiceRec) (c : CarrierIdx) (k : Option Challenger) (h : r.choicesOk)
    (hk : r.key ≠ none) (ha : r.orphanAge = 0) (hsel : r.selected = some c)
    (hch : ∀ x, k = some x → x.carrier ∈ r.candidates ∧ x.carrier ≠ c ∧ 1 ≤ x.lead) :
    (keptSelection s r c k).shaped :=
  shaped_of_selection _ c (verdict_cases s c) hsel (h.2.2.1 c hsel) hk ha h.1 h.2.1
    (fun x hx => by have := h.2.2.2.1 x hx; rw [hsel] at this; cases this; rfl) hch

theorem one_le_nextLead (o : Option Challenger) (b : CarrierIdx) : 1 ≤ nextLead o b := by
  unfold nextLead
  split
  · split <;> omega
  · omega

/-- R62 to R68: an evaluation leaves a record as it may stand. -/
theorem shaped_evaluated (s : State) (b : Bool) (r : ServiceRec) (h : r.shaped) (hs : r.evaluable) :
    (evaluated s b r).shaped := by
  obtain ⟨hk, ha⟩ := evaluable_key_age r h hs
  have hc := h.1
  unfold evaluated
  split
  · rename_i c hp
    have hsel := hc.2.2.2.1 c hp
    refine shaped_of_selection _ c (verdict_cases s c) rfl (hc.2.2.1 c hsel) hk ha hc.1 hc.2.1 ?_ (by simp [keptSelection])
    intro x hx
    have : r.pin = some x := hx
    rw [hp] at this; cases this; rfl
  · rename_i hp
    have hpin : ∀ (c x : CarrierIdx), r.pin = some x → x = c := by intro c x hx; rw [hp] at hx; cases hx
    split
    · split
      · rename_i c hf
        exact shaped_withSelection s r c hc hk ha (firstEligible_mem s _ c hf).1 (hpin c)
      · exact h
    · rename_i sel hsel
      split
      · split
        · unfold trackedBurst
          split
          · exact shaped_keptSelection s r sel none hc hk ha hsel (by simp)
          · rename_i c hb
            have m := bestMasked_mem s r sel c hb
            simp only
            split
            · exact shaped_withSelection s r c hc hk ha m.1 (hpin c)
            · refine shaped_keptSelection s r sel _ hc hk ha hsel ?_
              intro x hx; cases hx
              exact ⟨m.1, m.2, one_le_nextLead _ _⟩
        · unfold trackedOther
          refine shaped_keptSelection s r sel _ hc hk ha hsel ?_
          intro x hx
          split at hx
          · rename_i k hch
            split at hx
            · rename_i hb
              cases hx
              exact ⟨(bestMasked_mem s r sel _ hb).1, (bestMasked_mem s r sel _ hb).2, (hc.2.2.2.2 _ hch).2.2.2⟩
            · cases hx
          · cases hx
      · split
        · rename_i c hf
          exact shaped_withSelection s r c hc hk ha (firstEligible_mem s _ c hf).1 (hpin c)
        · exact shaped_keptSelection s r sel none hc hk ha hsel (by simp)

theorem shaped_clearChallenger (r : ServiceRec) (h : r.shaped) : ServiceRec.shaped { r with challenger := none } := by
  refine ⟨⟨h.1.1, h.1.2.1, h.1.2.2.1, h.1.2.2.2.1, by simp⟩, ?_⟩
  have f := h.2
  unfold ServiceRec.fieldsOfState at f ⊢
  cases e : r.state <;> rw [e] at f <;> simp_all

theorem shaped_clearPin (r : ServiceRec) (h : r.shaped) : ServiceRec.shaped { r with pin := none } := by
  refine ⟨⟨h.1.1, h.1.2.1, h.1.2.2.1, by simp, h.1.2.2.2.2⟩, ?_⟩
  have f := h.2
  unfold ServiceRec.fieldsOfState at f ⊢
  cases e : r.state <;> rw [e] at f <;> simp_all

theorem evaluable_of_applies (q : EvalReport) (r : ServiceRec) (h : q.appliesTo r = true) : r.evaluable := by
  unfold EvalReport.appliesTo at h
  simp only [Bool.and_eq_true, decide_eq_true_eq] at h
  unfold ServiceRec.evaluable
  revert h
  cases r.state <;> simp [SvcState.live]

theorem evaluable_live (r : ServiceRec) (h : r.evaluable) : r.state.live = true := by
  rcases h with e | e | e <;> rw [e] <;> rfl

theorem live_ne_free {x : SvcState} (h : x.live = true) : x ≠ .free := by intro e; rw [e] at h; cases h

/-- An evaluation leaves the key and the claim count. -/
theorem identity_evaluated (s : State) (b : Bool) (r : ServiceRec) :
    (evaluated s b r).key = r.key ∧ (evaluated s b r).claimCount = r.claimCount := by
  unfold evaluated
  split
  · exact ⟨rfl, rfl⟩
  · split
    · split <;> exact ⟨rfl, rfl⟩
    · split
      · split
        · unfold trackedBurst
          split
          · exact ⟨rfl, rfl⟩
          · simp only
            split <;> exact ⟨rfl, rfl⟩
        · exact ⟨rfl, rfl⟩
      · split <;> exact ⟨rfl, rfl⟩

/-- A change of a live record that leaves its key and its claim count. -/
theorem Lawful.of_live {i : ServiceIdx} {r' : ServiceRec} {s : State} (shaped : ServicesShaped s → r'.shaped)
    (key : r'.key = (s.svc i).key) (live : (s.svc i).state.live = true) (count : r'.claimCount = (s.svc i).claimCount) :
    Lawful i r' s :=
  .of_same shaped key (fun _ => live_ne_free live) (fun _ _ => live) count

theorem keeps_evaluate (q : EvalReport) (i : ServiceIdx) (s : State) : Keeps s (evaluate q i s) := by
  unfold evaluate
  simp only
  split
  · rename_i ha
    have he := evaluable_of_applies q _ ha
    have law : ∀ (b : Bool) (r : ServiceRec), r.key = (s.svc i).key → r.claimCount = (s.svc i).claimCount →
        r.evaluable → (ServicesShaped s → r.shaped) → Lawful i (evaluated s b r) s := fun b r hk hc e w =>
      .of_live (fun k => shaped_evaluated s b r (w k) e) ((identity_evaluated s b r).1.trans hk) (evaluable_live _ he)
        ((identity_evaluated s b r).2.trans hc)
    split
    · exact keeps_applyChange i _ s (law _ _ rfl rfl he (fun w => w i))
    · exact keeps_applyChange i _ s (law _ _ rfl rfl he (fun w => w i))
    · exact keeps_applyChange i _ s (law _ _ rfl rfl he (fun w => w i))
    · exact keeps_applyChange i _ s (law _ _ rfl rfl he (fun w => shaped_clearChallenger _ (w i)))
  · exact Keeps.refl s

/-! ### Joins -/

/-- R10: a join leaves a live record as it may stand. -/
theorem shaped_withCandidate (r : ServiceRec) (c : CarrierIdx) (h : r.shaped) (hl : r.state.live = true)
    (hc : c ∉ r.candidates) (hn : r.candidates.length < 4) : (withCandidate r c).shaped := by
  obtain ⟨⟨h1, h2, h3, h4, h5⟩, f⟩ := h
  unfold withCandidate
  unfold ServiceRec.fieldsOfState at f
  have hlen : (r.candidates ++ [c]).length ≤ 4 := by simp; omega
  have hnd : (r.candidates ++ [c]).Nodup := by
    rw [List.nodup_append]
    exact ⟨h2, by simp, by intro a ha b hb; simp at hb; subst hb; intro e; exact hc (e ▸ ha)⟩
  cases e : r.state <;> rw [e] at f hl <;> simp [SvcState.live] at hl f ⊢
  all_goals refine ⟨⟨hlen, hnd, fun x hx => ?_, fun x hx => ?_, fun k hk => ?_⟩, ?_⟩
  all_goals first
    | exact List.mem_append_left _ (h3 x hx)
    | exact h4 x hx
    | exact ⟨List.mem_append_left _ (h5 k hk).1, (h5 k hk).2⟩
    | (unfold ServiceRec.fieldsOfState; simp [f])

theorem shaped_named (r : ServiceRec) (k : Kind) (n : Option (List Byte)) (h : r.shaped) (hl : r.state.live = true) :
    ServiceRec.shaped { r with kind := k, name := n } := by
  refine ⟨h.1, ?_⟩
  have f := h.2
  unfold ServiceRec.fieldsOfState at f ⊢
  cases e : r.state <;> rw [e] at f hl <;> simp [SvcState.live] at hl <;> simpa using f

theorem shaped_overflow (r : ServiceRec) (n : Nat) (h : r.shaped) (hl : r.state.live = true) :
    ServiceRec.shaped { r with overflow := n } := by
  refine ⟨h.1, ?_⟩
  have f := h.2
  unfold ServiceRec.fieldsOfState at f ⊢
  cases e : r.state <;> rw [e] at f hl <;> simp [SvcState.live] at hl <;> simpa using f

/-! ### Departures -/

/-- R11: a departure leaves a record as it may stand. -/
theorem shaped_departed (s : State) (r : ServiceRec) (c : CarrierIdx) (h : r.shaped) : (departed s r c).shaped := by
  obtain ⟨⟨h1, h2, h3, h4, h5⟩, f⟩ := h
  have hlen : (without c r.candidates).length ≤ 4 := Nat.le_trans (length_without_le _ _) h1
  have hnd := nodup_without c r.candidates h2
  have hpin : ∀ x, (withoutCandidate r c).pin = some x → r.pin = some x ∧ x ≠ c := by
    intro x hx
    simp only [withoutCandidate] at hx
    split at hx
    · cases hx
    · rename_i hne
      refine ⟨hx, fun e => hne (by rw [hx, e])⟩
  have hch : ∀ k, (withoutCandidate r c).challenger = some k → r.challenger = some k ∧ k.carrier ≠ c := by
    intro k hk
    simp only [withoutCandidate] at hk
    split at hk
    · rename_i k' e
      split at hk
      · cases hk
      · rename_i hne; cases hk; exact ⟨e, hne⟩
    · cases hk
  have hcand : (withoutCandidate r c).candidates = without c r.candidates := rfl
  have hsel : (withoutCandidate r c).selected = r.selected := rfl
  have hkey : (withoutCandidate r c).key = r.key := rfl
  have hage : (withoutCandidate r c).orphanAge = r.orphanAge := rfl
  have hstate : (withoutCandidate r c).state = r.state := rfl
  have hcc : (withoutCandidate r c).claimCount = r.claimCount := rfl
  unfold ServiceRec.fieldsOfState at f
  -- a record in LISTED or DEGRADED, once its candidate has left
  have listedCase : (r.state = .listed ∨ r.state = .degraded) → r.key ≠ none → r.orphanAge = 0 →
      (r.state = .listed → r.selected ≠ none) →
      (if without c r.candidates = [] then orphaned (withoutCandidate r c)
        else if r.selected = some c then reselected s (withoutCandidate r c) else withoutCandidate r c).shaped := by
    intro hst hk ha hls
    split
    · rename_i hnil
      refine ⟨⟨?_, ?_, by simp [orphaned], by simp [orphaned], by simp [orphaned]⟩, ?_⟩
      · simp [orphaned, hcand, hnil]
      · simp [orphaned, hcand, hnil]
      · unfold ServiceRec.fieldsOfState orphaned
        simp [hcand, hnil, hkey, hk]
    · rename_i hne
      split
      · rename_i hs
        have pinNone : (withoutCandidate r c).pin = none := by
          cases hp : (withoutCandidate r c).pin with
          | none => rfl
          | some x =>
            have := hpin x hp
            have := h4 x this.1
            rw [hs] at this; cases this
            exact absurd rfl (hpin _ hp).2
        unfold reselected
        split
        · rename_i d hd
          have hm := (firstEligible_mem s _ d hd).1
          refine shaped_of_selection _ d (verdict_cases s d) rfl hm hk ha hlen hnd ?_ (by simp [withSelection])
          intro x hx
          have : (withoutCandidate r c).pin = some x := hx
          rw [pinNone] at this; cases this
        · refine ⟨⟨hlen, hnd, by simp, ?_, by simp⟩, ?_⟩
          · intro x hx
            have : (withoutCandidate r c).pin = some x := hx
            rw [pinNone] at this; cases this
          · unfold ServiceRec.fieldsOfState
            simp [hkey, hk, hcand, hne, hage, ha]
      · rename_i hs
        refine ⟨⟨hlen, hnd, ?_, ?_, ?_⟩, ?_⟩
        · intro x hx
          rw [hsel] at hx
          rw [hcand, mem_without]
          exact ⟨h3 x hx, fun e => hs (by rw [hx, e])⟩
        · intro x hx; rw [hsel]; exact h4 x (hpin x hx).1
        · intro k hk'
          obtain ⟨a, b⟩ := hch k hk'
          rw [hcand, mem_without, hsel]
          exact ⟨⟨(h5 k a).1, b⟩, (h5 k a).2⟩
        · unfold ServiceRec.fieldsOfState
          rw [hstate, hkey, hcand, hsel, hage]
          rcases hst with e | e <;> rw [e] <;> simp [hk, hne, ha]
          exact hls e
  unfold departed
  cases e : r.state <;> rw [e] at f <;> simp only [hcand] at f ⊢
  case listed => exact listedCase (Or.inl e) f.1 f.2.2.2 (fun _ => f.2.2.1)
  case degraded => exact listedCase (Or.inr e) f.1 f.2.2 (fun h => by rw [e] at h; cases h)
  all_goals
    refine ⟨⟨hlen, hnd, ?_, ?_, ?_⟩, ?_⟩
    · intro x hx; rw [hsel] at hx; simp [f] at hx
    · intro x hx; have := (hpin x hx).1; simp [f] at this
    · intro k hk; have := (hch k hk).1; simp [f] at this
    · unfold ServiceRec.fieldsOfState
      rw [hstate, e]
      simp [withoutCandidate, without, f]

theorem keeps_announce (c : CarrierIdx) (i : ServiceIdx) (s : State) : Keeps s (announce c i s) :=
  keeps_modCar s c _ rfl

theorem keeps_unannounce (i : ServiceIdx) (s : State) (c : CarrierIdx) : Keeps s (unannounce i s c) :=
  keeps_modCar s c _ rfl

/-- A departure leaves the key and the claim count, and makes no record live that was not. -/
theorem identity_departed (s : State) (r : ServiceRec) (c : CarrierIdx) :
    (departed s r c).key = r.key ∧ (departed s r c).claimCount = r.claimCount
      ∧ ((departed s r c).state ≠ .free → r.state ≠ .free)
      ∧ ((departed s r c).state.live = true → r.state.live = true) := by
  have same : (withoutCandidate r c).key = r.key ∧ (withoutCandidate r c).claimCount = r.claimCount
      ∧ (withoutCandidate r c).state = r.state := ⟨rfl, rfl, rfl⟩
  unfold departed
  cases e : r.state <;> simp only <;> (try split) <;> (try split) <;>
    (try unfold reselected) <;> (try split) <;> simp [orphaned, withSelection, same, e, SvcState.live]

theorem keeps_depart (c : CarrierIdx) (s : State) (i : ServiceIdx) : Keeps s (depart c s i) := by
  have a := keeps_unannounce i s c
  unfold depart
  simp only
  generalize unannounce i s c = t at a ⊢
  split
  · exact a.trans (keeps_applyChange i _ t (have h := identity_departed t (t.svc i) c
      .of_same (fun w => shaped_departed t _ c (w i)) h.1 h.2.2.1 (fun _ => h.2.2.2) h.2.1))
  · exact a

/-! ### Retirement and aging -/

/-- R16, R17: a tombstone is as a RETIRED record may stand. -/
theorem shaped_tombstone (r : ServiceRec) (hk : r.key ≠ none) (hc : r.claimCount = 0) : (tombstone r).shaped := by
  refine ⟨by simp [ServiceRec.choicesOk, tombstone], ?_⟩
  unfold ServiceRec.fieldsOfState tombstone
  simp [hk, hc]

theorem key_of_live (r : ServiceRec) (h : r.shaped) (hl : r.state.live = true) : r.key ≠ none := by
  have f := h.2
  unfold ServiceRec.fieldsOfState at f
  cases e : r.state <;> rw [e] at f hl <;> simp [SvcState.live] at hl <;> exact f.1

theorem keeps_retireRecord (i : ServiceIdx) (s : State) (hl : (s.svc i).state.live = true)
    (hc : (s.svc i).claimCount = 0) : Keeps s (retireRecord i s) := by
  have a : Keeps s ((s.svc i).candidates.foldl (unannounce i) s) := Keeps.foldl _ (keeps_unannounce i) _ s
  unfold retireRecord
  simp only
  have e : ((s.svc i).candidates.foldl (unannounce i) s).svcs = s.svcs := by
    generalize (s.svc i).candidates = l
    clear a hl hc
    induction l generalizing s with
    | nil => rfl
    | cons b l ih => rw [List.foldl_cons, ih]; rfl
  generalize (s.svc i).candidates.foldl (unannounce i) s = t at a e ⊢
  have e' : s.svc i = t.svc i := by simp only [State.svc, e]
  rw [e'] at hl hc ⊢
  exact a.trans (keeps_applyChange i _ t
    (.of_live (fun w => shaped_tombstone _ (key_of_live _ (w i) hl) hc) rfl hl rfl))

theorem keeps_ageOrphan (s : State) (i : ServiceIdx) : Keeps s (ageOrphan s i) := by
  unfold ageOrphan
  simp only
  split
  · rename_i ho
    have hl : (s.svc i).state.live = true := by rw [ho]; rfl
    split
    · rename_i h
      exact keeps_applyChange i _ s
        (.of_live (fun w => shaped_tombstone _ (key_of_live _ (w i) hl) h.2) rfl hl rfl)
    · refine keeps_applyChange i _ s (.of_live (fun w => ⟨(w i).1, ?_⟩) rfl hl rfl)
      have f := (w i).2
      unfold ServiceRec.fieldsOfState at f ⊢
      rw [ho] at f
      simp only [ho]
      refine ⟨f.1, f.2.1, f.2.2.1, f.2.2.2.1, f.2.2.2.2.1, ?_⟩
      unfold satSucc
      split
      · rename_i hlt; exact hlt
      · exact f.2.2.2.2.2
  · exact Keeps.refl s

theorem keeps_passEnd (s : State) : Keeps s (passEnd s) := Keeps.foldl _ keeps_ageOrphan _ s

/-! ### Allocation -/

theorem shaped_allocated (r : ServiceRec) (k : Key) (kind : Kind) (n : Option (List Byte)) :
    (r.allocated k kind n).shaped := by
  refine ⟨by simp [ServiceRec.choicesOk, ServiceRec.allocated], ?_⟩
  simp [ServiceRec.fieldsOfState, ServiceRec.allocated]

/-- What an allocation takes: a slot that is FREE or RETIRED, which holds the key where any RETIRED slot does. -/
theorem allocation_spec (s : State) (k : Key) (i : ServiceIdx) (r : ServiceRec) (h : allocation s k = some (i, r)) :
    (∃ kind n, r = (s.svc i).allocated k kind n)
      ∧ ((s.svc i).state = .free ∨ (s.svc i).state = .retired)
      ∧ ∀ j, (s.svc j).state = .retired → (s.svc j).key = some k →
        (s.svc i).state = .retired ∧ (s.svc i).key = some k := by
  have tomb : ∀ l b z, (∀ y, b = some y → y.2 = s.svc y.1 ∧ y.2.state = .retired) → (∀ x ∈ l, x.2 = s.svc x.1) →
      List.foldl olderTombstone b l = some z → z.2 = s.svc z.1 ∧ z.2.state = .retired := by
    intro l
    induction l with
    | nil => intro b z hb _ h; exact hb z h
    | cons a l ih =>
      intro b z hb hl h
      refine ih _ z ?_ (fun x hx => hl x (List.mem_cons_of_mem _ hx)) h
      intro y hy
      have ha := hl a List.mem_cons_self
      unfold olderTombstone at hy
      split at hy
      · rename_i hr
        split at hy
        · cases hy; exact ⟨ha, hr⟩
        · split at hy
          · cases hy; exact ⟨ha, hr⟩
          · exact hb y hy
      · exact hb y hy
  unfold allocation at h
  split at h
  · rename_i j hj
    have w := ((firstIdx_eq_some _ _ _).mp hj).1
    simp only [Bool.and_eq_true, decide_eq_true_eq] at w
    cases h
    exact ⟨⟨_, _, rfl⟩, Or.inr w.1, fun _ _ _ => w⟩
  · rename_i hn
    have none_ : ∀ j, (s.svc j).state = .retired → (s.svc j).key = some k → False := by
      intro j a b
      have w := (firstIdx_eq_none _ _).mp hn j
      rw [Bool.eq_false_iff] at w
      refine w ?_
      simp only [Bool.and_eq_true, decide_eq_true_eq]
      exact ⟨a, b⟩
    split at h
    · rename_i j hj
      have w := ((firstIdx_eq_some _ _ _).mp hj).1
      simp only [decide_eq_true_eq] at w
      cases h
      exact ⟨⟨_, _, rfl⟩, Or.inl w, fun j a b => (none_ j a b).elim⟩
    · split at h
      · rename_i j r' hj
        have w := tomb _ none _ (by simp) (fun x hx => by
          rw [indexed_eq] at hx
          obtain ⟨i, _, rfl⟩ := List.mem_map.mp hx
          rfl) hj
        cases h
        have wr : r' = s.svc i := w.1
        exact ⟨⟨_, _, by rw [wr]⟩, Or.inr (by rw [← wr]; exact w.2), fun j a b => (none_ j a b).elim⟩
      · cases h

/-- R3: where the key map finds no live record, what holds the key is RETIRED. -/
theorem retired_of_liveRecord_none (s : State) (k : Key) (w : KeysDistinct s) (h : liveRecord s k = none) (j : ServiceIdx)
    (hj : (s.svc j).state ≠ .free) (hk : (s.svc j).key = some k) : (s.svc j).state = .retired := by
  unfold liveRecord at h
  split at h
  · rename_i i hi
    have m := ((firstIdx_eq_some _ _ _).mp hi).1
    simp only [Bool.and_eq_true, decide_eq_true_eq] at m
    obtain rfl := w i j k m.1 hj m.2 hk
    split at h
    · cases h
    · rename_i hl
      cases e : (s.svc i).state <;> rw [e] at hl hj <;> simp [SvcState.live] at hl hj ⊢
  · rename_i hn
    have m := (firstIdx_eq_none _ _).mp hn j
    rw [Bool.eq_false_iff] at m
    refine absurd ?_ m
    simp only [Bool.and_eq_true, decide_eq_true_eq]
    exact ⟨hj, hk⟩

/-- R3, R13, R18: an allocation for a key that no live record holds and that is not suppressed, with whatever a roster
entry brings. -/
theorem Lawful.of_allocation {s : State} {k : Key} {i : ServiceIdx} {r r' : ServiceRec} (h : allocation s k = some (i, r))
    (hl : liveRecord s k = none) (hs : k ∉ s.svcs.suppressed) (shaped : r'.shaped) (key : r'.key = r.key)
    (count : r'.claimCount = r.claimCount) : Lawful i r' s := by
  obtain ⟨⟨kind, n, rfl⟩, hst, hrev⟩ := allocation_spec s k i r h
  have hk : r'.key = some k := key
  refine ⟨fun _ => shaped, fun w k' _ hk' j hj hfj hkj => ?_, fun _ _ k' _ hk' => ?_, fun w => ?_⟩
  · rw [hk] at hk'; cases hk'
    have hr := retired_of_liveRecord_none s k w hl j hfj hkj
    have hi := hrev j hr hkj
    exact hj (w j i k hfj (by rw [hi.1]; simp) hkj hi.2)
  · rw [hk] at hk'; cases hk'; exact hs
  · have f := (w i).2
    have c : r'.claimCount = 0 := count
    rw [c]
    unfold ServiceRec.fieldsOfState at f
    rcases hst with e | e <;> rw [e] at f <;> simp only at f <;> exact f.2.2.2.2.2.1.symm

/-! ### Carrier Table -/

theorem keeps_reportEligibility (c : CarrierIdx) (s : State) : Keeps s (reportEligibility c s) :=
  (keeps_pushReport _ _ _ s).trans (keeps_eligibilityToClaims c _)

theorem keeps_lockOutcome (c : CarrierIdx) (s : State) : Keeps s (lockOutcome c s) := by
  unfold lockOutcome
  simp only
  split
  · exact Keeps.refl s
  · have a : Keeps s (s.setCar c { s.car c with state := .live, failures := 0 }) := keeps_setCar s c _ rfl
    split
    · exact a
    · exact a.trans (keeps_reportEligibility c _)

theorem keeps_failedVisit (c : CarrierIdx) (s : State) : Keeps s (failedVisit c s) := by
  unfold failedVisit
  simp only
  split
  · exact Keeps.refl s
  · generalize hr : CarrierRec.mk (failedState (s.car c).state (satSucc Config.failuresToLost (s.car c).failures))
      (s.car c).params (satSucc Config.failuresToLost (s.car c).failures) (s.car c).quality (s.car c).rosterVersion
      (s.car c).stale (s.car c).malformed (s.car c).announced (s.car c).carrying = r
    have a : Keeps s (countEvent .visitFailed none (some c) (s.setCar c r)) :=
      (keeps_setCar s c r (by rw [← hr])).trans (keeps_countEvent _ _ _ _)
    split
    · exact a
    · exact a.trans (keeps_reportEligibility c _)

theorem keeps_setLost (c : CarrierIdx) (s : State) : Keeps s (setLost c s) := by
  unfold setLost
  split
  · exact Keeps.refl s
  · exact keeps_modCar s c _ rfl

theorem keeps_burstResult (c : CarrierIdx) (full : Bool) (x : Lanes) (s : State) :
    Keeps s (burstResult c full x s) := by
  unfold burstResult
  simp only
  split
  · generalize scored s.rank.settings (smoothed full (s.car c).quality x) = q
    have a : Keeps s (s.setCar c { s.car c with quality := some q }) := keeps_setCar s c _ rfl
    have b := a.trans (keeps_pushReport .burst (some c) (s.car c).announced _)
    split
    · exact b
    · exact b.trans (keeps_eligibilityToClaims c _)
  · exact Keeps.refl s

/-! ### The merge -/

theorem liveRecord_live (s : State) (k : Key) (i : ServiceIdx) (h : liveRecord s k = some i) :
    (s.svc i).state.live = true := by
  unfold liveRecord at h
  split at h
  · split at h
    · rename_i hl; cases h; exact hl
    · cases h
  · cases h

/-- A join leaves the key and the claim count, and a record that is live. -/
theorem identity_withCandidate (r : ServiceRec) (c : CarrierIdx) :
    (withCandidate r c).key = r.key ∧ (withCandidate r c).claimCount = r.claimCount := by
  unfold withCandidate
  split <;> exact ⟨rfl, rfl⟩

theorem keeps_joinRecord (c : CarrierIdx) (i : ServiceIdx) (r : ServiceRec) (acc : State × List ServiceIdx)
    (h : Lawful i (withCandidate r c) acc.1) : Keeps acc.1 (joinRecord c i r acc).1 :=
  (keeps_applyChange i _ acc.1 h).trans (keeps_announce c i _)

theorem keeps_mergeEntry (c : CarrierIdx) (again : Bool) (acc : State × List ServiceIdx) (e : KeyedEntry) :
    Keeps acc.1 (mergeEntry c again acc e).1 := by
  unfold mergeEntry
  simp only
  split
  · exact Keeps.refl _
  · rename_i hs
    split
    · rename_i i hi
      have hl := liveRecord_live _ _ _ hi
      split
      · exact keeps_applyChange i _ acc.1 (.of_live (fun w => shaped_named _ _ _ (w i) hl) rfl hl rfl)
      · rename_i hc
        split
        · rename_i hn
          have id := identity_withCandidate { acc.1.svc i with kind := e.kind, name := some e.name } c
          exact keeps_joinRecord c i _ acc (.of_live (fun w =>
            shaped_withCandidate _ c (shaped_named _ _ _ (w i) hl) hl (fun h => hc (Or.inr h)) hn) id.1 hl id.2)
        · exact keeps_applyChange i _ acc.1 (.of_live (fun w =>
            shaped_overflow _ _ (shaped_named (acc.1.svc i) e.kind (some e.name) (w i) hl) hl) rfl hl rfl)
    · rename_i hl
      split
      · rename_i i r hr
        have id := identity_withCandidate { r with kind := e.kind, name := some e.name } c
        refine keeps_joinRecord c i _ acc (.of_allocation hr hl hs ?_ id.1 id.2)
        obtain ⟨⟨kind, n, rfl⟩, _⟩ := allocation_spec _ _ _ _ hr
        exact shaped_withCandidate _ c (shaped_named _ _ _ (shaped_allocated _ _ _ _) rfl) rfl
          (by simp [ServiceRec.allocated]) (by simp [ServiceRec.allocated])
      · exact { Keeps.refl acc.1 with }

theorem keeps_mergeEntries (c : CarrierIdx) (seen : List Key) (l : List KeyedEntry) (acc : State × List ServiceIdx) :
    Keeps acc.1 (mergeEntries c seen l acc).1 := by
  induction l generalizing seen acc with
  | nil => exact Keeps.refl _
  | cons e l ih => exact (keeps_mergeEntry c _ acc e).trans (ih _ _)

theorem keeps_mergeHead (c : CarrierIdx) (v : RosterVersion) (m : Bool) (s : State) :
    Keeps s (mergeHead c v m s) := by
  unfold mergeHead
  simp only
  refine Keeps.trans ?_ (keeps_modCar _ c _ rfl)
  split
  · exact keeps_countEvent _ _ _ s
  · exact Keeps.refl s

theorem keeps_mergeDepartures (c : CarrierIdx) (old : List ServiceIdx) (keys : List Key) (s : State) :
    Keeps s (mergeDepartures c old keys s) := Keeps.foldl _ (keeps_depart c) _ s

theorem keeps_mergeRebuild (c : CarrierIdx) (keys : List Key) (s : State) : Keeps s (mergeRebuild c keys s) := by
  unfold mergeRebuild
  exact keeps_modCar s c _ rfl

theorem keeps_mergeEvaluations (c : CarrierIdx) (new : List ServiceIdx) (s : State) :
    Keeps s (mergeEvaluations c new s) := by
  unfold mergeEvaluations
  split
  · exact keeps_pushReport _ _ _ s
  · exact Keeps.refl s

theorem keeps_merge (c : CarrierIdx) (k : Collection) (s : State) : Keeps s (merge c k s) := by
  unfold merge
  split
  · exact Keeps.refl s
  · split
    · exact Keeps.refl s
    · exact (((keeps_mergeHead c _ _ s).trans (keeps_mergeEntries c [] _ (_, []))).trans
        (keeps_mergeDepartures c _ _ _)).trans ((keeps_mergeRebuild c _ _).trans (keeps_mergeEvaluations c _ _))

end Sys2Proof.Machine
end

