-- ==== Sys2Proof/Laws/KeepsArbiter.lean ====
section
/-! SUPPORT. `Keeps` for the Path Arbiter, up to the whole arbitration that closes a step. -/

namespace Sys2Proof.Machine

/-! ### Reports leave the paths alone -/

theorem paths_finish (c : Completion) (l : List Word) (s : State) : (finish c l s).paths = s.paths := by
  unfold finish
  split
  · rfl
  · simp only
    split <;> rfl

theorem paths_visitEnded (c : CarrierIdx) (s : State) : (visitEnded c s).paths = s.paths := by
  unfold visitEnded
  split
  · split
    · split
      · exact paths_finish _ _ s
      · rfl
    · rfl
  · rfl

theorem paths_putBack (c : CarrierIdx) (s : State) : (putBack c s).paths = s.paths := by
  unfold putBack
  simp only
  split
  · rfl
  · split <;> rfl

theorem paths_visitEndReport (u : Use) (c : CarrierIdx) (k : VisitEnd) (s : State) :
    (visitEndReport u c k s).paths = s.paths := by
  unfold visitEndReport
  split
  · split
    all_goals first
      | exact paths_putBack c s
      | exact paths_visitEnded c _
  · rfl
  · rfl

theorem carryCount_of_paths {s t : State} (h : t.paths = s.paths) : carryCount t = carryCount s := by
  unfold carryCount; rw [h]

/-! ### Grants, conversions, resumptions -/

theorem keeps_setCarrying (c : CarrierIdx) (p : PathIdx) (s : State) : Keeps s (setCarrying c p s) :=
  ((keeps_modCar s c (fun r => { r with carrying := some p }) rfl).trans (keeps_queueCarried c _)).trans
    (keeps_carryingSetToClaims c _)

theorem keeps_forgetCutsOfPath (p : PathIdx) (s : State) : Keeps s (forgetCutsOfPath p s) :=
  keeps_cuts s _ s.arb.due

theorem keeps_forgetCutsOfClaim (ch : ChannelIdx) (s : State) : Keeps s (forgetCutsOfClaim ch s) :=
  keeps_cuts s _ s.arb.due

theorem underLimit_iff (s : State) : underLimit s = true ↔ carryCount s < 8 - s.arb.reserve := by
  simp [underLimit]

theorem keeps_switchFor (q : CarrierParams) (s : State) : Keeps s (switchFor q s) := by
  unfold switchFor
  split
  · exact keeps_feedSwitch _ _ s
  · exact Keeps.refl s

theorem paths_switchFor (q : CarrierParams) (s : State) : (switchFor q s).paths = s.paths := by
  unfold switchFor
  split <;> rfl

/-- R91, R113: a grant, of CARRY use below the limit alone. -/
theorem keeps_grant (p : PathIdx) (u : Use) (c : CarrierIdx) (s : State)
    (h : u = .carry → carryCount s < 8 - s.arb.reserve) : Keeps s (grant p u c s) := by
  unfold grant
  split
  · exact Keeps.refl s
  · rename_i q _
    simp only
    have k := keeps_switchFor q s
    have hp := paths_switchFor q s
    generalize switchFor q s = t at k hp ⊢
    have b : Keeps s (joinWait q.input p (attach q.input p (t.setPath p (grantedPath u c)))) := by
      refine (k.trans ?_).trans ((keeps_attach q.input p _).trans (keeps_joinWait q.input p _))
      by_cases e : u = .carry
      · refine keeps_setPath_carry t p _ ?_
        rw [carryCount_of_paths hp, k.reserve]; exact h e
      · exact keeps_setPath t p _ (fun e' => absurd (by simpa [grantedPath] using e') e)
    split
    · exact b.trans (keeps_setCarrying c p _)
    · exact b

theorem keeps_endConverted (p : PathIdx) (c : CarrierIdx) (s : State) : Keeps s (endConverted p c s) := by
  unfold endConverted
  split
  · exact keeps_visitEndReport _ c _ s
  · exact Keeps.refl s

theorem paths_endConverted (p : PathIdx) (c : CarrierIdx) (s : State) : (endConverted p c s).paths = s.paths := by
  unfold endConverted
  split
  · exact paths_visitEndReport _ c _ s
  · rfl

theorem keeps_demandDeparts (x : CarrierIdx) (before s : State) : Keeps s (demandDeparts x before s) := by
  unfold demandDeparts
  split
  · exact keeps_raiseArb s
  · exact Keeps.refl s

/-- R105, R113: a conversion below the limit. -/
theorem keeps_convert (p : PathIdx) (c : CarrierIdx) (s : State) (h : carryCount s < 8 - s.arb.reserve) :
    Keeps s (convert p c s) := by
  unfold convert
  simp only
  have k := keeps_endConverted p c s
  have hp := paths_endConverted p c s
  generalize endConverted p c s = t at k hp ⊢
  have hl : carryCount t < 8 - t.arb.reserve := by rw [carryCount_of_paths hp, k.reserve]; exact h
  have b : Keeps s (setCarrying c p (forgetCutsOfPath p (t.setPath p (convertedPath (s.path p))))) :=
    ((k.trans (keeps_setPath_carry t p _ hl)).trans (keeps_forgetCutsOfPath p _)).trans (keeps_setCarrying c p _)
  split
  · exact (b.trans (keeps_demandDeparts c s _)).trans (keeps_engagedToClaims p c _)
  · exact b

/-- R106, R113: a resumption, of a path in CARRY use or below the limit. -/
theorem keeps_resume (p : PathIdx) (c : CarrierIdx) (s : State)
    (h : (s.path p).use = some .carry ∨ carryCount s < 8 - s.arb.reserve) : Keeps s (resume p c s) := by
  unfold resume
  simp only
  refine Keeps.trans (Keeps.trans (Keeps.trans (Keeps.trans ?_ (keeps_forgetCutsOfPath p _)) (keeps_setCarrying c p _))
    (keeps_demandDeparts c s _)) (keeps_engagedToClaims p c _)
  rcases h with h | h
  · exact keeps_setPath s p _ (fun _ => h)
  · exact keeps_setPath_carry s p _ h

/-! ### Cuts -/

theorem keeps_cutFor (ch : ChannelIdx) (s : State) (p : PathIdx) : Keeps s (cutFor ch s p) := by
  unfold cutFor
  simp only
  refine Keeps.trans ?_ (keeps_cutPath p _)
  refine Keeps.trans ?_ (keeps_countEvent _ _ _ _)
  exact keeps_cuts s _ s.arb.due

theorem keeps_preempt (ch : ChannelIdx) (s : State) : Keeps s (preempt ch s) := by
  unfold preempt
  split
  · exact Keeps.refl s
  · split
    · exact keeps_cutFor ch s _
    · exact Keeps.refl s

theorem keeps_cutConflict (ch : ChannelIdx) (c : CarrierIdx) (s : State) : Keeps s (cutConflict ch c s) := by
  unfold cutConflict
  split
  · exact Keeps.refl s
  · split
    · exact Keeps.foldl _ (keeps_cutFor ch) _ s
    · exact Keeps.refl s

/-! ### Claim items -/

theorem keeps_tellReason (ch : ChannelIdx) (why : Reason) (s : State) : Keeps s (tellReason ch why s) := by
  unfold tellReason
  simp only
  split
  · rename_i h
    refine keeps_setClaim ch _ s (fun w => ?_) rfl
    have := w ch
    simp [ClaimRec.shaped, h] at this ⊢
    simp [this]
  · exact Keeps.refl s

theorem keeps_serveItem (ch : ChannelIdx) (c : CarrierIdx) (s : State) : Keeps s (serveItem ch c s) := by
  unfold serveItem
  split
  · rename_i p _
    simp only
    split
    · split
      · rename_i hl
        exact (keeps_convert p c s ((underLimit_iff s).mp hl)).trans (keeps_forgetCutsOfClaim ch _)
      · exact keeps_tellReason ch _ s
    · split
      · split
        · rename_i h
          exact (keeps_resume p c s (h.imp id (underLimit_iff s).mp)).trans (keeps_forgetCutsOfClaim ch _)
        · exact keeps_tellReason ch _ s
      · exact keeps_tellReason ch _ s
  · split
    · rename_i hl
      split
      · exact (keeps_tellReason ch _ s).trans (keeps_cutConflict ch c _)
      all_goals
        split
        · exact (keeps_grant _ _ c s (fun _ => (underLimit_iff s).mp hl)).trans (keeps_forgetCutsOfClaim ch _)
        · exact (keeps_tellReason ch _ s).trans (keeps_preempt ch _)
    · exact keeps_tellReason ch _ s

theorem keeps_serveItems (item : State → ChannelIdx → Option CarrierIdx) (s : State) :
    Keeps s (serveItems item s) :=
  Keeps.forChannels _ (fun ch s => by
    split
    · exact keeps_serveItem ch _ s
    · exact Keeps.refl s) s

theorem keeps_pruneCuts (s : State) : Keeps s (pruneCuts s) := keeps_cuts s _ s.arb.due

/-! ### Scan work -/

theorem keeps_sweepAdvance (c : CarrierIdx) (b : Bool) (s : State) : Keeps s (sweepAdvance c b s) := by
  unfold sweepAdvance
  simp only
  split
  · refine Keeps.trans ?_ (keeps_passEnd _)
    exact keeps_plan s s.plan.queue s.plan.underQueue _ _ id (fun _ => id)
  · exact keeps_plan s s.plan.queue s.plan.underQueue _ s.plan.passCount id (fun _ => id)

theorem keeps_takeEntry (c : CarrierIdx) (s : State) : Keeps s (takeEntry c s) :=
  (keeps_dropEntry c s).trans (keeps_plan (dropEntry c s) _ _ _ _ id (fun _ => id))

theorem keeps_scanGrant (s t : State) (h : scanGrant s = some t) : Keeps s t := by
  unfold scanGrant at h
  split at h
  · cases h
  · split at h
    · simp only [Option.some.injEq] at h
      subst h
      exact (keeps_takeEntry _ s).trans (keeps_grant _ _ _ _ (by intro e; cases e))
    · split at h
      · split at h
        · simp only [Option.some.injEq] at h
          subst h
          exact (keeps_sweepAdvance _ _ s).trans (keeps_grant _ _ _ _ (by intro e; cases e))
        · cases h
      · cases h

theorem keeps_scanGrants (n : Nat) (s : State) : Keeps s (scanGrants n s) := by
  induction n generalizing s with
  | zero => exact Keeps.refl s
  | succ n ih =>
    unfold scanGrants
    split
    · rename_i t h
      exact (keeps_scanGrant s t h).trans (ih t)
    · exact Keeps.refl s

/-! ### Arbitration -/

theorem keeps_serveClaims (s : State) : Keeps s (serveClaims s) :=
  (keeps_serveItems _ s).trans (keeps_serveItems _ _)

theorem keeps_arbitrateOnce (s : State) : Keeps s (arbitrateOnce s) := by
  unfold arbitrateOnce
  simp only
  refine ((keeps_pruneCuts s).trans (keeps_serveClaims _)).trans (Keeps.trans ?_ (keeps_pruneCuts _))
  split
  · exact Keeps.refl _
  · exact keeps_scanGrants 8 _

theorem keeps_clearDue (s : State) : Keeps s { s with arb := { s.arb with due := false } } :=
  keeps_cuts s s.arb.cuts false

theorem keeps_arbitrate (n : Nat) (s : State) : Keeps s (arbitrate n s) := by
  induction n generalizing s with
  | zero => exact keeps_clearDue s
  | succ n ih =>
    unfold arbitrate
    split
    · exact ((keeps_clearDue s).trans (keeps_arbitrateOnce _)).trans (ih _)
    · exact keeps_clearDue s

/-- What the end of a step keeps. -/
theorem keeps_closeStep (s : State) : Keeps s (closeStep s) := by
  unfold closeStep
  split
  · exact (keeps_arbitrate 64 s).trans (keeps_pruneCuts _)
  · exact Keeps.refl s

/-- A step that brought no event of R115 about ends as it is. -/
theorem closeStep_of_not_due (s : State) (h : s.arb.due = false) : closeStep s = s := by
  simp [closeStep, h]

theorem due_arbitrate (n : Nat) (s : State) : (arbitrate n s).arb.due = false := by
  induction n generalizing s with
  | zero => rfl
  | succ n ih =>
    unfold arbitrate
    split
    · exact ih _
    · rfl

/-- Arbitration is never left due at the end of a step (log 12). -/
theorem due_closeStep (s : State) : (closeStep s).arb.due = false := by
  unfold closeStep
  split
  · exact due_arbitrate 64 s
  · rename_i h; simpa using h

end Sys2Proof.Machine
end

