-- ==== Sys2Proof/Laws/KeepsVisits.lean ====
section
/-! SUPPORT. What the events of paths and inputs, the evaluations and the SETTLE timer keep: each moves the clock
forward, or leaves it, and then keeps what `Keeps` says. -/

namespace Sys2Proof.Machine

/-- An event: the clock reaches some moment and the rest is kept. -/
def Runs (s t : State) : Prop := ∃ n, s.now ≤ n ∧ Keeps { s with now := n } t

theorem Runs.refl (s : State) : Runs s s := ⟨s.now, Nat.le_refl _, Keeps.refl s⟩

theorem Runs.of_keeps {s t : State} (h : Keeps s t) : Runs s t := ⟨s.now, Nat.le_refl _, h⟩

theorem Runs.reach {s u : State} (t : Nat) (h : Keeps (reach t s) u) : Runs s u :=
  ⟨max s.now t, Nat.le_max_left _ _, h⟩

theorem Runs.keeps {s t u : State} (a : Runs s t) (b : Keeps t u) : Runs s u := by
  obtain ⟨n, h, k⟩ := a
  exact ⟨n, h, k.trans b⟩

theorem runs_feedSettleEnd (i : InputIdx) (s : State) : Runs s (feedSettleEndEffect i s) := by
  unfold feedSettleEndEffect
  split
  · exact Runs.refl s
  · exact Runs.reach _ (keeps_modInp _ i _ (fun _ => ⟨⟨rfl, rfl, rfl⟩, id, id⟩))

theorem keeps_askRelock (p : PathIdx) (n : Nat) (s : State) : Keeps s (askRelock p n s) := by
  have a : Keeps s (s.setPath p { s.path p with state := .awaitTune, relocks := n }) :=
    keeps_setPath s p _ (fun h => h)
  unfold askRelock
  simp only
  split
  · exact a
  · split
    · exact a
    · exact a.trans (keeps_joinWait _ p _)

theorem keeps_lock (p : PathIdx) (s : State) : Keeps s (lockEffect p s) := by
  unfold lockEffect
  simp only
  split
  · split
    · refine Keeps.trans (Keeps.trans ?_ (keeps_lockOutcome _ _)) (keeps_engagedToClaims p _ _)
      exact keeps_setPath s p _ (fun h => h)
    · refine Keeps.trans ?_ (keeps_lockOutcome _ _)
      exact keeps_setPath s p _ (fun h => h)
  · exact Keeps.refl s

theorem keeps_exhausted (p : PathIdx) (c : CarrierIdx) (s : State) : Keeps s (relocksExhausted p c s) := by
  have a := ((keeps_setLost c s).trans (keeps_releaseCarry p _)).trans (keeps_exhaustedToClaims p _)
  unfold relocksExhausted
  simp only
  split
  · exact a
  · exact a.trans (keeps_reportEligibility c _)

theorem runs_lockTimerExpiry (p : PathIdx) (s : State) : Runs s (lockTimerExpiryEffect p s) := by
  unfold lockTimerExpiryEffect
  simp only
  split
  · rename_i t c _ _ _
    refine Runs.reach t ?_
    refine (keeps_stopTuning p _).trans ?_
    split
    · split
      · exact (((keeps_clearCarrying c _).trans (keeps_failedVisit c _)).trans
          (keeps_acquisitionFailedToClaims p c _)).trans (keeps_leaveCarrier p _)
      · split
        · exact keeps_askRelock p _ _
        · exact keeps_exhausted p c _
    · exact (keeps_failedVisit c _).trans (keeps_endScanVisit p _ _)
  · exact Runs.refl s

theorem keeps_carryLockLoss (p : PathIdx) (c : CarrierIdx) (s : State) : Keeps s (carryLockLoss p c s) := by
  unfold carryLockLoss
  simp only
  refine Keeps.trans ?_ (keeps_lockLossToClaims p c _)
  refine Keeps.trans ?_ (keeps_askRelock p 1 _)
  refine Keeps.trans ?_ (keeps_countEvent _ _ _ _)
  exact keeps_modPath s p _ rfl

theorem keeps_scanLockLoss (p : PathIdx) (c : CarrierIdx) (s : State) : Keeps s (scanLockLoss p c s) := by
  unfold scanLockLoss
  simp only
  refine Keeps.trans ?_ (keeps_endScanVisit p _ _)
  refine Keeps.trans ?_ (keeps_failedVisit c _)
  exact keeps_modPath s p _ rfl

theorem keeps_endWork (p : PathIdx) (s : State) : Keeps s (endWork p s) := by
  unfold endWork
  simp only
  split
  · exact keeps_endScanVisit p _ s
  · exact Keeps.refl s

theorem keeps_scanSample (p : PathIdx) (c : CarrierIdx) (x : Sample) (s : State) : Keeps s (scanSample p c x s) := by
  unfold scanSample
  simp only
  split
  · exact Keeps.refl s
  · split
    · refine Keeps.trans (Keeps.trans ?_ (keeps_burstResult c _ _ _)) (keeps_endScanVisit p _ _)
      exact keeps_setPath s p _ (fun h => h)
    · split
      · refine Keeps.trans (Keeps.trans ?_ (keeps_burstResult c _ _ _)) (keeps_endWork p _)
        exact keeps_setPath s p _ (fun h => h)
      · exact keeps_setPath s p _ (fun h => h)

theorem keeps_carrySample (p : PathIdx) (c : CarrierIdx) (x : Sample) (s : State) :
    Keeps s (carrySample p c x s) := by
  unfold carrySample
  simp only
  split
  · refine Keeps.trans ?_ (keeps_burstResult c _ _ _)
    exact keeps_setPath s p _ (fun h => h)
  · exact keeps_setPath s p _ (fun h => h)

theorem runs_sample (p : PathIdx) (x : Sample) (s : State) : Runs s (sampleEffect p x s) := by
  unfold sampleEffect
  simp only
  split
  · rename_i t c _ _ _
    refine Runs.reach t ?_
    have a : Keeps (reach t s)
        ((reach t s).modPath p (fun r => { r with sampleDue := some (t + Config.samplePeriod) })) :=
      keeps_modPath _ p _ rfl
    split
    · split
      · exact a.trans (keeps_carrySample p c x _)
      · exact a.trans (keeps_carryLockLoss p c _)
    · split
      · exact a.trans (keeps_scanSample p c x _)
      · exact a.trans (keeps_scanLockLoss p c _)
  · exact Runs.refl s

theorem keeps_endListening (p : PathIdx) (s : State) : Keeps s (endListening p s) := keeps_modPath s p _ rfl

theorem keeps_scanSection (p : PathIdx) (c : CarrierIdx) (k : Collection) (x : AnnSection) (s : State) :
    Keeps s (scanSection p c k x s) := by
  unfold scanSection
  simp only
  split
  · refine Keeps.trans ?_ (keeps_endWork p _)
    refine (keeps_endListening p s).trans ?_
    exact keeps_modCar _ c _ rfl
  · split
    · exact ((keeps_endListening p s).trans (keeps_merge c _ _)).trans (keeps_endWork p _)
    · exact keeps_modPath s p _ rfl

theorem keeps_carrySection (p : PathIdx) (c : CarrierIdx) (k : Collection) (x : AnnSection) (s : State) :
    Keeps s (carrySection p c k x s) := by
  unfold carrySection
  simp only
  split
  · exact keeps_modPath s p _ rfl
  · split
    · refine Keeps.trans ?_ (keeps_merge c _ _)
      exact keeps_modPath s p _ rfl
    · exact keeps_modPath s p _ rfl

theorem keeps_section (p : PathIdx) (x : AnnSection) (s : State) : Keeps s (sectionEffect p x s) := by
  unfold sectionEffect
  simp only
  split
  · split
    · exact keeps_modPath s p _ rfl
    · split
      · exact keeps_carrySection p _ _ x s
      · exact keeps_scanSection p _ _ x s
  · exact Keeps.refl s

theorem runs_rosterTimeout (p : PathIdx) (s : State) : Runs s (rosterTimeoutEffect p s) := by
  unfold rosterTimeoutEffect
  simp only
  split
  · rename_i t c _ _ _
    refine Runs.reach t ?_
    refine Keeps.trans ?_ (keeps_endWork p _)
    refine (keeps_endListening p _).trans ?_
    exact keeps_modCar _ c _ rfl
  · exact Runs.refl s

theorem runs_dwellEnd (p : PathIdx) (s : State) : Runs s (dwellEndEffect p s) := by
  unfold dwellEndEffect
  split
  · exact Runs.reach _ (keeps_enterRecovery p _)
  · exact Runs.refl s

theorem keeps_standbyComplete (s : State) : Keeps s (standbyComplete s) := by
  unfold standbyComplete
  split
  · rename_i h
    simp only
    have a : Keeps s { s with arb := { s.arb with mode := .standby } } :=
      { Keeps.refl s with mode := Or.inr ⟨h.1, rfl⟩ }
    split
    · rename_i e
      refine a.trans (keeps_finish _ _ _ (fun x ex => ?_))
      have : s.inExec = some x := ex
      have e' : s.inExec = _ := e
      rw [e'] at this; cases this; simp [roomHeld]
    · exact a
  · exact Keeps.refl s

theorem runs_recoveryEnd (p : PathIdx) (s : State) : Runs s (recoveryEndEffect p s) := by
  unfold recoveryEndEffect
  split
  · rename_i t _ _
    refine Runs.reach t ?_
    refine Keeps.trans ?_ (keeps_standbyComplete _)
    refine Keeps.trans ?_ (keeps_raiseArb _)
    refine Keeps.trans ?_ (keeps_forgetCutsOfPath p _)
    exact keeps_setPath _ p _ (by intro h; cases h)
  · exact Runs.refl s

theorem length_settingsWords (g : Settings) : (settingsWords g).length = 8 := rfl

theorem keeps_setRankingComplete (s : State) : Keeps s (setRankingComplete s) := by
  unfold setRankingComplete
  split
  · rename_i h
    split
    · exact Keeps.refl s
    · refine keeps_finish _ _ s (fun x ex => ?_)
      rw [h] at ex; cases ex; simp [roomHeld, length_settingsWords]
  · exact Keeps.refl s

theorem keeps_serviceEvaluation (n : Nat) (s : State) : Keeps s (serviceEvaluationEffect n s) := by
  unfold serviceEvaluationEffect
  split
  · exact Keeps.refl s
  · split
    · exact Keeps.refl s
    · split
      · exact Keeps.refl s
      · simp only
        refine Keeps.trans ?_ (keeps_setRankingComplete _)
        exact (keeps_evals s _).trans (keeps_evaluate _ _ _)

theorem runs_settleTimerExpiry (s : State) : Runs s (settleTimerExpiryEffect s) := by
  unfold settleTimerExpiryEffect
  split
  · rename_i h
    refine Runs.reach _ (keeps_finish _ _ _ (fun x ex => ?_))
    have : s.inExec = some x := ex
    rw [h] at this; cases this; simp [roomHeld]
  · exact Runs.refl s

end Sys2Proof.Machine
end

