-- ==== Sys2Proof/Laws/Steady.lean ====
section
/-! SUPPORT. What the reports between the blocks and the arbitration leave of the tables: the service records, the
rankings, and all of each carrier record but its carrying path. -/

namespace Sys2Proof.Machine

/-- The service records, the settings and outstanding evaluations, and every carrier record but its carrying path are
as before. -/
structure Steady (s t : State) : Prop where
  svcs : t.svcs = s.svcs
  rank : t.rank = s.rank
  cars : ∀ c, { t.car c with carrying := none } = { s.car c with carrying := none }

theorem Steady.refl (s : State) : Steady s s := ⟨rfl, rfl, fun _ => rfl⟩

theorem Steady.trans {s t u : State} (a : Steady s t) (b : Steady t u) : Steady s u :=
  ⟨b.svcs.trans a.svcs, b.rank.trans a.rank, fun c => (b.cars c).trans (a.cars c)⟩

/-- Every field of a carrier record but its carrying path, read off `Steady.cars`. -/
theorem carFields {a b : CarrierRec} (h : { a with carrying := none } = { b with carrying := none }) :
    a.state = b.state ∧ a.params = b.params ∧ a.failures = b.failures ∧ a.quality = b.quality
      ∧ a.rosterVersion = b.rosterVersion ∧ a.stale = b.stale ∧ a.malformed = b.malformed
      ∧ a.announced = b.announced := by
  injection h with h1 h2 h3 h4 h5 h6 h7 h8
  exact ⟨h1, h2, h3, h4, h5, h6, h7, h8⟩

theorem Steady.foldl {α : Type} (f : State → α → State) (h : ∀ s a, Steady s (f s a)) (l : List α) (s : State) :
    Steady s (l.foldl f s) := by
  induction l generalizing s with
  | nil => exact Steady.refl s
  | cons a l ih => exact (h s a).trans (ih _)

theorem Steady.forChannels (f : ChannelIdx → State → State) (h : ∀ ch s, Steady s (f ch s)) (s : State) :
    Steady s (forChannels f s) :=
  Steady.foldl _ (fun s ch => h ch s) _ s

/-- An update of the other parts alone. -/
theorem steady_of_parts {s t : State} (a : t.svcs = s.svcs) (b : t.rank = s.rank) (c : t.carriers = s.carriers) :
    Steady s t := ⟨a, b, fun x => by unfold State.car; rw [c]⟩

theorem steady_countEvent (e : Event) (i : Option ServiceIdx) (c : Option CarrierIdx) (s : State) :
    Steady s (countEvent e i c s) := steady_of_parts rfl rfl rfl

theorem steady_raiseArb (s : State) : Steady s (raiseArb s) := steady_of_parts rfl rfl rfl

theorem steady_setPath (s : State) (p : PathIdx) (r : PathRec) : Steady s (s.setPath p r) :=
  steady_of_parts rfl rfl rfl

theorem steady_setClaim (ch : ChannelIdx) (c : ClaimRec) (s : State) : Steady s (setClaim ch c s) := by
  unfold setClaim
  split
  · exact Steady.refl s
  · exact steady_of_parts rfl rfl rfl

theorem steady_changeClaim (ch : ChannelIdx) (c : ClaimRec) (s : State) : Steady s (changeClaim ch c s) := by
  unfold changeClaim
  simp only
  split
  · exact (steady_setClaim ch c s).trans (steady_raiseArb _)
  · exact steady_setClaim ch c s

theorem steady_modCarrying (s : State) (c : CarrierIdx) (o : Option PathIdx) :
    Steady s (s.modCar c (fun r => { r with carrying := o })) :=
  ⟨rfl, rfl, fun d => by
    rw [State.car_modCar]
    by_cases e : c = d
    · rw [if_pos e, e]
    · rw [if_neg e]⟩

theorem steady_finish (c : Completion) (l : List Word) (s : State) : Steady s (finish c l s) := by
  unfold finish
  split
  · exact Steady.refl s
  · simp only
    split <;> exact steady_of_parts rfl rfl rfl

theorem steady_visitEnded (c : CarrierIdx) (s : State) : Steady s (visitEnded c s) := by
  unfold visitEnded
  split
  · split
    · split
      · exact steady_finish _ _ s
      · exact steady_of_parts rfl rfl rfl
    · exact Steady.refl s
  · exact Steady.refl s

/-! ### Scan Planner and Input Control -/

theorem steady_plan (s : State) (x : Planner) : Steady s { s with plan := x } := steady_of_parts rfl rfl rfl

theorem steady_joinQueue (c : CarrierIdx) (s : State) : Steady s (joinQueue c s) := steady_of_parts rfl rfl rfl

theorem steady_dropEntry (c : CarrierIdx) (s : State) : Steady s (dropEntry c s) := steady_of_parts rfl rfl rfl

theorem steady_offer (s : State) (c : CarrierIdx) : Steady s (offer s c) := by
  unfold offer
  split
  · exact Steady.refl s
  · split
    · exact Steady.refl s
    · split <;> exact steady_of_parts rfl rfl rfl

theorem steady_putBack (c : CarrierIdx) (s : State) : Steady s (putBack c s) := by
  unfold putBack
  simp only
  split
  · exact steady_of_parts rfl rfl rfl
  · split <;> exact steady_of_parts rfl rfl rfl

theorem steady_visitEndReport (u : Use) (c : CarrierIdx) (k : VisitEnd) (s : State) :
    Steady s (visitEndReport u c k s) := by
  have a : Steady s (endUnderQueue c s) := steady_of_parts rfl rfl rfl
  unfold visitEndReport
  split
  · split
    all_goals first
      | exact a.trans (steady_visitEnded c _)
      | exact steady_putBack c s
  all_goals exact Steady.refl s

theorem steady_queueCarried (c : CarrierIdx) (s : State) : Steady s (queueCarried c s) := by
  unfold queueCarried
  split
  · exact (steady_dropEntry c s).trans (steady_visitEnded c _)
  · exact Steady.refl s

/-! ### Path Bank -/

theorem steady_enterRecovery (p : PathIdx) (s : State) : Steady s (enterRecovery p s) := steady_of_parts rfl rfl rfl

theorem steady_stopTuning (p : PathIdx) (s : State) : Steady s (stopTuning p s) := by
  unfold stopTuning
  split <;> exact steady_of_parts rfl rfl rfl

theorem steady_leaveCarrier (p : PathIdx) (s : State) : Steady s (leaveCarrier p s) := by
  refine (steady_stopTuning p s).trans ?_
  unfold leaveCarrier
  simp only
  split
  · exact steady_enterRecovery p _
  · split
    · exact steady_setPath _ _ _
    · exact steady_enterRecovery p _

theorem steady_endScanVisit (p : PathIdx) (k : VisitEnd) (s : State) : Steady s (endScanVisit p k s) := by
  unfold endScanVisit
  split
  · exact (steady_visitEndReport _ _ _ s).trans (steady_leaveCarrier p _)
  · exact steady_leaveCarrier p s

theorem steady_cutPath (p : PathIdx) (s : State) : Steady s (cutPath p s) := by
  unfold cutPath
  simp only
  split
  · split
    · exact steady_endScanVisit p _ s
    · exact steady_endScanVisit p _ s
    · split
      · exact steady_endScanVisit p _ s
      · split
        · exact steady_setPath s p _
        · exact steady_endScanVisit p _ s
    all_goals exact Steady.refl s
  · exact Steady.refl s

theorem steady_abandonForStandby (p : PathIdx) (s : State) : Steady s (abandonForStandby p s) := by
  unfold abandonForStandby
  simp only
  split
  · exact steady_endScanVisit p _ s
  · exact Steady.refl s

theorem steady_forgetOnPath (c : CarrierIdx) (s : State) (p : PathIdx) : Steady s (forgetOnPath c s p) := by
  unfold forgetOnPath
  simp only
  split
  · split
    · exact (steady_setPath s p _).trans (steady_endScanVisit p _ _)
    · exact steady_setPath s p _
  · exact Steady.refl s

theorem steady_clearCarrying (c : CarrierIdx) (s : State) : Steady s (clearCarrying c s) := steady_modCarrying s c none

theorem steady_releaseCarry (p : PathIdx) (s : State) : Steady s (releaseCarry p s) := by
  unfold releaseCarry
  simp only
  split
  · split
    · exact (steady_clearCarrying _ s).trans (steady_leaveCarrier p _)
    · exact steady_leaveCarrier p s
  · exact Steady.refl s

/-! ### Claim Table -/

theorem steady_examine (ch : ChannelIdx) (i : ServiceIdx) (s : State) : Steady s (examine ch i s) :=
  steady_changeClaim ch _ s

theorem steady_becomeWaiting (ch : ChannelIdx) (i : ServiceIdx) (s : State) : Steady s (becomeWaiting ch i s) :=
  (steady_countEvent _ _ _ s).trans (steady_examine ch i _)

theorem steady_releaseUnneeded (c : CarrierIdx) (s : State) : Steady s (releaseUnneeded c s) := by
  unfold releaseUnneeded
  split
  · split
    · exact Steady.refl s
    · exact steady_releaseCarry _ s
  · exact Steady.refl s

theorem steady_releaseUnneeded? (o : Option CarrierIdx) (s : State) : Steady s (releaseUnneeded? o s) := by
  unfold releaseUnneeded?
  split
  · exact steady_releaseUnneeded _ s
  · exact Steady.refl s

theorem steady_completeHandover (ch : ChannelIdx) (i : ServiceIdx) (c : CarrierIdx) (p : PathIdx) (s : State) :
    Steady s (completeHandover ch i c p s) := (steady_changeClaim ch _ s).trans (steady_countEvent _ _ _ _)

theorem steady_moveTo (ch : ChannelIdx) (i : ServiceIdx) (n : CarrierIdx) (s : State) :
    Steady s (moveTo ch i n s) := by
  unfold moveTo
  split
  · exact steady_completeHandover _ _ _ _ s
  · exact steady_changeClaim ch _ s

theorem steady_toldSelection (ch : ChannelIdx) (i : ServiceIdx) (s : State) : Steady s (toldSelection ch i s) := by
  have told : Steady s (match (s.svc i).selected with
      | none => becomeWaiting ch i s
      | some new =>
        match (s.car new).carrying with
        | some p => changeClaim ch (joined s i new p) s
        | none => becomeWaiting ch i s) := by
    split
    · exact steady_becomeWaiting ch i s
    · split
      · exact steady_changeClaim ch _ s
      · exact steady_becomeWaiting ch i s
  unfold toldSelection
  simp only
  split
  · exact Steady.refl s
  · split
    · exact Steady.refl s
    · exact steady_examine ch i s
  · split
    · exact Steady.refl s
    · exact told.trans (steady_releaseUnneeded? _ _)
  · split
    · exact Steady.refl s
    · exact told.trans (steady_releaseUnneeded? _ _)
  · split
    · exact Steady.refl s
    · refine Steady.trans ?_ (steady_releaseUnneeded? _ _)
      split
      · exact steady_becomeWaiting ch i s
      · exact steady_moveTo ch i _ s
  · split
    · exact Steady.refl s
    · refine Steady.trans ?_ ((steady_releaseUnneeded? _ _).trans (steady_releaseUnneeded? _ _))
      split
      · exact steady_becomeWaiting ch i s
      · split
        · exact steady_changeClaim ch _ s
        · exact steady_moveTo ch i _ s

theorem steady_reportSelection (i : ServiceIdx) (s : State) : Steady s (reportSelection i s) := by
  unfold reportSelection
  simp only
  refine Steady.trans ?_ (Steady.forChannels _ (fun ch t => ?_) _)
  · split
    · exact steady_countEvent _ _ _ s
    · exact Steady.refl s
  · split
    · exact steady_toldSelection ch i t
    · exact Steady.refl t

theorem steady_examineWaiting (x : CarrierIdx) (ch : ChannelIdx) (s : State) : Steady s (examineWaiting x ch s) := by
  unfold examineWaiting
  split
  · split
    · exact steady_examine ch _ s
    · exact Steady.refl s
  · exact Steady.refl s

theorem steady_handoverDemand (x : CarrierIdx) (ch : ChannelIdx) (s : State) : Steady s (handoverDemand x ch s) := by
  unfold handoverDemand
  split
  · exact steady_raiseArb s
  · exact Steady.refl s

theorem steady_eligibilityToClaims (x : CarrierIdx) (s : State) : Steady s (eligibilityToClaims x s) :=
  Steady.forChannels _ (fun ch s => (steady_examineWaiting x ch s).trans (steady_handoverDemand x ch _)) s

theorem steady_carryingSetToClaims (x : CarrierIdx) (s : State) : Steady s (carryingSetToClaims x s) :=
  Steady.forChannels _ (steady_examineWaiting x) s

theorem steady_engagedToClaims (p : PathIdx) (x : CarrierIdx) (s : State) : Steady s (engagedToClaims p x s) := by
  refine Steady.forChannels _ (fun ch s => ?_) s
  simp only
  split
  · split
    · exact steady_changeClaim ch _ s
    · exact Steady.refl s
  · split
    · exact steady_changeClaim ch _ s
    · exact Steady.refl s
  · split
    · exact (steady_completeHandover _ _ _ _ s).trans (steady_releaseUnneeded? _ _)
    · exact Steady.refl s
  · exact Steady.refl s

theorem steady_demandDeparts (x : CarrierIdx) (before s : State) : Steady s (demandDeparts x before s) := by
  unfold demandDeparts
  split
  · exact steady_raiseArb s
  · exact Steady.refl s

theorem steady_acquisitionFailedToClaims (p : PathIdx) (x : CarrierIdx) (s : State) :
    Steady s (acquisitionFailedToClaims p x s) := by
  refine Steady.forChannels _ (fun ch s => ?_) s
  simp only
  split
  · split
    · exact steady_becomeWaiting ch _ s
    · exact Steady.refl s
  · split
    · exact steady_raiseArb s
    · exact Steady.refl s
  · exact Steady.refl s

theorem steady_lockLossToClaims (p : PathIdx) (x : CarrierIdx) (s : State) : Steady s (lockLossToClaims p x s) := by
  refine Steady.trans (Steady.forChannels _ (fun ch s => ?_) s) (steady_releaseUnneeded x _)
  simp only
  split
  · split
    · exact steady_changeClaim ch _ s
    · split
      · exact steady_changeClaim ch _ s
      · exact steady_becomeWaiting ch _ s
    · exact Steady.refl s
  · exact Steady.refl s

theorem steady_exhaustedToClaims (p : PathIdx) (s : State) : Steady s (exhaustedToClaims p s) := by
  refine Steady.forChannels _ (fun ch s => ?_) s
  simp only
  split
  · split
    · exact steady_becomeWaiting ch _ s
    · exact Steady.refl s
  · exact Steady.refl s

/-! ### A change of one record -/

theorem steady_offerOthers (r : ServiceRec) (s : State) : Steady s (offerOthers r s) := Steady.foldl _ steady_offer _ s

/-- The record that a change leaves: R6, R7. -/
def stamped (s : State) (i : ServiceIdx) (r' : ServiceRec) : ServiceRec :=
  if noticed (s.svc i) r' then
    { r' with generation := (s.svc i).generation + 1, changeEpoch := nextEpoch s.svcs.epoch }
  else { r' with generation := (s.svc i).generation, changeEpoch := (s.svc i).changeEpoch }

theorem svc_commit (i j : ServiceIdx) (r' : ServiceRec) (s : State) :
    (commit i r' s).svc j = if i = j then stamped s i r' else s.svc j := by
  unfold commit stamped
  simp only
  split
  · rw [State.svc_setSvc]
    rfl
  · rw [State.svc_setSvc]

theorem commit_others (i : ServiceIdx) (r' : ServiceRec) (s : State) :
    (commit i r' s).rank = s.rank ∧ (commit i r' s).carriers = s.carriers
      ∧ (commit i r' s).svcs.discoveryOverflow = s.svcs.discoveryOverflow
      ∧ (commit i r' s).svcs.suppressed = s.svcs.suppressed := by
  unfold commit
  simp only
  split <;> exact ⟨rfl, rfl, rfl, rfl⟩

/-- What follows the change of a record within `applyChange`. -/
theorem steady_applyChange (i : ServiceIdx) (r' : ServiceRec) (s : State) :
    Steady (commit i r' s) (applyChange i r' s) := by
  unfold applyChange
  simp only
  generalize commit i r' s = t
  have b : Steady t (if (s.svc i).selected ≠ r'.selected then reportSelection i t else t) := by
    split
    · exact steady_reportSelection i t
    · exact Steady.refl t
  generalize (if (s.svc i).selected ≠ r'.selected then reportSelection i t else t) = u at b ⊢
  split
  · exact b.trans (steady_offerOthers r' _)
  · exact b

/-- R6, R7: the service records after a change of one of them. -/
theorem svc_applyChange (i j : ServiceIdx) (r' : ServiceRec) (s : State) :
    (applyChange i r' s).svc j = if i = j then stamped s i r' else s.svc j := by
  have h : (applyChange i r' s).svc j = (commit i r' s).svc j := by
    unfold State.svc; rw [(steady_applyChange i r' s).svcs]
  rw [h, svc_commit]

/-! ### Arbitration -/

/-- What the end of a step leaves: all of `Steady` but that an ORPHANED record may have aged (R15). -/
structure Settled (s t : State) : Prop where
  svc : ∀ i, (s.svc i).state ≠ .orphaned → t.svc i = s.svc i
  rank : t.rank = s.rank
  cars : ∀ c, { t.car c with carrying := none } = { s.car c with carrying := none }
  overflow : t.svcs.discoveryOverflow = s.svcs.discoveryOverflow

theorem Settled.refl (s : State) : Settled s s := ⟨fun _ _ => rfl, rfl, fun _ => rfl, rfl⟩

theorem Settled.trans {s t u : State} (a : Settled s t) (b : Settled t u) : Settled s u :=
  ⟨fun i h => (b.svc i (by rw [a.svc i h]; exact h)).trans (a.svc i h), b.rank.trans a.rank,
    fun c => (b.cars c).trans (a.cars c), b.overflow.trans a.overflow⟩

theorem Steady.settled {s t : State} (h : Steady s t) : Settled s t :=
  ⟨fun i _ => by unfold State.svc; rw [h.svcs], h.rank, h.cars, by rw [h.svcs]⟩

theorem steady_setCarrying (c : CarrierIdx) (p : PathIdx) (s : State) : Steady s (setCarrying c p s) :=
  ((steady_modCarrying s c (some p)).trans (steady_queueCarried c _)).trans (steady_carryingSetToClaims c _)

theorem steady_switchFor (q : CarrierParams) (s : State) : Steady s (switchFor q s) := by
  unfold switchFor
  split
  · exact steady_of_parts rfl rfl rfl
  · exact Steady.refl s

theorem steady_grant (p : PathIdx) (u : Use) (c : CarrierIdx) (s : State) : Steady s (grant p u c s) := by
  unfold grant
  split
  · exact Steady.refl s
  · rename_i q _
    have b : Steady s (joinWait q.input p (attach q.input p ((switchFor q s).setPath p (grantedPath u c)))) :=
      (steady_switchFor q s).trans (steady_of_parts rfl rfl rfl)
    split
    · exact b.trans (steady_setCarrying c p _)
    · exact b

theorem steady_endConverted (p : PathIdx) (c : CarrierIdx) (s : State) : Steady s (endConverted p c s) := by
  unfold endConverted
  split
  · exact steady_visitEndReport _ c _ s
  · exact Steady.refl s

theorem steady_cuts (s : State) (l : List (ChannelIdx × PathIdx)) (d : Bool) :
    Steady s { s with arb := { s.arb with cuts := l, due := d } } := steady_of_parts rfl rfl rfl

theorem steady_forgetCutsOfPath (p : PathIdx) (s : State) : Steady s (forgetCutsOfPath p s) :=
  steady_cuts s _ s.arb.due

theorem steady_convert (p : PathIdx) (c : CarrierIdx) (s : State) : Steady s (convert p c s) := by
  unfold convert
  simp only
  have k := steady_endConverted p c s
  generalize endConverted p c s = t at k ⊢
  have b : Steady s (setCarrying c p (forgetCutsOfPath p (t.setPath p (convertedPath (s.path p))))) :=
    ((k.trans (steady_setPath t p _)).trans (steady_forgetCutsOfPath p _)).trans (steady_setCarrying c p _)
  split
  · exact (b.trans (steady_demandDeparts c s _)).trans (steady_engagedToClaims p c _)
  · exact b

theorem steady_resume (p : PathIdx) (c : CarrierIdx) (s : State) : Steady s (resume p c s) := by
  unfold resume
  simp only
  exact ((((steady_setPath s p _).trans (steady_forgetCutsOfPath p _)).trans (steady_setCarrying c p _)).trans
    (steady_demandDeparts c s _)).trans (steady_engagedToClaims p c _)

theorem steady_cutFor (ch : ChannelIdx) (s : State) (p : PathIdx) : Steady s (cutFor ch s p) := by
  unfold cutFor
  simp only
  refine Steady.trans ?_ (steady_cutPath p _)
  exact steady_of_parts rfl rfl rfl

theorem steady_preempt (ch : ChannelIdx) (s : State) : Steady s (preempt ch s) := by
  unfold preempt
  split
  · exact Steady.refl s
  · split
    · exact steady_cutFor ch s _
    · exact Steady.refl s

theorem steady_cutConflict (ch : ChannelIdx) (c : CarrierIdx) (s : State) : Steady s (cutConflict ch c s) := by
  unfold cutConflict
  split
  · exact Steady.refl s
  · split
    · exact Steady.foldl _ (steady_cutFor ch) _ s
    · exact Steady.refl s

theorem steady_tellReason (ch : ChannelIdx) (why : Reason) (s : State) : Steady s (tellReason ch why s) := by
  unfold tellReason
  simp only
  split
  · exact steady_setClaim ch _ s
  · exact Steady.refl s

theorem steady_forgetCutsOfClaim (ch : ChannelIdx) (s : State) : Steady s (forgetCutsOfClaim ch s) :=
  steady_cuts s _ s.arb.due

theorem steady_serveItem (ch : ChannelIdx) (c : CarrierIdx) (s : State) : Steady s (serveItem ch c s) := by
  unfold serveItem
  split
  · simp only
    split
    · split
      · exact (steady_convert _ c s).trans (steady_forgetCutsOfClaim ch _)
      · exact steady_tellReason ch _ s
    · split
      · split
        · exact (steady_resume _ c s).trans (steady_forgetCutsOfClaim ch _)
        · exact steady_tellReason ch _ s
      · exact steady_tellReason ch _ s
  · split
    · split
      · exact (steady_tellReason ch _ s).trans (steady_cutConflict ch c _)
      all_goals
        split
        · exact (steady_grant _ _ c s).trans (steady_forgetCutsOfClaim ch _)
        · exact (steady_tellReason ch _ s).trans (steady_preempt ch _)
    · exact steady_tellReason ch _ s

theorem steady_serveItems (item : State → ChannelIdx → Option CarrierIdx) (s : State) :
    Steady s (serveItems item s) :=
  Steady.forChannels _ (fun ch s => by
    split
    · exact steady_serveItem ch _ s
    · exact Steady.refl s) s

theorem settled_ageOrphan (s : State) (i : ServiceIdx) : Settled s (ageOrphan s i) := by
  have one : ∀ r', (s.svc i).state = .orphaned → Settled s (applyChange i r' s) := fun r' h => by
    have st := steady_applyChange i r' s
    obtain ⟨a, b, c, _⟩ := commit_others i r' s
    refine ⟨fun j hj => ?_, st.rank.trans a, fun x => ?_, by rw [st.svcs]; exact c⟩
    · rw [svc_applyChange, if_neg (by rintro rfl; exact hj h)]
    · rw [st.cars x]; unfold State.car; rw [b]
  unfold ageOrphan
  simp only
  split
  · rename_i h
    split
    · exact one _ h
    · exact one _ h
  · exact Settled.refl s

theorem settled_passEnd (s : State) : Settled s (passEnd s) := by
  unfold passEnd
  generalize idxWhere s.svcs.recs (fun r => decide (r.state = .orphaned)) = l
  induction l generalizing s with
  | nil => exact Settled.refl s
  | cons i l ih => exact (settled_ageOrphan s i).trans (ih _)

theorem settled_sweepAdvance (c : CarrierIdx) (b : Bool) (s : State) : Settled s (sweepAdvance c b s) := by
  unfold sweepAdvance
  simp only
  split
  · exact (steady_plan s _).settled.trans (settled_passEnd _)
  · exact (steady_plan s _).settled

theorem settled_scanGrant (s t : State) (h : scanGrant s = some t) : Settled s t := by
  unfold scanGrant at h
  split at h
  · cases h
  · split at h
    · simp only [Option.some.injEq] at h
      subst h
      exact Steady.settled ((steady_of_parts rfl rfl rfl : Steady s (takeEntry _ s)).trans (steady_grant _ _ _ _))
    · split at h
      · split at h
        · simp only [Option.some.injEq] at h
          subst h
          refine Settled.trans ?_ (steady_grant _ _ _ _).settled
          exact settled_sweepAdvance _ _ s
        · cases h
      · cases h

theorem settled_scanGrants (n : Nat) (s : State) : Settled s (scanGrants n s) := by
  induction n generalizing s with
  | zero => exact Settled.refl s
  | succ n ih =>
    unfold scanGrants
    split
    · rename_i t h
      exact (settled_scanGrant s t h).trans (ih t)
    · exact Settled.refl s

theorem steady_pruneCuts (s : State) : Steady s (pruneCuts s) := steady_cuts s _ s.arb.due

theorem steady_serveClaims (s : State) : Steady s (serveClaims s) :=
  (steady_serveItems _ s).trans (steady_serveItems _ _)

theorem settled_arbitrateOnce (s : State) : Settled s (arbitrateOnce s) := by
  unfold arbitrateOnce
  simp only
  refine ((steady_pruneCuts s).trans (steady_serveClaims _)).settled.trans
    (Settled.trans ?_ (steady_pruneCuts _).settled)
  split
  · exact Settled.refl _
  · exact settled_scanGrants 8 _

theorem settled_arbitrate (n : Nat) (s : State) : Settled s (arbitrate n s) := by
  induction n generalizing s with
  | zero => exact (steady_cuts s s.arb.cuts false).settled
  | succ n ih =>
    unfold arbitrate
    split
    · exact ((steady_cuts s s.arb.cuts false).settled.trans (settled_arbitrateOnce _)).trans (ih _)
    · exact (steady_cuts s s.arb.cuts false).settled

/-- What the end of a step leaves of the tables. -/
theorem settled_closeStep (s : State) : Settled s (closeStep s) := by
  unfold closeStep
  split
  · exact (settled_arbitrate 64 s).trans (steady_pruneCuts _).settled
  · exact Settled.refl s

end Sys2Proof.Machine
end

