-- ==== Sys2Proof/Laws/Requests.lean ====
section
/-! SUPPORT. What the taking of a request does, said once for all codes, and which laws of Safety.lean each request
keeps. -/

namespace Sys2Proof.Machine

/-! ### The laws a command keeps -/

/-- The laws of Safety.lean that hold after if they hold before, each by itself. -/
structure LawsKept (s t : State) : Prop where
  attached : AttachedInOrder s → AttachedInOrder t
  waiters : WaitersInOrder s → WaitersInOrder t
  services : ServicesShaped s → ServicesShaped t
  epochs : EpochsBounded s → EpochsBounded t
  suppression : SuppressionBounded s → SuppressionBounded t
  claims : ClaimsShaped s → ClaimsShaped t
  changed : ChangedInOrder s → ChangedInOrder t
  carry : CarryWithinReserve s → CarryWithinReserve t
  budgets : BudgetsKept s → BudgetsKept t
  queue : QueueBounded s → QueueBounded t
  queued : ServicesShaped s → QueueDistinct s → QueueDistinct t
  keys : KeysDistinct s → KeysDistinct t
  unsuppressed : ServicesShaped s → KeysDistinct s → NoneSuppressedLive s → NoneSuppressedLive t
  counted : ServicesShaped s → ClaimsShaped s → ClaimsCounted s → ClaimsCounted t
  requests : RequestsFit s → RequestsFit t
  level : AttentionInRange s → AttentionInRange t

theorem LawsKept.refl (s : State) : LawsKept s s where
  attached := id
  waiters := id
  services := id
  epochs := id
  suppression := id
  claims := id
  changed := id
  carry := id
  budgets := id
  queue := id
  queued _ := id
  keys := id
  unsuppressed _ _ := id
  counted _ _ := id
  requests := id
  level := id

theorem LawsKept.trans {s t u : State} (a : LawsKept s t) (b : LawsKept t u) : LawsKept s u where
  attached h := b.attached (a.attached h)
  waiters h := b.waiters (a.waiters h)
  services h := b.services (a.services h)
  epochs h := b.epochs (a.epochs h)
  suppression h := b.suppression (a.suppression h)
  claims h := b.claims (a.claims h)
  changed h := b.changed (a.changed h)
  carry h := b.carry (a.carry h)
  budgets h := b.budgets (a.budgets h)
  queue h := b.queue (a.queue h)
  queued h k := b.queued (a.services h) (a.queued h k)
  keys h := b.keys (a.keys h)
  unsuppressed h k n := b.unsuppressed (a.services h) (a.keys k) (a.unsuppressed h k n)
  counted h k n := b.counted (a.services h) (a.claims k) (a.counted h k n)
  requests h := b.requests (a.requests h)
  level h := b.level (a.level h)

theorem Runs.laws {s t : State} (h : Runs s t) : LawsKept s t := by
  obtain ⟨n, hn, k⟩ := h
  exact {
    attached := k.attached
    waiters := k.waiters
    services := k.services
    epochs := k.epochs
    suppression := fun w => by unfold SuppressionBounded; rw [k.suppressed]; exact w
    claims := k.claims
    changed := k.changed
    carry := k.carry
    budgets := fun w i => by
      have e := (k.inputs i).2.2
      have e' : (t.inp i).history = (s.inp i).history := e
      rw [e', k.now]
      exact ⟨(w i).1, (w i).2.1, fun x hx => Nat.le_trans ((w i).2.2 x hx) hn⟩
    queue := k.queue
    queued := k.queued
    keys := k.keys
    unsuppressed := fun w _ => k.unsuppressed w
    counted := fun w _ c i => by
      have e : claimsOn t i = claimsOn s i := by
        unfold claimsOn
        refine congrArg (fun f => List.countP f (List.finRange 32)) (funext fun ch => ?_)
        rw [k.holders ch]; rfl
      rw [e]; exact (k.counts w i).trans (c i)
    requests := fun w => by
      have e : t.port.reqFifo = s.port.reqFifo := by rw [k.port]
      unfold RequestsFit reqWords
      rw [e]; exact w
    level := fun w => by
      have e : t.port.attentionLevel = s.port.attentionLevel := by rw [k.port]
      unfold AttentionInRange
      rw [e]; exact w }

theorem Keeps.laws {s t : State} (h : Keeps s t) : LawsKept s t := (Runs.of_keeps h).laws

theorem Runs.responses {s t : State} (h : Runs s t) (w : ResponsesFit s) : ResponsesFit t := by
  obtain ⟨n, _, k⟩ := h
  exact k.responses w

theorem laws_reply (e : ReqEntry) (c : Completion) (l : List Word) (s : State) : LawsKept s (reply e c l s) :=
  { LawsKept.refl s with }

theorem laws_inExec (s : State) (o : Option Execution) : LawsKept s { s with inExec := o } :=
  { LawsKept.refl s with }

theorem laws_port (s : State) (q : Port) (h : q.reqFifo = s.port.reqFifo)
    (l : AttentionInRange s → 1 ≤ q.attentionLevel ∧ q.attentionLevel ≤ 64) : LawsKept s { s with port := q } :=
  { LawsKept.refl s with requests := fun w => by unfold RequestsFit reqWords; simp only [h]; exact w, level := l }

/-! ### Taking -/

theorem takeable_eq_some (s : State) (e : ReqEntry) :
    takeable s = some e ↔ s.port.reqFifo.head? = some e ∧ s.inExec = none ∧ e.ended = true
      ∧ e.roomNeeded ≤ 64 - s.port.respFifo.length := by
  unfold takeable
  split
  · rename_i h; simp [h]
  · rename_i a l h
    simp only [h, List.head?_cons, Option.some.injEq]
    constructor
    · intro w
      split at w
      · rename_i m
        cases w
        simp only [mayTake, Bool.and_eq_true, Option.isNone_iff_eq_none, respFree, Config.fifoWords] at m
        exact ⟨rfl, m.1.1, m.1.2, of_decide_eq_true m.2⟩
      · cases w
    · rintro ⟨rfl, a1, a2, a3⟩
      simp [mayTake, respFree, Config.fifoWords, a1, a2, a3]

/-- R151, R156: a request's command waits, or takes the head entry and puts it through the checks. -/
theorem takeRequest_cases (c : ReqCode) (run : ReqEntry → State → State) (s : State) :
    takeRequest c run s = s ∨ ∃ e, takeable s = some e ∧ e.broken = false ∧ e.code? = some c
      ∧ takeRequest c run s = checked c run e (dropHead s) := by
  unfold takeRequest
  split
  · rename_i e he
    split
    · rename_i h; exact Or.inr ⟨e, he, h.1, h.2, rfl⟩
    · exact Or.inl rfl
  · exact Or.inl rfl

theorem roomNeeded_of_code (e : ReqEntry) (c : ReqCode) (hb : e.broken = false) (hc : e.code? = some c) :
    e.roomNeeded = c.largest := by
  simp [ReqEntry.roomNeeded, hb, hc]

theorem two_le_largest (c : ReqCode) : 2 ≤ c.largest := by cases c <;> decide

theorem laws_dropHead (s : State) : LawsKept s (dropHead s) :=
  { LawsKept.refl s with
    requests := fun w => by
      obtain ⟨a, b⟩ := w
      refine ⟨Nat.le_trans ?_ a, fun e he => b e (List.mem_of_mem_drop he)⟩
      show ((s.port.reqFifo.drop 1).map ReqEntry.words).sum ≤ (s.port.reqFifo.map ReqEntry.words).sum
      cases s.port.reqFifo with
      | nil => simp
      | cons x l => simp }

/-- The request whose run keeps the laws keeps them when taken. -/
theorem laws_takeRequest (c : ReqCode) (run : ReqEntry → State → State) (h : ∀ e s, LawsKept s (run e s))
    (s : State) : LawsKept s (takeRequest c run s) := by
  rcases takeRequest_cases c run s with e | ⟨e, _, _, _, q⟩
  · rw [e]; exact LawsKept.refl s
  · rw [q]
    refine (laws_dropHead s).trans ?_
    unfold checked
    split
    · split
      · exact laws_reply _ _ _ _
      · exact laws_reply _ _ _ _
      · exact h e _
    · exact laws_reply _ _ _ _

/-- R151: a run whose response fits the room its code needs leaves every response with its room. -/
def RunFits (c : ReqCode) (run : ReqEntry → State → State) : Prop :=
  ∀ e s, s.inExec = none → ChangedInOrder s → s.port.respFifo.length + c.largest ≤ 64 → ResponsesFit (run e s)

theorem fits_reply (e : ReqEntry) (c : Completion) (l : List Word) (s : State) (hx : s.inExec = none)
    (h : s.port.respFifo.length + (l.length + 2) ≤ 64) : ResponsesFit (reply e c l s) := by
  unfold ResponsesFit reply respond
  simp [hx, roomHeld]
  omega

/-- A reply after effects that leave the port as it is. -/
theorem fits_reply_of_base {s t : State} (k : KeepsBase s t) (e : ReqEntry) (c : Completion) (l : List Word)
    (hx : s.inExec = none) (h : s.port.respFifo.length + (l.length + 2) ≤ 64) : ResponsesFit (reply e c l t) := by
  have i := k.idle hx
  exact fits_reply e c l t i.1 (by rw [i.2]; exact h)

theorem fits_reply_of_keeps {s t : State} (k : Keeps s t) (e : ReqEntry) (c : Completion) (l : List Word)
    (hx : s.inExec = none) (h : s.port.respFifo.length + (l.length + 2) ≤ 64) : ResponsesFit (reply e c l t) :=
  fits_reply_of_base k.toKeepsBase e c l hx h

theorem responses_takeRequest (c : ReqCode) (run : ReqEntry → State → State) (h : RunFits c run) (s : State)
    (hc : ChangedInOrder s) (w : ResponsesFit s) : ResponsesFit (takeRequest c run s) := by
  rcases takeRequest_cases c run s with e | ⟨e, ht, hb, hcode, q⟩
  · rw [e]; exact w
  · rw [q]
    obtain ⟨_, hx, _, hr⟩ := (takeable_eq_some s e).mp ht
    rw [roomNeeded_of_code e c hb hcode] at hr
    have h2 := two_le_largest c
    have hl : s.port.respFifo.length ≤ 64 := by unfold ResponsesFit at w; omega
    have hroom : (dropHead s).port.respFifo.length + c.largest ≤ 64 := by
      show s.port.respFifo.length + c.largest ≤ 64; omega
    unfold checked
    split
    · split
      · exact fits_reply _ _ _ _ hx (by simp; omega)
      · exact fits_reply _ _ _ _ hx (by simp; omega)
      · exact h e _ hx hc hroom
    · exact fits_reply _ _ _ _ hx (by simp; omega)

/-! ### Control requests -/

theorem laws_runActivate (e : ReqEntry) (s : State) : LawsKept s (runActivate e s) := by
  have a : LawsKept s { s with arb := { s.arb with mode := .active } } := { LawsKept.refl s with }
  refine a.trans ?_
  unfold runActivate
  simp only
  refine LawsKept.trans (Keeps.laws (Keeps.forChannels _ (fun ch t => ?_) _))
    ((laws_reply e .done [] _).trans (Keeps.laws (keeps_raiseArb _)))
  split
  · rename_i h
    split
    · exact keeps_examine ch _ t h
    · exact Keeps.refl t
  · exact Keeps.refl t

theorem keeps_standbyClaim (ch : ChannelIdx) (s : State) : Keeps s (standbyClaim ch s) := by
  unfold standbyClaim
  split
  · rename_i h
    exact keeps_setClaim ch _ s (fun _ => shaped_waiting _ _) h.symm
  · exact Keeps.refl s

theorem keeps_standbyEffects (s : State) : Keeps s (standbyEffects s) := by
  unfold standbyEffects
  simp only
  refine Keeps.trans ?_ (Keeps.foldl _ (fun s p => keeps_releaseCarry p s) _ _)
  refine Keeps.trans ?_ (Keeps.foldl _ (fun s p => keeps_abandonForStandby p s) _ _)
  refine (Keeps.forChannels _ keeps_standbyClaim s).trans ?_
  exact keeps_cuts _ _ _

theorem laws_mode (s : State) (m : Mode) : LawsKept s { s with arb := { s.arb with mode := m } } :=
  { LawsKept.refl s with }

theorem laws_runStandby (e : ReqEntry) (s : State) : LawsKept s (runStandby e s) := by
  unfold runStandby
  split
  · exact ((laws_mode s _).trans (keeps_standbyEffects _).laws).trans (laws_reply _ _ _ _)
  · exact ((laws_mode s _).trans (keeps_standbyEffects _).laws).trans (laws_inExec _ _)

theorem laws_runScanControl (e : ReqEntry) (s : State) : LawsKept s (runScanControl e s) := by
  unfold runScanControl
  simp only
  split
  · exact laws_reply _ _ _ _
  · rename_i h1
    split
    · exact laws_reply _ _ _ _
    · rename_i h2
      have a : LawsKept s (setScan (e.arg 0).toNat (decide ((e.arg 1).toNat = 1)) s) :=
        { LawsKept.refl s with carry := fun _ => ⟨by show (e.arg 0).toNat ≤ 2; omega, by
            show carryCount s ≤ 8 - (e.arg 0).toNat; omega⟩ }
      have b := a.trans (laws_reply e .done [] _)
      split
      · exact b.trans (Keeps.laws (keeps_raiseArb _))
      · exact b

theorem laws_setRankingEffects (g : Settings) (s : State) : LawsKept s (setRankingEffects g s) := by
  unfold setRankingEffects
  simp only
  refine LawsKept.trans ?_ (Keeps.laws (keeps_pushReport _ _ _ _))
  exact { LawsKept.refl s with }

theorem laws_runSetRanking (e : ReqEntry) (s : State) : LawsKept s (runSetRanking e s) := by
  unfold runSetRanking
  simp only
  split
  · exact laws_reply _ _ _ _
  · split
    · exact (laws_setRankingEffects _ s).trans (laws_inExec _ _)
    · exact (laws_setRankingEffects _ s).trans (laws_reply _ _ _ _)

theorem laws_runSetPort (e : ReqEntry) (s : State) : LawsKept s (runSetPort e s) := by
  unfold runSetPort
  simp only
  split
  · exact laws_reply _ _ _ _
  · exact (laws_port s { s.port with attentionLevel := (e.arg 0).toNat } rfl
      (fun _ => ⟨by simp only; omega, by simp only; omega⟩)).trans (laws_reply _ _ _ _)

theorem laws_runSettle (e : ReqEntry) (s : State) : LawsKept s (runSettle e s) := by
  unfold runSettle
  simp only
  split
  · exact laws_reply _ _ _ _
  · split
    · exact laws_reply _ _ _ _
    · exact laws_inExec _ _

/-! ### Table requests -/

theorem laws_modInp (s : State) (i : InputIdx) (f : InputRec → InputRec) (h : ∀ r, (f r).history = r.history)
    (k : ∀ r, (f r).attached = r.attached) (l : ∀ r, (f r).waitList = r.waitList) : LawsKept s (s.modInp i f) :=
  { LawsKept.refl s with
    attached := fun w j => by
      by_cases e : i = j
      · subst e; simpa [k] using w i
      · simpa [e] using w j
    waiters := fun w j => by
      by_cases e : i = j
      · subst e; simpa [l] using w i
      · simpa [e] using w j
    budgets := fun w j => by
      by_cases e : i = j
      · subst e; simpa [h] using w i
      · simpa [e] using w j }

theorem laws_runDefineInput (e : ReqEntry) (s : State) : LawsKept s (runDefineInput e s) := by
  unfold runDefineInput
  split
  · split
    · exact laws_reply _ _ _ _
    · refine LawsKept.trans ?_ (laws_reply _ _ _ _)
      exact laws_modInp s _ _ (fun _ => rfl) (fun _ => rfl) (fun _ => rfl)
  · exact laws_reply _ _ _ _

theorem laws_setCar (s : State) (c : CarrierIdx) (r : CarrierRec) : LawsKept s (s.setCar c r) := { LawsKept.refl s with }

theorem laws_runDefineCarrier (e : ReqEntry) (s : State) : LawsKept s (runDefineCarrier e s) := by
  unfold runDefineCarrier
  split
  · exact laws_reply _ _ _ _
  · simp only
    split
    · split
      · exact laws_reply _ _ _ _
      · split
        · exact laws_reply _ _ _ _
        · refine LawsKept.trans ?_ (Keeps.laws (keeps_raiseArb _))
          refine LawsKept.trans ?_ (laws_reply _ _ _ _)
          exact (laws_setCar s _ _).trans (laws_modInp _ _ _ (fun _ => rfl) (fun _ => rfl) (fun _ => rfl))
    · exact laws_reply _ _ _ _

theorem laws_forgetEffects (c : CarrierIdx) (s : State) : LawsKept s (forgetEffects c s) := by
  unfold forgetEffects
  simp only
  refine LawsKept.trans ?_ (laws_setCar _ _ _)
  generalize ht : (dropEntry c ((List.finRange 8).foldl (forgetOnPath c) s)) = t
  have a : Keeps s t := by
    subst ht
    exact (Keeps.foldl _ (keeps_forgetOnPath c) _ s).trans (keeps_dropEntry c _)
  have b := a.trans (Keeps.foldl (depart c) (keeps_depart c) (t.car c).announced t)
  generalize (t.car c).announced.foldl (depart c) t = u at b ⊢
  split
  · exact b.laws.trans (laws_modInp _ _ _ (fun _ => rfl) (fun _ => rfl) (fun _ => rfl))
  · exact b.laws

theorem laws_runForgetCarrier (e : ReqEntry) (s : State) : LawsKept s (runForgetCarrier e s) := by
  unfold runForgetCarrier
  split
  · exact laws_reply _ _ _ _
  · split
    · exact laws_reply _ _ _ _
    · split
      · exact laws_reply _ _ _ _
      · exact (laws_forgetEffects _ s).trans (laws_reply _ _ _ _)

/-- R13, R14: the record that ENROL allocates. -/
theorem lawful_enrolled {s : State} {k : Key} {i : ServiceIdx} {r : ServiceRec} (hr : allocation s k = some (i, r))
    (hl : liveRecord s k = none) (hs : k ∉ s.svcs.suppressed) : Lawful i r s := by
  refine .of_allocation hr hl hs ?_ rfl rfl
  obtain ⟨⟨kind, n, rfl⟩, _⟩ := allocation_spec _ _ _ _ hr
  exact shaped_allocated _ _ _ _

theorem laws_runEnrol (e : ReqEntry) (s : State) : LawsKept s (runEnrol e s) := by
  unfold runEnrol
  simp only
  split
  · exact laws_reply _ _ _ _
  · rename_i hs
    split
    · exact laws_reply _ _ _ _
    · rename_i hl
      split
      · rename_i i r hr
        exact (keeps_applyChange i r s (lawful_enrolled hr hl hs)).laws.trans (laws_reply _ _ _ _)
      · exact laws_reply _ _ _ _

theorem evaluable_of_candidate (r : ServiceRec) (c : CarrierIdx) (h : r.shaped) (hc : c ∈ r.candidates) :
    r.evaluable := by
  have f := h.2
  unfold ServiceRec.fieldsOfState at f
  unfold ServiceRec.evaluable
  cases e : r.state <;> rw [e] at f <;> simp at f ⊢ <;> simp [f] at hc

/-- R72: PIN leaves the record as it may stand. -/
theorem shaped_pinned (s : State) (r : ServiceRec) (c : CarrierIdx) (h : r.shaped) (hc : c ∈ r.candidates) :
    (pinned s r c).shaped := by
  obtain ⟨hk, ha⟩ := evaluable_key_age r h (evaluable_of_candidate r c h hc)
  refine shaped_of_selection _ c (verdict_cases s c) rfl hc hk ha h.1.1 h.1.2.1 ?_ ?_
  · intro x hx
    have : some c = some x := hx
    cases this; rfl
  · intro k hk'
    have : (none : Option Challenger) = some k := hk'
    cases this

theorem keeps_pin (i : ServiceIdx) (c : CarrierIdx) (s : State) (hf : (s.svc i).state ≠ .free)
    (hc : c ∈ (s.svc i).candidates) :
    Keeps s (if (s.svc i).pin = some c then s else applyChange i (pinned s (s.svc i) c) s) := by
  split
  · exact Keeps.refl s
  · exact keeps_applyChange i _ s (.of_same (fun w => shaped_pinned s _ c (w i) hc) rfl (fun _ => hf)
      (fun w _ => evaluable_live _ (evaluable_of_candidate _ c (w i) hc)) rfl)

theorem laws_runPin (e : ReqEntry) (s : State) : LawsKept s (runPin e s) := by
  unfold runPin
  split
  · rename_i i c _ _
    simp only
    split
    · exact laws_reply _ _ _ _
    · rename_i hf
      split
      · exact laws_reply _ _ _ _
      · split
        · exact laws_reply _ _ _ _
        · rename_i hc
          split
          · exact laws_reply _ _ _ _
          · exact (keeps_pin i c s hf (by simpa using hc)).laws.trans (laws_reply _ _ _ _)
  · exact laws_reply _ _ _ _

theorem keeps_unpin (i : ServiceIdx) (s : State) (hf : (s.svc i).state ≠ .free) :
    Keeps s (if (s.svc i).pin = none then s
      else applyChange i (evaluated s false { s.svc i with pin := none }) s) := by
  split
  · exact Keeps.refl s
  · rename_i hp
    obtain ⟨c, hc⟩ := Option.ne_none_iff_exists'.mp hp
    have ev : ServicesShaped s → (s.svc i).evaluable := fun w =>
      evaluable_of_candidate (s.svc i) c (w i) ((w i).1.2.2.1 c ((w i).1.2.2.2.1 c hc))
    have id := identity_evaluated s false { s.svc i with pin := none }
    exact keeps_applyChange i _ s (.of_same (fun w => shaped_evaluated s _ _ (shaped_clearPin _ (w i)) (ev w)) id.1
      (fun _ => hf) (fun w _ => evaluable_live _ (ev w)) id.2)

theorem laws_runUnpin (e : ReqEntry) (s : State) : LawsKept s (runUnpin e s) := by
  unfold runUnpin
  split
  · exact laws_reply _ _ _ _
  · rename_i i _
    simp only
    split
    · exact laws_reply _ _ _ _
    · rename_i hf
      exact (keeps_unpin i s hf).laws.trans (laws_reply _ _ _ _)

theorem keeps_retireIfLive (i : ServiceIdx) (s : State) (hc : (s.svc i).claimCount = 0) :
    Keeps s (if (s.svc i).state.live = true then retireRecord i s else s) := by
  split
  · rename_i hl; exact keeps_retireRecord i s hl hc
  · exact Keeps.refl s

theorem laws_suppress (k : Key) (s : State) (h : k ∈ s.svcs.suppressed ∨ s.svcs.suppressed.length < 64)
    (hl : KeysDistinct s → ∀ i, (s.svc i).state.live = true → (s.svc i).key ≠ some k) :
    LawsKept s (suppress k s) := by
  unfold suppress
  split
  · exact LawsKept.refl s
  · rename_i hn
    exact { LawsKept.refl s with
      suppression := fun w => by
        rcases h with h | h
        · exact absurd h hn
        · exact ⟨by simp; omega, nodup_append_singleton k _ hn w.2⟩
      unsuppressed := fun _ kd w i x hi hx => by
        intro m
        rcases List.mem_append.mp m with m | m
        · exact w i x hi hx m
        · exact hl kd i hi (by rw [List.mem_singleton.mp m] at hx; exact hx) }

/-- R16, R18: once a record has been retired, no live record holds its key. -/
theorem noLiveKey_retired (i : ServiceIdx) (s t : State) (key : Key) (hk : (s.svc i).key = some key)
    (hf : (s.svc i).state ≠ .free) (ht : t = if (s.svc i).state.live = true then retireRecord i s else s)
    (w : KeysDistinct t) (j : ServiceIdx) (hj : (t.svc j).state.live = true) : (t.svc j).key ≠ some key := by
  intro e
  have at_ : (t.svc i).state = .retired ∧ (t.svc i).key = some key := by
    rw [ht]
    split
    · rename_i hl
      have same : ((s.svc i).candidates.foldl (unannounce i) s).svcs = s.svcs := by
        generalize (s.svc i).candidates = l
        clear ht hj w hl hf hk
        induction l generalizing s with
        | nil => rfl
        | cons b l ih => rw [List.foldl_cons, ih]; rfl
      unfold retireRecord
      simp only
      rw [svc_applyChange, if_pos rfl]
      unfold stamped
      split <;> exact ⟨rfl, hk⟩
    · rename_i hl
      refine ⟨?_, hk⟩
      cases e : (s.svc i).state <;> rw [e] at hl hf <;> simp [SvcState.live] at hl hf ⊢
  obtain rfl := w i j key (by rw [at_.1]; simp) (live_ne_free hj) at_.2 e
  rw [at_.1] at hj
  cases hj

theorem laws_retireEffects (i : ServiceIdx) (b : Bool) (s : State) (hc : (s.svc i).claimCount = 0)
    (hs : (s.svc i).state ≠ .free)
    (hf : b = true → suppressionFull s (s.svc i) = false) : LawsKept s (retireEffects i b s) := by
  have k := keeps_retireIfLive i s hc
  unfold retireEffects
  simp only
  generalize ht : (if (s.svc i).state.live = true then retireRecord i s else s) = t at k ⊢
  split
  · rename_i key hk
    refine k.laws.trans (laws_suppress key t ?_ (noLiveKey_retired i s t key hk hs ht.symm))
    have := hf rfl
    unfold suppressionFull at this
    simp only [hk, Bool.and_eq_false_iff, decide_eq_false_iff_not, not_not, Config.suppressionMax] at this
    rw [k.suppressed]
    rcases this with h | h
    · exact Or.inl h
    · exact Or.inr (by omega)
  · exact k.laws

theorem laws_runRetire (e : ReqEntry) (s : State) : LawsKept s (runRetire e s) := by
  unfold runRetire
  simp only
  split
  · exact laws_reply _ _ _ _
  · rename_i i _
    split
    · exact laws_reply _ _ _ _
    · split
      · exact laws_reply _ _ _ _
      · rename_i hs
        split
        · exact laws_reply _ _ _ _
        · split
          · exact laws_reply _ _ _ _
          · rename_i hc
            split
            · exact laws_reply _ _ _ _
            · rename_i hf
              refine (laws_retireEffects i _ s (by omega) hs ?_).trans (laws_reply _ _ _ _)
              intro hb
              simp only [decide_eq_true_eq] at hb
              simpa [hb] using hf

theorem laws_runUnsuppress (e : ReqEntry) (s : State) : LawsKept s (runUnsuppress e s) := by
  unfold runUnsuppress
  simp only
  split
  · refine LawsKept.trans ?_ (laws_reply _ _ _ _)
    exact { LawsKept.refl s with
      suppression := fun w => ⟨Nat.le_trans (length_without_le _ _) w.1, nodup_without _ _ w.2⟩
      unsuppressed := fun _ _ w i k hi hk m => w i k hi hk ((mem_without _ _ _).mp m).1 }
  · exact laws_reply _ _ _ _

/-- R121: carriers that all fit, none of them queued yet, join the queue. -/
theorem keeps_joinAll (l : List CarrierIdx) (s : State) (h : s.plan.queue.length + l.length ≤ 16)
    (hn : ServicesShaped s → l.Nodup) (hq : ServicesShaped s → ∀ c ∈ l, c ∉ s.plan.queue) :
    Keeps s (l.foldl (fun s c => joinQueue c s) s) := by
  induction l generalizing s with
  | nil => exact Keeps.refl s
  | cons c l ih =>
    simp only [List.length_cons] at h
    refine (keeps_joinQueue c s (by omega) (fun w => hq w c List.mem_cons_self)).trans
      (ih _ ?_ (fun w => (List.nodup_cons.mp (hn w)).2) (fun w d hd => ?_))
    · show (s.plan.queue ++ [c]).length + l.length ≤ 16
      simp; omega
    · intro m
      rcases List.mem_append.mp m with m | m
      · exact hq w d (List.mem_cons_of_mem _ hd) m
      · rw [List.mem_singleton.mp m] at hd
        exact (List.nodup_cons.mp (hn w)).1 hd

/-- R121, R170: what a REFRESH adds is not queued yet, and holds no carrier twice where what it names does not. -/
theorem keeps_refresh (l : List CarrierIdx) (s : State) (hn : ServicesShaped s → l.Nodup)
    (h : s.plan.queue.length + (refreshable s l).length ≤ 16) :
    Keeps s ((refreshable s l).foldl (fun s c => joinQueue c s) s) :=
  keeps_joinAll _ s h (fun w => (hn w).filter _) (fun _ c hc => by
    have := List.of_mem_filter hc
    simp only [Bool.and_eq_true, decide_eq_true_eq] at this
    exact this.2)

theorem laws_refreshWith (e : ReqEntry) (l : List CarrierIdx) (s : State) (hn : ServicesShaped s → l.Nodup) :
    LawsKept s (refreshWith e l s) := by
  unfold refreshWith
  simp only
  split
  · rename_i h
    exact (keeps_refresh l s hn h).laws.trans (laws_reply _ _ _ _)
  · exact laws_reply _ _ _ _

/-- R4, R60: the rank order of a record's candidates holds none twice. -/
theorem nodup_ranked (i : ServiceIdx) (s : State) (w : ServicesShaped s) : (rankOrder s (s.svc i).candidates).Nodup :=
  (perm_rankOrder s _).nodup_iff.mpr (w i).1.2.1

theorem laws_runRefresh (e : ReqEntry) (s : State) : LawsKept s (runRefresh e s) := by
  unfold runRefresh
  split
  · split
    · exact laws_reply _ _ _ _
    · split
      · exact laws_reply _ _ _ _
      · exact laws_refreshWith _ _ s (fun _ => List.nodup_singleton _)
  · split
    · exact laws_reply _ _ _ _
    · split
      · exact laws_reply _ _ _ _
      · exact laws_refreshWith _ _ s (nodup_ranked _ s)
  · exact laws_reply _ _ _ _

/-! ### Reading requests -/

theorem laws_runCarrierInfo (e : ReqEntry) (s : State) : LawsKept s (runCarrierInfo e s) := by
  unfold runCarrierInfo; split <;> exact laws_reply _ _ _ _

theorem laws_runCarrierServices (e : ReqEntry) (s : State) : LawsKept s (runCarrierServices e s) := by
  unfold runCarrierServices
  simp only
  split
  · exact laws_reply _ _ _ _
  · split <;> exact laws_reply _ _ _ _

theorem laws_runLookup (e : ReqEntry) (s : State) : LawsKept s (runLookup e s) := by
  unfold runLookup
  split
  · split <;> exact laws_reply _ _ _ _
  · split <;> exact laws_reply _ _ _ _
  · exact laws_reply _ _ _ _

theorem laws_runListServices (e : ReqEntry) (s : State) : LawsKept s (runListServices e s) := by
  unfold runListServices
  simp only
  split
  · exact laws_reply _ _ _ _
  · split <;> exact laws_reply _ _ _ _

theorem laws_runListChanged (e : ReqEntry) (s : State) : LawsKept s (runListChanged e s) := by
  unfold runListChanged
  simp only
  split <;> exact laws_reply _ _ _ _

theorem laws_runStatus (e : ReqEntry) (s : State) : LawsKept s (runStatus e s) := by
  unfold runStatus
  exact (laws_port s { s.port with dropped := 0 } rfl id).trans (laws_reply _ _ _ _)

/-! ### Claims and monitors -/

/-- R20: how many claims name each service once one claim's service has changed. -/
theorem claimsOn_changed (ch : ChannelIdx) (x : Option ServiceIdx) (s t : State)
    (h : ∀ d, (t.claim d).service = if ch = d then x else (s.claim d).service) (j : ServiceIdx) :
    claimsOn t j + (if (s.claim ch).service = some j then 1 else 0) = claimsOn s j + (if x = some j then 1 else 0) := by
  have tally : ∀ l : List ChannelIdx, l.Nodup →
      l.countP (fun d => decide ((t.claim d).service = some j))
          + (if ch ∈ l ∧ (s.claim ch).service = some j then 1 else 0)
        = l.countP (fun d => decide ((s.claim d).service = some j)) + (if ch ∈ l ∧ x = some j then 1 else 0) := by
    intro l
    induction l with
    | nil => simp
    | cons a l ih =>
      intro n
      obtain ⟨na, nl⟩ := List.nodup_cons.mp n
      have i := ih nl
      simp only [List.countP_cons, List.mem_cons, h a, decide_eq_true_eq] at i ⊢
      by_cases e : ch = a
      · subst e
        simp only [na, false_and, if_false, true_or, true_and, if_true] at i ⊢
        omega
      · simp only [e, false_or, if_false] at i ⊢
        omega
  have w := tally (List.finRange 32) (List.nodup_finRange 32)
  simpa [claimsOn] using w

/-- R20: a claim and the claim count of a record changed together, so that the counts stay what they count. -/
theorem laws_countedClaim (ch : ChannelIdx) (c : ClaimRec) (i : ServiceIdx) (n : Nat) (s : State)
    (hr : ServicesShaped s → ServiceRec.shaped { s.svc i with claimCount := n }) (hc : c.shaped)
    (hn : ServicesShaped s → ClaimsShaped s → ClaimsCounted s → ∀ j,
      (if i = j then n else (s.svc j).claimCount) + (if (s.claim ch).service = some j then 1 else 0)
        = (s.svc j).claimCount + (if c.service = some j then 1 else 0)) :
    LawsKept s (changeClaim ch c (setClaimCount i n s)) := by
  generalize hu : setClaimCount i n s = u
  have at_ : ∀ j, u.svc j = if i = j then { s.svc i with claimCount := n } else s.svc j := fun j => by
    rw [← hu]; exact State.svc_setSvc ..
  have same : ∀ j, (u.svc j).state = (s.svc j).state ∧ (u.svc j).key = (s.svc j).key
      ∧ (u.svc j).changeEpoch = (s.svc j).changeEpoch := fun j => by
    rw [at_ j]
    split
    · rename_i e; rw [← e]; exact ⟨rfl, rfl, rfl⟩
    · exact ⟨rfl, rfl, rfl⟩
  have shaped : ServicesShaped s → ServicesShaped u := fun w j => by
    rw [at_ j]
    split
    · exact hr w
    · exact w j
  have svcs : (changeClaim ch c u).svcs = u.svcs := by
    rcases changeClaim_eq ch c u with e | e <;> rw [e]
    · exact svcs_setClaim ch c _
    · exact svcs_setClaim ch c _
  have claim : ∀ d, (changeClaim ch c u).claim d = if ch = d then c else s.claim d := fun d => by
    have : u.claim d = s.claim d := by rw [← hu]; rfl
    rw [← this, ← claim_setClaim u ch d c]
    unfold State.claim; rcases changeClaim_eq ch c u with e | e <;> simp only [e, raiseArb]
  have k := base_changeClaim ch c u (fun _ => hc)
  generalize changeClaim ch c u = t at svcs claim k ⊢
  have tally := claimsOn_changed ch c.service s t (fun d => by rw [claim d]; split <;> rfl)
  have v : ∀ j, t.svc j = u.svc j := fun j => by unfold State.svc; rw [svcs]
  subst hu
  exact {
    attached := k.attached
    waiters := k.waiters
    services := fun w => k.services (shaped w)
    epochs := fun w => k.epochs (fun j => by rw [(same j).2.2]; exact w j)
    suppression := fun w => by unfold SuppressionBounded; rw [k.suppressed]; exact w
    claims := k.claims
    changed := k.changed
    carry := k.carry
    budgets := fun w j => by rw [(k.inputs j).2.2, k.now]; exact w j
    queue := k.queue
    queued := fun w => k.queued (shaped w)
    keys := fun w => k.keys (fun a b x => by
      rw [(same a).1, (same b).1, (same a).2.1, (same b).2.1]; exact w a b x)
    unsuppressed := fun w _ m => k.unsuppressed (shaped w) (fun j x => by
      rw [(same j).1, (same j).2.1]; exact m j x)
    counted := fun w x m j => by
      have h := hn w x m j
      have q := tally j
      have z := m j
      rw [v j, at_ j]
      split
      all_goals
        rename_i e
        simp only [e, if_true, if_false] at h ⊢
        omega
    requests := fun w => by
      have e : t.port.reqFifo = s.port.reqFifo := by rw [k.port]; rfl
      unfold RequestsFit reqWords
      rw [e]; exact w
    level := fun w => by
      have e : t.port.attentionLevel = s.port.attentionLevel := by rw [k.port]; rfl
      unfold AttentionInRange
      rw [e]; exact w }

theorem laws_claimEffects (ch : ChannelIdx) (i : ServiceIdx) (s : State) (hf : (s.claim ch).state = .free)
    (hl : (s.svc i).state.live = true) : LawsKept s (claimEffects ch i s) := by
  refine laws_countedClaim ch _ i _ s (fun w => ⟨(w i).1, ?_⟩) (shaped_examined _ i) (fun _ w _ j => ?_)
  · have f := (w i).2
    unfold ServiceRec.fieldsOfState at f ⊢
    cases e : (s.svc i).state <;> rw [e] at f hl <;> simp [SvcState.live] at hl <;> simpa using f
  · have n : (s.claim ch).service = none := by
      have := w ch
      unfold ClaimRec.shaped at this
      rw [hf] at this
      exact this.2.1
    rw [n, service_examined]
    by_cases e : i = j
    · subst e; simp
    · simp [e]

theorem laws_runClaim (e : ReqEntry) (s : State) : LawsKept s (runClaim e s) := by
  unfold runClaim
  split
  · split
    · exact laws_reply _ _ _ _
    · rename_i hf
      split
      · exact laws_reply _ _ _ _
      · rename_i hl
        exact (laws_claimEffects _ _ s (by simpa using hf) (by simpa using hl)).trans (laws_reply _ _ _ _)
  · exact laws_reply _ _ _ _

/-- R139: the claim freed, and the carriers it held let go. -/
theorem base_released (ch : ChannelIdx) (x y : Option CarrierIdx) (s : State) :
    KeepsBase s (releaseUnneeded? y (releaseUnneeded? x (changeClaim ch .free s))) :=
  (base_changeClaim ch .free s (fun _ => by simp [ClaimRec.shaped, ClaimRec.free])).trans
    ((keeps_releaseUnneeded? x _).trans (keeps_releaseUnneeded? y _)).toKeepsBase

theorem laws_releaseEffects (ch : ChannelIdx) (s : State) : LawsKept s (releaseEffects ch s) := by
  unfold releaseEffects
  simp only
  split
  · exact LawsKept.refl s
  · rename_i i hi
    have k : LawsKept s (changeClaim ch .free (setClaimCount i ((s.svc i).claimCount - 1) s)) → LawsKept s
        (releaseUnneeded? (s.claim ch).target (releaseUnneeded? (s.claim ch).current
          (changeClaim ch .free (setClaimCount i ((s.svc i).claimCount - 1) s)))) := fun a =>
      a.trans ((keeps_releaseUnneeded? _ _).trans (keeps_releaseUnneeded? _ _)).laws
    refine k (laws_countedClaim ch .free i _ s (fun w => ⟨(w i).1, ?_⟩) (by simp [ClaimRec.shaped, ClaimRec.free])
      (fun _ _ m j => ?_))
    · have f := (w i).2
      unfold ServiceRec.fieldsOfState at f ⊢
      cases e : (s.svc i).state <;> rw [e] at f <;> simp at f ⊢ <;> simp [f]
    · have pos : 1 ≤ (s.svc i).claimCount := by
        rw [m i]
        exact List.countP_pos_iff.mpr ⟨ch, List.mem_finRange ch, by simpa using hi⟩
      rw [hi]
      by_cases e : i = j
      · subst e; simp [ClaimRec.free]; omega
      · simp [e, ClaimRec.free]

theorem laws_runReleaseClaim (e : ReqEntry) (s : State) : LawsKept s (runReleaseClaim e s) := by
  unfold runReleaseClaim
  split
  · exact laws_reply _ _ _ _
  · exact (laws_releaseEffects _ s).trans (laws_reply _ _ _ _)

theorem laws_runClaimStatus (e : ReqEntry) (s : State) : LawsKept s (runClaimStatus e s) := by
  unfold runClaimStatus; split <;> exact laws_reply _ _ _ _

theorem laws_runClaimChanges (e : ReqEntry) (s : State) : LawsKept s (runClaimChanges e s) := by
  unfold runClaimChanges
  refine LawsKept.trans ?_ (laws_reply _ _ _ _)
  exact { LawsKept.refl s with changed := fun _ => List.Pairwise.nil }

theorem laws_setMon (s : State) (m : MonitorIdx) (r : Monitor) : LawsKept s (s.setMon m r) :=
  { LawsKept.refl s with }

theorem laws_runSetMonitor (e : ReqEntry) (s : State) : LawsKept s (runSetMonitor e s) := by
  unfold runSetMonitor
  split
  · exact (laws_setMon s _ _).trans (laws_reply _ _ _ _)
  · exact laws_reply _ _ _ _

theorem laws_runReadMonitors (e : ReqEntry) (s : State) : LawsKept s (runReadMonitors e s) := laws_reply _ _ _ _

theorem laws_runAckAlert (e : ReqEntry) (s : State) : LawsKept s (runAckAlert e s) := by
  unfold runAckAlert
  split
  · exact laws_reply _ _ _ _
  · exact (laws_setMon s _ _).trans (laws_reply _ _ _ _)

end Sys2Proof.Machine
end

