-- ==== Sys2Proof/Laws/Responses.lean ====
section
/-! SUPPORT. The lengths of the results of each request, and that each response fits the room its code needs (R151,
R160). -/

namespace Sys2Proof.Machine

/-! ### Lengths of results -/

theorem length_flatMap_const {α β : Type} (f : α → List β) (n : Nat) (l : List α) (h : ∀ a, (f a).length = n) :
    (l.flatMap f).length = n * l.length := by
  induction l with
  | nil => simp
  | cons a l ih => simp [h, ih, Nat.mul_succ, Nat.add_comm]

theorem length_keyWords (o : Option Key) : (keyWords o).length = 2 := by cases o <;> rfl
theorem length_scoreWords (o : Option Quality) : (scoreWords o).length = 2 := by cases o <;> rfl
theorem length_laneWords (o : Option Quality) : (laneWords o).length = 4 := by cases o <;> rfl
theorem length_paramWords (o : Option CarrierParams) : (paramWords o).length = 6 := by cases o <;> rfl
theorem length_nameWords (o : Option (List Byte)) : (nameWords o).length = 8 := by cases o <;> rfl

theorem length_carrierWords (c : CarrierIdx) (r : CarrierRec) : (carrierWords c r).length = 19 := by
  simp [carrierWords, length_paramWords, length_laneWords, length_scoreWords]

theorem length_monitorWords (m : Monitor) : (monitorWords m).length = 6 := by
  unfold monitorWords; cases m.sample <;> rfl

theorem length_listEntryWords (i : ServiceIdx) (r : ServiceRec) : (listEntryWords i r).length = 4 := by
  simp [listEntryWords, length_keyWords]

theorem length_candidateEntries (s : State) (l : List CarrierIdx) : (candidateEntries s l).length = 16 := by
  unfold candidateEntries
  simp only
  rw [length_flatMap_const _ 4]
  · simp
  · intro k
    split
    · simp [candidateWords, length_scoreWords]
    · simp

theorem length_lookupWords (s : State) (i : ServiceIdx) : (lookupWords s i).length = 36 := by
  simp [lookupWords, length_keyWords, length_nameWords, length_candidateEntries, twoWords]

theorem length_pageWords_le (s : State) (n : Nat) (p : ServiceRec → Bool) : (pageWords s n p).length ≤ 40 := by
  unfold pageWords
  generalize (indexed s.svcs.recs).filter (fun x => decide (n ≤ x.1.val) && p x.2) = l
  have h := length_flatMap_const (fun x : ServiceIdx × ServiceRec => listEntryWords x.1 x.2) 4 (l.take 10)
    (fun x => length_listEntryWords x.1 x.2)
  have := List.length_take_le 10 l
  exact le_of_eq_of_le h (by omega)

theorem length_announcedWords_le (s : State) (l : List ServiceIdx) (n : Nat) :
    (announcedWords s l n).length ≤ 32 := by
  unfold announcedWords
  rw [length_flatMap_const _ 2 _ (fun i => rfl)]
  have := List.length_take_le 16 (l.drop n)
  omega

theorem length_statusWords (s : State) : (statusWords s).length = 30 := by simp [statusWords, twoWords]

theorem length_readMonitors (s : State) : (s.mons.toList.flatMap monitorWords).length = 24 := by
  rw [length_flatMap_const _ 6 _ length_monitorWords]; simp

theorem length_changed_le (s : State) (h : ChangedInOrder s) : s.claims.changed.length ≤ 32 := by
  have nd : s.claims.changed.Nodup := h.imp (fun w => ne_of_lt w)
  simpa using nd.length_le_card

/-! ### Room -/

theorem fits_held (s : State) (x : Execution) (h : s.port.respFifo.length + roomHeld (some x) ≤ 64) :
    ResponsesFit { s with inExec := some x } := h

theorem fits_runActivate : RunFits .activate runActivate := by
  intro e s hx _ h
  unfold runActivate
  simp only
  refine (keeps_raiseArb _).responses ?_
  refine fits_reply_of_keeps (s := { s with arb := { s.arb with mode := .active } })
    (Keeps.forChannels _ (fun ch t => ?_) _) e _ _ hx (by simpa [ReqCode.largest] using h)
  split
  · rename_i hs
    split
    · exact keeps_examine ch _ t hs
    · exact Keeps.refl t
  · exact Keeps.refl t

theorem fits_runStandby : RunFits .standby runStandby := by
  intro e s hx _ h
  unfold runStandby
  split
  · exact fits_reply_of_keeps (keeps_standbyEffects { s with arb := { s.arb with mode := .standby } }) e _ _ hx
      (by simpa [ReqCode.largest] using h)
  · refine fits_held _ _ ?_
    rw [((keeps_standbyEffects { s with arb := { s.arb with mode := .stopping } }).idle hx).2]
    exact h

theorem fits_runScanControl : RunFits .scanControl runScanControl := by
  intro e s hx _ h
  have h' : s.port.respFifo.length + 2 ≤ 64 := h
  unfold runScanControl
  simp only
  split
  · exact fits_reply _ _ _ _ hx h'
  · split
    · exact fits_reply _ _ _ _ hx h'
    · have a : ResponsesFit (reply e .done [] (setScan (e.arg 0).toNat (decide ((e.arg 1).toNat = 1)) s)) :=
        fits_reply _ _ _ _ hx h'
      split
      · exact (keeps_raiseArb _).responses a
      · exact a

theorem port_setRankingEffects (g : Settings) (s : State) :
    (setRankingEffects g s).port = s.port ∧ (setRankingEffects g s).inExec = s.inExec := by
  unfold setRankingEffects pushReport
  simp only
  split <;> exact ⟨rfl, rfl⟩

theorem fits_runSetRanking : RunFits .setRanking runSetRanking := by
  intro e s hx _ h
  have h' : s.port.respFifo.length + 10 ≤ 64 := h
  unfold runSetRanking
  simp only
  obtain ⟨p, i⟩ := port_setRankingEffects (settingsOf e) s
  split
  · exact fits_reply _ _ _ _ hx (by simp; omega)
  · split
    · refine fits_held _ _ ?_
      rw [p]; exact h'
    · exact fits_reply _ _ _ _ (i.trans hx) (by rw [p, length_settingsWords]; omega)

theorem fits_runSetPort : RunFits .setPort runSetPort := by
  intro e s hx _ h
  have h' : s.port.respFifo.length + 2 ≤ 64 := h
  unfold runSetPort
  simp only
  split
  · exact fits_reply _ _ _ _ hx h'
  · exact fits_reply _ _ _ _ hx h'

theorem fits_runSettle : RunFits .settle runSettle := by
  intro e s hx _ h
  have h' : s.port.respFifo.length + 3 ≤ 64 := h
  unfold runSettle
  simp only
  split
  · exact fits_reply _ _ _ _ hx (by simp; omega)
  · split
    · exact fits_reply _ _ _ _ hx h'
    · exact fits_held _ _ h'

theorem fits_runDefineInput : RunFits .defineInput runDefineInput := by
  intro e s hx _ h
  have h' : s.port.respFifo.length + 7 ≤ 64 := h
  unfold runDefineInput
  split
  · split
    · exact fits_reply _ _ _ _ hx (by simp; omega)
    · exact fits_reply _ _ _ _ hx h'
  · exact fits_reply _ _ _ _ hx (by simp; omega)

theorem fits_runDefineCarrier : RunFits .defineCarrier runDefineCarrier := by
  intro e s hx _ h
  have h' : s.port.respFifo.length + 3 ≤ 64 := h
  have r : ∀ c, ResponsesFit (reply e c [] s) := fun c => fits_reply _ _ _ _ hx (by simp; omega)
  unfold runDefineCarrier
  split
  · exact r _
  · simp only
    split
    · split
      · exact r _
      · split
        · exact r _
        · refine (keeps_raiseArb _).responses ?_
          exact fits_reply _ _ _ _ hx h'
    · exact r _

theorem port_forgetEffects (c : CarrierIdx) (s : State) (hx : s.inExec = none) :
    (forgetEffects c s).port = s.port ∧ (forgetEffects c s).inExec = none := by
  unfold forgetEffects
  simp only
  generalize ht : (dropEntry c ((List.finRange 8).foldl (forgetOnPath c) s)) = t
  have a : Keeps s t := by
    subst ht
    exact (Keeps.foldl _ (keeps_forgetOnPath c) _ s).trans (keeps_dropEntry c _)
  have b := a.trans (Keeps.foldl (depart c) (keeps_depart c) (t.car c).announced t)
  generalize (t.car c).announced.foldl (depart c) t = u at b ⊢
  have i := b.idle hx
  split <;> exact ⟨i.2, i.1⟩

theorem fits_runForgetCarrier : RunFits .forgetCarrier runForgetCarrier := by
  intro e s hx _ h
  have h' : s.port.respFifo.length + 2 ≤ 64 := h
  have r : ∀ c, ResponsesFit (reply e c [] s) := fun c => fits_reply _ _ _ _ hx h'
  unfold runForgetCarrier
  split
  · exact r _
  · split
    · exact r _
    · split
      · exact r _
      · rename_i c _ _ _
        obtain ⟨p, i⟩ := port_forgetEffects c s hx
        exact fits_reply _ _ _ _ i (by rw [p]; exact h')

theorem fits_runEnrol : RunFits .enrol runEnrol := by
  intro e s hx _ h
  have h' : s.port.respFifo.length + 4 ≤ 64 := h
  have r : ∀ c, ResponsesFit (reply e c [] s) := fun c => fits_reply _ _ _ _ hx (by simp; omega)
  unfold runEnrol
  simp only
  split
  · exact r _
  · rename_i hs
    split
    · exact fits_reply _ _ _ _ hx h'
    · rename_i hl
      split
      · rename_i i q hr
        exact fits_reply_of_keeps (keeps_applyChange i q s (lawful_enrolled hr hl hs)) e _ _ hx h'
      · exact r _

theorem fits_runPin : RunFits .pin runPin := by
  intro e s hx _ h
  have h' : s.port.respFifo.length + 3 ≤ 64 := h
  have r : ∀ c, ResponsesFit (reply e c [] s) := fun c => fits_reply _ _ _ _ hx (by simp; omega)
  unfold runPin
  split
  · rename_i i c _ _
    simp only
    split
    · exact r _
    · rename_i hf
      split
      · exact r _
      · split
        · exact r _
        · rename_i hc
          split
          · exact r _
          · exact fits_reply_of_keeps (keeps_pin i c s hf (by simpa using hc)) e _ _ hx h'
  · exact r _

theorem fits_runUnpin : RunFits .unpin runUnpin := by
  intro e s hx _ h
  have h' : s.port.respFifo.length + 3 ≤ 64 := h
  have r : ∀ c, ResponsesFit (reply e c [] s) := fun c => fits_reply _ _ _ _ hx (by simp; omega)
  unfold runUnpin
  split
  · exact r _
  · rename_i i _
    simp only
    split
    · exact r _
    · rename_i hf
      exact fits_reply_of_keeps (keeps_unpin i s hf) e _ _ hx h'

theorem port_retireEffects (i : ServiceIdx) (b : Bool) (s : State) (hc : (s.svc i).claimCount = 0)
    (hx : s.inExec = none) : (retireEffects i b s).port = s.port ∧ (retireEffects i b s).inExec = none := by
  have k := (keeps_retireIfLive i s hc).idle hx
  unfold retireEffects
  simp only
  generalize (if (s.svc i).state.live = true then retireRecord i s else s) = t at k ⊢
  split
  · unfold suppress; split <;> exact ⟨k.2, k.1⟩
  · exact ⟨k.2, k.1⟩

theorem fits_runRetire : RunFits .retire runRetire := by
  intro e s hx _ h
  have h' : s.port.respFifo.length + 3 ≤ 64 := h
  have r : ∀ c, ResponsesFit (reply e c [] s) := fun c => fits_reply _ _ _ _ hx (by simp; omega)
  unfold runRetire
  simp only
  split
  · exact r _
  · rename_i i _
    split
    · exact r _
    · split
      · exact r _
      · split
        · exact r _
        · split
          · exact r _
          · rename_i hc
            split
            · exact r _
            · obtain ⟨p, q⟩ := port_retireEffects i (decide ((e.arg 2).toNat = 1)) s (by omega) hx
              exact fits_reply _ _ _ _ q (by rw [p]; exact h')

theorem fits_runUnsuppress : RunFits .unsuppress runUnsuppress := by
  intro e s hx _ h
  have h' : s.port.respFifo.length + 2 ≤ 64 := h
  unfold runUnsuppress
  simp only
  split <;> exact fits_reply _ _ _ _ hx h'

theorem fits_refreshWith (e : ReqEntry) (l : List CarrierIdx) (s : State) (hn : ServicesShaped s → l.Nodup)
    (hx : s.inExec = none) (h : s.port.respFifo.length + 3 ≤ 64) : ResponsesFit (refreshWith e l s) := by
  unfold refreshWith
  simp only
  split
  · rename_i hl
    exact fits_reply_of_keeps (keeps_refresh l s hn hl) e _ _ hx h
  · exact fits_reply _ _ _ _ hx (by simp; omega)

theorem fits_runRefresh : RunFits .refresh runRefresh := by
  intro e s hx _ h
  have h' : s.port.respFifo.length + 3 ≤ 64 := h
  have r : ∀ c, ResponsesFit (reply e c [] s) := fun c => fits_reply _ _ _ _ hx (by simp; omega)
  unfold runRefresh
  split
  · split
    · exact r _
    · split
      · exact r _
      · exact fits_refreshWith _ _ s (fun _ => List.nodup_singleton _) hx h'
  · split
    · exact r _
    · split
      · exact r _
      · exact fits_refreshWith _ _ s (nodup_ranked _ s) hx h'
  · exact r _

theorem fits_runCarrierInfo : RunFits .carrierInfo runCarrierInfo := by
  intro e s hx _ h
  have h' : s.port.respFifo.length + 21 ≤ 64 := h
  unfold runCarrierInfo
  split
  · exact fits_reply _ _ _ _ hx (by simp; omega)
  · exact fits_reply _ _ _ _ hx (by rw [length_carrierWords]; exact h')

theorem fits_runCarrierServices : RunFits .carrierServices runCarrierServices := by
  intro e s hx _ h
  have h' : s.port.respFifo.length + 36 ≤ 64 := h
  unfold runCarrierServices
  simp only
  split
  · exact fits_reply _ _ _ _ hx (by simp; omega)
  · rename_i c _
    split
    · exact fits_reply _ _ _ _ hx (by simp; omega)
    · have := length_announcedWords_le s (s.car c).announced (e.arg 1).toNat
      exact fits_reply _ _ _ _ hx (by simp; omega)

theorem fits_runLookup : RunFits .lookup runLookup := by
  intro e s hx _ h
  have h' : s.port.respFifo.length + 38 ≤ 64 := h
  have r : ∀ c, ResponsesFit (reply e c [] s) := fun c => fits_reply _ _ _ _ hx (by simp; omega)
  have d : ∀ i, ResponsesFit (reply e .done (lookupWords s i) s) :=
    fun i => fits_reply _ _ _ _ hx (by rw [length_lookupWords]; exact h')
  unfold runLookup
  split
  · split
    · exact r _
    · exact d _
  · split
    · exact r _
    · exact d _
  · exact r _

theorem fits_runListServices : RunFits .listServices runListServices := by
  intro e s hx _ h
  have h' : s.port.respFifo.length + 42 ≤ 64 := h
  have r : ∀ c, ResponsesFit (reply e c [] s) := fun c => fits_reply _ _ _ _ hx (by simp; omega)
  unfold runListServices
  simp only
  split
  · exact r _
  · split
    · exact r _
    · rename_i p _
      have := length_pageWords_le s (e.arg 0).toNat p
      exact fits_reply _ _ _ _ hx (by omega)

theorem fits_runListChanged : RunFits .listChanged runListChanged := by
  intro e s hx _ h
  have h' : s.port.respFifo.length + 42 ≤ 64 := h
  unfold runListChanged
  simp only
  split
  · exact fits_reply _ _ _ _ hx (by simp; omega)
  · have := length_pageWords_le s (e.arg 2).toNat
      (fun r => decide (fromTwo (e.arg 0) (e.arg 1) < r.changeEpoch.toNat))
    exact fits_reply _ _ _ _ hx (by omega)

theorem fits_runStatus : RunFits .status runStatus := by
  intro e s hx _ h
  have h' : s.port.respFifo.length + 32 ≤ 64 := h
  exact fits_reply _ _ _ _ hx (by rw [length_statusWords]; exact h')

theorem fits_runClaim : RunFits .claim runClaim := by
  intro e s hx _ h
  have h' : s.port.respFifo.length + 4 ≤ 64 := h
  have r : ∀ c, ResponsesFit (reply e c [] s) := fun c => fits_reply _ _ _ _ hx (by simp; omega)
  unfold runClaim
  split
  · split
    · exact r _
    · split
      · exact r _
      · rename_i ch i _ _ _ _
        exact fits_reply_of_base (s := setClaimCount i ((s.svc i).claimCount + 1) s) (base_examine ch i _) e _ _ hx h'
  · exact r _

theorem port_releaseEffects (ch : ChannelIdx) (s : State) (hx : s.inExec = none) :
    (releaseEffects ch s).port = s.port ∧ (releaseEffects ch s).inExec = none := by
  unfold releaseEffects
  simp only
  split
  · exact ⟨rfl, hx⟩
  · rename_i i _
    have k := base_released ch (s.claim ch).current (s.claim ch).target
      (setClaimCount i ((s.svc i).claimCount - 1) s)
    have q := k.idle hx
    exact ⟨q.2, q.1⟩

theorem fits_runReleaseClaim : RunFits .releaseClaim runReleaseClaim := by
  intro e s hx _ h
  have h' : s.port.respFifo.length + 2 ≤ 64 := h
  unfold runReleaseClaim
  split
  · exact fits_reply _ _ _ _ hx h'
  · rename_i ch _
    obtain ⟨p, q⟩ := port_releaseEffects ch s hx
    exact fits_reply _ _ _ _ q (by rw [p]; exact h')

theorem fits_runClaimStatus : RunFits .claimStatus runClaimStatus := by
  intro e s hx _ h
  have h' : s.port.respFifo.length + 10 ≤ 64 := h
  unfold runClaimStatus
  split
  · exact fits_reply _ _ _ _ hx (by simp; omega)
  · exact fits_reply _ _ _ _ hx h'

theorem fits_runClaimChanges : RunFits .claimChanges runClaimChanges := by
  intro e s hx hc h
  have h' : s.port.respFifo.length + 34 ≤ 64 := h
  have := length_changed_le s hc
  exact fits_reply _ _ _ _ hx (by
    show s.port.respFifo.length + (_ + 2) ≤ 64
    rw [List.length_map]; omega)

theorem fits_runSetMonitor : RunFits .setMonitor runSetMonitor := by
  intro e s hx _ h
  have h' : s.port.respFifo.length + 2 ≤ 64 := h
  unfold runSetMonitor
  split <;> exact fits_reply _ _ _ _ hx h'

theorem fits_runReadMonitors : RunFits .readMonitors runReadMonitors := by
  intro e s hx _ h
  have h' : s.port.respFifo.length + 26 ≤ 64 := h
  exact fits_reply _ _ _ _ hx (by rw [length_readMonitors]; exact h')

theorem fits_runAckAlert : RunFits .ackAlert runAckAlert := by
  intro e s hx _ h
  have h' : s.port.respFifo.length + 2 ≤ 64 := h
  unfold runAckAlert
  split <;> exact fits_reply _ _ _ _ hx h'

end Sys2Proof.Machine
end

