-- ==== Sys2Proof/Laws/Events.lean ====
section
/-! SUPPORT. Which laws of Safety.lean the pins and the port, the tune start and the entries that fail the first checks
keep. -/

namespace Sys2Proof.Machine

/-! ### Power-on reset -/

theorem svc_reset (i : ServiceIdx) : State.reset.svc i = ServiceRec.powerOn := by
  simp [State.svc, State.reset]

theorem claim_reset (ch : ChannelIdx) : State.reset.claim ch = ClaimRec.free := by
  simp [State.claim, State.reset]

theorem inp_reset (i : InputIdx) : State.reset.inp i = InputRec.powerOn := by
  simp [State.inp, State.reset]

theorem carryCount_reset : carryCount State.reset = 0 := by decide +kernel

theorem claimsOn_none (s : State) (i : ServiceIdx) (h : ∀ ch, (s.claim ch).service = none) : claimsOn s i = 0 :=
  List.countP_eq_zero.mpr (fun ch _ => by rw [h ch]; simp)

theorem shaped_powerOn : ServiceRec.powerOn.shaped := by
  simp [ServiceRec.powerOn, ServiceRec.shaped, ServiceRec.choicesOk, ServiceRec.fieldsOfState]

theorem laws_powerOnReset (s : State) : LawsKept s (powerOnResetEffect s) where
  waiters _ i := by
    show (State.reset.inp i).waitList.Pairwise _
    rw [inp_reset]; exact List.Pairwise.nil
  queued _ _ := by show ([] : List CarrierIdx).Nodup; simp
  keys _ i := by
    intro j k h
    have h : (State.reset.svc i).state ≠ .free := h
    rw [svc_reset] at h
    exact absurd rfl h
  unsuppressed _ _ _ i k h := by
    have h : (State.reset.svc i).state.live = true := h
    rw [svc_reset] at h
    cases h
  counted _ _ _ i := by
    show (State.reset.svc i).claimCount = claimsOn State.reset i
    rw [svc_reset, claimsOn_none State.reset i (fun ch => by rw [claim_reset]; rfl)]
    rfl
  attached _ i := by
    show (State.reset.inp i).attached.Pairwise _
    rw [inp_reset]; exact List.Pairwise.nil
  services _ i := by
    show (State.reset.svc i).shaped
    rw [svc_reset]; exact shaped_powerOn
  epochs _ i := by
    show (State.reset.svc i).changeEpoch ≤ State.reset.svcs.epoch
    rw [svc_reset]; exact BitVec.le_refl _
  suppression _ := ⟨by show ([] : List Key).length ≤ 64; simp, by show ([] : List Key).Nodup; simp⟩
  claims _ ch := by
    show (State.reset.claim ch).shaped
    rw [claim_reset]; simp [ClaimRec.shaped, ClaimRec.free]
  changed _ := List.Pairwise.nil
  carry _ := ⟨by show 1 ≤ 2; omega, by
    show carryCount State.reset ≤ 8 - 1
    rw [carryCount_reset]; omega⟩
  budgets _ i := by
    show historyOk s.now (State.reset.inp i).history
    rw [inp_reset]; simp [historyOk, InputRec.powerOn]
  queue _ := by show ([] : List CarrierIdx).length ≤ 16; simp
  requests _ := ⟨by show 0 ≤ 64; omega, fun e he => absurd he (by show e ∉ []; simp)⟩
  level _ := by show 1 ≤ 1 ∧ 1 ≤ 64; omega

/-! ### The request FIFO -/

/-- R145, R146: a request FIFO as it may stand. -/
def FifoFits (l : List ReqEntry) : Prop := (l.map ReqEntry.words).sum ≤ 64 ∧ ∀ e ∈ l, e.words ≤ 16

theorem requestsFit_iff (s : State) : RequestsFit s ↔ FifoFits s.port.reqFifo := Iff.rfl

theorem fifoFits_append (l : List ReqEntry) (w : Word) (h : FifoFits l) (hr : (l.map ReqEntry.words).sum < 64) :
    FifoFits (l ++ [newEntry w]) := by
  refine ⟨?_, fun e he => ?_⟩
  · simp [newEntry, ReqEntry.words]; omega
  · rcases List.mem_append.mp he with k | k
    · exact h.2 e k
    · simp at k; subst k; simp [newEntry, ReqEntry.words]

/-- A change of the tail entry that makes it no longer keeps the FIFO within its bounds. -/
theorem fifoFits_changeTail_le (f : ReqEntry → ReqEntry) (hf : ∀ e, (f e).words ≤ e.words) (l : List ReqEntry)
    (h : FifoFits l) : FifoFits (changeTail f l) := by
  have sum_le : ∀ l : List ReqEntry, ((changeTail f l).map ReqEntry.words).sum ≤ (l.map ReqEntry.words).sum := by
    intro l
    induction l with
    | nil => simp [changeTail]
    | cons a l ih =>
      cases l with
      | nil => simpa [changeTail] using hf a
      | cons b l => simp only [changeTail, List.map_cons, List.sum_cons] at ih ⊢; omega
  have each : ∀ l : List ReqEntry, (∀ e ∈ l, e.words ≤ 16) → ∀ e ∈ changeTail f l, e.words ≤ 16 := by
    intro l
    induction l with
    | nil => intro _ e he; simp [changeTail] at he
    | cons a l ih =>
      intro w
      cases l with
      | nil =>
        intro e he
        simp [changeTail] at he; subst he
        exact Nat.le_trans (hf a) (w a (by simp))
      | cons b l =>
        intro e he
        simp only [changeTail, List.mem_cons] at he
        rcases he with rfl | he
        · exact w _ (by simp)
        · exact ih (fun x hx => w x (List.mem_cons_of_mem _ hx)) e he
  exact ⟨Nat.le_trans (sum_le l) h.1, each l h.2⟩

/-- An argument stored at the tail where the entry and the FIFO have room. -/
theorem fifoFits_addArg (w : Word) (l : List ReqEntry) (h : FifoFits l) (hr : (l.map ReqEntry.words).sum < 64)
    (ht : ∀ e, l.getLast? = some e → e.words < 16) :
    FifoFits (changeTail (fun e => { e with args := e.args ++ [w] }) l) := by
  have sum_le : ∀ l : List ReqEntry,
      ((changeTail (fun e => { e with args := e.args ++ [w] }) l).map ReqEntry.words).sum
        ≤ (l.map ReqEntry.words).sum + 1 := by
    intro l
    induction l with
    | nil => simp [changeTail]
    | cons a l ih =>
      cases l with
      | nil => simp [changeTail, ReqEntry.words]; omega
      | cons b l => simp only [changeTail, List.map_cons, List.sum_cons] at ih ⊢; omega
  have each : ∀ l : List ReqEntry, (∀ e ∈ l, e.words ≤ 16) → (∀ e, l.getLast? = some e → e.words < 16) →
      ∀ e ∈ changeTail (fun e => { e with args := e.args ++ [w] }) l, e.words ≤ 16 := by
    intro l
    induction l with
    | nil => intro _ _ e he; simp [changeTail] at he
    | cons a l ih =>
      intro k kt
      cases l with
      | nil =>
        intro e he
        simp [changeTail] at he; subst he
        have := kt a (by simp)
        simp [ReqEntry.words] at this ⊢; omega
      | cons b l =>
        intro e he
        simp only [changeTail, List.mem_cons] at he
        rcases he with rfl | he
        · exact k _ (by simp)
        · exact ih (fun x hx => k x (List.mem_cons_of_mem _ hx)) (fun x hx => kt x (by simpa using hx)) e he
  exact ⟨Nat.le_trans (sum_le l) (by omega), each l h.2 ht⟩

/-! ### The port -/

/-- What touches the port and the monitors alone, the request FIFO staying within its bounds. -/
theorem laws_portMons (s : State) (q : Port) (m : Vector Monitor 4)
    (h : FifoFits s.port.reqFifo → FifoFits q.reqFifo) (l : q.attentionLevel = s.port.attentionLevel := by rfl) :
    LawsKept s { s with port := q, mons := m } :=
  { LawsKept.refl s with requests := h, level := fun w => by unfold AttentionInRange; simp only [l]; exact w }

theorem laws_selectFall (s : State) : LawsKept s (selectFallEffect s) := by
  unfold selectFallEffect
  split
  · exact LawsKept.refl s
  · exact laws_portMons s _ s.mons id

theorem laws_firstWord (w : Word) (s : State) : LawsKept s (firstWordEffect w s) := by
  unfold firstWordEffect
  split
  · exact LawsKept.refl s
  · split
    · split
      · exact laws_portMons s _ s.mons id
      · split
        · rename_i hr
          exact laws_portMons s _ s.mons (fun k => fifoFits_append _ w k hr)
        · exact laws_portMons s _ _ id
    · exact LawsKept.refl s

theorem laws_argumentWord (w : Word) (s : State) : LawsKept s (argumentWordEffect w s) := by
  unfold argumentWordEffect
  split
  · exact LawsKept.refl s
  · split
    · exact LawsKept.refl s
    · exact laws_portMons s _ s.mons id
    · exact laws_portMons s _ s.mons id
    · exact laws_portMons s _ s.mons id
    · split
      · rename_i ht
        split
        · rename_i hr
          refine laws_portMons s _ s.mons (fun k => fifoFits_addArg w _ k hr (fun e he => ?_))
          unfold tailWords at ht
          rw [he] at ht
          exact ht
        · exact laws_portMons s _ _ (fun k => fifoFits_changeTail_le _ (fun e => by simp [ReqEntry.words]) _ k)
      · exact laws_portMons s _ s.mons (fun k => fifoFits_changeTail_le _ (fun e => by simp [ReqEntry.words]) _ k)

theorem laws_endFrame (f : Frame) (s : State) : LawsKept s (endFrame f s) := by
  unfold endFrame
  split
  · exact { LawsKept.refl s with
      requests := fun _ => ⟨by show 0 ≤ 64; omega, fun e he => absurd he (by show e ∉ []; simp)⟩ }
  · split
    · exact laws_portMons s _ s.mons (fun k => fifoFits_changeTail_le _ (fun e => by simp [ReqEntry.words, endEntry]) _ k)
    · exact laws_portMons s _ s.mons (fun k => fifoFits_changeTail_le _ (fun e => by simp [ReqEntry.words, endEntry]) _ k)
    · exact LawsKept.refl s
    · exact LawsKept.refl s
    · exact LawsKept.refl s

theorem laws_selectRise (bits : List Bool) (s : State) : LawsKept s (selectRiseEffect bits s) := by
  unfold selectRiseEffect
  simp only
  refine LawsKept.trans ?_ (laws_port _ _ rfl id)
  split
  · exact LawsKept.refl s
  · exact laws_endFrame _ s

theorem laws_responseWordShifted (s : State) : LawsKept s (responseWordShiftedEffect s) := by
  unfold responseWordShiftedEffect
  split
  · exact laws_port s _ rfl id
  · exact LawsKept.refl s

/-! ### Entries that fail the first checks -/

theorem laws_takeBroken (s : State) : LawsKept s (takeBroken s) := by
  unfold takeBroken
  split
  · split
    · exact (laws_dropHead s).trans (laws_reply _ _ _ _)
    · exact LawsKept.refl s
  · exact LawsKept.refl s

theorem laws_takeUnknown (s : State) : LawsKept s (takeUnknown s) := by
  unfold takeUnknown
  split
  · split
    · exact (laws_dropHead s).trans (laws_reply _ _ _ _)
    · exact LawsKept.refl s
  · exact LawsKept.refl s

/-! ### The tune start (R83) -/

theorem historyOk_mono (n m : Nat) (h : List Nat) (hn : n ≤ m) (w : historyOk n h) : historyOk m h :=
  ⟨w.1, w.2.1, fun t ht => Nat.le_trans (w.2.2 t ht) hn⟩

/-- R83: a start at a moment the budget allows leaves a history as it may stand. -/
theorem historyOk_pushStart (n m : Nat) (h : List Nat) (w : historyOk n h) (hn : n ≤ m) (hm : budgetMoment h ≤ m) :
    historyOk m (pushStart h m) := by
  obtain ⟨hl, hp, ht⟩ := w
  have last : ∀ a ∈ h, a + 4 ≤ m := by
    intro a ha
    cases e : h.getLast? with
    | none =>
      rw [List.getLast?_eq_none_iff] at e
      subst e; simp at ha
    | some z =>
      have z4 : z + 4 ≤ m := by
        have := Nat.le_trans (Nat.le_max_left _ _) hm
        simpa [e, Config.tuneSpacing] using this
      obtain ⟨l, rfl⟩ := List.getLast?_eq_some_iff.mp e
      rcases List.mem_append.mp ha with k | k
      · have := (List.pairwise_append.mp hp).2.2 a k z (by simp)
        omega
      · simp at k; subst k; exact z4
  have sub : ∀ l : List Nat, l.Sublist h → l.length ≤ 3 → historyOk m (l ++ [m]) := by
    intro l hs h3
    refine ⟨by simp; omega, ?_, ?_⟩
    · rw [List.pairwise_append]
      refine ⟨hp.sublist hs, by simp, fun a ha b hb => ?_⟩
      simp at hb; subst hb
      exact last a (hs.subset ha)
    · intro t k
      rcases List.mem_append.mp k with k | k
      · exact Nat.le_trans (ht t (hs.subset k)) hn
      · simp at k; omega
  unfold pushStart
  split
  · rename_i h4
    exact sub h (List.Sublist.refl _) (by simp [Config.tuneHistory] at h4; omega)
  · exact sub _ (List.drop_sublist 1 h) (by simp; omega)

theorem laws_tuneStart (i : InputIdx) (s : State) : LawsKept s (tuneStartEffect i s) := by
  unfold tuneStartEffect
  simp only
  split
  · exact LawsKept.refl s
  · exact LawsKept.refl s
  · rename_i x _ _ _
    refine LawsKept.trans (t := (reach (budgetMoment (s.inp i).history) s).setInp i
      (startedInput (s.inp i) (max s.now (budgetMoment (s.inp i).history)))) ?_ (Keeps.laws (keeps_setPath _ _ _ id))
    exact { LawsKept.refl s with
      attached := fun w j => by
        by_cases e : i = j
        · subst e; simpa [reach, startedInput] using w i
        · rw [State.inp_setInp, if_neg e]; exact w j
      waiters := fun w j => by
        by_cases e : i = j
        · subst e; simpa [reach, startedInput] using (w i).sublist (List.drop_sublist 1 _)
        · rw [State.inp_setInp, if_neg e]; exact w j
      budgets := fun w j => by
        by_cases e : i = j
        · subst e
          simpa [reach, startedInput] using
            historyOk_pushStart s.now _ _ (w i) (Nat.le_max_left _ _) (Nat.le_max_right _ _)
        · rw [State.inp_setInp, if_neg e]
          exact historyOk_mono s.now _ _ (Nat.le_max_left _ _) (w j) }

end Sys2Proof.Machine
end

