-- ==== Sys2Proof/Laws/Reads.lean ====
section
/-! SUPPORT. What the shared reads answer: whether any record or all records of a table meet a test, and the taking of
an entry as each request's command makes it. -/

namespace Sys2Proof.Machine

/-! ### A table's records, any and all -/

theorem any_toList {α : Type} {n : Nat} (v : Vector α n) (f : α → Bool) :
    v.toList.any f = true ↔ ∃ i : Fin n, f v[i] = true := by
  rw [List.any_eq_true]
  constructor
  · rintro ⟨x, hx, hf⟩
    obtain ⟨i, hi, rfl⟩ := Vector.getElem_of_mem (Vector.mem_toList_iff.mp hx)
    exact ⟨⟨i, hi⟩, hf⟩
  · rintro ⟨i, hf⟩
    exact ⟨_, Vector.mem_toList_iff.mpr (Vector.getElem_mem (xs := v) i.isLt), hf⟩

theorem all_toList {α : Type} {n : Nat} (v : Vector α n) (f : α → Bool) :
    v.toList.all f = true ↔ ∀ i : Fin n, f v[i] = true := by
  rw [List.all_eq_true]
  constructor
  · exact fun h i => h _ (Vector.mem_toList_iff.mpr (Vector.getElem_mem (xs := v) i.isLt))
  · intro h x hx
    obtain ⟨i, hi, rfl⟩ := Vector.getElem_of_mem (Vector.mem_toList_iff.mp hx)
    exact h ⟨i, hi⟩

/-! ### What ranking reads: the carriers and the settings -/

theorem eligible_congr {s t : State} (h : t.carriers = s.carriers) (c : CarrierIdx) : eligible t c = eligible s c := by
  unfold eligible State.car; rw [h]

theorem score_congr {s t : State} (h : t.carriers = s.carriers) (c : CarrierIdx) : score t c = score s c := by
  unfold score State.car; rw [h]

theorem insertRanked_congr {s t : State} (h : t.carriers = s.carriers) (c : CarrierIdx) (l : List CarrierIdx) :
    insertRanked t c l = insertRanked s c l := by
  induction l with
  | nil => rfl
  | cons a l ih =>
    unfold insertRanked ranksBefore
    rw [ih, score_congr h, score_congr h]

theorem rankOrder_congr {s t : State} (h : t.carriers = s.carriers) (l : List CarrierIdx) :
    rankOrder t l = rankOrder s l := by
  unfold rankOrder
  have e : eligible t = eligible s := funext (eligible_congr h)
  have i : insertRanked t = insertRanked s := funext fun c => funext fun l => insertRanked_congr h c l
  rw [e, i]

theorem firstEligible_congr {s t : State} (h : t.carriers = s.carriers) (l : List CarrierIdx) :
    firstEligible t l = firstEligible s l := by
  unfold firstEligible
  rw [rankOrder_congr h, show eligible t = eligible s from funext (eligible_congr h)]

/-! ### Taking -/

theorem takeRequest_of_takeable (c : ReqCode) (run : ReqEntry → State → State) (s : State) (e : ReqEntry)
    (h : takeable s = some e) (hb : e.broken = false) (hc : e.code? = some c) :
    takeRequest c run s = checked c run e (dropHead s) := by
  unfold takeRequest
  rw [h]
  simp only [hb, hc, and_self, if_true]

end Sys2Proof.Machine
end

