-- ==== Sys2Proof/Laws/ClaimReports.lean ====
section
/-! SUPPORT. What a report that goes to every claim does to each of them, and the parts that the change of one claim
leaves. -/

namespace Sys2Proof.Machine

/-- Everything but the claims, the monitors and the arbitration flag is as before: what the change of a claim leaves. -/
structure ClaimsOnly (s t : State) : Prop where
  port : t.port = s.port
  inExec : t.inExec = s.inExec
  svcs : t.svcs = s.svcs
  carriers : t.carriers = s.carriers
  rank : t.rank = s.rank
  inputs : t.inputs = s.inputs
  paths : t.paths = s.paths
  plan : t.plan = s.plan
  arb : { t.arb with due := s.arb.due } = s.arb
  now : t.now = s.now
  pending : t.pending = s.pending

theorem ClaimsOnly.refl (s : State) : ClaimsOnly s s := ⟨rfl, rfl, rfl, rfl, rfl, rfl, rfl, rfl, rfl, rfl, rfl⟩

theorem ClaimsOnly.trans {s t u : State} (a : ClaimsOnly s t) (b : ClaimsOnly t u) : ClaimsOnly s u where
  port := b.port.trans a.port
  inExec := b.inExec.trans a.inExec
  svcs := b.svcs.trans a.svcs
  carriers := b.carriers.trans a.carriers
  rank := b.rank.trans a.rank
  inputs := b.inputs.trans a.inputs
  paths := b.paths.trans a.paths
  plan := b.plan.trans a.plan
  arb := by
    have ha := a.arb
    have hb := b.arb
    rw [← ha, ← hb]
  now := b.now.trans a.now
  pending := b.pending.trans a.pending

theorem ClaimsOnly.svc {s t : State} (h : ClaimsOnly s t) (i : ServiceIdx) : t.svc i = s.svc i := by
  unfold State.svc; rw [h.svcs]

theorem ClaimsOnly.car {s t : State} (h : ClaimsOnly s t) (c : CarrierIdx) : t.car c = s.car c := by
  unfold State.car; rw [h.carriers]

theorem ClaimsOnly.path {s t : State} (h : ClaimsOnly s t) (p : PathIdx) : t.path p = s.path p := by
  unfold State.path; rw [h.paths]

theorem ClaimsOnly.mode {s t : State} (h : ClaimsOnly s t) : t.arb.mode = s.arb.mode := by
  have e : ({ t.arb with due := s.arb.due } : Arbiter).mode = s.arb.mode := by rw [h.arb]
  exact e

theorem ClaimsOnly.eligible {s t : State} (h : ClaimsOnly s t) (c : CarrierIdx) :
    Machine.eligible t c = Machine.eligible s c := by
  unfold Machine.eligible; rw [h.car]

/-- What an examination reads is outside the claims. -/
theorem ClaimsOnly.examined {s t : State} (h : ClaimsOnly s t) (i : ServiceIdx) :
    Machine.examined t i = Machine.examined s i := by
  unfold Machine.examined joined
  simp only [h.mode, h.svc, h.eligible, h.car, h.path]

theorem claimsOnly_countEvent (e : Event) (i : Option ServiceIdx) (c : Option CarrierIdx) (s : State) :
    ClaimsOnly s (countEvent e i c s) := ⟨rfl, rfl, rfl, rfl, rfl, rfl, rfl, rfl, rfl, rfl, rfl⟩

theorem claimsOnly_raiseArb (s : State) : ClaimsOnly s (raiseArb s) :=
  ⟨rfl, rfl, rfl, rfl, rfl, rfl, rfl, rfl, rfl, rfl, rfl⟩

theorem claimsOnly_setClaim (ch : ChannelIdx) (c : ClaimRec) (s : State) : ClaimsOnly s (setClaim ch c s) := by
  unfold setClaim
  split
  · exact ClaimsOnly.refl s
  · exact ⟨rfl, rfl, rfl, rfl, rfl, rfl, rfl, rfl, rfl, rfl, rfl⟩

theorem claimsOnly_changeClaim (ch : ChannelIdx) (c : ClaimRec) (s : State) : ClaimsOnly s (changeClaim ch c s) := by
  unfold changeClaim
  simp only
  split
  · exact (claimsOnly_setClaim ch c s).trans (claimsOnly_raiseArb _)
  · exact claimsOnly_setClaim ch c s

theorem claimsOnly_examine (ch : ChannelIdx) (i : ServiceIdx) (s : State) : ClaimsOnly s (examine ch i s) :=
  claimsOnly_changeClaim ch _ s

theorem claimsOnly_becomeWaiting (ch : ChannelIdx) (i : ServiceIdx) (s : State) :
    ClaimsOnly s (becomeWaiting ch i s) := (claimsOnly_countEvent _ _ _ s).trans (claimsOnly_examine ch i _)

@[simp] theorem claim_raiseArb (s : State) (d : ChannelIdx) : (raiseArb s).claim d = s.claim d := rfl

@[simp] theorem claim_countEvent (e : Event) (i : Option ServiceIdx) (c : Option CarrierIdx) (s : State)
    (d : ChannelIdx) : (countEvent e i c s).claim d = s.claim d := rfl

@[simp] theorem claim_changeClaim (s : State) (ch d : ChannelIdx) (c : ClaimRec) :
    (changeClaim ch c s).claim d = if ch = d then c else s.claim d := by
  unfold changeClaim
  simp only
  split
  · rw [claim_raiseArb, claim_setClaim]
  · rw [claim_setClaim]

@[simp] theorem claim_examine (s : State) (ch d : ChannelIdx) (i : ServiceIdx) :
    (examine ch i s).claim d = if ch = d then examined s i else s.claim d := claim_changeClaim s ch d _

/-- A report that goes to every claim changes each once, in a state that earlier claims alone have changed. -/
theorem forChannels_claim (R : State → State → Prop) (refl : ∀ s, R s s) (trans : ∀ s t u, R s t → R t u → R s u)
    (f : ChannelIdx → State → State) (hR : ∀ ch s, R s (f ch s))
    (hc : ∀ ch d s, d ≠ ch → (f ch s).claim d = s.claim d) (s : State) :
    R s (forChannels f s)
      ∧ ∀ ch, ∃ t, R s t ∧ t.claim ch = s.claim ch ∧ (forChannels f s).claim ch = (f ch t).claim ch := by
  have run : ∀ (l : List ChannelIdx) (s : State), R s (l.foldl (fun s ch => f ch s) s)
      ∧ ∀ ch, ch ∉ l → (l.foldl (fun s ch => f ch s) s).claim ch = s.claim ch := by
    intro l
    induction l with
    | nil => exact fun s => ⟨refl s, fun _ _ => rfl⟩
    | cons a l ih =>
      intro s
      obtain ⟨i1, i2⟩ := ih (f a s)
      refine ⟨trans _ _ _ (hR a s) i1, fun ch h => ?_⟩
      rw [List.mem_cons, not_or] at h
      exact (i2 ch h.2).trans (hc a ch s h.1)
  refine ⟨(run _ s).1, fun ch => ?_⟩
  obtain ⟨as, bs, e⟩ := List.append_of_mem (List.mem_finRange ch)
  have nd : (List.finRange 32).Nodup := List.nodup_finRange 32
  rw [e, List.nodup_append] at nd
  obtain ⟨_, n2, n3⟩ := nd
  refine ⟨as.foldl (fun s ch => f ch s) s, (run as s).1, (run as s).2 ch (fun h => n3 ch h ch (by simp) rfl), ?_⟩
  unfold forChannels
  rw [e, List.foldl_append, List.foldl_cons]
  exact (run bs _).2 ch (List.nodup_cons.mp n2).1

/-- `forChannels_claim` for reports that change nothing but claims. -/
theorem forChannels_claimsOnly (f : ChannelIdx → State → State) (hR : ∀ ch s, ClaimsOnly s (f ch s))
    (hc : ∀ ch d s, d ≠ ch → (f ch s).claim d = s.claim d) (s : State) :
    ClaimsOnly s (forChannels f s)
      ∧ ∀ ch, ∃ t, ClaimsOnly s t ∧ t.claim ch = s.claim ch ∧ (forChannels f s).claim ch = (f ch t).claim ch :=
  forChannels_claim ClaimsOnly ClaimsOnly.refl (fun _ _ _ => ClaimsOnly.trans) f hR hc s

end Sys2Proof.Machine
end

