-- ==== Sys2Proof/Laws/PathEnds.lean ====
section
/-! SUPPORT. What a path that leaves its carrier becomes, and what its leaving leaves of the other parts. -/

namespace Sys2Proof.Machine

/-- What the end of one path's work leaves: the services, the rankings, the claims, the other paths, and all of the
Path Arbiter but its flag. -/
structure PathEnds (p : PathIdx) (s t : State) : Prop where
  steady : Steady s t
  claims : t.claims = s.claims
  paths : ∀ q, q ≠ p → t.path q = s.path q
  now : t.now = s.now
  arb : { t.arb with due := s.arb.due } = s.arb
  feed : ∀ i, (t.inp i).feed = (s.inp i).feed ∧ (t.inp i).feedState = (s.inp i).feedState
    ∧ (t.inp i).history = (s.inp i).history

theorem PathEnds.refl (p : PathIdx) (s : State) : PathEnds p s s :=
  ⟨Steady.refl s, rfl, fun _ _ => rfl, rfl, rfl, fun _ => ⟨rfl, rfl, rfl⟩⟩

theorem PathEnds.trans {p : PathIdx} {s t u : State} (a : PathEnds p s t) (b : PathEnds p t u) : PathEnds p s u where
  steady := a.steady.trans b.steady
  claims := b.claims.trans a.claims
  paths q h := (b.paths q h).trans (a.paths q h)
  now := b.now.trans a.now
  arb := by
    have ha := a.arb
    have hb := b.arb
    rw [← ha, ← hb]
  feed i := ⟨(b.feed i).1.trans (a.feed i).1, (b.feed i).2.1.trans (a.feed i).2.1, (b.feed i).2.2.trans (a.feed i).2.2⟩

/-- The record of a path that leaves its carrier (R52, R103, R104). -/
def leftPath (now : Nat) (r : PathRec) : PathRec :=
  let gone : PathRec :=
    { r.quiet with state := .recovery, dwellEnd := none, recoveryEnd := some (now + 3), demod := none }
  match r.lockTime with
  | none => gone
  | some t =>
    if now < t + 250 then
      { r.quiet with state := .dwell, dwellEnd := some (t + 250), demod := if r.state = .tuning then none else r.demod }
    else gone

theorem leftPath_state (now : Nat) (r : PathRec) :
    (leftPath now r).state = .dwell ∨ (leftPath now r).state = .recovery := by
  unfold leftPath
  simp only
  split
  · exact Or.inr rfl
  · split
    · exact Or.inl rfl
    · exact Or.inr rfl

/-- What leaving clears and keeps, whichever state it leads to. -/
theorem leftPath_fields (now : Nat) (r : PathRec) :
    (leftPath now r).use = r.use ∧ (leftPath now r).carrier = r.carrier ∧ (leftPath now r).lockTime = r.lockTime
      ∧ (leftPath now r).lockHeld = r.lockHeld ∧ (leftPath now r).cutPending = false
      ∧ (leftPath now r).accum = .empty ∧ (leftPath now r).collection = none ∧ (leftPath now r).listening = false
      ∧ (leftPath now r).forgotten = r.forgotten ∧ (r.state = .tuning → (leftPath now r).demod = none) := by
  unfold leftPath PathRec.quiet
  simp only
  split
  · simp
  · split
    · simp only [true_and]
      intro h; rw [if_pos h]
    · simp

theorem inp_mapInputs (s : State) (f : InputRec → InputRec) (i : InputIdx) :
    ({ s with inputs := vmap f s.inputs } : State).inp i = f (s.inp i) := by
  simp [State.inp]

theorem pathEnds_leaveWait (p : PathIdx) (s : State) : PathEnds p s (leaveWait p s) :=
  ⟨steady_of_parts rfl rfl rfl, rfl, fun _ _ => rfl, rfl, rfl, fun i => by
    unfold leaveWait; rw [inp_mapInputs]; exact ⟨rfl, rfl, rfl⟩⟩

theorem pathEnds_setPath (p : PathIdx) (r : PathRec) (s : State) : PathEnds p s (s.setPath p r) :=
  ⟨steady_setPath s p r, rfl, fun q h => by rw [State.path_setPath, if_neg (Ne.symm h)], rfl, rfl,
    fun _ => ⟨rfl, rfl, rfl⟩⟩

theorem pathEnds_stopTuning (p : PathIdx) (s : State) : PathEnds p s (stopTuning p s) := by
  unfold stopTuning
  split
  · exact pathEnds_leaveWait p s
  · exact pathEnds_setPath p _ s
  all_goals exact PathEnds.refl p s

theorem pathEnds_detach (p q : PathIdx) (s : State) : PathEnds p s (detach q s) :=
  ⟨steady_of_parts rfl rfl rfl, rfl, fun _ _ => rfl, rfl, rfl, fun i => by
    have e : (detach q s).inp i = { s.inp i with attached := without q (s.inp i).attached } :=
      inp_mapInputs s (fun r => { r with attached := without q r.attached }) i
    rw [e]; exact ⟨rfl, rfl, rfl⟩⟩

theorem pathEnds_enterRecovery (p : PathIdx) (s : State) : PathEnds p s (enterRecovery p s) :=
  (pathEnds_setPath p _ s).trans (pathEnds_detach p p _)

theorem pathEnds_leaveCarrier (p : PathIdx) (s : State) : PathEnds p s (leaveCarrier p s) := by
  refine (pathEnds_stopTuning p s).trans ?_
  unfold leaveCarrier
  simp only
  split
  · exact pathEnds_enterRecovery p _
  · split
    · exact pathEnds_setPath p _ _
    · exact pathEnds_enterRecovery p _

theorem path_stopTuning (p : PathIdx) (s : State) :
    (stopTuning p s).path p = if (s.path p).state = .tuning then { s.path p with lockTimer := none, demod := none }
      else s.path p := by
  unfold stopTuning
  split
  · rename_i h; rw [h]; rfl
  · rename_i h; rw [h]; simp
  all_goals (rename_i h; rw [h]; rfl)

/-- R103: the path that has left its carrier. -/
theorem path_leaveCarrier (p : PathIdx) (s : State) : (leaveCarrier p s).path p = leftPath s.now (s.path p) := by
  have hp := path_stopTuning p s
  have hn := (pathEnds_stopTuning p s).now
  unfold leaveCarrier leftPath
  simp only
  generalize stopTuning p s = t at hp hn
  have lt : (t.path p).lockTime = (s.path p).lockTime := by rw [hp]; split <;> rfl
  have gone : (enterRecovery p t).path p = { (s.path p).quiet with
      state := .recovery, dwellEnd := none, recoveryEnd := some (s.now + 3), demod := none } := by
    have e : (enterRecovery p t).path p = { (t.path p).quiet with
        state := .recovery, dwellEnd := none, recoveryEnd := some (t.now + 3), demod := none } :=
      (State.path_setPath t p p _).trans (if_pos rfl)
    rw [e, hn, hp]
    split <;> rfl
  rw [lt, hn]
  cases (s.path p).lockTime with
  | none => exact gone
  | some x =>
    simp only [Config.dwell]
    by_cases h : s.now < x + 250
    · rw [if_pos h, if_pos h]
      unfold enterDwell
      rw [State.path_setPath, if_pos rfl, hp]
      split <;> rfl
    · rw [if_neg h, if_neg h]
      exact gone

theorem carriers_leaveCarrier (p : PathIdx) (s : State) : (leaveCarrier p s).carriers = s.carriers := by
  have h : (stopTuning p s).carriers = s.carriers := by unfold stopTuning; split <;> rfl
  unfold leaveCarrier
  simp only
  generalize stopTuning p s = t at h
  split
  · exact h
  · split
    · exact h
    · exact h

/-! ### The inputs that the paths leave -/

/-- The record of an input once paths have left their carriers: of two states, those that have come to RECOVERY in the
second are detached (R79, R104), and those that have left AWAIT-TUNE are off the wait list (R87). -/
def inputFollowing (s t : State) (r : InputRec) : InputRec :=
  { r with
    attached := r.attached.filter (fun q => decide ((s.path q).state = .recovery ∨ (t.path q).state ≠ .recovery)),
    waitList := r.waitList.filter (fun w =>
      decide ((s.path w.path).state ≠ .awaitTune ∨ (t.path w.path).state = .awaitTune)) }

/-- The inputs follow the paths that leave their carriers, no path leaves RECOVERY, and none comes to AWAIT-TUNE. -/
structure Follows (s t : State) : Prop where
  inputs : ∀ i, t.inp i = inputFollowing s t (s.inp i)
  gone : ∀ q, (s.path q).state = .recovery → (t.path q).state = .recovery
  fresh : ∀ q, (t.path q).state = .awaitTune → (s.path q).state = .awaitTune

/-- A change that leaves the inputs, and moves no path into or out of AWAIT-TUNE and RECOVERY. -/
theorem follows_of_states {s t : State} (h : t.inputs = s.inputs)
    (a : ∀ q, (t.path q).state = .recovery ↔ (s.path q).state = .recovery)
    (b : ∀ q, (t.path q).state = .awaitTune ↔ (s.path q).state = .awaitTune) : Follows s t where
  inputs i := by
    have ha : (s.inp i).attached.filter (fun q => decide ((s.path q).state = .recovery ∨ (t.path q).state ≠ .recovery))
        = (s.inp i).attached := List.filter_eq_self.mpr (fun q _ => decide_eq_true (by have := a q; tauto))
    have hw : (s.inp i).waitList.filter (fun w => decide ((s.path w.path).state ≠ .awaitTune
        ∨ (t.path w.path).state = .awaitTune)) = (s.inp i).waitList :=
      List.filter_eq_self.mpr (fun w _ => decide_eq_true (by have := b w.path; tauto))
    unfold inputFollowing
    rw [ha, hw]
    unfold State.inp
    rw [h]
  gone q := (a q).mpr
  fresh q := (b q).mp

theorem follows_of_paths {s t : State} (h : t.inputs = s.inputs) (k : t.paths = s.paths) : Follows s t := by
  have e : ∀ q, t.path q = s.path q := fun q => by unfold State.path; rw [k]
  exact follows_of_states h (fun q => by rw [e]) (fun q => by rw [e])

theorem Follows.refl (s : State) : Follows s s := follows_of_paths rfl rfl

theorem Follows.trans {s t u : State} (a : Follows s t) (b : Follows t u) : Follows s u where
  inputs i := by
    rw [b.inputs, a.inputs]
    unfold inputFollowing
    simp only [List.filter_filter]
    congr 1
    · refine List.filter_congr fun q _ => ?_
      have := a.gone q
      have := b.gone q
      rw [← Bool.decide_and]
      refine decide_eq_decide.mpr ?_
      tauto
    · refine List.filter_congr fun w _ => ?_
      have := a.fresh w.path
      have := b.fresh w.path
      rw [← Bool.decide_and]
      refine decide_eq_decide.mpr ?_
      tauto
  gone q h := b.gone q (a.gone q h)
  fresh q h := a.fresh q (b.fresh q h)

theorem Follows.foldl {α : Type} (f : State → α → State) (h : ∀ s a, Follows s (f s a)) (l : List α) (s : State) :
    Follows s (l.foldl f s) := by
  induction l generalizing s with
  | nil => exact Follows.refl s
  | cons a l ih => exact (h s a).trans (ih _)

/-- A change of one path that leaves its state. -/
theorem follows_setPath (p : PathIdx) (r : PathRec) (s : State) (h : r.state = (s.path p).state) :
    Follows s (s.setPath p r) := by
  have e : ∀ q, ((s.setPath p r).path q).state = (s.path q).state := fun q => by
    rw [State.path_setPath]
    split
    · rename_i k; rw [← k]; exact h
    · rfl
  exact follows_of_states rfl (fun q => by rw [e]) (fun q => by rw [e])

theorem inp_stopTuning (p : PathIdx) (s : State) (i : InputIdx) :
    (stopTuning p s).inp i = { s.inp i with
      waitList := if (s.path p).state = .awaitTune then (s.inp i).waitList.filter (fun x => decide (x.path ≠ p))
        else (s.inp i).waitList } := by
  unfold stopTuning
  split
  · rename_i h
    rw [if_pos h]
    exact inp_mapInputs s (fun r => { r with waitList := r.waitList.filter (fun x => decide (x.path ≠ p)) }) i
  all_goals
    rename_i h
    rw [if_neg (by rw [h]; simp)]
    try rfl

theorem inp_enterRecovery (p : PathIdx) (s : State) (i : InputIdx) :
    (enterRecovery p s).inp i = { s.inp i with attached := without p (s.inp i).attached } :=
  inp_mapInputs (s.setPath p _) (fun r => { r with attached := without p r.attached }) i

/-- R103: a path that leaves its carrier enters DWELL or RECOVERY. -/
theorem leaveCarrier_cases (p : PathIdx) (s : State) :
    (∃ a, leaveCarrier p s = enterDwell p a (stopTuning p s)) ∨ leaveCarrier p s = enterRecovery p (stopTuning p s) := by
  unfold leaveCarrier
  simp only
  split
  · exact Or.inr rfl
  · split
    · exact Or.inl ⟨_, rfl⟩
    · exact Or.inr rfl

/-- R79, R87, R103, R104: the record of an input when a path leaves its carrier. -/
theorem inp_leaveCarrier (p : PathIdx) (s : State) (i : InputIdx) :
    (leaveCarrier p s).inp i = { s.inp i with
      attached := if ((leaveCarrier p s).path p).state = .recovery then without p (s.inp i).attached
        else (s.inp i).attached,
      waitList := if (s.path p).state = .awaitTune then (s.inp i).waitList.filter (fun x => decide (x.path ≠ p))
        else (s.inp i).waitList } := by
  rcases leaveCarrier_cases p s with ⟨a, e⟩ | e
  · have k : ((enterDwell p a (stopTuning p s)).path p).state ≠ .recovery := by
      unfold enterDwell
      rw [State.path_setPath, if_pos rfl]
      simp
    rw [e, if_neg k]
    exact inp_stopTuning p s i
  · have k : ((enterRecovery p (stopTuning p s)).path p).state = .recovery :=
      congrArg PathRec.state ((State.path_setPath _ p p _).trans (if_pos rfl))
    rw [e, if_pos k, inp_enterRecovery, inp_stopTuning]

/-- R79, R87, R103, R104: the inputs follow a path that leaves its carrier. -/
theorem follows_leaveCarrier (p : PathIdx) (s : State) (h : (s.path p).state ≠ .recovery) :
    Follows s (leaveCarrier p s) := by
  have others := (pathEnds_leaveCarrier p s).paths
  have ended : ((leaveCarrier p s).path p).state = .dwell ∨ ((leaveCarrier p s).path p).state = .recovery := by
    rw [path_leaveCarrier]
    exact leftPath_state _ _
  have inp := inp_leaveCarrier p s
  generalize leaveCarrier p s = t at others ended inp
  have fresh : (t.path p).state ≠ .awaitTune := by rcases ended with z | z <;> rw [z] <;> simp
  refine ⟨fun i => ?_, fun q k => ?_, fun q k => ?_⟩
  · have a : (s.inp i).attached.filter (fun q => decide ((s.path q).state = .recovery ∨ (t.path q).state ≠ .recovery))
        = if (t.path p).state = .recovery then without p (s.inp i).attached else (s.inp i).attached := by
      split
      · refine List.filter_congr fun q _ => decide_eq_decide.mpr ?_
        by_cases e : q = p
        · subst e; tauto
        · rw [others q e]; tauto
      · refine List.filter_eq_self.mpr fun q _ => decide_eq_true ?_
        by_cases e : q = p
        · subst e; tauto
        · rw [others q e]; tauto
    have b : (s.inp i).waitList.filter (fun w => decide ((s.path w.path).state ≠ .awaitTune
          ∨ (t.path w.path).state = .awaitTune))
        = if (s.path p).state = .awaitTune then (s.inp i).waitList.filter (fun x => decide (x.path ≠ p))
          else (s.inp i).waitList := by
      split
      · refine List.filter_congr fun w _ => decide_eq_decide.mpr ?_
        by_cases e : w.path = p
        · rw [e]; tauto
        · rw [others _ e]; tauto
      · refine List.filter_eq_self.mpr fun w _ => decide_eq_true ?_
        by_cases e : w.path = p
        · rw [e]; tauto
        · rw [others _ e]; tauto
    rw [inp]
    unfold inputFollowing
    rw [a, b]
  · by_cases e : q = p
    · exact absurd (e ▸ k) h
    · rw [others q e]; exact k
  · by_cases e : q = p
    · exact absurd (e ▸ k) fresh
    · rw [others q e] at k; exact k

/-! ### The ends of scan visits -/

theorem pathEnds_of_plan (p : PathIdx) {s t : State} (a : Steady s t) (b : t.claims = s.claims)
    (c : t.paths = s.paths) (d : t.now = s.now) (e : { t.arb with due := s.arb.due } = s.arb)
    (f : t.inputs = s.inputs) : PathEnds p s t :=
  ⟨a, b, fun q _ => by unfold State.path; rw [c], d, e, fun i => by unfold State.inp; rw [f]; exact ⟨rfl, rfl, rfl⟩⟩

/-- The Scan Planner's report of an ended visit reaches the visit queue, SETTLE and the monitors alone. -/
structure PlannerOnly (s t : State) : Prop where
  svcs : t.svcs = s.svcs
  carriers : t.carriers = s.carriers
  rank : t.rank = s.rank
  inputs : t.inputs = s.inputs
  paths : t.paths = s.paths
  claims : t.claims = s.claims
  arb : { t.arb with due := s.arb.due } = s.arb
  now : t.now = s.now

theorem PlannerOnly.refl (s : State) : PlannerOnly s s := ⟨rfl, rfl, rfl, rfl, rfl, rfl, rfl, rfl⟩

theorem PlannerOnly.trans {s t u : State} (a : PlannerOnly s t) (b : PlannerOnly t u) : PlannerOnly s u where
  svcs := b.svcs.trans a.svcs
  carriers := b.carriers.trans a.carriers
  rank := b.rank.trans a.rank
  inputs := b.inputs.trans a.inputs
  paths := b.paths.trans a.paths
  claims := b.claims.trans a.claims
  arb := by
    have ha := a.arb
    have hb := b.arb
    rw [← ha, ← hb]
  now := b.now.trans a.now

theorem PlannerOnly.pathEnds {s t : State} (h : PlannerOnly s t) (p : PathIdx) : PathEnds p s t :=
  pathEnds_of_plan p (steady_of_parts h.svcs h.rank h.carriers) h.claims h.paths h.now h.arb h.inputs

theorem PlannerOnly.path {s t : State} (h : PlannerOnly s t) (p : PathIdx) : t.path p = s.path p := by
  unfold State.path; rw [h.paths]

theorem plannerOnly_finish (c : Completion) (l : List Word) (s : State) : PlannerOnly s (finish c l s) := by
  unfold finish
  split
  · exact PlannerOnly.refl s
  · simp only
    split <;> exact ⟨rfl, rfl, rfl, rfl, rfl, rfl, rfl, rfl⟩

theorem plannerOnly_visitEnded (c : CarrierIdx) (s : State) : PlannerOnly s (visitEnded c s) := by
  unfold visitEnded
  split
  · split
    · split
      · exact plannerOnly_finish _ _ s
      · exact ⟨rfl, rfl, rfl, rfl, rfl, rfl, rfl, rfl⟩
    · exact PlannerOnly.refl s
  · exact PlannerOnly.refl s

theorem plannerOnly_putBack (c : CarrierIdx) (s : State) : PlannerOnly s (putBack c s) := by
  unfold putBack
  simp only
  split
  · exact ⟨rfl, rfl, rfl, rfl, rfl, rfl, rfl, rfl⟩
  · split <;> exact ⟨rfl, rfl, rfl, rfl, rfl, rfl, rfl, rfl⟩

theorem plannerOnly_visitEndReport (u : Use) (c : CarrierIdx) (k : VisitEnd) (s : State) :
    PlannerOnly s (visitEndReport u c k s) := by
  have a : PlannerOnly s (endUnderQueue c s) := ⟨rfl, rfl, rfl, rfl, rfl, rfl, rfl, rfl⟩
  unfold visitEndReport
  split
  · split
    all_goals first
      | exact a.trans (plannerOnly_visitEnded c _)
      | exact plannerOnly_putBack c s
  all_goals exact PlannerOnly.refl s

theorem plannerOnly_queueCarried (c : CarrierIdx) (s : State) : PlannerOnly s (queueCarried c s) := by
  unfold queueCarried
  split
  · exact (⟨rfl, rfl, rfl, rfl, rfl, rfl, rfl, rfl⟩ : PlannerOnly s (dropEntry c s)).trans (plannerOnly_visitEnded c _)
  · exact PlannerOnly.refl s

theorem plannerOnly_offer (s : State) (c : CarrierIdx) : PlannerOnly s (offer s c) := by
  unfold offer
  split
  · exact PlannerOnly.refl s
  · split
    · exact PlannerOnly.refl s
    · split <;> exact ⟨rfl, rfl, rfl, rfl, rfl, rfl, rfl, rfl⟩

theorem pathEnds_endScanVisit (p : PathIdx) (k : VisitEnd) (s : State) : PathEnds p s (endScanVisit p k s) := by
  unfold endScanVisit
  split
  · exact ((plannerOnly_visitEndReport _ _ _ s).pathEnds p).trans (pathEnds_leaveCarrier p _)
  · exact pathEnds_leaveCarrier p s

theorem path_endScanVisit (p : PathIdx) (k : VisitEnd) (s : State) :
    (endScanVisit p k s).path p = leftPath s.now (s.path p) := by
  unfold endScanVisit
  split
  · rename_i u c _ _
    have h := plannerOnly_visitEndReport u c k s
    rw [path_leaveCarrier, h.path, h.now]
  · exact path_leaveCarrier p s

theorem PlannerOnly.follows {s t : State} (h : PlannerOnly s t) : Follows s t := follows_of_paths h.inputs h.paths

/-- R79, R87, R95: the inputs when a path's scan visit ends. -/
theorem follows_endScanVisit (p : PathIdx) (k : VisitEnd) (s : State) (h : (s.path p).state ≠ .recovery) :
    Follows s (endScanVisit p k s) := by
  unfold endScanVisit
  split
  · rename_i u c _ _
    have e := plannerOnly_visitEndReport u c k s
    exact e.follows.trans (follows_leaveCarrier p _ (by rw [e.path]; exact h))
  · exact follows_leaveCarrier p s h

/-- R94: the inputs when a visit's work ends. -/
theorem follows_endWork (p : PathIdx) (s : State) (h : (s.path p).state ≠ .recovery) : Follows s (endWork p s) := by
  unfold endWork
  simp only
  split
  · exact follows_endScanVisit p _ s h
  · exact Follows.refl s

theorem not_recovery_of_working {x : PathState} (h : x.working = true) : x ≠ .recovery := by
  rintro rfl
  simp [PathState.working] at h

/-- R79, R87, R102, R111: the inputs when STANDBY abandons a scan visit. -/
theorem follows_abandonForStandby (p : PathIdx) (s : State) : Follows s (abandonForStandby p s) := by
  unfold abandonForStandby
  simp only
  split
  · rename_i h
    rw [Bool.and_eq_true] at h
    exact follows_endScanVisit p _ s (not_recovery_of_working h.2)
  · exact Follows.refl s

/-- R79, R87, R99, R102: the inputs when a carry path is released or abandoned. -/
theorem follows_releaseCarry (p : PathIdx) (s : State) : Follows s (releaseCarry p s) := by
  unfold releaseCarry
  simp only
  split
  · rename_i h
    rw [Bool.and_eq_true] at h
    have n := not_recovery_of_working h.2
    split
    · exact (follows_of_paths rfl rfl : Follows s (clearCarrying _ s)).trans (follows_leaveCarrier p _ n)
    · exact follows_leaveCarrier p s n
  · exact Follows.refl s

/-- R79, R87, R100: the inputs when a cut is taken. -/
theorem follows_cutPath (p : PathIdx) (s : State) : Follows s (cutPath p s) := by
  unfold cutPath
  simp only
  split
  · split
    · rename_i k; exact follows_endScanVisit p _ s (by rw [k]; simp)
    · rename_i k; exact follows_endScanVisit p _ s (by rw [k]; simp)
    · rename_i k
      have n : (s.path p).state ≠ .recovery := by rw [k]; simp
      split
      · exact follows_endScanVisit p _ s n
      · split
        · exact follows_setPath p _ s rfl
        · exact follows_endScanVisit p _ s n
    all_goals exact Follows.refl s
  · exact Follows.refl s

/-- R43, R79, R87, R102: the inputs when a path's carrier is forgotten. -/
theorem follows_forgetOnPath (c : CarrierIdx) (s : State) (p : PathIdx) : Follows s (forgetOnPath c s p) := by
  unfold forgetOnPath
  simp only
  split
  · have a := follows_setPath p { s.path p with forgotten := true } s rfl
    split
    · rename_i h
      rw [Bool.and_eq_true] at h
      refine a.trans (follows_endScanVisit p _ _ ?_)
      rw [State.path_setPath, if_pos rfl]
      exact not_recovery_of_working h.2
    · exact a
  · exact Follows.refl s

theorem pathEnds_abandonForStandby (p : PathIdx) (s : State) : PathEnds p s (abandonForStandby p s) := by
  unfold abandonForStandby
  simp only
  split
  · exact pathEnds_endScanVisit p _ s
  · exact PathEnds.refl p s

theorem pathEnds_clearCarrying (p : PathIdx) (c : CarrierIdx) (s : State) : PathEnds p s (clearCarrying c s) :=
  ⟨steady_clearCarrying c s, rfl, fun _ _ => rfl, rfl, rfl, fun _ => ⟨rfl, rfl, rfl⟩⟩

theorem pathEnds_releaseCarry (p : PathIdx) (s : State) : PathEnds p s (releaseCarry p s) := by
  unfold releaseCarry
  simp only
  split
  · split
    · exact (pathEnds_clearCarrying p _ s).trans (pathEnds_leaveCarrier p _)
    · exact pathEnds_leaveCarrier p s
  · exact PathEnds.refl p s

theorem path_releaseCarry (p : PathIdx) (s : State) :
    (releaseCarry p s).path p =
      if (s.path p).use = some .carry ∧ (s.path p).state.working = true then leftPath s.now (s.path p)
      else s.path p := by
  unfold releaseCarry
  simp only [Bool.and_eq_true, decide_eq_true_eq]
  split
  · split
    · rw [path_leaveCarrier]; rfl
    · exact path_leaveCarrier p s
  · rfl

theorem path_abandonForStandby (p : PathIdx) (s : State) :
    (abandonForStandby p s).path p =
      if (s.path p).scan = true ∧ (s.path p).state.working = true then leftPath s.now (s.path p) else s.path p := by
  unfold abandonForStandby
  simp only [Bool.and_eq_true]
  split
  · exact path_endScanVisit p _ s
  · rfl

/-- An operation on each path in turn changes each once, in a state that the others alone have changed. -/
theorem foldPaths (f : State → PathIdx → State) (h : ∀ s p, PathEnds p s (f s p)) (s : State) (p : PathIdx) :
    ∃ t, t.path p = s.path p ∧ t.now = s.now ∧ ((List.finRange 8).foldl f s).path p = (f t p).path p := by
  have run : ∀ (l : List PathIdx) (s : State), (l.foldl f s).now = s.now
      ∧ ∀ q, q ∉ l → (l.foldl f s).path q = s.path q := by
    intro l
    induction l with
    | nil => exact fun s => ⟨rfl, fun _ _ => rfl⟩
    | cons a l ih =>
      intro s
      obtain ⟨i1, i2⟩ := ih (f s a)
      refine ⟨i1.trans (h s a).now, fun q k => ?_⟩
      rw [List.mem_cons, not_or] at k
      exact (i2 q k.2).trans ((h s a).paths q k.1)
  obtain ⟨as, bs, e⟩ := List.append_of_mem (List.mem_finRange p)
  have nd : (List.finRange 8).Nodup := List.nodup_finRange 8
  rw [e, List.nodup_append] at nd
  obtain ⟨_, n2, n3⟩ := nd
  refine ⟨as.foldl f s, (run as s).2 p (fun k => n3 p k p (by simp) rfl), (run as s).1, ?_⟩
  rw [e, List.foldl_append, List.foldl_cons]
  exact (run bs _).2 p (List.nodup_cons.mp n2).1

end Sys2Proof.Machine
end

