-- ==== Sys2Proof/Laws/Merges.lean ====
section
/-! SUPPORT. What a merge leaves of the paths and the carriers, and what the entries and departures of a merge do to the
records. -/

namespace Sys2Proof.Machine

/-! ### The paths: only carry paths no longer needed are let go -/

/-- Every path is as before, but that a carry path at work may have left its carrier; and the inputs have followed. -/
structure Releases (s t : State) : Prop where
  now : t.now = s.now
  follows : Follows s t
  path : ∀ p, t.path p = s.path p
    ∨ ((s.path p).use = some .carry ∧ (s.path p).state.working = true ∧ t.path p = leftPath s.now (s.path p))

theorem releases_of_paths {s t : State} (a : t.now = s.now) (b : t.paths = s.paths) (c : t.inputs = s.inputs) :
    Releases s t :=
  ⟨a, follows_of_paths c b, fun p => Or.inl (by unfold State.path; rw [b])⟩

theorem Releases.refl (s : State) : Releases s s := releases_of_paths rfl rfl rfl

theorem leftPath_idle (now : Nat) (r : PathRec) : (leftPath now r).state.working = false := by
  rcases leftPath_state now r with h | h <;> rw [h] <;> rfl

theorem Releases.trans {s t u : State} (a : Releases s t) (b : Releases t u) : Releases s u where
  now := b.now.trans a.now
  follows := a.follows.trans b.follows
  path p := by
    rcases a.path p with h | ⟨h1, h2, h3⟩
    · rcases b.path p with k | k
      · exact Or.inl (k.trans h)
      · rw [h, a.now] at k; exact Or.inr k
    · rcases b.path p with k | ⟨_, k2, _⟩
      · exact Or.inr ⟨h1, h2, k.trans h3⟩
      · rw [h3, leftPath_idle] at k2; cases k2

theorem Releases.foldl {α : Type} (f : State → α → State) (h : ∀ s a, Releases s (f s a)) (l : List α) (s : State) :
    Releases s (l.foldl f s) := by
  induction l generalizing s with
  | nil => exact Releases.refl s
  | cons a l ih => exact (h s a).trans (ih _)

theorem ClaimsOnly.releases {s t : State} (h : ClaimsOnly s t) : Releases s t :=
  releases_of_paths h.now h.paths h.inputs

theorem releases_releaseUnneeded? (o : Option CarrierIdx) (s : State) : Releases s (releaseUnneeded? o s) := by
  unfold releaseUnneeded?
  split
  · unfold releaseUnneeded
    split
    · rename_i p _
      split
      · exact Releases.refl s
      · refine ⟨(pathEnds_releaseCarry p s).now, follows_releaseCarry p s, fun q => ?_⟩
        by_cases h : q = p
        · subst h
          rw [path_releaseCarry]
          by_cases w : (s.path q).use = some .carry ∧ (s.path q).state.working = true
          · rw [if_pos w]; exact Or.inr ⟨w.1, w.2, rfl⟩
          · rw [if_neg w]; exact Or.inl rfl
        · exact Or.inl ((pathEnds_releaseCarry p s).paths q h)
    · exact Releases.refl s
  · exact Releases.refl s

theorem claimsOnly_moveTo (ch : ChannelIdx) (i : ServiceIdx) (n : CarrierIdx) (s : State) :
    ClaimsOnly s (moveTo ch i n s) := by
  unfold moveTo
  split
  · exact (claimsOnly_changeClaim ch _ s).trans (claimsOnly_countEvent _ _ _ _)
  · exact claimsOnly_changeClaim ch _ s

theorem releases_toldSelection (ch : ChannelIdx) (i : ServiceIdx) (s : State) :
    Releases s (toldSelection ch i s) := by
  have told : ClaimsOnly s (match (s.svc i).selected with
      | none => becomeWaiting ch i s
      | some new =>
        match (s.car new).carrying with
        | some p => changeClaim ch (joined s i new p) s
        | none => becomeWaiting ch i s) := by
    split
    · exact claimsOnly_becomeWaiting ch i s
    · split
      · exact claimsOnly_changeClaim ch _ s
      · exact claimsOnly_becomeWaiting ch i s
  unfold toldSelection
  simp only
  split
  · exact Releases.refl s
  · split
    · exact Releases.refl s
    · exact (claimsOnly_examine ch i s).releases
  · split
    · exact Releases.refl s
    · exact told.releases.trans (releases_releaseUnneeded? _ _)
  · split
    · exact Releases.refl s
    · exact told.releases.trans (releases_releaseUnneeded? _ _)
  · split
    · exact Releases.refl s
    · refine Releases.trans ?_ (releases_releaseUnneeded? _ _)
      split
      · exact (claimsOnly_becomeWaiting ch i s).releases
      · exact (claimsOnly_moveTo ch i _ s).releases
  · split
    · exact Releases.refl s
    · refine Releases.trans ?_ ((releases_releaseUnneeded? _ _).trans (releases_releaseUnneeded? _ _))
      split
      · exact (claimsOnly_becomeWaiting ch i s).releases
      · split
        · exact (claimsOnly_changeClaim ch _ s).releases
        · exact (claimsOnly_moveTo ch i _ s).releases

theorem releases_reportSelection (i : ServiceIdx) (s : State) : Releases s (reportSelection i s) := by
  unfold reportSelection
  simp only
  refine Releases.trans ?_ (Releases.foldl _ (fun t ch => ?_) _ _)
  · split
    · exact releases_of_paths rfl rfl rfl
    · exact Releases.refl s
  · simp only
    split
    · exact releases_toldSelection ch i t
    · exact Releases.refl t

theorem releases_applyChange (i : ServiceIdx) (r : ServiceRec) (s : State) : Releases s (applyChange i r s) := by
  have a : Releases s (commit i r s) := by
    unfold commit; simp only
    split <;> exact releases_of_paths rfl rfl rfl
  unfold applyChange
  simp only
  have b : Releases s (if (s.svc i).selected ≠ r.selected then reportSelection i (commit i r s) else commit i r s) := by
    split
    · exact a.trans (releases_reportSelection i _)
    · exact a
  split
  · refine b.trans (Releases.foldl _ (fun t c => ?_) _ _)
    have h := plannerOnly_offer t c
    exact releases_of_paths h.now h.paths h.inputs
  · exact b

theorem releases_depart (c : CarrierIdx) (s : State) (i : ServiceIdx) : Releases s (depart c s i) := by
  unfold depart
  simp only
  have a : Releases s (unannounce i s c) := releases_of_paths rfl rfl rfl
  split
  · exact a.trans (releases_applyChange _ _ _)
  · exact a

theorem releases_joinRecord (c : CarrierIdx) (i : ServiceIdx) (r : ServiceRec) (acc : State × List ServiceIdx) :
    Releases acc.1 (joinRecord c i r acc).1 :=
  (releases_applyChange _ _ _).trans (releases_of_paths rfl rfl rfl)

theorem releases_mergeEntry (c : CarrierIdx) (again : Bool) (acc : State × List ServiceIdx) (e : KeyedEntry) :
    Releases acc.1 (mergeEntry c again acc e).1 := by
  unfold mergeEntry
  simp only
  split
  · exact Releases.refl _
  · split
    · split
      · exact releases_applyChange _ _ _
      · split
        · exact releases_joinRecord _ _ _ _
        · exact releases_applyChange _ _ _
    · split
      · exact releases_joinRecord _ _ _ _
      · exact releases_of_paths rfl rfl rfl

theorem releases_mergeEntries (c : CarrierIdx) (seen : List Key) (es : List KeyedEntry)
    (acc : State × List ServiceIdx) : Releases acc.1 (mergeEntries c seen es acc).1 := by
  induction es generalizing seen acc with
  | nil => exact Releases.refl _
  | cons e es ih => exact (releases_mergeEntry c _ acc e).trans (ih _ _)

theorem releases_mergeHead (c : CarrierIdx) (v : RosterVersion) (m : Bool) (s : State) :
    Releases s (mergeHead c v m s) := by
  unfold mergeHead
  simp only
  split <;> exact releases_of_paths rfl rfl rfl

theorem releases_mergeEvaluations (c : CarrierIdx) (l : List ServiceIdx) (s : State) :
    Releases s (mergeEvaluations c l s) := by
  unfold mergeEvaluations pushReport
  split
  · split <;> exact releases_of_paths rfl rfl rfl
  · exact Releases.refl s

theorem releases_merge (c : CarrierIdx) (k : Collection) (s : State) : Releases s (merge c k s) := by
  unfold merge
  split
  · exact Releases.refl s
  · split
    · exact Releases.refl s
    · rename_i v _ _
      have a := (releases_mergeHead c v k.malformed s).trans
        (releases_mergeEntries c [] (keyedEntries k.held) (mergeHead c v k.malformed s, []))
      refine Releases.trans ?_ (releases_mergeEvaluations _ _ _)
      refine (a.trans ?_).trans (releases_of_paths rfl rfl rfl : Releases (mergeDepartures _ _ _ _) (mergeRebuild _ _ _))
      exact Releases.foldl _ (releases_depart c) _ _

/-! ### The carriers: nothing but the announced list and the carrying paths -/

/-- Every carrier record is as before but for its carrying path, and the announced list of one carrier. -/
structure AnnouncesOnly (c : CarrierIdx) (s t : State) : Prop where
  others : ∀ d, d ≠ c → { t.car d with carrying := none } = { s.car d with carrying := none }
  own : { t.car c with carrying := none, announced := [] } = { s.car c with carrying := none, announced := [] }

theorem AnnouncesOnly.refl (c : CarrierIdx) (s : State) : AnnouncesOnly c s s := ⟨fun _ _ => rfl, rfl⟩

theorem AnnouncesOnly.trans {c : CarrierIdx} {s t u : State} (a : AnnouncesOnly c s t) (b : AnnouncesOnly c t u) :
    AnnouncesOnly c s u := ⟨fun d h => (b.others d h).trans (a.others d h), b.own.trans a.own⟩

theorem Steady.announcesOnly {s t : State} (h : Steady s t) (c : CarrierIdx) : AnnouncesOnly c s t := by
  refine ⟨fun d _ => h.cars d, ?_⟩
  have e := congrArg (fun r : CarrierRec => { r with announced := [] }) (h.cars c)
  exact e

theorem announcesOnly_modCar (c : CarrierIdx) (l : List ServiceIdx) (s : State) :
    AnnouncesOnly c s (s.setCar c { s.car c with announced := l }) :=
  ⟨fun d h => by rw [State.car_setCar, if_neg (Ne.symm h)], by rw [State.car_setCar, if_pos rfl]⟩

theorem announcesOnly_applyChange (c : CarrierIdx) (i : ServiceIdx) (r : ServiceRec) (s : State) :
    AnnouncesOnly c s (applyChange i r s) := by
  have a : AnnouncesOnly c s (commit i r s) := by
    have h := (commit_others i r s).2.1
    refine ⟨fun d _ => ?_, ?_⟩ <;> unfold State.car <;> rw [h]
  exact a.trans ((steady_applyChange i r s).announcesOnly c)

theorem announcesOnly_depart (c : CarrierIdx) (s : State) (i : ServiceIdx) : AnnouncesOnly c s (depart c s i) := by
  unfold depart
  simp only
  have a : AnnouncesOnly c s (unannounce i s c) := announcesOnly_modCar c _ s
  split
  · exact a.trans (announcesOnly_applyChange c _ _ _)
  · exact a

theorem announcesOnly_joinRecord (c : CarrierIdx) (i : ServiceIdx) (r : ServiceRec) (acc : State × List ServiceIdx) :
    AnnouncesOnly c acc.1 (joinRecord c i r acc).1 :=
  (announcesOnly_applyChange c _ _ _).trans (announcesOnly_modCar c _ _)

theorem announcesOnly_mergeEntry (c : CarrierIdx) (again : Bool) (acc : State × List ServiceIdx) (e : KeyedEntry) :
    AnnouncesOnly c acc.1 (mergeEntry c again acc e).1 := by
  unfold mergeEntry
  simp only
  split
  · exact AnnouncesOnly.refl _ _
  · split
    · split
      · exact announcesOnly_applyChange _ _ _ _
      · split
        · exact announcesOnly_joinRecord _ _ _ _
        · exact announcesOnly_applyChange _ _ _ _
    · split
      · exact announcesOnly_joinRecord _ _ _ _
      · exact ⟨fun _ _ => rfl, rfl⟩

theorem announcesOnly_mergeEntries (c : CarrierIdx) (seen : List Key) (es : List KeyedEntry)
    (acc : State × List ServiceIdx) : AnnouncesOnly c acc.1 (mergeEntries c seen es acc).1 := by
  induction es generalizing seen acc with
  | nil => exact AnnouncesOnly.refl _ _
  | cons e es ih => exact (announcesOnly_mergeEntry c _ acc e).trans (ih _ _)

theorem announcesOnly_departs (c : CarrierIdx) (l : List ServiceIdx) (s : State) :
    AnnouncesOnly c s (l.foldl (depart c) s) := by
  induction l generalizing s with
  | nil => exact AnnouncesOnly.refl _ _
  | cons i l ih => exact (announcesOnly_depart c s i).trans (ih _)

/-! ### Departures (R11) -/

theorem departed_candidates (s : State) (r : ServiceRec) (c : CarrierIdx) :
    (departed s r c).candidates = without c r.candidates ∧ (departed s r c).key = r.key := by
  unfold departed
  simp only
  split
  all_goals first
    | exact ⟨rfl, rfl⟩
    | (split
       · exact ⟨rfl, rfl⟩
       · split
         · unfold reselected; split
           · unfold withSelection; exact ⟨rfl, rfl⟩
           · exact ⟨rfl, rfl⟩
         · exact ⟨rfl, rfl⟩)

theorem stamped_fields (s : State) (i : ServiceIdx) (r : ServiceRec) :
    (stamped s i r).candidates = r.candidates ∧ (stamped s i r).key = r.key := by
  unfold stamped; split <;> exact ⟨rfl, rfl⟩

/-- R11: a departure takes the carrier from one record's candidates; the keys and the other records stand. -/
theorem svc_depart (c : CarrierIdx) (s : State) (i j : ServiceIdx) :
    (j ≠ i → (depart c s i).svc j = s.svc j) ∧ ((depart c s i).svc j).key = (s.svc j).key
      ∧ (c ∉ (s.svc j).candidates → c ∉ ((depart c s i).svc j).candidates)
      ∧ c ∉ ((depart c s i).svc i).candidates := by
  unfold depart
  simp only
  generalize ht : unannounce i s c = t
  have e : ∀ k, t.svc k = s.svc k := fun k => by rw [← ht]; rfl
  split
  · have out : ∀ k, (applyChange i (departed t (t.svc i) c) t).svc k
        = if i = k then stamped t i (departed t (t.svc i) c) else s.svc k := fun k => by rw [svc_applyChange, e k]
    have gone : c ∉ (stamped t i (departed t (t.svc i) c)).candidates := by
      rw [(stamped_fields t i _).1, (departed_candidates t _ c).1]; simp [without]
    refine ⟨fun h => by rw [out, if_neg (Ne.symm h)], ?_, fun h => ?_, by rw [out, if_pos rfl]; exact gone⟩
    · rw [out]
      split
      · rename_i h; rw [(stamped_fields t i _).2, (departed_candidates t _ c).2, e, h]
      · rfl
    · rw [out]
      split
      · exact gone
      · exact h
  · rename_i h
    exact ⟨fun _ => e j, by rw [e], fun k => by rw [e]; exact k, h⟩

/-- R11, R40: the departures of a carrier from a list of records. -/
theorem svc_departs (c : CarrierIdx) (l : List ServiceIdx) (s : State) (j : ServiceIdx) :
    (j ∉ l → (l.foldl (depart c) s).svc j = s.svc j) ∧ ((l.foldl (depart c) s).svc j).key = (s.svc j).key
      ∧ (c ∉ (s.svc j).candidates → c ∉ ((l.foldl (depart c) s).svc j).candidates)
      ∧ (j ∈ l → c ∉ ((l.foldl (depart c) s).svc j).candidates) := by
  induction l generalizing s with
  | nil => exact ⟨fun _ => rfl, rfl, id, fun h => absurd h (by simp)⟩
  | cons a l ih =>
    obtain ⟨i1, i2, i3, i4⟩ := ih (depart c s a)
    obtain ⟨d1, d2, d3, d4⟩ := svc_depart c s a j
    refine ⟨fun h => ?_, i2.trans d2, fun h => i3 (d3 h), fun h => ?_⟩
    · rw [List.mem_cons, not_or] at h
      exact (i1 h.2).trans (d1 h.1)
    · by_cases k : j ∈ l
      · exact i4 k
      · rcases List.mem_cons.mp h with h | h
        · subst h; exact i3 d4
        · exact absurd h k

/-! ### The merge (R38, R40) -/

theorem keyMap_key (s : State) (k : Key) (i : ServiceIdx) (h : keyMap s k = some i) : (s.svc i).key = some k := by
  unfold keyMap at h
  rw [firstIdx_eq_some] at h
  have := h.1
  simp only [Bool.and_eq_true, decide_eq_true_eq] at this
  exact this.2

/-- R40: which services a merge's departures are of. -/
theorem mergeDepartures_eq (c : CarrierIdx) (old : List ServiceIdx) (keys : List Key) (s : State) :
    ∃ gone : List ServiceIdx, mergeDepartures c old keys s = gone.foldl (depart c) s
      ∧ ∀ i ∈ old, (∀ y ∈ keys, (s.svc i).key ≠ some y) → i ∈ gone := by
  refine ⟨_, rfl, fun i hi hn => List.mem_filter.mpr ⟨hi, ?_⟩⟩
  split
  · rename_i y hy
    simp only [decide_eq_true_eq]
    exact fun q => hn y q hy
  · rfl

/-- What a merge on a carrier that is not FREE leaves of its record and of the records that named it. -/
theorem merge_spec (c : CarrierIdx) (k : Collection) (v : RosterVersion) (s : State) (hv : k.version = some v)
    (hf : (s.car c).state ≠ .free) :
    (∀ d, d ≠ c → { (merge c k s).car d with carrying := none } = { s.car d with carrying := none })
      ∧ { (merge c k s).car c with carrying := none, announced := [] }
        = { s.car c with rosterVersion := some v, stale := false, malformed := k.malformed, carrying := none,
                         announced := [] }
      ∧ (∀ i ∈ ((merge c k s).car c).announced, c ∈ ((merge c k s).svc i).candidates
          ∧ ∃ y ∈ (keyedEntries k.held).map KeyedEntry.key, ((merge c k s).svc i).key = some y)
      ∧ ∀ i ∈ (s.car c).announced, (∀ y ∈ (keyedEntries k.held).map KeyedEntry.key, ((merge c k s).svc i).key ≠ some y) →
          c ∉ ((merge c k s).svc i).candidates := by
  unfold merge
  rw [hv]
  simp only
  rw [if_neg hf]
  generalize hk : (keyedEntries k.held).map KeyedEntry.key = keys
  generalize hes : keyedEntries k.held = es
  have head : (∀ d, d ≠ c → (mergeHead c v k.malformed s).car d = s.car d)
      ∧ (mergeHead c v k.malformed s).car c
        = { s.car c with rosterVersion := some v, stale := false, malformed := k.malformed } := by
    unfold mergeHead
    simp only
    generalize ht : (if (s.car c).rosterVersion ≠ some v then countEvent .rosterVersionChanged none (some c) s else s) = t
    have e : ∀ d, t.car d = s.car d := fun d => by rw [← ht]; split <;> rfl
    refine ⟨fun d h => ?_, ?_⟩
    · rw [State.car_modCar, if_neg (Ne.symm h), e]
    · rw [State.car_modCar, if_pos rfl, e]
  have ent := announcesOnly_mergeEntries c [] es (mergeHead c v k.malformed s, [])
  generalize hacc : mergeEntries c [] es (mergeHead c v k.malformed s, []) = acc at ent ⊢
  obtain ⟨gone, hd, hl⟩ := mergeDepartures_eq c (s.car c).announced keys acc.1
  have dep := announcesOnly_departs c gone acc.1
  have sv := svc_departs c gone acc.1
  rw [hd]
  generalize gone.foldl (depart c) acc.1 = t at dep sv ⊢
  let l := ((keys.filterMap (keyMap t)).filter (fun i => decide (c ∈ (t.svc i).candidates))).eraseDups
  have reb : mergeRebuild c keys t = t.setCar c { t.car c with announced := l } := rfl
  obtain ⟨u1, u2⟩ : (mergeEvaluations c acc.2 (mergeRebuild c keys t)).carriers = (mergeRebuild c keys t).carriers
      ∧ (mergeEvaluations c acc.2 (mergeRebuild c keys t)).svcs = t.svcs := by
    unfold mergeEvaluations pushReport
    split
    · split <;> exact ⟨rfl, rfl⟩
    · exact ⟨rfl, rfl⟩
  generalize mergeEvaluations c acc.2 (mergeRebuild c keys t) = u at u1 u2
  have us : ∀ i, u.svc i = t.svc i := fun i => by unfold State.svc; rw [u2]
  have uc : ∀ d, u.car d = (t.setCar c { t.car c with announced := l }).car d := fun d =>
    congrArg (fun v : Vector CarrierRec 192 => v[d]) (u1.trans (congrArg State.carriers reb))
  refine ⟨fun d h => ?_, ?_, fun i hi => ?_, fun i hi hn => ?_⟩
  · rw [uc, State.car_setCar, if_neg (Ne.symm h), dep.others d h, ent.others d h, head.1 d h]
  · rw [uc, State.car_setCar, if_pos rfl]
    have e := dep.own.trans ent.own
    rw [head.2] at e
    exact e
  · rw [uc, State.car_setCar, if_pos rfl] at hi
    have hi' : i ∈ l := hi
    simp only [l, List.mem_eraseDups, List.mem_filter, List.mem_filterMap, decide_eq_true_eq] at hi'
    obtain ⟨⟨y, hy, hm⟩, hc⟩ := hi'
    rw [us]
    exact ⟨hc, y, hy, keyMap_key t y i hm⟩
  · rw [us] at hn ⊢
    obtain ⟨_, s2, _, s4⟩ := sv i
    rw [s2] at hn
    exact s4 (hl i hi hn)

end Sys2Proof.Machine
end

