-- ==== Sys2Proof/Laws/Allocations.lean ====
section
/-! SUPPORT. What the key map and an allocation answer (R3, R13), by what the records hold. -/

namespace Sys2Proof.Machine

theorem mem_indexed {s : State} (x : ServiceIdx × ServiceRec) : x ∈ indexed s.svcs.recs ↔ x.2 = s.svc x.1 := by
  rw [indexed_eq]
  simp only [List.mem_map, List.mem_finRange, true_and]
  constructor
  · rintro ⟨i, rfl⟩; rfl
  · intro h; exact ⟨x.1, by rw [← Prod.eta x]; simp only; rw [h]; rfl⟩

theorem sorted_indexed (s : State) : (indexed s.svcs.recs).Pairwise (fun a b => a.1 < b.1) := by
  rw [indexed_eq, List.pairwise_map]
  exact List.pairwise_lt_finRange 512

/-! ### The key map (R3) -/

theorem keyMap_eq_some (s : State) (k : Key) (i : ServiceIdx) (h1 : (s.svc i).state ≠ .free)
    (h2 : (s.svc i).key = some k) (h3 : ∀ j, (s.svc j).state ≠ .free → (s.svc j).key = some k → j = i) :
    keyMap s k = some i := by
  unfold keyMap
  rw [firstIdx_eq_some]
  refine ⟨by simp only [Bool.and_eq_true, decide_eq_true_eq]; exact ⟨h1, h2⟩, fun j hj => ?_⟩
  rw [Bool.eq_false_iff]
  intro w
  simp only [Bool.and_eq_true, decide_eq_true_eq] at w
  exact absurd (h3 j w.1 w.2) (ne_of_lt hj)

theorem keyMap_eq_none (s : State) (k : Key) (h : ∀ j, (s.svc j).state ≠ .free → (s.svc j).key ≠ some k) :
    keyMap s k = none := by
  unfold keyMap
  rw [firstIdx_eq_none]
  intro j
  rw [Bool.eq_false_iff]
  intro w
  simp only [Bool.and_eq_true, decide_eq_true_eq] at w
  exact h j w.1 w.2

theorem liveRecord_eq_some (s : State) (k : Key) (i : ServiceIdx) (h1 : (s.svc i).state.live = true)
    (h2 : (s.svc i).key = some k) (h3 : ∀ j, (s.svc j).state ≠ .free → (s.svc j).key = some k → j = i) :
    liveRecord s k = some i := by
  unfold liveRecord
  rw [keyMap_eq_some s k i (by intro w; rw [w] at h1; cases h1) h2 h3]
  simp only
  rw [if_pos h1]

theorem liveRecord_of_tombstone (s : State) (k : Key) (i : ServiceIdx) (h1 : (s.svc i).state = .retired)
    (h2 : (s.svc i).key = some k) (h3 : ∀ j, (s.svc j).state ≠ .free → (s.svc j).key = some k → j = i) :
    liveRecord s k = none := by
  unfold liveRecord
  rw [keyMap_eq_some s k i (by rw [h1]; simp) h2 h3]
  simp only
  rw [if_neg (by rw [h1]; simp [SvcState.live])]

theorem liveRecord_eq_none (s : State) (k : Key) (h : ∀ j, (s.svc j).state ≠ .free → (s.svc j).key ≠ some k) :
    liveRecord s k = none := by
  unfold liveRecord
  rw [keyMap_eq_none s k h]

/-! ### Allocation (R13) -/

/-- R13 step 3: the smaller change epoch, and the lower index where they are equal. -/
def Older (a b : ServiceIdx × ServiceRec) : Prop :=
  a.2.changeEpoch < b.2.changeEpoch ∨ a.2.changeEpoch = b.2.changeEpoch ∧ a.1 ≤ b.1

/-- R13 step 3: the tombstone that a pass over the slots in index order finds. -/
theorem oldestTombstone (l : List (ServiceIdx × ServiceRec)) (hs : l.Pairwise (fun a b => a.1 < b.1))
    (b : Option (ServiceIdx × ServiceRec)) (hb : ∀ y, b = some y → y.2.state = .retired ∧ ∀ x ∈ l, y.1 < x.1) :
    (l.foldl olderTombstone b = none → b = none ∧ ∀ x ∈ l, x.2.state ≠ .retired)
      ∧ ∀ z, l.foldl olderTombstone b = some z → z.2.state = .retired ∧ (b = some z ∨ z ∈ l)
        ∧ (∀ y, b = some y → Older z y) ∧ ∀ x ∈ l, x.2.state = .retired → Older z x := by
  induction l generalizing b with
  | nil =>
    refine ⟨fun h => ⟨h, by simp⟩, fun z h => ?_⟩
    have h : b = some z := h
    refine ⟨(hb z h).1, Or.inl h, fun y hy => ?_, by simp⟩
    rw [h] at hy; cases hy; exact Or.inr ⟨rfl, le_refl _⟩
  | cons a l ih =>
    obtain ⟨ha, hl⟩ := List.pairwise_cons.mp hs
    rw [List.foldl_cons]
    have trans : ∀ x y z, Older x y → Older y z → Older x z := by
      intro x y z h1 h2
      unfold Older at *
      simp only [BitVec.lt_def, BitVec.toNat_eq, Fin.le_def] at *
      omega
    by_cases hr : a.2.state = .retired
    · have key : ∃ w, olderTombstone b a = some w ∧ (w = a ∨ b = some w) ∧ Older w a ∧ (∀ y, b = some y → Older w y) := by
        unfold olderTombstone; rw [if_pos hr]
        cases b with
        | none => exact ⟨a, rfl, Or.inl rfl, Or.inr ⟨rfl, le_refl _⟩, by simp⟩
        | some y =>
          simp only
          by_cases hlt : a.2.changeEpoch < y.2.changeEpoch
          · rw [if_pos hlt]
            exact ⟨a, rfl, Or.inl rfl, Or.inr ⟨rfl, le_refl _⟩, fun z hz => by cases hz; exact Or.inl hlt⟩
          · rw [if_neg hlt]
            refine ⟨y, rfl, Or.inr rfl, ?_, fun z hz => by cases hz; exact Or.inr ⟨rfl, le_refl _⟩⟩
            have := (hb y rfl).2 a (by simp)
            unfold Older
            simp only [BitVec.lt_def, BitVec.toNat_eq, Fin.le_def, Fin.lt_def] at *
            omega
      obtain ⟨w, hw, hor, hwa, hwy⟩ := key
      rw [hw]
      have hwr : w.2.state = .retired := by
        rcases hor with h | h
        · rw [h]; exact hr
        · exact (hb w h).1
      have hwl : ∀ x ∈ l, w.1 < x.1 := by
        intro x hx
        rcases hor with h | h
        · rw [h]; exact ha x hx
        · exact (hb w h).2 x (by simp [hx])
      obtain ⟨i1, i2⟩ := ih hl (some w) (fun y hy => by cases hy; exact ⟨hwr, hwl⟩)
      refine ⟨fun h => absurd (i1 h).1 (by simp), fun z hz => ?_⟩
      obtain ⟨j1, j2, j3, j4⟩ := i2 z hz
      refine ⟨j1, ?_, fun y hy => trans _ _ _ (j3 w rfl) (hwy y hy), fun x hx hxr => ?_⟩
      · rcases j2 with h | h
        · cases h
          rcases hor with h | h
          · rw [h]; exact Or.inr (by simp)
          · exact Or.inl h
        · exact Or.inr (by simp [h])
      · rcases List.mem_cons.mp hx with h | h
        · rw [h]; exact trans _ _ _ (j3 w rfl) hwa
        · exact j4 x h hxr
    · have : olderTombstone b a = b := by unfold olderTombstone; rw [if_neg hr]
      rw [this]
      obtain ⟨i1, i2⟩ := ih hl b (fun y hy => ⟨(hb y hy).1, fun x hx => (hb y hy).2 x (by simp [hx])⟩)
      refine ⟨fun h => ⟨(i1 h).1, fun x hx => ?_⟩, fun z hz => ?_⟩
      · rcases List.mem_cons.mp hx with h' | h'
        · rw [h']; exact hr
        · exact (i1 h).2 x h'
      · obtain ⟨j1, j2, j3, j4⟩ := i2 z hz
        refine ⟨j1, ?_, j3, fun x hx hxr => ?_⟩
        · rcases j2 with h | h
          · exact Or.inl h
          · exact Or.inr (by simp [h])
        · rcases List.mem_cons.mp hx with h' | h'
          · rw [h'] at hxr; exact absurd hxr hr
          · exact j4 x h' hxr

/-- R13 step 1: the tombstone of the key is revived. -/
theorem allocation_revives (s : State) (k : Key) (i : ServiceIdx) (h1 : (s.svc i).state = .retired)
    (h2 : (s.svc i).key = some k) (h3 : ∀ j, (s.svc j).state ≠ .free → (s.svc j).key = some k → j = i) :
    allocation s k = some (i, (s.svc i).allocated k (s.svc i).kind (s.svc i).name) := by
  unfold allocation
  have f : firstIdx s.svcs.recs (fun r => decide (r.state = .retired) && decide (r.key = some k)) = some i := by
    rw [firstIdx_eq_some]
    refine ⟨by simp only [Bool.and_eq_true, decide_eq_true_eq]; exact ⟨h1, h2⟩, fun j hj => ?_⟩
    rw [Bool.eq_false_iff]
    intro w
    simp only [Bool.and_eq_true, decide_eq_true_eq] at w
    exact absurd (h3 j (by rw [show (s.svc j).state = _ from w.1]; simp) w.2) (ne_of_lt hj)
  rw [f]

theorem noTombstoneOf (s : State) (k : Key) (h : ∀ j, (s.svc j).state = .retired → (s.svc j).key ≠ some k) :
    firstIdx s.svcs.recs (fun r => decide (r.state = .retired) && decide (r.key = some k)) = none := by
  rw [firstIdx_eq_none]
  intro j
  rw [Bool.eq_false_iff]
  intro w
  simp only [Bool.and_eq_true, decide_eq_true_eq] at w
  exact h j w.1 w.2

theorem noFreeSlot (s : State) (h : ∀ j, (s.svc j).state ≠ .free) :
    firstIdx s.svcs.recs (fun r => decide (r.state = .free)) = none := by
  rw [firstIdx_eq_none]
  intro j
  rw [Bool.eq_false_iff]
  intro w
  simp only [decide_eq_true_eq] at w
  exact h j w

/-- R13 steps 2 and 3: the lowest FREE slot, or else the oldest tombstone. -/
theorem allocation_takes (s : State) (k : Key) (i : ServiceIdx)
    (hk : ∀ j, (s.svc j).state ≠ .free → (s.svc j).key ≠ some k)
    (h : (s.svc i).state = .free ∧ (∀ j, j < i → (s.svc j).state ≠ .free)
      ∨ (∀ j, (s.svc j).state ≠ .free) ∧ (s.svc i).state = .retired
        ∧ ∀ j, (s.svc j).state = .retired → (s.svc i).changeEpoch < (s.svc j).changeEpoch
          ∨ ((s.svc i).changeEpoch = (s.svc j).changeEpoch ∧ i ≤ j)) :
    allocation s k = some (i, (s.svc i).allocated k .unknown none) := by
  unfold allocation
  rw [noTombstoneOf s k (fun j w => hk j (by rw [w]; simp))]
  simp only
  rcases h with ⟨h1, h2⟩ | ⟨h1, h2, h4⟩
  · have f : firstIdx s.svcs.recs (fun r => decide (r.state = .free)) = some i := by
      rw [firstIdx_eq_some]
      refine ⟨by simp only [decide_eq_true_eq]; exact h1, fun j hj => ?_⟩
      rw [Bool.eq_false_iff]
      intro w
      simp only [decide_eq_true_eq] at w
      exact h2 j hj w
    rw [f]
  · rw [noFreeSlot s h1]
    simp only
    obtain ⟨t1, t2⟩ := oldestTombstone (indexed s.svcs.recs) (sorted_indexed s) none (by simp)
    cases hf : (indexed s.svcs.recs).foldl olderTombstone none with
    | none => exact absurd h2 ((t1 hf).2 (i, s.svc i) ((mem_indexed _).mpr rfl))
    | some z =>
      obtain ⟨j1, j2, _, j4⟩ := t2 z hf
      have zm : z.2 = s.svc z.1 := by
        rcases j2 with w | w
        · cases w
        · exact (mem_indexed z).mp w
      have o1 := j4 (i, s.svc i) ((mem_indexed _).mpr rfl) h2
      have o2 := h4 z.1 (by rw [← zm]; exact j1)
      have zi : z.1 = i := by
        unfold Older at o1
        rw [zm] at o1
        apply Fin.ext
        simp only [BitVec.lt_def, BitVec.toNat_eq, Fin.le_def] at *
        omega
      have e : z = (i, s.svc i) := by rw [← zi, ← zm]
      rw [e]

/-- R13: a table of live records has no slot. -/
theorem allocation_full (s : State) (k : Key) (h : ∀ j, (s.svc j).state.live = true) : allocation s k = none := by
  unfold allocation
  rw [noTombstoneOf s k (fun j w => by have := h j; rw [w] at this; cases this)]
  simp only
  rw [noFreeSlot s (fun j w => by have := h j; rw [w] at this; cases this)]
  simp only
  obtain ⟨_, t2⟩ := oldestTombstone (indexed s.svcs.recs) (sorted_indexed s) none (by simp)
  cases hf : (indexed s.svcs.recs).foldl olderTombstone none with
  | none => rfl
  | some z =>
    obtain ⟨j1, j2, _, _⟩ := t2 z hf
    exfalso
    rcases j2 with w | w
    · cases w
    · have := h z.1
      rw [← (mem_indexed z).mp w, j1] at this
      cases this

end Sys2Proof.Machine
end

