-- ==== Sys2Proof/Laws/Grants.lean ====
section
/-! SUPPORT. What a grant, the setting of a carrying path, a pass end and a cut do. -/

namespace Sys2Proof.Machine

/-! ### Grants (R79, R80, R81, R84, R91) -/

/-- R84: where a path that joins a wait list stands, in the words of the rule. -/
theorem queued_insertWaiter (x : Waiter) (l : List Waiter) :
    ∃ a b, l = a ++ b ∧ insertWaiter x l = a ++ x :: b
      ∧ (∀ w ∈ a, ¬ (x.since < w.since ∨ x.since = w.since ∧ x.path < w.path))
      ∧ ∀ w, b.head? = some w → x.since < w.since ∨ x.since = w.since ∧ x.path < w.path := by
  obtain ⟨a, b, h1, h2, h3, h4⟩ := insertWaiter_place x l
  exact ⟨a, b, h1, h2, fun w hw => by rw [← Waiter.before_iff, h3 w hw]; simp,
    fun w hw => (Waiter.before_iff x w).mp (h4 w hw)⟩

/-- R84: what a request for a tune start does to the inputs. -/
theorem joinWait_inp (i j : InputIdx) (p : PathIdx) (s : State) :
    (joinWait i p s).inp j
      = if i = j then { s.inp j with waitList := insertWaiter ⟨p, s.now⟩ (s.inp j).waitList } else s.inp j := by
  unfold joinWait
  rw [State.inp_modInp]
  split
  · rename_i h; rw [h]
  · rfl

/-- A grant up to the setting of the carrying path. -/
def grantWork (p : PathIdx) (u : Use) (c : CarrierIdx) (k : CarrierParams) (s : State) : State :=
  joinWait k.input p (attach k.input p ((switchFor k s).setPath p (grantedPath u c)))

theorem grant_eq (p : PathIdx) (u : Use) (c : CarrierIdx) (k : CarrierParams) (s : State)
    (h : (s.car c).params = some k) :
    grant p u c s = if u = .carry then setCarrying c p (grantWork p u c k s) else grantWork p u c k s := by
  unfold grant
  rw [h]
  rfl

/-- R81: the record of an input once a feed switch that the grant calls for has been made. -/
theorem switchFor_spec (k : CarrierParams) (s : State) :
    (switchFor k s).paths = s.paths ∧ (switchFor k s).now = s.now
      ∧ (∀ i, i ≠ k.input → (switchFor k s).inp i = s.inp i)
      ∧ { (switchFor k s).inp k.input with feed := (s.inp k.input).feed, feedState := (s.inp k.input).feedState }
        = s.inp k.input
      ∧ (∀ f, (s.inp k.input).kind = .satellite → k.feed = some f → f ≠ (s.inp k.input).feed →
          (s.inp k.input).attached = [] →
        ((switchFor k s).inp k.input).feed = f
          ∧ ((switchFor k s).inp k.input).feedState = .settling (s.now + 15))
      ∧ ((s.inp k.input).kind ≠ .satellite ∨ k.feed = some (s.inp k.input).feed → switchFor k s = s) := by
  have made : ∀ f i, (feedSwitch k.input f s).inp i
      = if k.input = i then { s.inp k.input with feed := f, feedState := .settling (s.now + 15) } else s.inp i :=
    fun f i => State.inp_modInp s k.input i _
  unfold switchFor feedAnswer
  refine ⟨?_, ?_, fun i hi => ?_, ?_, fun f h1 h2 h3 h4 => ?_, fun h => ?_⟩
  · split <;> rfl
  · split <;> rfl
  · split
    · rw [made, if_neg (Ne.symm hi)]
    · rfl
  · split
    · rw [made, if_pos rfl]
    · rfl
  · simp only
    rw [if_neg (by simp [h1]), if_neg (by rw [h2]; simpa using h3), if_pos h4, h2]
    simp only
    rw [made, if_pos rfl]
    exact ⟨rfl, rfl⟩
  · simp only
    rcases h with h | h
    · rw [if_pos h]
    · by_cases w : (s.inp k.input).kind ≠ .satellite
      · rw [if_pos w]
      · rw [if_neg w, if_pos h]

/-- R91: the paths and inputs after a grant. -/
theorem grantWork_spec (p : PathIdx) (u : Use) (c : CarrierIdx) (k : CarrierParams) (s : State) :
    (grantWork p u c k s).path p = grantedPath u c
      ∧ (∀ q, q ≠ p → (grantWork p u c k s).path q = s.path q)
      ∧ (∀ i, i ≠ k.input → (grantWork p u c k s).inp i = s.inp i)
      ∧ (grantWork p u c k s).inp k.input = { (switchFor k s).inp k.input with
          attached := insertIdx p (s.inp k.input).attached,
          waitList := insertWaiter ⟨p, s.now⟩ (s.inp k.input).waitList } := by
  obtain ⟨w1, w2, w3, w4, _, _⟩ := switchFor_spec k s
  unfold grantWork
  have pp : ∀ q, (grantWork p u c k s).path q = ((switchFor k s).setPath p (grantedPath u c)).path q := fun _ => rfl
  have ii : ∀ i, (grantWork p u c k s).inp i = if k.input = i then
      { (switchFor k s).inp k.input with
        attached := insertIdx p ((switchFor k s).inp k.input).attached,
        waitList := insertWaiter ⟨p, (switchFor k s).now⟩ ((switchFor k s).inp k.input).waitList }
      else (switchFor k s).inp i := by
    intro i
    unfold grantWork joinWait attach
    rw [State.inp_modInp, State.inp_modInp, State.inp_modInp]
    by_cases h : k.input = i
    · subst h; simp
    · simp [h]
  refine ⟨?_, fun q hq => ?_, fun i hi => ?_, ?_⟩
  · exact (pp p).trans ((State.path_setPath _ _ _ _).trans (if_pos rfl))
  · refine (pp q).trans ((State.path_setPath _ _ _ _).trans ((if_neg (Ne.symm hq)).trans ?_))
    unfold State.path
    rw [w1]
  · exact (ii i).trans ((if_neg (Ne.symm hi)).trans (w3 i hi))
  · refine (ii k.input).trans ((if_pos rfl).trans ?_)
    rw [← show _ = (s.inp k.input).attached from congrArg InputRec.attached w4,
      ← show _ = (s.inp k.input).waitList from congrArg InputRec.waitList w4, w2]

theorem grantWork_others (p : PathIdx) (u : Use) (c : CarrierIdx) (k : CarrierParams) (s : State) :
    (grantWork p u c k s).carriers = s.carriers ∧ (grantWork p u c k s).svcs = s.svcs
      ∧ (grantWork p u c k s).claims = s.claims ∧ (grantWork p u c k s).plan = s.plan
      ∧ (grantWork p u c k s).port = s.port ∧ (grantWork p u c k s).inExec = s.inExec
      ∧ (grantWork p u c k s).arb = s.arb := by
  unfold grantWork switchFor
  split <;> exact ⟨rfl, rfl, rfl, rfl, rfl, rfl, rfl⟩

/-! ### The setting of a carrying path (R29, R123, R130) -/

theorem claimsOnly_examineWaiting (x : CarrierIdx) (ch : ChannelIdx) (s : State) :
    ClaimsOnly s (examineWaiting x ch s) := by
  unfold examineWaiting
  split
  · split
    · exact claimsOnly_examine ch _ s
    · exact ClaimsOnly.refl s
  · exact ClaimsOnly.refl s

theorem claimsOnly_carryingSetToClaims (x : CarrierIdx) (s : State) : ClaimsOnly s (carryingSetToClaims x s) := by
  unfold carryingSetToClaims forChannels
  generalize List.finRange 32 = l
  induction l generalizing s with
  | nil => exact ClaimsOnly.refl s
  | cons a l ih => exact (claimsOnly_examineWaiting x a s).trans (ih _)

/-- R171: SETTLE is told of an ended visit, which leaves the visit queue. -/
theorem plan_visitEnded (c : CarrierIdx) (s : State) : (visitEnded c s).plan = s.plan := by
  unfold visitEnded
  split
  · split
    · split
      · unfold finish
        split
        · rfl
        · simp only; split <;> rfl
      · rfl
    · rfl
  · rfl

theorem not_mem_dropEntry (c : CarrierIdx) (s : State) : c ∉ (dropEntry c s).plan.queue :=
  fun w => ((mem_without c c s.plan.queue).mp w).2 rfl

theorem setCarrying_spec (c : CarrierIdx) (p : PathIdx) (s : State) :
    (setCarrying c p s).paths = s.paths ∧ (setCarrying c p s).inputs = s.inputs
      ∧ (∀ d, (setCarrying c p s).car d = if c = d then { s.car c with carrying := some p } else s.car d)
      ∧ c ∉ (setCarrying c p s).plan.queue ∧ (setCarrying c p s).arb.cuts = s.arb.cuts := by
  unfold setCarrying
  have a := claimsOnly_carryingSetToClaims c (queueCarried c (s.modCar c (fun r => { r with carrying := some p })))
  have b := plannerOnly_queueCarried c (s.modCar c (fun r => { r with carrying := some p }))
  refine ⟨a.paths.trans b.paths, a.inputs.trans b.inputs, fun d => ?_, ?_, ?_⟩
  · have e : (queueCarried c (s.modCar c (fun r => { r with carrying := some p }))).car d
        = (s.modCar c (fun r => { r with carrying := some p })).car d := by unfold State.car; rw [b.carriers]
    rw [a.car, e, State.car_modCar]
  · rw [a.plan]
    unfold queueCarried
    split
    · rw [plan_visitEnded]
      exact not_mem_dropEntry c _
    · rename_i h; exact h
  · have e1 := congrArg Arbiter.cuts a.arb
    have e2 := congrArg Arbiter.cuts b.arb
    simp only at e1 e2
    rw [e1, e2]
    rfl

/-! ### Pass ends (R15) -/

/-- A change of an ORPHANED record with no selection, to one with none that is not DEGRADED, tells no one. -/
theorem applyChange_quiet (i : ServiceIdx) (r : ServiceRec) (s : State) (h1 : (s.svc i).selected = r.selected)
    (h2 : r.state ≠ .degraded) : applyChange i r s = commit i r s := by
  unfold applyChange
  simp only
  rw [if_neg (fun w => h2 w.2), if_neg (fun w => w h1)]

/-- R15: one ORPHANED record at a pass end. -/
def agedRecord (r : ServiceRec) : ServiceRec :=
  if satSucc 3 r.orphanAge = 3 ∧ r.claimCount = 0 then tombstone r else { r with orphanAge := satSucc 3 r.orphanAge }

theorem ageOrphan_eq (s : State) (i : ServiceIdx) (h : (s.svc i).state = .orphaned) (hs : (s.svc i).selected = none) :
    ageOrphan s i = commit i (agedRecord (s.svc i)) s := by
  unfold ageOrphan agedRecord
  simp only [Config.orphanAgeMax]
  rw [if_pos h]
  split
  · exact applyChange_quiet i _ s (by rw [hs]; rfl) (by simp [tombstone])
  · exact applyChange_quiet i _ s rfl (by simp [h])

/-- R15: what a pass end leaves of the parts other than the service records. -/
theorem commit_parts (i : ServiceIdx) (r : ServiceRec) (s : State) :
    commit i r s = { s with svcs := (commit i r s).svcs } := by
  unfold commit
  simp only
  split <;> rfl

theorem passEnd_spec (s : State) (h : ∀ i, (s.svc i).state = .orphaned → (s.svc i).selected = none) :
    passEnd s = { s with svcs := (passEnd s).svcs }
      ∧ ∀ i, ((s.svc i).state ≠ .orphaned → (passEnd s).svc i = s.svc i)
        ∧ ((s.svc i).state = .orphaned → ∃ t, t.svc i = s.svc i
            ∧ (passEnd s).svc i = stamped t i (agedRecord (s.svc i))) := by
  have run : ∀ (l : List ServiceIdx) (s : State), l.Nodup → (∀ i ∈ l, (s.svc i).state = .orphaned) →
      (∀ i ∈ l, (s.svc i).selected = none) →
      l.foldl ageOrphan s = { s with svcs := (l.foldl ageOrphan s).svcs }
        ∧ ∀ i, (i ∉ l → (l.foldl ageOrphan s).svc i = s.svc i)
          ∧ (i ∈ l → ∃ t, t.svc i = s.svc i ∧ (l.foldl ageOrphan s).svc i = stamped t i (agedRecord (s.svc i))) := by
    intro l
    induction l with
    | nil => exact fun s _ _ _ => ⟨rfl, fun i => ⟨fun _ => rfl, fun w => absurd w (by simp)⟩⟩
    | cons a l ih =>
      intro s hn ho hs
      obtain ⟨na, nl⟩ := List.nodup_cons.mp hn
      have ea := ageOrphan_eq s a (ho a (by simp)) (hs a (by simp))
      have sv : ∀ j, (ageOrphan s a).svc j = if a = j then stamped s a (agedRecord (s.svc a)) else s.svc j :=
        fun j => by rw [ea, svc_commit]
      have same : ∀ j ∈ l, (ageOrphan s a).svc j = s.svc j := fun j hj => by
        rw [sv, if_neg (by rintro rfl; exact na hj)]
      obtain ⟨i1, i2⟩ := ih (ageOrphan s a) nl (fun j hj => by rw [same j hj]; exact ho j (by simp [hj]))
        (fun j hj => by rw [same j hj]; exact hs j (by simp [hj]))
      refine ⟨?_, fun j => ⟨fun hj => ?_, fun hj => ?_⟩⟩
      · rw [List.foldl_cons, i1, ea]
        rw [commit_parts a (agedRecord (s.svc a)) s]
      · rw [List.mem_cons, not_or] at hj
        rw [List.foldl_cons, (i2 j).1 hj.2, sv, if_neg (Ne.symm hj.1)]
      · rcases List.mem_cons.mp hj with e | e
        · subst e
          exact ⟨s, rfl, by rw [List.foldl_cons, (i2 j).1 na, sv, if_pos rfl]⟩
        · obtain ⟨t, t1, t2⟩ := (i2 j).2 e
          rw [same j e] at t1 t2
          exact ⟨t, t1, by rw [List.foldl_cons]; exact t2⟩
  have mem : ∀ i, i ∈ idxWhere s.svcs.recs (fun r => decide (r.state = .orphaned)) ↔ (s.svc i).state = .orphaned := by
    intro i
    rw [idxWhere_eq, List.mem_filter]
    simp [State.svc]
  have nd : (idxWhere s.svcs.recs (fun r => decide (r.state = .orphaned))).Nodup := by
    rw [idxWhere_eq]
    exact (List.nodup_finRange 512).filter _
  obtain ⟨r1, r2⟩ := run _ s nd (fun i hi => (mem i).mp hi) (fun i hi => h i ((mem i).mp hi))
  refine ⟨r1, fun i => ⟨fun hi => (r2 i).1 (fun w => hi ((mem i).mp w)), fun hi => (r2 i).2 ((mem i).mpr hi)⟩⟩

/-! ### Cuts (R100, R117) -/

/-- R100: a cut of a path that has not locked ends its visit. -/
theorem path_cutFor_unlocked (ch : ChannelIdx) (s : State) (p : PathIdx) (h1 : (s.path p).scan = true)
    (h2 : (s.path p).cutPending = false) (h3 : (s.path p).state = .awaitTune ∨ (s.path p).state = .tuning) :
    (cutFor ch s p).path p = leftPath s.now (s.path p) := by
  unfold cutFor
  simp only
  generalize ht : countEvent .preemption none (s.path p).carrier { s with arb := { s.arb with cuts := s.arb.cuts ++ [(ch, p)] } } = t
  have tp : t.path p = s.path p := by rw [← ht]; rfl
  have tn : t.now = s.now := by rw [← ht]; rfl
  have e : cutPath p t = endScanVisit p .cut t := by
    unfold cutPath
    simp only [tp, h1, h2]
    rcases h3 with h | h <;> rw [h] <;> rfl
  rw [e, path_endScanVisit, tp, tn]

end Sys2Proof.Machine
end

