-- ==== Sys2Proof/Laws/Releases.lean ====
section
/-! SUPPORT. What the release of an unneeded carrying path, the setting of a carrying path at a claim, a claim's cut
and the search in rank order answer. -/

namespace Sys2Proof.Machine

/-! ### The parts that leaving a carrier does not touch -/

/-- `t` has everything of `s` but the paths, the inputs and the mark of a due arbitration. -/
structure LeavingOnly (s t : State) : Prop where
  plan : t.plan = s.plan
  mons : t.mons = s.mons
  carriers : t.carriers = s.carriers
  svcs : t.svcs = s.svcs
  claims : t.claims = s.claims
  port : t.port = s.port
  inExec : t.inExec = s.inExec
  cuts : t.arb.cuts = s.arb.cuts
  mode : t.arb.mode = s.arb.mode
  now : t.now = s.now
  rank : t.rank = s.rank

theorem leavingOnly_leaveCarrier (p : PathIdx) (s : State) : LeavingOnly s (leaveCarrier p s) := by
  unfold leaveCarrier stopTuning
  simp only
  split <;> split <;> (try split) <;> exact ⟨rfl, rfl, rfl, rfl, rfl, rfl, rfl, rfl, rfl, rfl, rfl⟩

/-! ### The release of an unneeded carrying path (R127, R139) -/

/-- R127: a carrier is needed while some claim holds it as its current or its target carrier. -/
theorem needed_eq_true (s : State) (c : CarrierIdx) :
    needed s c = true ↔ ∃ ch, (s.claim ch).current = some c ∨ (s.claim ch).target = some c := by
  unfold needed ClaimRec.holds
  rw [any_toList]
  simp only [Bool.or_eq_true, decide_eq_true_eq]
  exact Iff.rfl

/-- R102, R103, R127: a release leaves the state, or is that of the carrier's own carrying path. -/
theorem releaseUnneeded_cases (c : CarrierIdx) (s : State) :
    releaseUnneeded c s = s
      ∨ ∃ p, needed s c = false ∧ (s.car c).carrying = some p ∧ (s.path p).carrier = some c
        ∧ releaseUnneeded c s = releaseCarry p s := by
  unfold releaseUnneeded
  split
  · rename_i p hp
    split
    · exact Or.inl rfl
    · rename_i h
      simp only [Bool.or_eq_true, decide_eq_true_eq, not_or, Bool.not_eq_true, Decidable.not_not] at h
      exact Or.inr ⟨p, h.1, hp, h.2, rfl⟩
  · exact Or.inl rfl

/-- R102, R103: the release of a path at work in CARRY use is its carrier's loss of the carrying path, and its
leaving. -/
theorem releaseCarry_working (p : PathIdx) (c : CarrierIdx) (s : State) (h1 : (s.path p).use = some .carry)
    (h2 : (s.path p).state.working = true) (h3 : (s.path p).carrier = some c) :
    releaseCarry p s = leaveCarrier p (clearCarrying c s) := by
  unfold releaseCarry
  simp only [h1, h2, h3, decide_true, Bool.and_self, if_true]

theorem releaseCarry_not_working (p : PathIdx) (s : State)
    (h : ¬ ((s.path p).use = some .carry ∧ (s.path p).state.working = true)) : releaseCarry p s = s := by
  unfold releaseCarry
  simp only
  rw [if_neg]
  simpa using h

/-- A release changes the carrier record of the path's own carrier alone. -/
theorem car_releaseCarry (p : PathIdx) (s : State) (d : CarrierIdx) (h : (s.path p).carrier ≠ some d) :
    (releaseCarry p s).car d = s.car d := by
  have left : ∀ w : State, (leaveCarrier p w).car d = w.car d := fun w => by
    unfold State.car
    rw [carriers_leaveCarrier]
  unfold releaseCarry
  simp only
  split
  · split
    · rename_i c hc
      unfold clearCarrying
      rw [left, State.car_modCar, if_neg (by rintro rfl; exact h hc)]
    · rw [left]
  · rfl

theorem car_releaseUnneeded (c : CarrierIdx) (s : State) (d : CarrierIdx) (h : c ≠ d) :
    (releaseUnneeded c s).car d = s.car d := by
  rcases releaseUnneeded_cases c s with e | ⟨p, _, _, h3, e⟩
  · rw [e]
  · rw [e]
    exact car_releaseCarry p s d (fun k => h (Option.some.inj (h3.symm.trans k)))

theorem path_releaseUnneeded (c : CarrierIdx) (s : State) (q : PathIdx) (h : (s.path q).carrier ≠ some c) :
    (releaseUnneeded c s).path q = s.path q := by
  rcases releaseUnneeded_cases c s with e | ⟨p, _, _, h3, e⟩
  · rw [e]
  · rw [e]
    exact (pathEnds_releaseCarry p s).paths q (fun k => h (k ▸ h3))

theorem claims_releaseUnneeded (c : CarrierIdx) (s : State) : (releaseUnneeded c s).claims = s.claims := by
  rcases releaseUnneeded_cases c s with e | ⟨p, _, _, _, e⟩
  · rw [e]
  · rw [e]
    exact (pathEnds_releaseCarry p s).claims

/-! ### The setting of a carrying path, at one claim (R130) -/

/-- R130: a claim that waits for the carrier is examined; every other claim stays. -/
theorem claim_carryingSetToClaims (x : CarrierIdx) (s : State) (ch : ChannelIdx) :
    (carryingSetToClaims x s).claim ch = match (s.claim ch).service with
      | some i => if waitsFor s (s.claim ch) x then examined s i else s.claim ch
      | none => s.claim ch := by
  unfold carryingSetToClaims
  obtain ⟨w, w1, w2, w3⟩ := (forChannels_claimsOnly (examineWaiting x) (claimsOnly_examineWaiting x)
    (fun ch d s hd => by
      unfold examineWaiting
      split
      · split
        · rw [claim_examine, if_neg (Ne.symm hd)]
        · rfl
      · rfl) s).2 ch
  have same : waitsFor w (s.claim ch) x = waitsFor s (s.claim ch) x := by
    unfold waitsFor
    split
    · rw [w1.svc]
    · rfl
  rw [w3]
  unfold examineWaiting
  rw [w2]
  cases (s.claim ch).service with
  | none => exact w2
  | some i =>
    simp only
    rw [same]
    split
    · rw [claim_examine, if_pos rfl, w1.examined]
    · exact w2

/-! ### Cuts (R100, R101, R117) -/

/-- R100, R101: what a cut makes of a scan path at work that has none: it waits for the fourth sample, or its visit
ends. -/
theorem path_cutPath (p : PathIdx) (s : State) (h1 : (s.path p).scan = true) (h2 : (s.path p).cutPending = false)
    (h3 : (s.path p).state.working = true) :
    (cutPath p s).path p =
      if (s.path p).state = .engaged ∧ (s.path p).accum.burstDone = false ∧ (s.path p).accum.count < Config.halfBurst
      then { s.path p with cutPending := true, listening := false, collection := none, rosterTimer := none }
      else leftPath s.now (s.path p) := by
  unfold cutPath
  simp only [h1, h2, Bool.not_false, Bool.and_self, if_true]
  cases hs : (s.path p).state with
  | awaitTune => exact path_endScanVisit p .cut s
  | tuning => exact path_endScanVisit p .cut s
  | engaged =>
    cases hb : (s.path p).accum.burstDone with
    | true => exact path_endScanVisit p .cut s
    | false =>
      simp only [Bool.false_eq_true, if_false, true_and]
      split
      · rw [State.path_setPath, if_pos rfl]
      · exact path_endScanVisit p .cut s
  | idle => rw [hs] at h3; exact absurd h3 (by simp [PathState.working])
  | dwell => rw [hs] at h3; exact absurd h3 (by simp [PathState.working])
  | recovery => rw [hs] at h3; exact absurd h3 (by simp [PathState.working])

/-- R117: a claim's cut of a path is counted and noted for the claim; the record of the path is that of `path_cutPath`,
and no other path changes. -/
theorem path_cutFor (ch : ChannelIdx) (s : State) (p : PathIdx) (h1 : (s.path p).scan = true)
    (h2 : (s.path p).cutPending = false) (h3 : (s.path p).state.working = true) :
    (cutFor ch s p).path p =
      if (s.path p).state = .engaged ∧ (s.path p).accum.burstDone = false ∧ (s.path p).accum.count < Config.halfBurst
      then { s.path p with cutPending := true, listening := false, collection := none, rosterTimer := none }
      else leftPath s.now (s.path p) :=
  path_cutPath p (countEvent .preemption none (s.path p).carrier
    { s with arb := { s.arb with cuts := s.arb.cuts ++ [(ch, p)] } }) h1 h2 h3

/-- R79, R87, R100, R117: the inputs when a claim's cut is taken. -/
theorem follows_cutFor (ch : ChannelIdx) (s : State) (p : PathIdx) : Follows s (cutFor ch s p) :=
  (follows_of_paths rfl rfl : Follows s (countEvent .preemption none (s.path p).carrier
    { s with arb := { s.arb with cuts := s.arb.cuts ++ [(ch, p)] } })).trans (follows_cutPath p _)

/-! ### The search in rank order (R60, R63, R65) -/

theorem insertRanked_sorted (s : State) (a : CarrierIdx) (l : List CarrierIdx)
    (h : l.Pairwise (fun c d => score s d < score s c ∨ score s d = score s c ∧ c ≤ d)) :
    (insertRanked s a l).Pairwise (fun c d => score s d < score s c ∨ score s d = score s c ∧ c ≤ d) := by
  have before : ∀ b, ranksBefore s a b = true ↔ (score s b < score s a ∨ score s a = score s b ∧ a < b) := fun b => by
    unfold ranksBefore
    simp only [Bool.or_eq_true, Bool.and_eq_true, decide_eq_true_eq]
  induction l with
  | nil => simp [insertRanked]
  | cons b l ih =>
    obtain ⟨hb, hl⟩ := List.pairwise_cons.mp h
    have rb := before b
    unfold insertRanked
    split
    · rename_i k
      rw [rb] at k
      refine List.pairwise_cons.mpr ⟨fun x hx => ?_, h⟩
      rcases List.mem_cons.mp hx with e | e
      · subst e; simp only [Fin.lt_def, Fin.le_def] at *; omega
      · have := hb x e
        simp only [Fin.lt_def, Fin.le_def] at *; omega
    · rename_i k
      rw [rb] at k
      refine List.pairwise_cons.mpr ⟨fun x hx => ?_, ih hl⟩
      rcases (mem_insertRanked s a x l).mp hx with e | e
      · subst e; simp only [Fin.lt_def, Fin.le_def] at *; omega
      · exact hb x e

theorem foldr_insertRanked_sorted (s : State) (l : List CarrierIdx) :
    (l.foldr (insertRanked s) []).Pairwise (fun c d => score s d < score s c ∨ score s d = score s c ∧ c ≤ d) := by
  induction l with
  | nil => simp
  | cons b l ih => exact insertRanked_sorted s b _ ih

/-- R60: where only eligible carriers have the property, the search in rank order finds none if none of the list has it,
and otherwise the carrier of the highest score, and of those the lowest index. -/
theorem find?_rankOrder (s : State) (l : List CarrierIdx) (P : CarrierIdx → Bool)
    (hP : ∀ c, P c = true → eligible s c = true) :
    ((∀ c ∈ l, P c = false) → (rankOrder s l).find? P = none)
      ∧ ∀ c, c ∈ l → P c = true →
        (∀ d ∈ l, P d = true → score s d < score s c ∨ score s d = score s c ∧ c ≤ d) →
        (rankOrder s l).find? P = some c := by
  refine ⟨fun h => List.find?_eq_none.mpr (fun x hx => by simp [h x ((mem_rankOrder s x l).mp hx)]),
    fun c h1 h2 h3 => ?_⟩
  have ce : c ∈ (l.filter (eligible s)).foldr (insertRanked s) [] :=
    (mem_foldr_insertRanked s c _).mpr (List.mem_filter.mpr ⟨h1, hP c h2⟩)
  have sorted := foldr_insertRanked_sorted s (l.filter (eligible s))
  have sub : ∀ d, d ∈ (l.filter (eligible s)).foldr (insertRanked s) [] → d ∈ l := fun d hd =>
    (List.mem_filter.mp ((mem_foldr_insertRanked s d _).mp hd)).1
  unfold rankOrder
  rw [List.find?_append]
  generalize (l.filter (eligible s)).foldr (insertRanked s) [] = m at ce sorted sub ⊢
  cases hf : m.find? P with
  | none => exact absurd h2 (List.find?_eq_none.mp hf c ce)
  | some d =>
    obtain ⟨pd, as, bs, hl, hn⟩ := List.find?_eq_some_iff_append.mp hf
    have cd := h3 d (sub d (by rw [hl]; simp)) pd
    rw [hl] at sorted ce
    show some d = some c
    rcases List.mem_append.mp ce with h | h
    · have := hn c h
      rw [h2] at this
      simp at this
    · rcases List.mem_cons.mp h with h | h
      · rw [h]
      · have dc := (List.pairwise_cons.mp (List.pairwise_append.mp sorted).2.1).1 c h
        congr 1
        apply Fin.ext
        simp only [Fin.le_def] at *
        omega

end Sys2Proof.Machine
end

