-- ==== Sys2Proof/Laws/Evaluations.lean ====
section
/-! SUPPORT. What a change of eligibility makes of the claims and the reports, how a report to every claim counts events,
what a merge and a SET RANKING completion leave of the ranking, and how a collection orders its sections. -/

namespace Sys2Proof.Machine

/-! ### A report to every claim -/

theorem claim_becomeWaiting (ch d : ChannelIdx) (i : ServiceIdx) (s : State) :
    (becomeWaiting ch i s).claim d = if ch = d then examined s i else s.claim d := by
  unfold becomeWaiting
  rw [claim_examine, (claimsOnly_countEvent _ _ _ s).examined]
  rfl

theorem due_changeClaim (ch : ChannelIdx) (c : ClaimRec) (s : State) (h : s.arb.due = true) :
    (changeClaim ch c s).arb.due = true := by
  unfold changeClaim
  simp only
  split
  · rfl
  · unfold setClaim
    split <;> exact h

/-- Where a report counts, at each claim, what `g` counts from the claim as it was, the whole report counts what a run
of `g` over the claims counts. -/
theorem mons_forChannels (f : ChannelIdx → State → State) (g : State → ChannelIdx → State) (s : State)
    (hR : ∀ ch t, ClaimsOnly t (f ch t)) (hc : ∀ ch d t, d ≠ ch → (f ch t).claim d = t.claim d)
    (hm : ∀ ch t w, ClaimsOnly s t → t.claim ch = s.claim ch → t.mons = w.mons → (f ch t).mons = (g w ch).mons) :
    (forChannels f s).mons = ((List.finRange 32).foldl g s).mons := by
  unfold forChannels
  have run : ∀ (l : List ChannelIdx) (t w : State), l.Nodup → ClaimsOnly s t → (∀ ch ∈ l, t.claim ch = s.claim ch) →
      t.mons = w.mons → (l.foldl (fun s ch => f ch s) t).mons = (l.foldl g w).mons := by
    intro l
    induction l with
    | nil => exact fun _ _ _ _ _ h => h
    | cons a l ih =>
      intro t w nd co same h
      obtain ⟨n1, n2⟩ := List.nodup_cons.mp nd
      refine ih _ _ n2 (co.trans (hR a t)) (fun ch hch => ?_) (hm a t w co (same a (by simp)) h)
      rw [hc a ch t (by rintro rfl; exact n1 hch)]
      exact same ch (by simp [hch])
  exact run _ s s (List.nodup_finRange 32) (ClaimsOnly.refl s) (fun _ _ => rfl) rfl

/-! ### A change of eligibility (R61, R136) -/

@[simp] theorem evals_pushReport (k : EvalCause) (c : Option CarrierIdx) (l : List ServiceIdx) (s : State) :
    (pushReport k c l s).rank.evals = if l = [] then s.rank.evals else s.rank.evals ++ [⟨k, c, l⟩] := by
  unfold pushReport
  split <;> rfl

theorem claimsOnly_demandAfterExamination (x : CarrierIdx) (ch : ChannelIdx) (s : State) :
    ClaimsOnly s (handoverDemand x ch (examineWaiting x ch s)) := by
  refine (claimsOnly_examineWaiting x ch s).trans ?_
  unfold handoverDemand
  split
  · exact claimsOnly_raiseArb _
  · exact ClaimsOnly.refl _

theorem claim_demandAfterExamination (x : CarrierIdx) (ch d : ChannelIdx) (s : State) :
    (handoverDemand x ch (examineWaiting x ch s)).claim d = (examineWaiting x ch s).claim d := by
  unfold handoverDemand
  split <;> rfl

theorem claim_examineWaiting (x : CarrierIdx) (ch d : ChannelIdx) (s : State) :
    (examineWaiting x ch s).claim d = if ch = d then (match (s.claim ch).service with
      | some i => if waitsFor s (s.claim ch) x then examined s i else s.claim ch
      | none => s.claim ch) else s.claim d := by
  unfold examineWaiting
  by_cases e : ch = d
  · subst e
    rw [if_pos rfl]
    cases (s.claim ch).service with
    | none => rfl
    | some i =>
      simp only
      split
      · rw [claim_examine, if_pos rfl]
      · rfl
  · rw [if_neg e]
    split
    · split
      · rw [claim_examine, if_neg e]
      · rfl
    · rfl

/-- R136: a claim that waits for the carrier is examined; every other claim stays. -/
theorem claim_eligibilityToClaims (x : CarrierIdx) (s : State) (ch : ChannelIdx) :
    (eligibilityToClaims x s).claim ch = match (s.claim ch).service with
      | some i => if waitsFor s (s.claim ch) x then examined s i else s.claim ch
      | none => s.claim ch := by
  unfold eligibilityToClaims
  obtain ⟨w, w1, w2, w3⟩ := (forChannels_claimsOnly (fun ch s => handoverDemand x ch (examineWaiting x ch s))
    (claimsOnly_demandAfterExamination x) (fun ch d t hd => by
      rw [claim_demandAfterExamination, claim_examineWaiting, if_neg (Ne.symm hd)]) s).2 ch
  have same : waitsFor w (s.claim ch) x = waitsFor s (s.claim ch) x := by
    unfold waitsFor
    split
    · rw [w1.svc]
    · rfl
  rw [w3]
  rw [claim_demandAfterExamination, claim_examineWaiting, if_pos rfl, w2, same]
  cases (s.claim ch).service with
  | none => rfl
  | some i => simp only; rw [w1.examined]

theorem claimsOnly_eligibilityToClaims (x : CarrierIdx) (s : State) : ClaimsOnly s (eligibilityToClaims x s) :=
  (forChannels_claimsOnly _ (claimsOnly_demandAfterExamination x) (fun ch d t hd => by
    rw [claim_demandAfterExamination, claim_examineWaiting, if_neg (Ne.symm hd)]) s).1

/-! ### The ranking through departures and merges (R11, R39, R40) -/

theorem rank_applyChange (i : ServiceIdx) (r : ServiceRec) (s : State) : (applyChange i r s).rank = s.rank := by
  rw [(steady_applyChange i r s).rank, (commit_others i r s).1]

theorem rank_depart (c : CarrierIdx) (s : State) (i : ServiceIdx) : (depart c s i).rank = s.rank := by
  unfold depart
  simp only
  split
  · rw [rank_applyChange]
    rfl
  · rfl

theorem rank_departs (c : CarrierIdx) (l : List ServiceIdx) (s : State) : (l.foldl (depart c) s).rank = s.rank := by
  induction l generalizing s with
  | nil => rfl
  | cons a l ih => rw [List.foldl_cons, ih, rank_depart]

theorem rank_joinRecord (c : CarrierIdx) (i : ServiceIdx) (r : ServiceRec) (acc : State × List ServiceIdx) :
    (joinRecord c i r acc).1.rank = acc.1.rank := by
  show (applyChange i _ acc.1).rank = _
  rw [rank_applyChange]

theorem rank_mergeEntry (c : CarrierIdx) (again : Bool) (acc : State × List ServiceIdx) (e : KeyedEntry) :
    (mergeEntry c again acc e).1.rank = acc.1.rank := by
  unfold mergeEntry
  simp only
  split
  · rfl
  · split
    · split
      · exact rank_applyChange _ _ _
      · split
        · exact rank_joinRecord _ _ _ _
        · exact rank_applyChange _ _ _
    · split
      · exact rank_joinRecord _ _ _ _
      · rfl

theorem rank_mergeEntries (c : CarrierIdx) (seen : List Key) (es : List KeyedEntry) (acc : State × List ServiceIdx) :
    (mergeEntries c seen es acc).1.rank = acc.1.rank := by
  induction es generalizing seen acc with
  | nil => rfl
  | cons e es ih => unfold mergeEntries; rw [ih, rank_mergeEntry]

/-- Where eligibility and scores agree, so does the rank order. -/
theorem rankOrder_agree {s t : State} (he : ∀ c, eligible t c = eligible s c) (hs : ∀ c, score t c = score s c)
    (l : List CarrierIdx) : rankOrder t l = rankOrder s l := by
  have e : eligible t = eligible s := funext he
  have b : ranksBefore t = ranksBefore s := by
    funext a c
    unfold ranksBefore
    rw [hs, hs]
  have i : insertRanked t = insertRanked s := by
    funext a l
    induction l with
    | nil => rfl
    | cons c l ih => unfold insertRanked; rw [b, ih]
  unfold rankOrder
  rw [e, i]

/-! ### The completion of SET RANKING (R163) -/

/-- It changes the request in execution and the response FIFO alone. -/
theorem setRankingComplete_parts (s : State) :
    setRankingComplete s
      = { s with inExec := (setRankingComplete s).inExec, port := (setRankingComplete s).port } := by
  unfold setRankingComplete finish
  split
  · split
    · rfl
    · split
      · rfl
      · simp only
        split <;> rfl
  · rfl

/-! ### Collections (R31, R34) -/

theorem insertSection_shape (y : AnnSection) (l : List AnnSection) :
    ∃ as bs, l = as ++ bs ∧ insertSection y l = as ++ y :: bs := by
  induction l with
  | nil => exact ⟨[], [], rfl, rfl⟩
  | cons a l ih =>
    unfold insertSection
    split
    · exact ⟨[], a :: l, rfl, rfl⟩
    · obtain ⟨as, bs, h1, h2⟩ := ih
      exact ⟨a :: as, bs, by rw [h1]; rfl, by rw [h2]; rfl⟩

theorem insertSection_sorted (y : AnnSection) (l : List AnnSection)
    (h : l.Pairwise (fun a b => a.number < b.number)) (hn : ∀ z ∈ l, z.number ≠ y.number) :
    (insertSection y l).Pairwise (fun a b => a.number < b.number) := by
  induction l with
  | nil => exact List.pairwise_singleton _ _
  | cons a l ih =>
    obtain ⟨h1, h2⟩ := List.pairwise_cons.mp h
    unfold insertSection
    split
    · rename_i q
      refine List.pairwise_cons.mpr ⟨fun z hz => ?_, h⟩
      rcases List.mem_cons.mp hz with e | e
      · subst e
        exact q
      · exact Nat.lt_trans q (h1 z e)
    · rename_i q
      refine List.pairwise_cons.mpr ⟨fun z hz => ?_, ih h2 (fun z hz => hn z (List.mem_cons_of_mem _ hz))⟩
      obtain ⟨as, bs, e1, e2⟩ := insertSection_shape y l
      rw [e2, List.mem_append, List.mem_cons] at hz
      rw [e1] at h1
      rcases hz with e | e | e
      · exact h1 z (List.mem_append.mpr (Or.inl e))
      · subst e
        have := hn a (List.mem_cons_self ..)
        omega
      · exact h1 z (List.mem_append.mpr (Or.inr e))

end Sys2Proof.Machine
end

