-- ==== Sys2Proof/Laws/Frames.lean ====
section
/-! SUPPORT. The frame of every command: which of the values that the host sets, of the service records and of the
carrier records it leaves as they are. -/

namespace Sys2Proof.Machine

/-- What a command leaves: each value is left by every command but those named. -/
structure Leaves (c : Instr) (s t : State) : Prop where
  settings : c ≠ .setRanking → t.rank.settings = s.rank.settings
  scan : c ≠ .scanControl → t.arb.reserve = s.arb.reserve ∧ t.plan.sweepEnabled = s.plan.sweepEnabled
  suppressed : c ≠ .retire → c ≠ .unsuppress → t.svcs.suppressed = s.svcs.suppressed
  kinds : c ≠ .defineInput → ∀ i, (t.inp i).kind = (s.inp i).kind
  carriers : c ≠ .defineCarrier → c ≠ .forgetCarrier →
    (∀ i, (t.inp i).carrierCount = (s.inp i).carrierCount) ∧ ∀ k, (t.car k).params = (s.car k).params
  history : (∀ i, c ≠ .tuneStart i) → ∀ i, (t.inp i).history = (s.inp i).history
  level : c ≠ .setPort → t.port.attentionLevel = s.port.attentionLevel
  mode : c ≠ .activate → c ≠ .standby → t.arb.mode = s.arb.mode ∨ (s.arb.mode = .stopping ∧ t.arb.mode = .standby)
  monitors : c ≠ .setMonitor → ∀ m, (t.mon m).select = (s.mon m).select ∧ (t.mon m).threshold = (s.mon m).threshold
  now : timed c = false → t.now = s.now
  records : changesRecords c = false → ∀ i, (s.svc i).state ≠ .orphaned → t.svc i = s.svc i
  others : changesCarriers c = false → ∀ k, { t.car k with carrying := none } = { s.car k with carrying := none }
  noted : c ≠ .claimChanges → Noted s.claims t.claims

theorem Leaves.refl (c : Instr) (s : State) : Leaves c s s :=
  ⟨fun _ => rfl, fun _ => ⟨rfl, rfl⟩, fun _ _ => rfl, fun _ _ => rfl, fun _ _ => ⟨fun _ => rfl, fun _ => rfl⟩,
    fun _ _ => rfl, fun _ => rfl, fun _ _ => Or.inl rfl, fun _ _ => ⟨rfl, rfl⟩, fun _ => rfl, fun _ _ _ => rfl,
    fun _ _ => rfl, fun _ => Noted.refl _⟩

theorem Leaves.trans {c : Instr} {s t u : State} (a : Leaves c s t) (b : Leaves c t u) : Leaves c s u where
  settings h := (b.settings h).trans (a.settings h)
  scan h := ⟨(b.scan h).1.trans (a.scan h).1, (b.scan h).2.trans (a.scan h).2⟩
  suppressed h k := (b.suppressed h k).trans (a.suppressed h k)
  kinds h i := (b.kinds h i).trans (a.kinds h i)
  carriers h k := ⟨fun i => ((b.carriers h k).1 i).trans ((a.carriers h k).1 i),
    fun d => ((b.carriers h k).2 d).trans ((a.carriers h k).2 d)⟩
  history h i := (b.history h i).trans (a.history h i)
  level h := (b.level h).trans (a.level h)
  mode h k := by
    rcases a.mode h k with x | x
    · rw [← x]; exact b.mode h k
    · rcases b.mode h k with y | y
      · exact Or.inr ⟨x.1, y.trans x.2⟩
      · rw [x.2] at y; exact absurd y.1 (by simp)
  monitors h m := ⟨((b.monitors h m).1).trans (a.monitors h m).1, ((b.monitors h m).2).trans (a.monitors h m).2⟩
  now h := (b.now h).trans (a.now h)
  records h i n := (b.records h i (by rw [a.records h i n]; exact n)).trans (a.records h i n)
  others h k := (b.others h k).trans (a.others h k)
  noted h := (a.noted h).trans (b.noted h)

/-- An operation inside a step, by what it keeps and what it leaves of the two tables. -/
theorem KeepsBase.leaves {c : Instr} {s t : State} (k : KeepsBase s t)
    (r : changesRecords c = false → ∀ i, (s.svc i).state ≠ .orphaned → t.svc i = s.svc i)
    (o : changesCarriers c = false → ∀ d, { t.car d with carrying := none } = { s.car d with carrying := none }) :
    Leaves c s t where
  settings _ := k.settings
  scan _ := ⟨k.reserve, k.sweep⟩
  suppressed _ _ := k.suppressed
  kinds _ i := (k.inputs i).1
  carriers _ _ := ⟨fun i => (k.inputs i).2.1, k.params⟩
  history _ i := (k.inputs i).2.2
  level _ := by rw [k.port]
  mode _ _ := k.mode
  monitors _ := k.monitors
  now _ := k.now
  records := r
  others := o
  noted _ := k.noted

theorem Settled.leaves {c : Instr} {s t : State} (h : Settled s t) (k : Keeps s t) : Leaves c s t :=
  k.leaves (fun _ => h.svc) (fun _ => h.cars)

theorem Steady.leavesBase {c : Instr} {s t : State} (h : Steady s t) (k : KeepsBase s t) : Leaves c s t :=
  k.leaves (fun _ => h.settled.svc) (fun _ => h.settled.cars)

theorem Steady.leaves {c : Instr} {s t : State} (h : Steady s t) (k : Keeps s t) : Leaves c s t := h.settled.leaves k

/-- An update that the frame does not speak of. -/
theorem leaves_of_parts (c : Instr) {s t : State} (r : t.rank.settings = s.rank.settings) (a : t.arb.reserve = s.arb.reserve)
    (m : t.arb.mode = s.arb.mode) (p : t.plan.sweepEnabled = s.plan.sweepEnabled) (v : t.svcs = s.svcs)
    (i : t.inputs = s.inputs) (l : t.port.attentionLevel = s.port.attentionLevel) (n : t.mons = s.mons)
    (w : t.now = s.now) (k : t.carriers = s.carriers) (d : c ≠ .claimChanges → t.claims = s.claims) : Leaves c s t :=
  ⟨fun _ => r, fun _ => ⟨a, p⟩, fun _ _ => by rw [v], fun _ _ => by unfold State.inp; rw [i],
    fun _ _ => ⟨fun _ => by unfold State.inp; rw [i], fun _ => by unfold State.car; rw [k]⟩,
    fun _ _ => by unfold State.inp; rw [i], fun _ => l, fun _ _ => Or.inl m, fun _ _ => by unfold State.mon; rw [n]; exact ⟨rfl, rfl⟩,
    fun _ => w, fun _ _ _ => by unfold State.svc; rw [v], fun _ _ => by unfold State.car; rw [k],
    fun h => by rw [d h]; exact Noted.refl _⟩

theorem leaves_reply (c : Instr) (e : ReqEntry) (k : Completion) (l : List Word) (s : State) : Leaves c s (reply e k l s) :=
  leaves_of_parts c rfl rfl rfl rfl rfl rfl rfl rfl rfl rfl fun _ => rfl

theorem leaves_inExec (c : Instr) (s : State) (o : Option Execution) : Leaves c s { s with inExec := o } :=
  leaves_of_parts c rfl rfl rfl rfl rfl rfl rfl rfl rfl rfl fun _ => rfl

theorem leaves_closeStep {c : Instr} {s t : State} (h : Leaves c s t) : Leaves c s (closeStep t) :=
  h.trans ((settled_closeStep t).leaves (keeps_closeStep t))

/-- The clock reaches the moment of a timed command. -/
theorem leaves_reach (c : Instr) (n : Nat) (s : State) (h : timed c = true) : Leaves c s (reach n s) :=
  { Leaves.refl c s with now := fun k => by rw [h] at k; cases k }

/-! ### Requests -/

/-- The request whose run has the frame has it when taken. -/
theorem leaves_takeRequest (c : Instr) (code : ReqCode) (run : ReqEntry → State → State)
    (h : ∀ e s, Leaves c s (run e s)) (s : State) : Leaves c s (takeRequest code run s) := by
  rcases takeRequest_cases code run s with e | ⟨e, _, _, _, q⟩
  · rw [e]; exact Leaves.refl c s
  · rw [q]
    have d : Leaves c s (dropHead s) := leaves_of_parts c rfl rfl rfl rfl rfl rfl rfl rfl rfl rfl fun _ => rfl
    refine d.trans ?_
    unfold checked
    split
    · split
      · exact leaves_reply c _ _ _ _
      · exact leaves_reply c _ _ _ _
      · exact h e _
    · exact leaves_reply c _ _ _ _

/-! ### Requests that set values, and those that change the tables -/

theorem leaves_setMon (c : Instr) (s : State) (m : MonitorIdx) (r : Monitor)
    (h : c ≠ .setMonitor → r.select = (s.mon m).select ∧ r.threshold = (s.mon m).threshold) : Leaves c s (s.setMon m r) :=
  { Leaves.refl c s with
    monitors := fun k n => by
      rw [State.mon_setMon]
      by_cases e : m = n
      · rw [if_pos e, ← e]; exact h k
      · rw [if_neg e]; exact ⟨rfl, rfl⟩ }

theorem leaves_modInp (c : Instr) (s : State) (i : InputIdx) (f : InputRec → InputRec)
    (a : c ≠ .defineInput → ∀ r, (f r).kind = r.kind)
    (b : c ≠ .defineCarrier → c ≠ .forgetCarrier → ∀ r, (f r).carrierCount = r.carrierCount)
    (d : (∀ i, c ≠ .tuneStart i) → ∀ r, (f r).history = r.history) : Leaves c s (s.modInp i f) where
  __ := Leaves.refl c s
  kinds h j := by
    rw [State.inp_modInp]
    by_cases e : i = j
    · rw [if_pos e, a h, e]
    · rw [if_neg e]
  carriers h k := ⟨fun j => by
    rw [State.inp_modInp]
    by_cases e : i = j
    · rw [if_pos e, b h k, e]
    · rw [if_neg e], fun _ => rfl⟩
  history h j := by
    rw [State.inp_modInp]
    by_cases e : i = j
    · rw [if_pos e, d h, e]
    · rw [if_neg e]

theorem leaves_runActivate (e : ReqEntry) (s : State) : Leaves .activate s (runActivate e s) := by
  have a : Leaves .activate s { s with arb := { s.arb with mode := .active } } :=
    { Leaves.refl _ s with mode := fun h => absurd rfl h }
  refine a.trans ?_
  unfold runActivate
  simp only
  have h : ∀ (ch : ChannelIdx) (t : State), Steady t (match (t.claim ch).service with
      | some svc => if (t.claim ch).reason = some .standby then examine ch svc t else t
      | none => t) ∧ Keeps t (match (t.claim ch).service with
      | some svc => if (t.claim ch).reason = some .standby then examine ch svc t else t
      | none => t) := fun ch t => by
    split
    · rename_i hs
      split
      · exact ⟨steady_examine ch _ t, keeps_examine ch _ t hs⟩
      · exact ⟨Steady.refl t, Keeps.refl t⟩
    · exact ⟨Steady.refl t, Keeps.refl t⟩
  refine Leaves.trans ?_ ((leaves_reply _ e .done [] _).trans ((steady_raiseArb _).leaves (keeps_raiseArb _)))
  exact (Steady.forChannels _ (fun ch t => (h ch t).1) _).leaves (Keeps.forChannels _ (fun ch t => (h ch t).2) _)

theorem steady_standbyClaim (ch : ChannelIdx) (s : State) : Steady s (standbyClaim ch s) := by
  unfold standbyClaim
  split
  · exact steady_setClaim ch _ s
  · exact Steady.refl s

theorem steady_standbyEffects (s : State) : Steady s (standbyEffects s) := by
  unfold standbyEffects
  simp only
  refine Steady.trans ?_ (Steady.foldl _ (fun s p => steady_releaseCarry p s) _ _)
  refine Steady.trans ?_ (Steady.foldl _ (fun s p => steady_abandonForStandby p s) _ _)
  refine (Steady.forChannels _ steady_standbyClaim s).trans ?_
  exact steady_cuts _ _ _

theorem leaves_runStandby (e : ReqEntry) (s : State) : Leaves .standby s (runStandby e s) := by
  have a : ∀ m, Leaves .standby s { s with arb := { s.arb with mode := m } } := fun m =>
    { Leaves.refl _ s with mode := fun _ h => absurd rfl h }
  unfold runStandby
  split
  · exact ((a _).trans ((steady_standbyEffects _).leaves (keeps_standbyEffects _))).trans (leaves_reply _ _ _ _ _)
  · exact ((a _).trans ((steady_standbyEffects _).leaves (keeps_standbyEffects _))).trans (leaves_inExec _ _ _)

theorem leaves_runScanControl (e : ReqEntry) (s : State) : Leaves .scanControl s (runScanControl e s) := by
  unfold runScanControl
  simp only
  split
  · exact leaves_reply _ _ _ _ _
  · split
    · exact leaves_reply _ _ _ _ _
    · have a : Leaves .scanControl s (setScan (e.arg 0).toNat (decide ((e.arg 1).toNat = 1)) s) :=
        { Leaves.refl _ s with scan := fun h => absurd rfl h }
      have b := a.trans (leaves_reply _ e .done [] _)
      split
      · exact b.trans ((steady_raiseArb _).leaves (keeps_raiseArb _))
      · exact b

theorem leaves_pushReport (c : Instr) (k : EvalCause) (o : Option CarrierIdx) (l : List ServiceIdx) (s : State) :
    Leaves c s (pushReport k o l s) := by
  unfold pushReport
  split
  · exact Leaves.refl c s
  · exact leaves_of_parts c rfl rfl rfl rfl rfl rfl rfl rfl rfl rfl fun _ => rfl

theorem leaves_setRankingEffects (g : Settings) (s : State) : Leaves .setRanking s (setRankingEffects g s) := by
  unfold setRankingEffects
  simp only
  refine Leaves.trans ?_ (leaves_pushReport _ _ _ _ _)
  exact { Leaves.refl _ s with
    settings := fun h => absurd rfl h
    carriers := fun _ _ => ⟨fun _ => rfl, fun k => by simp [State.car, rescored]⟩
    others := fun h => by cases h }

theorem leaves_runSetRanking (e : ReqEntry) (s : State) : Leaves .setRanking s (runSetRanking e s) := by
  unfold runSetRanking
  simp only
  split
  · exact leaves_reply _ _ _ _ _
  · split
    · exact (leaves_setRankingEffects _ s).trans (leaves_inExec _ _ _)
    · exact (leaves_setRankingEffects _ s).trans (leaves_reply _ _ _ _ _)

theorem leaves_runSetPort (e : ReqEntry) (s : State) : Leaves .setPort s (runSetPort e s) := by
  unfold runSetPort
  simp only
  split
  · exact leaves_reply _ _ _ _ _
  · have a : Leaves .setPort s { s with port := { s.port with attentionLevel := (e.arg 0).toNat } } :=
      { Leaves.refl _ s with level := fun h => absurd rfl h }
    exact a.trans (leaves_reply _ _ _ _ _)

theorem leaves_runSettle (e : ReqEntry) (s : State) : Leaves .settle s (runSettle e s) := by
  unfold runSettle
  simp only
  split
  · exact leaves_reply _ _ _ _ _
  · split
    · exact leaves_reply _ _ _ _ _
    · exact leaves_inExec _ _ _

theorem leaves_runDefineInput (e : ReqEntry) (s : State) : Leaves .defineInput s (runDefineInput e s) := by
  unfold runDefineInput
  split
  · split
    · exact leaves_reply _ _ _ _ _
    · simp only
      refine Leaves.trans ?_ (leaves_reply _ _ _ _ _)
      exact leaves_modInp _ s _ _ (fun h => absurd rfl h) (fun _ _ _ => rfl) (fun _ _ => rfl)
  · exact leaves_reply _ _ _ _ _

theorem leaves_setCar (c : Instr) (s : State) (d : CarrierIdx) (r : CarrierRec)
    (a : c ≠ .defineCarrier → c ≠ .forgetCarrier → r.params = (s.car d).params)
    (b : changesCarriers c = true) : Leaves c s (s.setCar d r) :=
  { Leaves.refl c s with
    carriers := fun h k => ⟨fun _ => rfl, fun x => by
      rw [State.car_setCar]
      by_cases e : d = x
      · rw [if_pos e, a h k, e]
      · rw [if_neg e]⟩
    others := fun h => by rw [b] at h; cases h }

theorem leaves_runDefineCarrier (e : ReqEntry) (s : State) : Leaves .defineCarrier s (runDefineCarrier e s) := by
  unfold runDefineCarrier
  split
  · exact leaves_reply _ _ _ _ _
  · simp only
    split
    · split
      · exact leaves_reply _ _ _ _ _
      · split
        · exact leaves_reply _ _ _ _ _
        · refine Leaves.trans ?_ ((steady_raiseArb _).leaves (keeps_raiseArb _))
          refine Leaves.trans ?_ (leaves_reply _ _ _ _ _)
          exact (leaves_setCar _ s _ _ (fun h => absurd rfl h) rfl).trans
            (leaves_modInp _ _ _ _ (fun _ _ => rfl) (fun h => absurd rfl h) (fun _ _ => rfl))
    · exact leaves_reply _ _ _ _ _

/-- A command that may change both tables. -/
theorem Keeps.leavesRest {c : Instr} {s t : State} (k : Keeps s t) (a : changesRecords c = true)
    (b : changesCarriers c = true) : Leaves c s t :=
  k.leaves (fun h => by rw [a] at h; cases h) (fun h => by rw [b] at h; cases h)

theorem leaves_runForgetCarrier (e : ReqEntry) (s : State) : Leaves .forgetCarrier s (runForgetCarrier e s) := by
  unfold runForgetCarrier
  split
  · exact leaves_reply _ _ _ _ _
  · rename_i c _
    split
    · exact leaves_reply _ _ _ _ _
    · split
      · exact leaves_reply _ _ _ _ _
      · refine Leaves.trans ?_ (leaves_reply _ _ _ _ _)
        unfold forgetEffects
        simp only
        refine Leaves.trans ?_ (leaves_setCar _ _ _ _ (fun _ h => absurd rfl h) rfl)
        generalize ht : (dropEntry c ((List.finRange 8).foldl (forgetOnPath c) s)) = t
        have a : Keeps s t := by
          subst ht
          exact (Keeps.foldl _ (keeps_forgetOnPath c) _ s).trans (keeps_dropEntry c _)
        have b := (a.trans (Keeps.foldl (depart c) (keeps_depart c) (t.car c).announced t)).leavesRest
          (c := .forgetCarrier) rfl rfl
        generalize (t.car c).announced.foldl (depart c) t = u at b ⊢
        split
        · exact b.trans (leaves_modInp _ _ _ _ (fun _ _ => rfl) (fun _ h => absurd rfl h) (fun _ _ => rfl))
        · exact b

/-- A change of one record, by a command that may change the records. -/
theorem leaves_change (c : Instr) (a : changesRecords c = true) (i : ServiceIdx) (r : ServiceRec) (s : State)
    (k : Keeps s (applyChange i r s)) : Leaves c s (applyChange i r s) :=
  k.leaves (fun h => by rw [a] at h; cases h) (fun _ d => by
    have e : (commit i r s).car d = s.car d := by unfold State.car; rw [(commit_others i r s).2.1]
    rw [(steady_applyChange i r s).cars d, e])

theorem leaves_runEnrol (e : ReqEntry) (s : State) : Leaves .enrol s (runEnrol e s) := by
  unfold runEnrol
  simp only
  split
  · exact leaves_reply _ _ _ _ _
  · rename_i hs
    split
    · exact leaves_reply _ _ _ _ _
    · rename_i hl
      split
      · rename_i i r hr
        exact (leaves_change _ rfl i r s (keeps_applyChange i r s (lawful_enrolled hr hl hs))).trans
          (leaves_reply _ _ _ _ _)
      · exact leaves_reply _ _ _ _ _

theorem leaves_runPin (e : ReqEntry) (s : State) : Leaves .pin s (runPin e s) := by
  unfold runPin
  split
  · rename_i i c _ _
    simp only
    split
    · exact leaves_reply _ _ _ _ _
    · rename_i hf
      split
      · exact leaves_reply _ _ _ _ _
      · split
        · exact leaves_reply _ _ _ _ _
        · rename_i hc
          split
          · exact leaves_reply _ _ _ _ _
          · refine Leaves.trans ?_ (leaves_reply _ _ _ _ _)
            have k := keeps_pin i c s hf (by simpa using hc)
            revert k
            split
            · exact fun _ => Leaves.refl _ s
            · exact fun k => leaves_change _ rfl i _ s k
  · exact leaves_reply _ _ _ _ _

theorem leaves_runUnpin (e : ReqEntry) (s : State) : Leaves .unpin s (runUnpin e s) := by
  unfold runUnpin
  split
  · exact leaves_reply _ _ _ _ _
  · rename_i i _
    simp only
    split
    · exact leaves_reply _ _ _ _ _
    · rename_i hf
      refine Leaves.trans ?_ (leaves_reply _ _ _ _ _)
      have k := keeps_unpin i s hf
      revert k
      split
      · exact fun _ => Leaves.refl _ s
      · exact fun k => leaves_change _ rfl i _ s k

theorem leaves_runRetire (e : ReqEntry) (s : State) : Leaves .retire s (runRetire e s) := by
  unfold runRetire
  simp only
  split
  · exact leaves_reply _ _ _ _ _
  · rename_i i _
    split
    · exact leaves_reply _ _ _ _ _
    · split
      · exact leaves_reply _ _ _ _ _
      · split
        · exact leaves_reply _ _ _ _ _
        · split
          · exact leaves_reply _ _ _ _ _
          · rename_i hc
            split
            · exact leaves_reply _ _ _ _ _
            · refine Leaves.trans ?_ (leaves_reply _ _ _ _ _)
              have k := (keeps_retireIfLive i s (by omega)).leavesRest (c := .retire) rfl rfl
              unfold retireEffects
              simp only
              generalize (if (s.svc i).state.live = true then retireRecord i s else s) = t at k ⊢
              split
              · refine k.trans ?_
                unfold suppress
                split
                · exact Leaves.refl _ t
                · exact { Leaves.refl _ t with
                    suppressed := fun h => absurd rfl h
                    records := fun h => by cases h }
              · exact k

theorem leaves_runUnsuppress (e : ReqEntry) (s : State) : Leaves .unsuppress s (runUnsuppress e s) := by
  unfold runUnsuppress
  simp only
  split
  · refine Leaves.trans ?_ (leaves_reply _ _ _ _ _)
    exact { Leaves.refl _ s with suppressed := fun _ h => absurd rfl h }
  · exact leaves_reply _ _ _ _ _

theorem leaves_refreshWith (e : ReqEntry) (l : List CarrierIdx) (s : State) (hn : ServicesShaped s → l.Nodup) :
    Leaves .refresh s (refreshWith e l s) := by
  unfold refreshWith
  simp only
  split
  · rename_i h
    refine Leaves.trans ?_ (leaves_reply _ _ _ _ _)
    exact (Steady.foldl (fun s c => joinQueue c s) (fun s c => steady_joinQueue c s) _ s).leaves (keeps_refresh l s hn h)
  · exact leaves_reply _ _ _ _ _

theorem leaves_runRefresh (e : ReqEntry) (s : State) : Leaves .refresh s (runRefresh e s) := by
  unfold runRefresh
  split
  · split
    · exact leaves_reply _ _ _ _ _
    · split
      · exact leaves_reply _ _ _ _ _
      · exact leaves_refreshWith e _ s (fun _ => List.nodup_singleton _)
  · split
    · exact leaves_reply _ _ _ _ _
    · split
      · exact leaves_reply _ _ _ _ _
      · exact leaves_refreshWith e _ s (nodup_ranked _ s)
  · exact leaves_reply _ _ _ _ _

theorem leaves_setSvc (c : Instr) (a : changesRecords c = true) (i : ServiceIdx) (r : ServiceRec) (s : State) :
    Leaves c s (s.setSvc i r) :=
  { Leaves.refl c s with records := fun h => by rw [a] at h; cases h }

theorem leaves_runClaim (e : ReqEntry) (s : State) : Leaves .claim s (runClaim e s) := by
  unfold runClaim
  split
  · split
    · exact leaves_reply _ _ _ _ _
    · split
      · exact leaves_reply _ _ _ _ _
      · refine Leaves.trans ?_ (leaves_reply _ _ _ _ _)
        exact (leaves_setSvc _ rfl _ _ s).trans ((steady_examine _ _ _).leavesBase (base_examine _ _ _))
  · exact leaves_reply _ _ _ _ _

theorem leaves_runReleaseClaim (e : ReqEntry) (s : State) : Leaves .releaseClaim s (runReleaseClaim e s) := by
  unfold runReleaseClaim
  split
  · exact leaves_reply _ _ _ _ _
  · rename_i ch _
    refine Leaves.trans ?_ (leaves_reply _ _ _ _ _)
    unfold releaseEffects
    simp only
    split
    · exact Leaves.refl _ s
    · rename_i i _
      refine (leaves_setSvc _ rfl i { s.svc i with claimCount := (s.svc i).claimCount - 1 } s).trans (Steady.leavesBase ?_ ?_)
      · exact ((steady_changeClaim ch .free _).trans (steady_releaseUnneeded? _ _)).trans (steady_releaseUnneeded? _ _)
      · exact base_released ch _ _ _

theorem leaves_runSetMonitor (e : ReqEntry) (s : State) : Leaves .setMonitor s (runSetMonitor e s) := by
  unfold runSetMonitor
  split
  · exact (leaves_setMon _ s _ _ (fun h => absurd rfl h)).trans (leaves_reply _ _ _ _ _)
  · exact leaves_reply _ _ _ _ _

theorem leaves_runAckAlert (e : ReqEntry) (s : State) : Leaves .ackAlert s (runAckAlert e s) := by
  unfold runAckAlert
  split
  · exact leaves_reply _ _ _ _ _
  · rename_i m _
    exact (leaves_setMon _ s m { s.mon m with count := 0, sample := none } (fun _ => ⟨rfl, rfl⟩)).trans
      (leaves_reply _ _ _ _ _)

theorem leaves_runStatus (e : ReqEntry) (s : State) : Leaves .status s (runStatus e s) := by
  unfold runStatus
  refine Leaves.trans (t := { s with port := { s.port with dropped := 0 } }) ?_ (leaves_reply _ _ _ _ _)
  exact leaves_of_parts _ rfl rfl rfl rfl rfl rfl rfl rfl rfl rfl fun _ => rfl

theorem leaves_runClaimChanges (e : ReqEntry) (s : State) : Leaves .claimChanges s (runClaimChanges e s) := by
  unfold runClaimChanges
  refine Leaves.trans (t := { s with claims := { s.claims with changed := [] } }) ?_ (leaves_reply _ _ _ _ _)
  exact leaves_of_parts _ rfl rfl rfl rfl rfl rfl rfl rfl rfl rfl fun h => absurd rfl h

/-! ### Requests that report -/

theorem leaves_runCarrierInfo (e : ReqEntry) (s : State) : Leaves .carrierInfo s (runCarrierInfo e s) := by
  unfold runCarrierInfo
  split <;> exact leaves_reply _ _ _ _ _

theorem leaves_runCarrierServices (e : ReqEntry) (s : State) :
    Leaves .carrierServices s (runCarrierServices e s) := by
  unfold runCarrierServices
  split
  · exact leaves_reply _ _ _ _ _
  · simp only
    split <;> exact leaves_reply _ _ _ _ _

theorem leaves_runLookup (e : ReqEntry) (s : State) : Leaves .lookup s (runLookup e s) := by
  unfold runLookup
  split
  · split <;> exact leaves_reply _ _ _ _ _
  · split <;> exact leaves_reply _ _ _ _ _
  · exact leaves_reply _ _ _ _ _

theorem leaves_runListServices (e : ReqEntry) (s : State) : Leaves .listServices s (runListServices e s) := by
  unfold runListServices
  simp only
  split
  · exact leaves_reply _ _ _ _ _
  · split <;> exact leaves_reply _ _ _ _ _

theorem leaves_runListChanged (e : ReqEntry) (s : State) : Leaves .listChanged s (runListChanged e s) := by
  unfold runListChanged
  simp only
  split <;> exact leaves_reply _ _ _ _ _

theorem leaves_runClaimStatus (e : ReqEntry) (s : State) : Leaves .claimStatus s (runClaimStatus e s) := by
  unfold runClaimStatus
  split <;> exact leaves_reply _ _ _ _ _

theorem leaves_runReadMonitors (e : ReqEntry) (s : State) : Leaves .readMonitors s (runReadMonitors e s) :=
  leaves_reply _ _ _ _ _

/-! ### The port and the entries that fail the first checks -/

theorem leaves_countEvent (c : Instr) (e : Event) (i : Option ServiceIdx) (d : Option CarrierIdx) (s : State) :
    Leaves c s (countEvent e i d s) := (steady_countEvent e i d s).leaves (keeps_countEvent e i d s)

/-- What touches the port alone, the attention level apart. -/
theorem leaves_port (c : Instr) (s : State) (q : Port) (h : q.attentionLevel = s.port.attentionLevel) :
    Leaves c s { s with port := q } := leaves_of_parts c rfl rfl rfl rfl rfl rfl h rfl rfl rfl fun _ => rfl

theorem leaves_selectFall (s : State) : Leaves .selectFall s (selectFallEffect s) := by
  unfold selectFallEffect
  split
  · exact Leaves.refl _ s
  · exact leaves_port _ s _ rfl

theorem leaves_firstWord (w : Word) (s : State) : Leaves (.firstWord w) s (firstWordEffect w s) := by
  unfold firstWordEffect
  split
  · exact Leaves.refl _ s
  · rename_i f _
    split
    · split
      · exact leaves_port _ s _ rfl
      · split
        · exact (leaves_port _ s { s.port with reqFifo := s.port.reqFifo ++ [newEntry w] } rfl).trans
            (leaves_port _ _ _ rfl)
        · have a : Leaves (.firstWord w) s (gotWord f w .dropped s) := leaves_port _ s _ rfl
          refine a.trans (Leaves.trans ?_ (leaves_countEvent _ _ _ _ _))
          exact leaves_port _ _ _ rfl
    · exact Leaves.refl _ s

theorem leaves_argumentWord (w : Word) (s : State) : Leaves (.argumentWord w) s (argumentWordEffect w s) := by
  have g : ∀ (f : Frame) (h : Handling) (t : State), Leaves (.argumentWord w) t (gotWord f w h t) :=
    fun f h t => leaves_port _ t _ rfl
  have m : ∀ (f : ReqEntry → ReqEntry) (t : State), Leaves (.argumentWord w) t (modTail f t) :=
    fun f t => leaves_port _ t _ rfl
  unfold argumentWordEffect
  split
  · exact Leaves.refl _ s
  · split
    · exact Leaves.refl _ s
    · exact g _ _ s
    · exact g _ _ s
    · exact g _ _ s
    · split
      · split
        · exact (m _ s).trans (g _ _ _)
        · exact ((m _ s).trans (g _ _ _)).trans (leaves_countEvent _ _ _ _ _)
      · exact (m _ s).trans (g _ _ _)

theorem leaves_selectRise (bits : List Bool) (s : State) : Leaves (.selectRise bits) s (selectRiseEffect bits s) := by
  unfold selectRiseEffect
  refine Leaves.trans ?_ (leaves_port _ _ _ rfl)
  split
  · exact Leaves.refl _ s
  · unfold endFrame
    split
    · exact leaves_of_parts _ rfl rfl rfl rfl rfl rfl rfl rfl rfl rfl fun _ => rfl
    · split
      · exact leaves_port _ s _ rfl
      · exact leaves_port _ s _ rfl
      all_goals exact Leaves.refl _ s

theorem leaves_responseWordShifted (s : State) :
    Leaves .responseWordShifted s (responseWordShiftedEffect s) := by
  unfold responseWordShiftedEffect
  split
  · exact leaves_port _ s _ rfl
  · exact Leaves.refl _ s

theorem leaves_dropHead (c : Instr) (s : State) : Leaves c s (dropHead s) := leaves_port c s _ rfl

theorem leaves_takeBroken (s : State) : Leaves .brokenEntry s (takeBroken s) := by
  unfold takeBroken
  split
  · split
    · exact (leaves_dropHead _ s).trans (leaves_reply _ _ _ _ _)
    · exact Leaves.refl _ s
  · exact Leaves.refl _ s

theorem leaves_takeUnknown (s : State) : Leaves .unknownRequest s (takeUnknown s) := by
  unfold takeUnknown
  split
  · split
    · exact (leaves_dropHead _ s).trans (leaves_reply _ _ _ _ _)
    · exact Leaves.refl _ s
  · exact Leaves.refl _ s

/-! ### Events of paths and inputs -/

/-- An event that leaves the service records, by a command that may change the carrier records. -/
theorem Keeps.leavesRecords {c : Instr} {s t : State} (k : Keeps s t) (v : t.svcs = s.svcs)
    (b : changesCarriers c = true) : Leaves c s t :=
  k.leaves (fun _ i _ => by unfold State.svc; rw [v]) (fun h => by rw [b] at h; cases h)

theorem svcs_pushReport (k : EvalCause) (o : Option CarrierIdx) (l : List ServiceIdx) (s : State) :
    (pushReport k o l s).svcs = s.svcs := by
  unfold pushReport
  split <;> rfl

theorem svcs_reportEligibility (c : CarrierIdx) (s : State) : (reportEligibility c s).svcs = s.svcs :=
  (steady_eligibilityToClaims c _).svcs.trans (svcs_pushReport _ _ _ s)

theorem svcs_lockOutcome (c : CarrierIdx) (s : State) : (lockOutcome c s).svcs = s.svcs := by
  unfold lockOutcome
  simp only
  split
  · rfl
  · split
    · rfl
    · exact svcs_reportEligibility c _

theorem svcs_failedVisit (c : CarrierIdx) (s : State) : (failedVisit c s).svcs = s.svcs := by
  unfold failedVisit
  simp only
  split
  · rfl
  · split
    · rfl
    · exact svcs_reportEligibility c _

theorem svcs_setLost (c : CarrierIdx) (s : State) : (setLost c s).svcs = s.svcs := by
  unfold setLost
  split <;> rfl

theorem svcs_burstResult (c : CarrierIdx) (full : Bool) (x : Lanes) (s : State) :
    (burstResult c full x s).svcs = s.svcs := by
  unfold burstResult
  simp only
  split
  · split
    · exact svcs_pushReport _ _ _ _
    · exact (steady_eligibilityToClaims c _).svcs.trans (svcs_pushReport _ _ _ _)
  · rfl

theorem svcs_endWork (p : PathIdx) (s : State) : (endWork p s).svcs = s.svcs := by
  unfold endWork
  simp only
  split
  · exact (steady_endScanVisit p _ s).svcs
  · rfl

theorem steady_askRelock (p : PathIdx) (n : Nat) (s : State) : Steady s (askRelock p n s) := by
  unfold askRelock
  simp only
  split
  · exact steady_setPath _ _ _
  · split
    · exact steady_setPath _ _ _
    · exact steady_of_parts rfl rfl rfl

theorem leaves_lock (p : PathIdx) (s : State) : Leaves (.lock p) s (lockEffect p s) := by
  refine (keeps_lock p s).leavesRecords ?_ rfl
  unfold lockEffect
  simp only
  split
  · split
    · exact (steady_engagedToClaims p _ _).svcs.trans (svcs_lockOutcome _ _)
    · exact svcs_lockOutcome _ _
  · rfl

theorem leaves_lockTimerExpiry (p : PathIdx) (s : State) :
    Leaves (.lockTimerExpiry p) s (lockTimerExpiryEffect p s) := by
  unfold lockTimerExpiryEffect
  simp only
  split
  · rename_i t c _ _ _
    refine (leaves_reach _ t s rfl).trans ?_
    have k := keeps_stopTuning p (reach t s)
    have v := (steady_stopTuning p (reach t s)).svcs
    refine (k.leavesRecords v rfl).trans ?_
    generalize stopTuning p (reach t s) = u
    split
    · split
      · refine Keeps.leavesRecords ((((keeps_clearCarrying c _).trans (keeps_failedVisit c _)).trans
          (keeps_acquisitionFailedToClaims p c _)).trans (keeps_leaveCarrier p _)) ?_ rfl
        rw [(steady_leaveCarrier p _).svcs, (steady_acquisitionFailedToClaims p c _).svcs, svcs_failedVisit,
          (steady_clearCarrying c u).svcs]
      · split
        · exact (steady_askRelock p _ u).leaves (keeps_askRelock p _ u)
        · refine (keeps_exhausted p c u).leavesRecords ?_ rfl
          have a : (exhaustedToClaims p (releaseCarry p (setLost c u))).svcs = u.svcs := by
            rw [(steady_exhaustedToClaims p _).svcs, (steady_releaseCarry p _).svcs, svcs_setLost]
          unfold relocksExhausted
          simp only
          split
          · exact a
          · rw [svcs_reportEligibility, a]
    · refine ((keeps_failedVisit c u).trans (keeps_endScanVisit p _ _)).leavesRecords ?_ rfl
      rw [(steady_endScanVisit p _ _).svcs, svcs_failedVisit]
  · exact Leaves.refl _ s

theorem svcs_scanSample (p : PathIdx) (c : CarrierIdx) (x : Sample) (s : State) :
    (scanSample p c x s).svcs = s.svcs := by
  unfold scanSample
  simp only
  split
  · rfl
  · split
    · rw [(steady_endScanVisit p _ _).svcs, svcs_burstResult]; rfl
    · split
      · rw [svcs_endWork, svcs_burstResult]; rfl
      · rfl

theorem svcs_carrySample (p : PathIdx) (c : CarrierIdx) (x : Sample) (s : State) :
    (carrySample p c x s).svcs = s.svcs := by
  unfold carrySample
  simp only
  split
  · rw [svcs_burstResult]; rfl
  · rfl

theorem leaves_sample (p : PathIdx) (x : Sample) (s : State) : Leaves (.sample p x) s (sampleEffect p x s) := by
  unfold sampleEffect
  simp only
  split
  · rename_i t c _ _ _
    refine (leaves_reach _ t s rfl).trans ?_
    have a : Keeps (reach t s)
        ((reach t s).modPath p (fun r => { r with sampleDue := some (t + Config.samplePeriod) })) :=
      keeps_modPath _ p _ rfl
    refine (a.leavesRecords rfl rfl).trans ?_
    split
    · split
      · exact (keeps_carrySample p c x _).leavesRecords (svcs_carrySample p c x _) rfl
      · refine (keeps_carryLockLoss p c _).leavesRecords ?_ rfl
        unfold carryLockLoss
        simp only
        rw [(steady_lockLossToClaims p c _).svcs, (steady_askRelock p 1 _).svcs]
        rfl
    · split
      · exact (keeps_scanSample p c x _).leavesRecords (svcs_scanSample p c x _) rfl
      · refine (keeps_scanLockLoss p c _).leavesRecords ?_ rfl
        unfold scanLockLoss
        simp only
        rw [(steady_endScanVisit p _ _).svcs, svcs_failedVisit]
        rfl
  · exact Leaves.refl _ s

theorem leaves_section (p : PathIdx) (x : AnnSection) (s : State) :
    Leaves (.announcementSection p x) s (sectionEffect p x s) := (keeps_section p x s).leavesRest rfl rfl

theorem leaves_rosterTimeout (p : PathIdx) (s : State) : Leaves (.rosterTimeout p) s (rosterTimeoutEffect p s) := by
  unfold rosterTimeoutEffect
  simp only
  split
  · rename_i t c _ _ _
    refine (leaves_reach _ t s rfl).trans ?_
    refine Keeps.leavesRecords (Keeps.trans ?_ (keeps_endWork p _)) (svcs_endWork p _) rfl
    exact (keeps_endListening p _).trans (keeps_modCar _ c _ rfl)
  · exact Leaves.refl _ s

theorem leaves_dwellEnd (p : PathIdx) (s : State) : Leaves (.dwellEnd p) s (dwellEndEffect p s) := by
  unfold dwellEndEffect
  split
  · rename_i t _ _
    exact (leaves_reach _ t s rfl).trans ((steady_enterRecovery p _).leaves (keeps_enterRecovery p _))
  · exact Leaves.refl _ s

theorem steady_standbyComplete (s : State) : Steady s (standbyComplete s) := by
  unfold standbyComplete
  split
  · simp only
    have a : Steady s { s with arb := { s.arb with mode := .standby } } := steady_of_parts rfl rfl rfl
    split
    · exact a.trans (steady_finish _ _ _)
    · exact a
  · exact Steady.refl s

theorem leaves_recoveryEnd (p : PathIdx) (s : State) : Leaves (.recoveryEnd p) s (recoveryEndEffect p s) := by
  unfold recoveryEndEffect
  split
  · rename_i t _ _
    refine (leaves_reach _ t s rfl).trans (Leaves.trans ?_ ((steady_standbyComplete _).leaves (keeps_standbyComplete _)))
    exact Steady.leaves (((steady_setPath _ p _).trans (steady_forgetCutsOfPath p _)).trans (steady_raiseArb _))
      (((keeps_setPath _ p _ (by intro h; cases h)).trans (keeps_forgetCutsOfPath p _)).trans (keeps_raiseArb _))
  · exact Leaves.refl _ s

theorem leaves_settleTimerExpiry (s : State) : Leaves .settleTimerExpiry s (settleTimerExpiryEffect s) := by
  unfold settleTimerExpiryEffect
  split
  · rename_i t h
    refine (leaves_reach _ t s rfl).trans ((steady_finish _ _ _).leaves (keeps_finish _ _ _ (fun x ex => ?_)))
    have : s.inExec = some x := ex
    rw [h] at this; cases this; simp [roomHeld]
  · exact Leaves.refl _ s

theorem leaves_tuneStart (i : InputIdx) (s : State) : Leaves (.tuneStart i) s (tuneStartEffect i s) := by
  unfold tuneStartEffect
  simp only
  split
  · exact Leaves.refl _ s
  · exact Leaves.refl _ s
  · refine (leaves_reach _ (budgetMoment (s.inp i).history) s rfl).trans ?_
    refine Leaves.trans (t := (reach (budgetMoment (s.inp i).history) s).setInp i
      (startedInput (s.inp i) (max s.now (budgetMoment (s.inp i).history)))) ?_
      ((steady_setPath _ _ _).leaves (keeps_setPath _ _ _ id))
    exact {
      Leaves.refl _ _ with
      kinds := fun _ j => by
        rw [State.inp_setInp]
        by_cases e : i = j
        · rw [if_pos e, ← e]; rfl
        · rw [if_neg e]
      carriers := fun _ _ => ⟨fun j => by
        rw [State.inp_setInp]
        by_cases e : i = j
        · rw [if_pos e, ← e]; rfl
        · rw [if_neg e], fun _ => rfl⟩
      history := fun h => absurd rfl (h i) }

theorem leaves_feedSettleEnd (i : InputIdx) (s : State) : Leaves (.feedSettleEnd i) s (feedSettleEndEffect i s) := by
  unfold feedSettleEndEffect
  split
  · exact Leaves.refl _ s
  · rename_i t _
    exact (leaves_reach _ t s rfl).trans
      (leaves_modInp _ _ _ _ (fun _ _ => rfl) (fun _ _ _ => rfl) (fun _ _ => rfl))

theorem leaves_serviceEvaluation (n : Nat) (s : State) :
    Leaves (.serviceEvaluation n) s (serviceEvaluationEffect n s) := by
  refine (keeps_serviceEvaluation n s).leaves (fun h => by cases h) (fun _ d => ?_)
  unfold serviceEvaluationEffect
  split
  · rfl
  · split
    · rfl
    · split
      · rfl
      · rename_i q _ _ i _ _ _
        simp only
        have f : ∀ t : State, Steady t (setRankingComplete t) := fun t => by
          unfold setRankingComplete
          split
          · split
            · exact Steady.refl t
            · exact steady_finish _ _ t
          · exact Steady.refl t
        rw [(f _).cars d]
        have g : ∀ (r : ServiceRec) (t : State),
            { (applyChange i r t).car d with carrying := none } = { t.car d with carrying := none } := fun r t => by
          rw [(steady_applyChange i r t).cars d]
          unfold State.car
          rw [(commit_others i r t).2.1]
        unfold evaluate
        simp only
        split
        · split <;> exact g _ _
        · rfl

end Sys2Proof.Machine
end

