-- ==== Sys2Proof/WellFormed.lean ====
section
/-! DEFINITION. Which commands a sender can form. Every bound that an index type states is in the type; what is left
is the length of a partial word. -/

namespace Sys2Proof

/-- R144: the bits after the last complete word are fewer than 16. Every other operand is bounded by its type. -/
def Instr.wellFormed : Instr → Bool
  | .selectRise bits => decide (bits.length < 16)
  | .powerOnReset | .selectFall | .firstWord _ | .argumentWord _ | .responseWordShifted => true
  | .brokenEntry | .unknownRequest | .activate | .standby | .scanControl | .setRanking | .setPort => true
  | .defineInput | .defineCarrier | .forgetCarrier | .carrierInfo | .carrierServices => true
  | .enrol | .lookup | .listServices | .listChanged | .pin | .unpin | .retire | .unsuppress => true
  | .refresh | .settle | .settleTimerExpiry => true
  | .claim | .releaseClaim | .claimStatus | .claimChanges => true
  | .setMonitor | .readMonitors | .ackAlert | .status => true
  | .tuneStart _ | .feedSettleEnd _ | .lock _ | .lockTimerExpiry _ | .sample _ _ => true
  | .announcementSection _ _ | .rosterTimeout _ | .serviceEvaluation _ | .dwellEnd _ | .recoveryEnd _ => true

end Sys2Proof
end

