-- ==== Sys2Proof/Tests/Slice0.lean ====
section
/-! SUPPORT. Tests of one step each, with the numbers of the spec's worked examples where it gives them, and for every
statement with hypotheses a witness that they can be met. -/

namespace Sys2Proof.Tests

open Sys2Proof Sys2Proof.Machine

section OneByOne
set_option Elab.async false

/-! ### Small states -/

/-- The state after a command, which always completes. -/
def after (c : Instr) (s : State) : State :=
  match exec c s with
  | .next t => t
  | _ => s

/-- An ended request entry, its header put together as R183 lays it out. -/
def entry (code seq : Nat) (args : List Word) : ReqEntry :=
  { header := word (code * 1024 + args.length * 64 + seq), args := args, ended := true, overLong := false,
    partialMark := false, broken := false }

/-- The state with one entry in its request FIFO. -/
def given (e : ReqEntry) (s : State) : State := { s with port := { s.port with reqFifo := [e] } }

/-- The state after a request has been taken. -/
def asked (c : Instr) (e : ReqEntry) (s : State) : State := after c (given e s)

/-- The power-on state in ACTIVE, with the sweep disabled. -/
def active : State :=
  { State.reset with arb := { State.reset.arb with mode := .active },
                     plan := { State.reset.plan with sweepEnabled := false } }

/-- Carrier 3 of the worked examples of 02 to 04, on SATELLITE input 0. -/
def params3 : CarrierParams := ⟨0, some ⟨.low, .vertical⟩, 1210000, 27500, 2⟩
def lanes3 : Lanes := ⟨40000, 30000, 65535, 60000⟩
def carrier3 : CarrierRec :=
  { CarrierRec.powerOn with state := .live, params := some params3, quality := some ⟨lanes3, 72767⟩, announced := [0] }

/-- Slot 0 of the worked examples: listed on carrier 3. -/
def slot0 : ServiceRec :=
  { ServiceRec.powerOn with
    state := .listed, key := some ⟨100, 11⟩, kind := .television, name := some [0x4F, 0x4E, 0x45], generation := 41,
    changeEpoch := 9000, candidates := [3, 9], selected := some 3 }

/-- Carrier 3 defined, LIVE and scored, and slot 0 listed on it. -/
def listed : State := ((active.setCar 3 carrier3).setInp 0 { InputRec.powerOn with kind := .satellite, carrierCount := 1 }).setSvc 0 slot0

/-- A path at work on carrier 3. -/
def onCarrier3 (st : PathState) (u : Use) : PathRec := { grantedPath u 3 with state := st }

/-! ### Well-formed commands -/

theorem test_wellFormed : Instr.wellFormed (.selectRise [true, false]) = true := by decide
theorem test_wellFormed_fifteenBits : Instr.wellFormed (.selectRise (List.replicate 15 true)) = true := by decide
theorem test_illFormed_sixteenBits : Instr.wellFormed (.selectRise (List.replicate 16 true)) = false := by decide

/-! ### The port (09) -/

theorem test_powerOnReset : (after .powerOnReset (asked .setPort (entry 5 1 [7]) State.reset)).port.attentionLevel = 1 := by
  decide +kernel

theorem test_attention : attention State.reset = false ∧ attention (asked .setPort (entry 5 1 [2]) State.reset) = true
    ∧ attention (asked .setPort (entry 5 1 [3]) State.reset) = false := by decide +kernel

/-- A frame of two words. -/
def frameDone : State :=
  after (.selectRise []) (after (.argumentWord 7) (after (.firstWord 0x1445) (after .selectFall State.reset)))

theorem test_frame : frameDone.port.reqFifo = [⟨0x1445, [7], true, false, false, false⟩]
    ∧ frameDone.port.selectLow = false := by decide +kernel

theorem test_portResetFrame :
    (after (.selectRise []) (after (.argumentWord 0x5AA5) (after (.firstWord 0x5AA5) (after .selectFall frameDone)))).port.reqFifo
      = [] := by decide +kernel

theorem test_partialFrame :
    (after (.selectRise [true]) (after (.firstWord 0x1405) (after .selectFall State.reset))).port.reqFifo
      = [⟨0x1405, [], true, false, true, false⟩] := by decide +kernel

theorem test_responseWordShifted :
    (after .responseWordShifted (after .selectFall (asked .setPort (entry 5 5 [7]) State.reset))).port.respFifo = [0] := by
  decide +kernel

/-! ### Requests (10, 12) -/

theorem test_brokenEntry :
    (asked .brokenEntry { entry 4 9 [] with broken := true } State.reset).port.respFifo = [0x12C9, 0] := by decide +kernel

theorem test_unknownRequest : (asked .unknownRequest (entry 6 5 []) State.reset).port.respFifo = [0x1845, 0] := by
  decide +kernel

/-- The example of 12: LOOKUP by index, sequence 5. -/
theorem test_lookup : (entry 17 5 [0, 0, 0]).header = 0x44C5
    ∧ (asked .lookup (entry 17 5 [0, 0, 0]) listed).port.respFifo.take 9
      = [0x4405, 36, 0, 0x0200, 41, 100, 11, 0, 9000]
    ∧ (asked .lookup (entry 17 5 [0, 0, 0]) listed).port.respFifo.length = 38
    ∧ (asked .lookup (entry 17 5 [0, 600, 0]) listed).port.respFifo = [0x4505, 0]
    ∧ (asked .lookup (entry 17 5 [0, 600, 1]) listed).port.respFifo = [0x4485, 0] := by decide +kernel

/-- The worked example of 10: a session start and the check order. -/
def defineCarrierArgs : List Word := [0, 0, 18, 30352, 27500, 2]
theorem test_session_defineInput :
    (asked .defineCarrier (entry 9 1 defineCarrierArgs) State.reset).port.respFifo = [0x2501, 0]
    ∧ (asked .defineInput (entry 8 2 [0, 1]) State.reset).port.respFifo = [0x2002, 5, 0, 1, 0, 0, 0]
    ∧ (asked .settle (entry 25 3 [5000]) State.reset).port.respFifo = [0x64C3, 0]
    ∧ (asked .defineInput (entry 8 4 [4, 7]) State.reset).port.respFifo = [0x2104, 0] := by decide +kernel

/-- Input 0 SATELLITE, in ACTIVE. -/
def session : State := active.setInp 0 { InputRec.powerOn with kind := .satellite }
theorem test_session_defineCarrier :
    (asked .defineCarrier (entry 9 6 (defineCarrierArgs.take 5)) session).port.respFifo = [0x2486, 0]
    ∧ (asked .defineInput (entry 8 8 [1, 3]) session).port.respFifo = [0x20C8, 0]
    ∧ (asked .defineCarrier (entry 9 9 defineCarrierArgs) session).port.respFifo = [0x2409, 1, 0]
    ∧ (asked .defineCarrier (entry 9 10 defineCarrierArgs) listed).port.respFifo = [0x264A, 0]
    ∧ (asked .forgetCarrier (entry 10 11 [200]) session).port.respFifo = [0x290B, 0] := by decide +kernel

/-- The sweep takes a new carrier at once. -/
theorem test_session_sweep :
    ((asked .defineCarrier (entry 9 9 defineCarrierArgs)
      { session with plan := State.reset.plan }).path 0).state = .awaitTune := by decide +kernel

theorem test_tuneStart : ((after (.tuneStart 0) ((listed.setPath 0 (onCarrier3 .awaitTune .sweep)).setInp 0
    { listed.inp 0 with waitList := [⟨0, 0⟩] })).path 0).lockTimer = some 120 := by decide +kernel

theorem test_activate_standby :
    (asked .activate (entry 1 7 []) State.reset).arb.mode = .active
    ∧ (asked .activate (entry 1 7 []) State.reset).port.respFifo = [0x0407, 0]
    ∧ (asked .standby (entry 2 7 []) active).arb.mode = .standby := by decide +kernel

theorem test_scanControl : (asked .scanControl (entry 3 1 [2, 0]) active).arb.reserve = 2
    ∧ (asked .scanControl (entry 3 1 [3, 0]) active).port.respFifo = [0x0D01, 0] := by decide +kernel

/-- 03, a change of weights: the score of the vector after the fade becomes 56825. -/
theorem test_setRanking :
    ((asked .setRanking (entry 4 1 [8192, 49152, 32768, 0, 2048, 3, 0, 8192])
        (listed.setCar 3 { carrier3 with quality := some ⟨⟨37000, 26000, 65401, 58383⟩, 69545⟩ })).car 3).quality
      = some ⟨⟨37000, 26000, 65401, 58383⟩, 56825⟩ := by decide +kernel

theorem test_forgetCarrier : ((asked .forgetCarrier (entry 10 1 [3]) listed).car 3).state = .free
    ∧ ((asked .forgetCarrier (entry 10 1 [3]) listed).svc 0).candidates = [9] := by decide +kernel

theorem test_carrierInfo : (asked .carrierInfo (entry 11 1 [3]) listed).port.respFifo
    = [0x2C01, 19, 3, 2, 0, 0, 18, 30352, 27500, 2, 0, 40000, 30000, 65535, 60000, 1, 7231, 0xFFFF, 0, 1, 0xFFFF] := by
  decide +kernel

theorem test_carrierServices : (asked .carrierServices (entry 12 1 [3, 0]) listed).port.respFifo
    = [0x3001, 4, 1, 0, 0, 41] := by decide +kernel

theorem test_enrol : (asked .enrol (entry 16 1 [100, 12]) listed).port.respFifo = [0x4001, 2, 1, 1]
    ∧ (asked .enrol (entry 16 1 [100, 11]) listed).port.respFifo = [0x4001, 2, 0, 41] := by decide +kernel

theorem test_pin : ((asked .pin (entry 20 1 [0, 3, 41]) listed).svc 0).pin = some 3
    ∧ (asked .pin (entry 20 1 [0, 3, 40]) listed).port.respFifo = [0x5181, 0] := by decide +kernel

theorem test_unpin : ((asked .unpin (entry 21 1 [0]) (listed.setSvc 0 { slot0 with pin := some 3 })).svc 0).pin = none := by
  decide +kernel

theorem test_retire : ((asked .retire (entry 22 1 [0, 41, 1]) listed).svc 0).state = .retired
    ∧ (asked .retire (entry 22 1 [0, 41, 1]) listed).svcs.suppressed = [⟨100, 11⟩] := by decide +kernel

theorem test_unsuppress : (asked .unsuppress (entry 23 1 [100, 11]) (asked .retire (entry 22 1 [0, 41, 1]) listed)).svcs.suppressed
    = [] := by decide +kernel

theorem test_refresh : ((asked .refresh (entry 24 1 [0, 3]) listed).path 0).use = some .queue := by decide +kernel

theorem test_settle : (asked .settle (entry 25 1 [100]) { listed with plan := { listed.plan with queue := [3] } }).inExec
    = some ⟨0x6441, false, .settle [3] 100⟩ := by decide +kernel

theorem test_settleTimerExpiry : (after .settleTimerExpiry
      { listed with inExec := some ⟨0x6441, false, .settle [3, 9] 100⟩ }).port.respFifo = [0x6681, 1, 2] := by decide +kernel

theorem test_claim : ((asked .claim (entry 32 1 [5, 0]) listed).claim 5) = ⟨.acquiring, none, some 0, some 3, none, some 0⟩
    ∧ ((asked .claim (entry 32 1 [5, 0]) listed).path 0).use = some .carry
    ∧ (asked .claim (entry 32 1 [5, 0]) listed).port.respFifo = [0x8001, 2, 1, 1] := by decide +kernel

theorem test_releaseClaim : ((asked .releaseClaim (entry 33 1 [5]) (asked .claim (entry 32 1 [5, 0]) listed)).path 0).state
    = .recovery := by decide +kernel

theorem test_claimStatus : (asked .claimStatus (entry 34 1 [31]) listed).port.respFifo
    = [0x8801, 8, 31, 0, 0xFFFF, 0xFFFF, 0xFFFF, 0xFFFF, 0xFFFF, 0xFFFF] := by decide +kernel

theorem test_claimChanges : (asked .claimChanges (entry 35 1 [])
      { listed with claims := { listed.claims with changed := [5, 7] } }).port.respFifo = [0x8C01, 2, 5, 7] := by
  decide +kernel

/-- 11: a sample when the count reaches the threshold. -/
def watching : State := asked .setMonitor (entry 40 1 [0, 1, 2]) State.reset
theorem test_setMonitor : watching.mon 0 = ⟨some .carryLockLoss, 0, 2, none⟩
    ∧ (countEvent .carryLockLoss none (some 3) (countEvent .carryLockLoss none (some 9)
        (countEvent .carryLockLoss none (some 9) watching))).mon 0
      = ⟨some .carryLockLoss, 3, 2, some ⟨.carryLockLoss, none, some 9⟩⟩ := by decide +kernel

theorem test_readMonitors : (asked .readMonitors (entry 41 1 []) State.reset).port.respFifo.take 8
    = [0xA401, 24, 0, 0, 0, 0xFFFF, 0xFFFF, 0xFFFF] := by decide +kernel

theorem test_ackAlert : (asked .ackAlert (entry 42 1 [0]) (State.reset.setMon 0
      ⟨some .carryLockLoss, 3, 2, some ⟨.carryLockLoss, none, some 9⟩⟩)).mon 0 = ⟨some .carryLockLoss, 0, 2, none⟩ := by
  decide +kernel

theorem test_status : (asked .status (entry 48 12 []) active).port.respFifo.take 12
    = [0xC00C, 30, 1, 0, 1, 512, 0, 0, 0, 0, 0, 0] := by decide +kernel

theorem test_listServices : (asked .listServices (entry 18 1 [0, 0xFFFF]) listed).port.respFifo
    = [0x4801, 4, 0, 0x0200, 100, 11] := by decide +kernel

theorem test_listChanged : (asked .listChanged (entry 19 1 [0, 9000, 0]) listed).port.respFifo = [0x4C01, 0]
    ∧ (asked .listChanged (entry 19 1 [0, 8999, 0]) listed).port.respFifo = [0x4C01, 4, 0, 0x0200, 100, 11] := by
  decide +kernel

/-! ### Paths, inputs and the demodulators (02, 03, 05, 06) -/

/-- 05, R83: the moments of six starts asked for at 15. -/
theorem test_tuneBudget : budgetMoment [] = 0 ∧ budgetMoment [15] = 19 ∧ budgetMoment [15, 19, 23] = 27
    ∧ budgetMoment [15, 19, 23, 27] = 55 ∧ budgetMoment (pushStart [15, 19, 23, 27] 55) = 59 := by decide

theorem test_feedSettleEnd :
    ((after (.feedSettleEnd 0) (listed.setInp 0 { listed.inp 0 with feedState := .settling 15 })).inp 0).feedState = .steady := by
  decide +kernel

/-- Path 0 on carrier 3, not yet known. -/
def tuning : State :=
  (listed.setCar 3 { carrier3 with state := .unvisited, quality := none }).setPath 0
    { onCarrier3 .tuning .sweep with lockTimer := some 120 }
theorem test_lock : ((after (.lock 0) tuning).path 0).state = .engaged ∧ ((after (.lock 0) tuning).car 3).state = .live
    ∧ ((after (.lock 0) tuning).path 0).rosterTimer = some 1500 := by decide +kernel

theorem test_lockTimerExpiry : ((after (.lockTimerExpiry 0) tuning).car 3).state = .silent
    ∧ ((after (.lockTimerExpiry 0) tuning).path 0).recoveryEnd = some 123 := by decide +kernel

/-- 03: seven samples gathered on a carry path. -/
def engaged : State :=
  listed.setPath 0 { onCarrier3 .engaged .carry with
    lockTime := some 0, lockHeld := true, sampleDue := some 160, collection := some .empty,
    accum := ⟨7, some ⟨28000, 14000, 20000, 65000⟩, false⟩ }
theorem test_sample : ((after (.sample 0 ⟨30000, 15000, 65535, true⟩) engaged).path 0).accum = .empty
    ∧ ((after (.sample 0 ⟨30000, 15000, 65535, true⟩) engaged).path 0).sampleDue = some 180 := by decide +kernel

/-- 03: the score of a vector, of the vector after a full result, and of the vector after a half result. -/
theorem test_scores : (scored Settings.powerOn lanes3).score = 72767
    ∧ smoothed true (some ⟨lanes3, 72767⟩) ⟨28000, 14000, 65000, 53535⟩ = ⟨37000, 26000, 65401, 58383⟩
    ∧ (scored Settings.powerOn ⟨37000, 26000, 65401, 58383⟩).score = 69545
    ∧ (scored Settings.powerOn ⟨38500, 28500, 65535, 59691⟩).score = 71564 := by decide

theorem test_announcementSection :
    ((after (.announcementSection 0 ⟨5, 0, 0, 100, [⟨11, .radio, [0x41]⟩]⟩) engaged).car 3).rosterVersion = some 5
    ∧ ((after (.announcementSection 0 ⟨5, 0, 0, 100, [⟨11, .radio, [0x41]⟩]⟩) engaged).svc 0).kind = .radio := by
  decide +kernel

theorem test_rosterTimeout :
    ((after (.rosterTimeout 0) (listed.setPath 0 { onCarrier3 .engaged .sweep with
      lockTime := some 0, lockHeld := true, rosterTimer := some 1500, listening := true, collection := some .empty })).car 3).stale
      = true := by decide +kernel

theorem test_serviceEvaluation : ((after (.serviceEvaluation 0)
      { listed.setSvc 0 { slot0 with state := .provisional, selected := none } with
        rank := { listed.rank with evals := [⟨.burst, some 3, [0]⟩] } }).svc 0).selected = some 3 := by decide +kernel

theorem test_dwellEnd : ((after (.dwellEnd 0) (listed.setPath 0 { onCarrier3 .dwell .sweep with
      lockTime := some 0, dwellEnd := some 250 })).path 0).recoveryEnd = some 253 := by decide +kernel

theorem test_recoveryEnd : (after (.recoveryEnd 0) (active.setPath 0 { onCarrier3 .recovery .sweep with
      recoveryEnd := some 253 })).path 0 = PathRec.powerOn := by decide +kernel

/-! ### The hypotheses of the statements can be met: the machine and the port -/

/-- A frame in progress. -/
def frameOf (n : Nat) (a b : Option Word) (h : Handling) : Frame :=
  { words := n, first := a, second := b, partialBits := [], handling := h }

/-- The power-on state with a frame in progress and these entries in the request FIFO. -/
def framed (f : Frame) (l : List ReqEntry) : State :=
  { State.reset with port := { State.reset.port with selectLow := true, frame := some f, reqFifo := l } }

/-- An entry still being received, with n argument words. -/
def open_ (n : Nat) : ReqEntry := { entry 4 0 (List.replicate n 0) with ended := false }

theorem witness_StepRunsFrontCommand : ({ State.reset with pending := [.status] } : State).pending = [.status] := rfl

theorem witness_StepOnEmptyQueue : State.reset.pending = [] ∧ nextOwn State.reset = none
    ∧ nextOwn (given (entry 1 0 []) State.reset) = some .activate := by decide +kernel

theorem witness_CommandFrame : Instr.status ≠ .powerOnReset ∧ exec .status listed = .next (after .status listed)
    ∧ timed .status = false ∧ changesRecords .status = false ∧ changesCarriers .status = false
    ∧ (listed.svc 0).state ≠ .orphaned :=
  ⟨by decide, rfl, rfl, rfl, rfl, by decide +kernel⟩

theorem witness_PowerOnReset : State.reset.port.selectLow = false
    ∧ (framed (frameOf 0 none none .awaiting) []).port.selectLow = true := by decide

theorem witness_ResponsePresentation :
    (framed (frameOf 0 none none .awaiting) []).port.selectLow = true
    ∧ (after .selectFall State.reset).port.out = .filler
    ∧ ∃ s : State, s.port.selectLow = true ∧ s.port.out = .head ∧ s.port.respFifo.head? = some 0x1405 :=
  ⟨rfl, by decide +kernel, after .selectFall (asked .setPort (entry 5 5 [7]) State.reset), by decide +kernel⟩

theorem witness_FirstWordSetsHandling :
    (∃ (s : State) (f : Frame), s.port.frame = some f ∧ f.handling = .awaiting ∧ reqWords s = 63)
    ∧ ∃ (s : State) (f : Frame), s.port.frame = some f ∧ f.handling = .awaiting ∧ reqWords s = 64 :=
  ⟨⟨framed (frameOf 0 none none .awaiting) [open_ 15, open_ 15, open_ 15, open_ 14], _, rfl, by decide⟩,
    ⟨framed (frameOf 0 none none .awaiting) [open_ 15, open_ 15, open_ 15, open_ 15], _, rfl, by decide⟩⟩

theorem witness_ArgumentWordByHandling :
    (∀ h ∈ [Handling.idle, .broken, .dropped], (framed (frameOf 1 none none h) []).port.frame = some (frameOf 1 none none h))
    ∧ (∃ s : State, s.port.reqFifo = [open_ 15, open_ 15, open_ 15] ++ [open_ 14] ∧ (open_ 14).words = 15 ∧ reqWords s = 63)
    ∧ (∃ s : State, s.port.reqFifo = [open_ 15, open_ 15, open_ 15, open_ 0] ++ [open_ 14] ∧ (open_ 14).words = 15
        ∧ reqWords s = 64)
    ∧ (open_ 15).words = 16 :=
  ⟨by decide, ⟨framed (frameOf 15 none none .storing) [open_ 15, open_ 15, open_ 15, open_ 14], by decide⟩,
    ⟨framed (frameOf 15 none none .storing) [open_ 15, open_ 15, open_ 15, open_ 0, open_ 14], by decide⟩, by decide⟩

theorem witness_SelectRiseEndsFrame :
    (∃ (s : State) (f : Frame), s.port.frame = some f ∧ f.words = 2 ∧ f.first = some 0x5AA5 ∧ f.second = some 0x5AA5)
    ∧ (∃ (s : State) (f : Frame), s.port.frame = some f ∧ f.words = 3 ∧ s.port.reqFifo = [] ++ [open_ 2]
        ∧ f.handling = .storing)
    ∧ (∃ (s : State) (f : Frame), s.port.frame = some f ∧ f.words = 3 ∧ s.port.reqFifo = [] ++ [open_ 0]
        ∧ f.handling = .broken)
    ∧ ∀ h ∈ [Handling.awaiting, .idle, .dropped], (frameOf 0 none none h).handling = h :=
  ⟨⟨framed (frameOf 2 (some 0x5AA5) (some 0x5AA5) .storing) [], _, rfl, by decide⟩,
    ⟨framed (frameOf 3 (some 0x5AA5) (some 0x5AA5) .storing) [open_ 2], _, rfl, by decide⟩,
    ⟨framed (frameOf 3 none none .broken) [open_ 0], _, rfl, by decide⟩, by decide⟩

/-- The power-on state with n words in its response FIFO and one entry waiting. -/
def crowded (n : Nat) (e : ReqEntry) (s : State) : State :=
  { s with port := { s.port with respFifo := List.replicate n 0, reqFifo := [e] } }

theorem witness_EntryTaking :
    (∃ (s : State) (e : ReqEntry), s.port.reqFifo.head? = some e ∧ s.inExec = none ∧ e.ended = true
        ∧ s.port.respFifo.length + 2 = 64 ∧ e.broken = true)
    ∧ (∃ (s : State) (e : ReqEntry), s.port.reqFifo.head? = some e ∧ s.inExec = none ∧ e.ended = true
        ∧ s.port.respFifo.length + 2 = 64 ∧ e.broken = false ∧ ReqCode.ofNat? (headerCode e.header) = none)
    ∧ (∃ s : State, s.inExec ≠ none)
    ∧ (∃ (s : State) (e : ReqEntry), s.port.reqFifo.head? = some e ∧ s.port.respFifo.length + 2 = 65)
    ∧ ∃ (s : State) (e : ReqEntry), s.arb.due = false ∧ s.port.reqFifo.head? = some e
        ∧ s.port.respFifo.length + ReqCode.lookup.largest = 65 :=
  ⟨⟨crowded 62 { entry 4 9 [] with broken := true } State.reset, _, rfl, by decide +kernel⟩,
    ⟨crowded 62 (entry 63 0 []) State.reset, _, rfl, by decide +kernel⟩,
    ⟨{ State.reset with inExec := some ⟨0, false, .standby⟩ }, by decide⟩,
    ⟨crowded 63 (entry 4 9 []) State.reset, _, rfl, by decide +kernel⟩,
    ⟨crowded 27 (entry 17 9 [0, 0, 0]) State.reset, _, rfl, rfl, by decide +kernel⟩⟩

/-- Entries that the length check refuses, one for each of its reasons. -/
theorem witness_FormAndModeChecks_form :
    (∀ e ∈ [{ entry 1 0 [] with overLong := true }, { entry 1 0 [] with partialMark := true }, entry 1 0 [0],
          { entry 1 0 [] with header := 0x0440 }],
        ReqCode.ofNat? (headerCode e.header) = some .activate ∧ e.ended = true ∧ e.broken = false
        ∧ (given e State.reset).arb.due = false
        ∧ (e.overLong = true ∨ e.partialMark = true ∨ headerCount e.header ≠ e.args.length
          ∨ e.args.length ≠ ReqCode.activate.args.length))
    ∧ (∃ x ∈ ReqCode.setPort.args.zip [(128 : Word)], ¬ (x.1.absentOk = true ∧ x.2 = 0xFFFF) ∧ 2 ^ x.1.bits ≤ x.2.toNat)
    ∧ (entry 17 0 [0, 511, 1]).arg 0 = 0 ∧ (entry 17 0 [0, 511, 1]).arg 2 ≠ 0 := by decide +kernel

/-- A request with these arguments passes the first two checks in a state. -/
def takes (c : ReqCode) (n : Nat) (s : State) (a : List Word) : Bool :=
  decide (Taken c (entry n 0 a) (given (entry n 0 a) s))

/-- The same for each of several lists of arguments. -/
def takesAll (c : ReqCode) (n : Nat) (s : State) (l : List (List Word)) : Bool := l.all (takes c n s)

/-- Every request can be taken. -/
def sampleEntry (c : ReqCode) : ReqEntry :=
  match c with
  | .activate => entry 1 0 [] | .standby => entry 2 0 [] | .scanControl => entry 3 0 [2, 1]
  | .setRanking => entry 4 0 [1, 2, 3, 4, 5, 8, 3, 65528] | .setPort => entry 5 0 [64]
  | .defineInput => entry 8 0 [5, 3] | .defineCarrier => entry 9 0 [0, 0, 18, 30352, 27500, 2]
  | .forgetCarrier => entry 10 0 [191] | .carrierInfo => entry 11 0 [191] | .carrierServices => entry 12 0 [191, 47]
  | .enrol => entry 16 0 [100, 12] | .lookup => entry 17 0 [0, 511, 0] | .listServices => entry 18 0 [511, 5]
  | .listChanged => entry 19 0 [0, 0, 511] | .pin => entry 20 0 [0, 3, 41] | .unpin => entry 21 0 [511]
  | .retire => entry 22 0 [0, 41, 1] | .unsuppress => entry 23 0 [100, 11] | .refresh => entry 24 0 [0, 191]
  | .settle => entry 25 0 [60000] | .claim => entry 32 0 [31, 0] | .releaseClaim => entry 33 0 [31]
  | .claimStatus => entry 34 0 [31] | .claimChanges => entry 35 0 [] | .setMonitor => entry 40 0 [3, 9, 0]
  | .readMonitors => entry 41 0 [] | .ackAlert => entry 42 0 [3] | .status => entry 48 0 []

/-- For every request, a state that lists services and carriers in which it is taken with its operands in range. -/
theorem witness_Taken (c : ReqCode) : Taken c (sampleEntry c) (given (sampleEntry c) listed) := by
  cases c <;> decide +kernel

theorem witness_FormAndModeChecks_mode :
    (∃ s : State, Taken .activate (sampleEntry .activate) s ∧ s.arb.mode = .stopping)
    ∧ (∃ s : State, Taken .defineInput (sampleEntry .defineInput) s ∧ s.arb.mode = .active)
    ∧ (∃ s : State, Taken .settle (sampleEntry .settle) s ∧ s.arb.mode = .standby)
    ∧ (∃ s : State, Taken .activate (sampleEntry .activate) s ∧ s.arb.mode = .active)
    ∧ ∃ s : State, Taken .standby (sampleEntry .standby) s ∧ s.arb.mode = .standby :=
  ⟨⟨given (entry 1 0 []) { State.reset with arb := { State.reset.arb with mode := .stopping } }, by decide +kernel⟩,
    ⟨given (entry 8 0 [5, 3]) active, by decide +kernel⟩, ⟨given (entry 25 0 [60000]) State.reset, by decide +kernel⟩,
    ⟨given (entry 1 0 []) active, by decide +kernel⟩, ⟨given (entry 2 0 []) State.reset, by decide +kernel⟩⟩

/-! ### The hypotheses of the statements can be met: requests -/

theorem svc_listed (j : ServiceIdx) : listed.svc j = if 0 = j then slot0 else ServiceRec.powerOn := by
  have h : ∀ s : State, (s.setSvc 0 slot0).svc j = if 0 = j then slot0 else s.svc j := fun s => State.svc_setSvc s 0 j slot0
  exact (h _).trans (by rw [show (((active.setCar 3 carrier3).setInp 0
    { InputRec.powerOn with kind := .satellite, carrierCount := 1 }).svc j) = State.reset.svc j from rfl, svc_reset])

theorem car_reset (c : CarrierIdx) : State.reset.car c = CarrierRec.powerOn := by simp [State.car, State.reset]

/-- No record but slot 0 holds a key. -/
theorem keys_listed (k : Key) (j : ServiceIdx) (h : (listed.svc j).key = some k) : j = 0 ∧ k = ⟨100, 11⟩ := by
  rw [svc_listed] at h
  split at h
  · rename_i e
    exact ⟨e.symm, by simpa [slot0] using h.symm⟩
  · cases h

/-- A state with this claim on channel 0 and the mode as given. -/
def claimed (m : Mode) (c : ClaimRec) (s : State) : State :=
  { s with arb := { s.arb with mode := m }, claims := { recs := s.claims.recs.set 0 c, changed := [0] } }

/-- n paths in CARRY use, from path 0 up. -/
def carrying (n : Nat) (s : State) : State :=
  (List.finRange 8).foldl (fun s p => if p.val < n then s.setPath p (onCarrier3 .engaged .carry) else s) s

theorem witness_ActivateEntersActive :
    (∃ s : State, Taken .activate (entry 1 0 []) s ∧ s.arb.mode = .standby ∧ (s.claim 0).reason = some .standby
      ∧ (s.claim 0).service = some 1 ∧ (s.svc 1).selected = none ∧ (s.claim 1).reason ≠ some .standby)
    ∧ (∃ s : State, Taken .activate (entry 1 0 []) s ∧ s.arb.mode = .standby ∧ (s.claim 0).reason = some .standby
      ∧ (s.claim 0).service = some 0 ∧ (s.svc 0).selected = some 3 ∧ eligible s 3 = true ∧ (s.car 3).carrying = none)
    ∧ ∃ s : State, Taken .activate (entry 1 0 []) s ∧ s.arb.mode = .standby ∧ (s.claim 0).reason = some .standby
      ∧ (s.claim 0).service = some 0 ∧ (s.svc 0).selected = some 3 ∧ eligible s 3 = false :=
  ⟨⟨given (entry 1 0 []) (claimed .standby (.waiting 1 .standby) listed), by decide +kernel⟩,
    ⟨given (entry 1 0 []) (claimed .standby (.waiting 0 .standby) listed), by decide +kernel⟩,
    ⟨given (entry 1 0 []) (claimed .standby (.waiting 0 .standby) (listed.setCar 3 { carrier3 with state := .lost })),
      by decide +kernel⟩⟩

theorem witness_StandbyStopsPaths :
    (∃ s : State, Taken .standby (entry 2 0 []) s ∧ s.arb.mode = .active ∧ (∀ p, (s.path p).state = .idle)
      ∧ (s.claim 0).service = some 0 ∧ (s.claim 1).service = none)
    ∧ ∃ s : State, Taken .standby (entry 2 0 []) s ∧ s.arb.mode = .active ∧ (s.path 0).state.working = true
      ∧ (s.path 0).use ≠ none ∧ (s.path 1).state.working = false :=
  ⟨⟨given (entry 2 0 []) (claimed .active (.waiting 0 .noPath) listed), by decide +kernel⟩,
    ⟨given (entry 2 0 []) engaged, by decide +kernel⟩⟩

theorem witness_ScanControlSetsReserveAndSweep :
    (takesAll .scanControl 3 active [[3, 0], [2, 2]] = true)
    ∧ (Taken .scanControl (entry 3 0 [2, 1]) (given (entry 3 0 [2, 1]) (carrying 7 active))
      ∧ 8 - 2 < carryCount (given (entry 3 0 [2, 1]) (carrying 7 active)))
    ∧ carryCount (given (entry 3 0 [2, 1]) (carrying 6 active)) = 8 - 2
    ∧ Taken .scanControl (entry 3 0 [0, 0]) (given (entry 3 0 [0, 0]) (carrying 8 active))
    ∧ carryCount (given (entry 3 0 [0, 0]) (carrying 8 active)) = 8 - 0 := by decide +kernel

theorem witness_SetRankingRescores :
    (takesAll .setRanking 4 active
      [[1, 2, 3, 4, 5, 0, 0, 0], [1, 2, 3, 4, 5, 9, 0, 0], [1, 2, 3, 4, 5, 8, 3, 65529],
        [1, 2, 3, 4, 5, 1, 0, 0], [1, 2, 3, 4, 5, 8, 3, 65528]] = true)
    ∧ (∀ i, ((given (entry 4 0 [1, 2, 3, 4, 5, 8, 3, 65528]) active).svc i).state.live = false)
    ∧ ((given (entry 4 0 [1, 2, 3, 4, 5, 8, 3, 65528]) listed).svc 0).state.live = true :=
  ⟨by decide +kernel, fun i => by
    rw [show (given (entry 4 0 [1, 2, 3, 4, 5, 8, 3, 65528]) active).svc i = State.reset.svc i from rfl, svc_reset]
    rfl, by decide +kernel⟩

theorem witness_AttentionLine : takesAll .setPort 5 active [[0], [65], [1], [64]] = true := by
  decide +kernel

theorem witness_SettleHoldsUntilTimer :
    (takesAll .settle 25 active [[99], [60001], [100], [60000]] = true)
    ∧ active.plan.queue ++ active.plan.underQueue = []
    ∧ Taken .settle (entry 25 0 [100])
        (given (entry 25 0 [100]) { active with plan := { active.plan with queue := [3], underQueue := [3, 9] } })
    ∧ (∃ s : State, s.inExec = some ⟨0x6400, true, .settle [3] 100⟩)
    ∧ (∃ s : State, s.inExec = some ⟨0x6400, false, .settle [3, 9] 100⟩)
    ∧ (4 : CarrierIdx) ∉ ([3, 9] : List CarrierIdx) ∧ (∃ d ∈ ([3, 9] : List CarrierIdx), d ≠ 3)
    ∧ ∀ d ∈ ([3] : List CarrierIdx), d = 3 :=
  ⟨by decide +kernel, by decide +kernel, by decide +kernel, ⟨{ active with inExec := some ⟨0x6400, true, .settle [3] 100⟩ }, rfl⟩,
    ⟨{ active with inExec := some ⟨0x6400, false, .settle [3, 9] 100⟩ }, rfl⟩, by decide +kernel, by decide +kernel, by decide +kernel⟩

/-- The listed state in STANDBY. -/
def standing : State := { listed with arb := { listed.arb with mode := .standby } }

theorem witness_DefineInputAndCarrier_input :
    (takesAll .defineInput 8 standing [[6, 0], [5, 4], [0, 0], [5, 3]] = true)
    ∧ (standing.inp 0).kind ≠ .unused ∧ 0 < (standing.inp 0).carrierCount ∧ (standing.inp 5).carrierCount = 0 := by
  decide +kernel

theorem witness_DefineInputAndCarrier_carrier :
    (takesAll .defineCarrier 9 listed [[6, 0, 18, 30352, 27500, 2], [0, 0, 18, 30352, 27500, 2]] = true)
    ∧ (∃ d x, (listed.car d).state ≠ .free ∧ (listed.car d).params = some x
        ∧ x = paramsOf (entry 9 0 [0, 0, 18, 30352, 27500, 2]) 0)
    ∧ (∀ d, (session.car d).state = .free) ∧ (∀ p, (session.path p).carrier ≠ some 0)
    ∧ ∀ d, ({ session with carriers := Vector.replicate 192 carrier3 } : State).car d = carrier3 :=
  ⟨by decide +kernel, ⟨3, params3, by decide +kernel⟩,
    fun d => by rw [show session.car d = State.reset.car d from rfl, car_reset]; rfl, by decide +kernel,
    fun d => by simp [State.car]⟩

/-- The ranges of R23 at their ends, by kind of input. -/
theorem witness_DefineInputAndCarrier_ranges :
    (paramsOf (entry 9 0 [0, 0, 18, 30352, 27500, 2]) 0 = params3 ∧ InRange .satellite params3 ∧ ¬ InRange .unused params3)
    ∧ (InRange .satellite { params3 with frequency := 950000 } ∧ ¬ InRange .satellite { params3 with frequency := 949999 })
    ∧ (InRange .terrestrial ⟨0, none, 870000, 8, 7⟩ ∧ ¬ InRange .cable ⟨0, none, 870000, 8, 7⟩) :=
  ⟨by decide +kernel, by decide +kernel, by decide +kernel⟩

theorem witness_ForgetCarrierClears :
    (takesAll .forgetCarrier 10 listed [[192], [191], [3]] = true)
    ∧ (listed.car 191).state = .free ∧ (listed.car 3).state ≠ .free
    ∧ (∀ ch, (listed.claim ch).current ≠ some 3 ∧ (listed.claim ch).target ≠ some 3)
    ∧ ((claimed .active ⟨.carrying, none, some 0, some 3, none, some 0⟩ listed).claim 0).current = some 3
    ∧ (0 : ServiceIdx) ∈ (listed.car 3).announced ∧ (listed.car 3).params = some params3 := by decide +kernel

theorem witness_CarrierReports :
    (takesAll .carrierInfo 11 listed [[192], [191]] = true)
    ∧ takesAll .carrierServices 12 listed [[192, 47], [191, 48], [191, 47]] = true := by decide +kernel

/-- The listed state with slot 0 a tombstone. -/
def tombstoned : State := listed.setSvc 0 (tombstone slot0)

theorem svc_tombstoned (j : ServiceIdx) : tombstoned.svc j = if 0 = j then tombstone slot0 else ServiceRec.powerOn := by
  have h : tombstoned.svc j = if 0 = j then tombstone slot0 else listed.svc j := State.svc_setSvc listed 0 j _
  rw [h, svc_listed]
  split <;> rfl

/-- A table with every record alike. -/
def uniform (r : ServiceRec) : State := { active with svcs := { active.svcs with recs := Vector.replicate 512 r } }

theorem svc_uniform (r : ServiceRec) (j : ServiceIdx) : (uniform r).svc j = r := by simp [uniform, State.svc]

theorem witness_EnrolAndUnsuppress_enrol :
    Taken .enrol (entry 16 0 [100, 11]) (given (entry 16 0 [100, 11])
      { active with svcs := { active.svcs with suppressed := [⟨100, 11⟩] } })
    ∧ ((listed.svc 0).state.live = true ∧ (listed.svc 0).key = some ⟨100, 11⟩
      ∧ ∀ j, (listed.svc j).state ≠ .free → (listed.svc j).key = some ⟨100, 11⟩ → j = 0)
    ∧ ((tombstoned.svc 0).state = .retired ∧ (tombstoned.svc 0).key = some ⟨100, 11⟩
      ∧ ∀ j, (tombstoned.svc j).state ≠ .free → (tombstoned.svc j).key = some ⟨100, 11⟩ → j = 0)
    ∧ ((∀ j, (listed.svc j).state ≠ .free → (listed.svc j).key ≠ some ⟨100, 12⟩) ∧ (listed.svc 1).state = .free
      ∧ ∀ j, j < 1 → (listed.svc j).state ≠ .free)
    ∧ ((∀ j, ((uniform (tombstone slot0)).svc j).state = .retired)
      ∧ ∀ j, ((uniform (tombstone slot0)).svc 0).changeEpoch = ((uniform (tombstone slot0)).svc j).changeEpoch ∧ 0 ≤ j)
    ∧ ∀ j, ((uniform slot0).svc j).state.live = true :=
  ⟨by decide +kernel, ⟨by decide +kernel, by decide +kernel, fun j _ h => (keys_listed _ j h).1⟩,
    ⟨by decide +kernel, by decide +kernel, fun j _ h => by
      rw [svc_tombstoned] at h
      split at h
      · rename_i e; exact e.symm
      · cases h⟩,
    ⟨fun j _ h => by have := (keys_listed _ j h).2; simp at this, by decide +kernel, fun j hj => by
      have e : j = 0 := by apply Fin.ext; simp only [Fin.lt_def] at hj; simpa using hj
      rw [e]; decide +kernel⟩,
    ⟨fun j => by rw [svc_uniform]; rfl, fun j => by rw [svc_uniform, svc_uniform]; exact ⟨rfl, Fin.zero_le j⟩⟩,
    fun j => by rw [svc_uniform]; rfl⟩

theorem witness_LookupReportsRecord :
    (takesAll .lookup 17 listed [[2, 0, 0], [0, 512, 0], [0, 511, 0], [1, 100, 11], [1, 100, 12]] = true)
    ∧ (∀ j, (listed.svc j).state ≠ .free → (listed.svc j).key ≠ some ⟨100, 12⟩)
    ∧ (listed.svc 0).state ≠ .free ∧ (listed.svc 0).key = some ⟨100, 11⟩
    ∧ ∀ j, (listed.svc j).state ≠ .free → (listed.svc j).key = some ⟨100, 11⟩ → j = 0 :=
  ⟨by decide +kernel, fun j _ h => by have := (keys_listed _ j h).2; simp at this, by decide +kernel, by decide +kernel,
    fun j _ h => (keys_listed _ j h).1⟩

theorem witness_ListPages :
    (takesAll .listServices 18 listed [[512, 1], [511, 0], [511, 6], [511, 0xFFFF], [511, 1], [511, 5]] = true)
    ∧ takesAll .listChanged 19 listed [[0, 0, 512], [0xFFFF, 0xFFFF, 511]] = true := by decide +kernel

/-- Slot 0 pinned, as it stands in `listed`. -/
def pinnedState : State := listed.setSvc 0 { slot0 with pin := some 3 }

theorem witness_PinChecksAndRecord :
    (takesAll .pin 20 listed
      [[512, 3, 41], [0, 192, 41], [511, 3, 0], [0, 3, 40], [0, 191, 41], [0, 9, 41], [0, 3, 41]] = true)
    ∧ (listed.svc 511).state = .free ∧ (listed.svc 0).state ≠ .free ∧ (listed.svc 0).generation = 41
    ∧ (191 : CarrierIdx) ∉ (listed.svc 0).candidates ∧ (9 : CarrierIdx) ∈ (listed.svc 0).candidates
    ∧ eligible listed 9 = false ∧ (3 : CarrierIdx) ∈ (listed.svc 0).candidates ∧ eligible listed 3 = true
    ∧ (listed.svc 0).pin ≠ some 3 ∧ (pinnedState.svc 0).pin = some 3 := by decide +kernel

theorem witness_UnpinClearsAndEvaluates :
    (takesAll .unpin 21 pinnedState [[512], [511], [0]] = true)
    ∧ (pinnedState.svc 511).state = .free ∧ (listed.svc 0).pin = none
    ∧ (pinnedState.svc 0).pin = some 3 ∧ (pinnedState.svc 0).selected = some 3 ∧ (pinnedState.svc 0).challenger = none
    ∧ eligible pinnedState 3 = true
    ∧ (eligible (pinnedState.setCar 3 { carrier3 with state := .lost }) 3 = false
      ∧ firstEligible (pinnedState.setCar 3 { carrier3 with state := .lost }) slot0.candidates = none)
    ∧ (eligible ((pinnedState.setCar 3 { carrier3 with state := .lost }).setCar 9 carrier3) 3 = false
      ∧ firstEligible ((pinnedState.setCar 3 { carrier3 with state := .lost }).setCar 9 carrier3) slot0.candidates
        = some 9) := by decide +kernel

theorem witness_RetireLeavesTombstone :
    (takesAll .retire 22 listed
      [[512, 0, 0], [0, 41, 2], [511, 0, 0], [0, 40, 1], [0, 41, 0], [0, 41, 1]] = true)
    ∧ (listed.svc 511).state = .free ∧ (listed.svc 0).claimCount = 0 ∧ (listed.svc 0).key = some ⟨100, 11⟩
    ∧ 0 < ((listed.setSvc 0 { slot0 with claimCount := 1 }).svc 0).claimCount
    ∧ (⟨100, 11⟩ : Key) ∉ (List.range 64).map (fun n => (⟨200, word n⟩ : Key))
    ∧ ((List.range 64).map (fun n => (⟨200, word n⟩ : Key))).length = 64
    ∧ (tombstoned.svc 0).state = .retired := by decide +kernel

theorem witness_EnrolAndUnsuppress_unsuppress : takes .unsuppress 23 active [100, 11] = true
    ∧ takes .unsuppress 23 { active with svcs := { active.svcs with suppressed := [⟨100, 11⟩] } } [100, 11] = true := by
  decide +kernel

theorem witness_RefreshJoinsVisitQueue :
    (takesAll .refresh 24 listed [[2, 0], [0, 192], [1, 512], [0, 191], [1, 511], [0, 3], [1, 0]] = true)
    ∧ (listed.car 191).state = .free ∧ (listed.svc 511).state = .free ∧ (listed.car 3).state ≠ .free
    ∧ (listed.car 3).carrying = none ∧ (3 : CarrierIdx) ∉ listed.plan.queue ∧ (listed.svc 0).state ≠ .free
    ∧ (rankOrder listed slot0.candidates) = [3, 9]
    ∧ (∃ s : State, s.plan.queue.length + [(3 : CarrierIdx)].length = 17)
    ∧ ∃ s : State, s.plan.queue.length + [(3 : CarrierIdx)].length = 16 :=
  ⟨by decide +kernel, by decide +kernel, by decide +kernel, by decide +kernel, by decide +kernel, by decide +kernel,
    by decide +kernel, by decide +kernel,
    ⟨{ listed with plan := { listed.plan with queue := (List.range 16).map (fun n => Fin.ofNat 192 (n + 10)) } }, by decide +kernel⟩,
    ⟨{ listed with plan := { listed.plan with queue := (List.range 15).map (fun n => Fin.ofNat 192 (n + 10)) } }, by decide +kernel⟩⟩

theorem witness_ClaimChecksAndClaim :
    (takesAll .claim 32 (claimed .active (.waiting 0 .noPath) listed)
      [[32, 0], [31, 512], [0, 0], [31, 511], [31, 0]] = true)
    ∧ ((claimed .active (.waiting 0 .noPath) listed).claim 0).state ≠ .free ∧ (listed.claim 31).state = .free
    ∧ (listed.svc 511).state.live = false ∧ (listed.svc 0).state.live = true
    ∧ standing.arb.mode ≠ .active ∧ listed.arb.mode = .active
    ∧ ((listed.setSvc 0 { slot0 with selected := none }).svc 0).selected = none
    ∧ (listed.svc 0).selected = some 3 ∧ eligible listed 3 = true ∧ (listed.car 3).carrying = none
    ∧ eligible (listed.setCar 3 { carrier3 with state := .lost }) 3 = false
    ∧ ((engaged.setCar 3 { carrier3 with carrying := some 0 }).car 3).carrying = some 0
    ∧ (engaged.path 0).state = .engaged
    ∧ ((listed.setPath 0 (onCarrier3 .awaitTune .carry)).path 0).state = .awaitTune
    ∧ ((listed.setPath 0 (onCarrier3 .tuning .carry)).path 0).state = .tuning := by decide +kernel

theorem witness_ReleaseClaimFreesChannel :
    (takesAll .releaseClaim 33 (claimed .active (.waiting 0 .noPath) listed) [[32], [31], [0]] = true)
    ∧ (listed.claim 31).service = none ∧ ((claimed .active (.waiting 0 .noPath) listed).claim 0).service = some 0 := by
  decide +kernel

theorem witness_ClaimReports : takesAll .claimStatus 34 listed [[32], [31]] = true := by
  decide +kernel

theorem witness_MonitorsCountAndReport_requests :
    (takesAll .setMonitor 40 active [[3, 10, 0], [3, 9, 0], [0, 0, 0]] = true)
    ∧ takesAll .ackAlert 42 active [[0], [3]] = true := by decide +kernel

theorem witness_MonitorsCountAndReport_occurrence :
    (watching.mon 0).select = some .carryLockLoss ∧ (watching.mon 1).select ≠ some .carryLockLoss
    ∧ (∃ m : Monitor, m.count = 65535) ∧ (∃ m : Monitor, m.count = 65534)
    ∧ ∃ m : Monitor, 0 < m.threshold.toNat ∧ m.count + 1 = m.threshold.toNat ∧ m.sample = none :=
  ⟨by decide +kernel, by decide +kernel, ⟨⟨none, 65535, 0, none⟩, rfl⟩, ⟨⟨none, 65534, 0, none⟩, rfl⟩,
    ⟨⟨some .preemption, 1, 2, none⟩, by decide +kernel⟩⟩

/-! ### The hypotheses of the statements can be met: inputs, paths and visits -/

/-- The listed state with this record of input 0. -/
def withInput (k : FeedState) (history : List Nat) (wait : List Waiter) : State :=
  listed.setInp 0 { listed.inp 0 with feedState := k, history := history, waitList := wait }

theorem witness_InputEvents :
    (listed.inp 0).feedState = .steady ∧ (listed.inp 0).waitList = []
    ∧ ((withInput (.settling 15) [] [⟨0, 0⟩]).inp 0).feedState = .settling 15
    ∧ ∀ h ∈ [[], [15], [15, 19, 23], [15, 19, 23, 27]],
      ((withInput .steady h [⟨0, 0⟩]).inp 0).waitList = ⟨0, 0⟩ :: [] ∧ ((withInput .steady h [⟨0, 0⟩]).inp 0).feedState = .steady
      ∧ ((withInput .steady h [⟨0, 0⟩]).inp 0).history = h := by decide +kernel

/-- The listed state with path 0 so. -/
def onPath (r : PathRec) : State := listed.setPath 0 r

theorem witness_LockEngagesPath :
    (listed.path 0).state ≠ .tuning ∧ listed.arb.due = false
    ∧ ∀ u ∈ [Use.sweep, .queue, .carry], ((onPath (onCarrier3 .tuning u)).path 0).state = .tuning
      ∧ ((onPath (onCarrier3 .tuning u)).path 0).carrier = some 3 ∧ ((onPath (onCarrier3 .tuning u)).car 3).state ≠ .free
      ∧ ((onPath (onCarrier3 .tuning u)).path 0).use = some u := by decide +kernel

theorem witness_EngagementToldToClaims :
    (∀ k ∈ [ClaimState.acquiring, .recovering, .carrying],
      ((claimed .active ⟨k, none, some 0, some 3, none, some 0⟩ listed).claim 0).state = k
      ∧ ((claimed .active ⟨k, none, some 0, some 3, none, some 0⟩ listed).claim 0).path = some 0)
    ∧ ((claimed .active ⟨.handover, none, some 0, some 9, some 3, some 1⟩ listed).claim 0).state = .handover
    ∧ ((claimed .active ⟨.handover, none, some 0, some 9, some 3, some 1⟩ listed).claim 0).service = some 0
    ∧ ((claimed .active ⟨.handover, none, some 0, some 9, some 3, some 1⟩ listed).claim 0).target = some 3
    ∧ ((claimed .active ⟨.handover, none, some 0, some 9, some 3, some 1⟩ listed).claim 0).target ≠ some 4
    ∧ ((claimed .active (.waiting 0 .noPath) listed).claim 0).state = .waiting ∧ (listed.claim 0).state = .free := by
  decide +kernel

theorem witness_LockTimerExpiry :
    (∀ u ∈ [Use.sweep, .queue, .carry],
      ((onPath { onCarrier3 .tuning u with lockTimer := some 120 }).path 0).use = some u
      ∧ ((onPath { onCarrier3 .tuning u with lockTimer := some 120 }).path 0).state = .tuning
      ∧ ((onPath { onCarrier3 .tuning u with lockTimer := some 120 }).path 0).lockTimer = some 120
      ∧ ((onPath { onCarrier3 .tuning u with lockTimer := some 120 }).path 0).carrier = some 3
      ∧ ((onPath { onCarrier3 .tuning u with lockTimer := some 120 }).car 3).state ≠ .free
      ∧ ((onPath { onCarrier3 .tuning u with lockTimer := some 120 }).path 0).lockTime = none)
    ∧ ∀ n ∈ [1, 2, 3],
      ((onPath { onCarrier3 .tuning .carry with lockTimer := some 120, lockTime := some 0, relocks := n }).path 0).lockTime
        ≠ none
      ∧ ((onPath { onCarrier3 .tuning .carry with lockTimer := some 120, lockTime := some 0, relocks := n }).path 0).relocks
        = n := by decide +kernel

/-- Path 0 ENGAGED on carrier 3, with a sample due at 160 and n samples gathered. -/
def sampling (u : Use) (n : Nat) (cut done : Bool) : State :=
  onPath { onCarrier3 .engaged u with
    lockTime := some 0, lockHeld := true, sampleDue := some 160, cutPending := cut, accum := ⟨n, none, done⟩ }

theorem witness_SampleTaken :
    (∀ s ∈ [sampling .carry 0 false false, sampling .carry 6 false false, sampling .carry 7 false false,
          sampling .sweep 6 false false, sampling .queue 2 true false, sampling .sweep 0 false true],
        s.arb.due = false ∧ (s.path 0).state = .engaged ∧ (s.path 0).sampleDue = some 160
          ∧ (s.path 0).carrier = some 3 ∧ (s.car 3).state ≠ .free)
    ∧ (∀ s ∈ [sampling .carry 0 false false, sampling .carry 6 false false], (s.path 0).accum.count + 1 < 8
          ∧ (s.path 0).use = some .carry)
    ∧ ((sampling .carry 7 false false).path 0).accum.count = 7
    ∧ (∀ s ∈ [sampling .sweep 6 false false, sampling .queue 2 true false], (s.path 0).accum.count + 1 < 8
          ∧ (s.path 0).use ≠ some .carry ∧ (s.path 0).accum.burstDone = false
          ∧ ((s.path 0).cutPending = false ∨ (s.path 0).accum.count + 1 ≠ 4))
    ∧ ((sampling .sweep 0 false true).path 0).accum.burstDone = true
    ∧ ∃ x y : Sample, x.lockHeld = true ∧ y.lockHeld = false :=
  ⟨by decide +kernel, by decide +kernel, by decide +kernel, by decide +kernel, by decide +kernel,
    ⟨⟨0, 0, 0, true⟩, ⟨0, 0, 0, false⟩, rfl, rfl⟩⟩

/-- The sample that ends a burst of a scan visit: the eighth, with listening going on and ended, and the fourth with a
cut pending. -/
theorem witness_SampleTaken_scanBurst :
    (∀ u ∈ [Use.sweep, .queue], ∀ k ∈ [true, false], ∀ s,
        s = (sampling u 7 false false).setPath 0 { (sampling u 7 false false).path 0 with listening := k } →
      s.arb.due = false ∧ (s.path 0).state = .engaged ∧ (s.path 0).sampleDue = some 160 ∧ (s.path 0).carrier = some 3
        ∧ (s.path 0).use ≠ some .carry ∧ (s.path 0).accum.burstDone = false ∧ (s.path 0).accum.count = 7
        ∧ (s.path 0).listening = k)
    ∧ ∀ u ∈ [Use.sweep, .queue], ((sampling u 3 true false).path 0).use = some u
      ∧ ((sampling u 3 true false).path 0).accum.count = 3 ∧ ((sampling u 3 true false).path 0).accum.burstDone = false
      ∧ ((sampling u 3 true false).path 0).cutPending = true := by
  refine ⟨fun u hu k hk s e => ?_, by decide +kernel⟩
  subst e
  revert u k
  decide +kernel

theorem witness_BurstResultSmoothsVector : (State.reset.car 3).state ≠ .live ∧ (listed.car 3).state = .live
    ∧ (listed.car 3).quality = some ⟨lanes3, 72767⟩
    ∧ ((listed.setCar 3 { carrier3 with quality := none }).car 3).state = .live
    ∧ ((listed.setCar 3 { carrier3 with quality := none }).car 3).quality = none := by decide +kernel

/-- Path 0 ENGAGED on carrier 3 with a collection, the carrier holding this roster version. -/
def collecting (u : Use) (v : Option RosterVersion) (stale : Bool) : State :=
  (onPath { onCarrier3 .engaged u with lockTime := some 0, lockHeld := true, collection := some .empty,
                                       rosterTimer := some 1500, listening := true }).setCar 3
    { carrier3 with rosterVersion := v, stale := stale }

/-- A section with nothing else wrong with it. -/
def sectionOf (number last entries : Nat) (nameLength : Nat) : AnnSection :=
  ⟨5, number, last, 100, (List.range entries).map (fun n => ⟨word n, .radio, List.replicate nameLength 0x41⟩)⟩

theorem witness_AnnouncementSectionByKind :
    (∀ u ∈ [Use.carry, .sweep], (collecting u (some 5) false).arb.due = false
      ∧ ((collecting u (some 5) false).path 0).state = .engaged ∧ ((collecting u (some 5) false).path 0).carrier = some 3
      ∧ ((collecting u (some 5) false).path 0).collection = some .empty ∧ ((collecting u (some 5) false).path 0).use = some u
      ∧ ((collecting u (some 5) false).car 3).rosterVersion = some 5 ∧ ((collecting u (some 5) false).car 3).stale = false
      ∧ Collection.empty.version ≠ some 5)
    ∧ (listed.path 0).collection = none ∧ ((onPath (onCarrier3 .engaged .sweep)).path 0).collection = none
    ∧ 5 < (sectionOf 6 5 0 0).number ∧ 5 < (sectionOf 0 6 0 0).last ∧ (sectionOf 1 0 0 0).last < (sectionOf 1 0 0 0).number
    ∧ 8 < (sectionOf 0 0 9 0).entries.length ∧ (∃ y ∈ (sectionOf 0 0 1 17).entries, 16 < y.name.length)
    ∧ (sectionOf 5 5 8 16).number ≤ 5 ∧ (sectionOf 5 5 8 16).last ≤ 5
    ∧ (sectionOf 5 5 8 16).number ≤ (sectionOf 5 5 8 16).last ∧ (sectionOf 5 5 8 16).entries.length ≤ 8
    ∧ (∀ y ∈ (sectionOf 5 5 8 16).entries, y.name.length ≤ 16)
    ∧ (Collection.empty.take (sectionOf 5 5 8 16)).complete = false
    ∧ (Collection.empty.take (sectionOf 0 0 8 16)).complete = true
    ∧ ((collecting .sweep (some 5) true).car 3).stale = true ∧ ((collecting .sweep none false).car 3).rosterVersion = none
    ∧ ((collecting .carry (some 4) false).car 3).rosterVersion ≠ some 5
    ∧ ((collecting .carry (some 4) false).car 3).state ≠ .free := by decide +kernel

/-- The completing section, delivered to a path in CARRY use, leaves the path ENGAGED with a new collection. -/
theorem witness_AnnouncementSectionByKind_stays :
    ((after (.announcementSection 0 (sectionOf 0 0 8 16)) (collecting .carry (some 4) false)).path 0).state = .engaged := by
  decide +kernel

/-- The entry of the worked examples, for slot 0's key. -/
def one : KeyedEntry := ⟨⟨100, 11⟩, .television, [0x4F, 0x4E, 0x45]⟩

theorem witness_MergeEntryChangesRecord :
    (one.key ∈ (asked .retire (entry 22 1 [0, 41, 1]) listed).svcs.suppressed ∧ one.key ∉ listed.svcs.suppressed)
    ∧ ((listed.svc 0).state.live = true ∧ (listed.svc 0).key = some one.key
      ∧ ∀ j, (listed.svc j).state ≠ .free → (listed.svc j).key = some one.key → j = 0)
    ∧ ((listed.svc 0).kind = one.kind ∧ (listed.svc 0).name = some one.name ∧ (listed.svc 0).kind ≠ .radio)
    ∧ ((3 : CarrierIdx) ∈ (listed.svc 0).candidates ∧ (4 : CarrierIdx) ∉ (listed.svc 0).candidates
      ∧ (listed.svc 0).candidates.length < 4
      ∧ ((uniform { slot0 with candidates := [3, 9, 10, 11] }).svc 0).candidates.length = 4)
    ∧ ((tombstoned.svc 0).state = .retired ∧ (tombstoned.svc 0).key = some one.key
      ∧ ∀ j, (tombstoned.svc j).state ≠ .free → (tombstoned.svc j).key = some one.key → j = 0)
    ∧ ((∀ j, (listed.svc j).state ≠ .free → (listed.svc j).key ≠ some ⟨100, 12⟩) ∧ (listed.svc 1).state = .free
      ∧ ∀ j, j < 1 → (listed.svc j).state ≠ .free)
    ∧ ((∀ j, ((uniform (tombstone slot0)).svc j).state = .retired ∧ ((uniform (tombstone slot0)).svc j).key ≠ some ⟨100, 12⟩)
      ∧ ∀ j, ((uniform (tombstone slot0)).svc 0).changeEpoch = ((uniform (tombstone slot0)).svc j).changeEpoch ∧ 0 ≤ j)
    ∧ ∀ j, ((uniform slot0).svc j).state.live = true ∧ ((uniform slot0).svc j).key ≠ some ⟨100, 12⟩ :=
  ⟨⟨by decide +kernel, by decide +kernel⟩,
    ⟨by decide +kernel, by decide +kernel, fun j _ h => (keys_listed _ j h).1⟩, by decide +kernel,
    ⟨by decide +kernel, by decide +kernel, by decide +kernel, by decide +kernel⟩,
    ⟨by decide +kernel, by decide +kernel, fun j _ h => by
      rw [svc_tombstoned] at h
      split at h
      · rename_i e; exact e.symm
      · cases h⟩,
    ⟨fun j _ h => by have := (keys_listed _ j h).2; simp at this, by decide +kernel, fun j hj => by
      have e : j = 0 := by apply Fin.ext; simp only [Fin.lt_def] at hj; simpa using hj
      rw [e]; decide +kernel⟩,
    ⟨fun j => by rw [svc_uniform]; decide, fun j => by rw [svc_uniform, svc_uniform]; exact ⟨rfl, Fin.zero_le j⟩⟩,
    fun j => by rw [svc_uniform]; decide⟩

/-- R39: a key named twice in one roster asks one join, so the refused join is counted once. -/
theorem test_mergeEntries_twice :
    ((mergeEntries 4 [] [one, one] (listed.setSvc 0 { slot0 with candidates := [3, 9, 10, 11] }, [])).1.svc 0).overflow = 1
    ∧ (mergeEntries 4 [] [one, one] (listed, [])).2 = [0] := by decide +kernel

/-- R41: an entry that comes after a RETIRE revives the tombstone, and the list rebuilt leaves a retired service out. -/
theorem test_mergeEntry_afterRetire :
    ((mergeEntry 4 false (asked .retire (entry 22 1 [0, 41, 0]) listed, []) one).1.svc 0).state = .provisional
    ∧ ((mergeEntry 4 false (asked .retire (entry 22 1 [0, 41, 0]) listed, []) one).1.svc 0).candidates = [4]
    ∧ ((mergeRebuild 3 [one.key] (asked .retire (entry 22 1 [0, 41, 0]) listed)).car 3).announced = []
    ∧ ((mergeRebuild 3 [one.key] listed).car 3).announced = [0] := by decide +kernel

/-- A table full of live records, one of them with four candidates, holds no second record of slot 0's key. -/
theorem witness_MergeEntryChangesRecord_noRoom :
    ∃ s : State, (s.svc 0).candidates.length = 4 ∧ (4 : CarrierIdx) ∉ (s.svc 0).candidates ∧ (s.svc 0).state.live = true
      ∧ (s.svc 0).key = some one.key ∧ ∀ j, (s.svc j).state ≠ .free → (s.svc j).key = some one.key → j = 0 :=
  ⟨listed.setSvc 0 { slot0 with candidates := [3, 9, 10, 11] }, by decide +kernel, by decide +kernel, by decide +kernel,
    by decide +kernel, fun j _ h => by
      rw [State.svc_setSvc, svc_listed] at h
      split at h
      · rename_i e; exact e.symm
      · cases h⟩

theorem witness_RosterTimeout :
    ((listed.path 0).state ≠ .engaged ∧ listed.arb.due = false)
    ∧ ∀ done ∈ [false, true], ∀ s, s = (collecting .sweep none false).setPath 0
          { (collecting .sweep none false).path 0 with accum := ⟨0, none, done⟩ } →
      (s.path 0).state = .engaged ∧ (s.path 0).rosterTimer = some 1500 ∧ (s.path 0).carrier = some 3
        ∧ (s.path 0).collection = some .empty ∧ (s.path 0).accum.burstDone = done := by
  refine ⟨by decide +kernel, fun done h s e => ?_⟩
  subst e
  revert done
  decide +kernel

theorem witness_DwellAndRecoveryEnd :
    (listed.arb.due = false ∧ (listed.path 0).state ≠ .dwell ∧ (listed.path 0).state ≠ .recovery)
    ∧ (((onPath { onCarrier3 .dwell .sweep with dwellEnd := some 250 }).path 0).state = .dwell
      ∧ ((onPath { onCarrier3 .dwell .sweep with dwellEnd := some 250 }).path 0).dwellEnd = some 250)
    ∧ ∀ m ∈ [Mode.active, .stopping], ∀ s, s = { onPath { onCarrier3 .recovery .sweep with recoveryEnd := some 253 } with
          arb := { listed.arb with mode := m }, inExec := some ⟨0x0801, false, .standby⟩ } →
      (s.path 0).state = .recovery ∧ (s.path 0).recoveryEnd = some 253 ∧ s.arb.mode = m
        ∧ (∀ q, q ≠ 0 → (s.path q).state = .idle) ∧ ((s.setPath 1 (onCarrier3 .dwell .sweep)).path 1).state ≠ .idle
        ∧ s.inExec = some ⟨0x0801, false, .standby⟩ := by
  refine ⟨by decide +kernel, by decide +kernel, fun m h s e => ?_⟩
  subst e
  revert m
  decide +kernel

/-! ### The hypotheses of the statements can be met: ranking -/

theorem witness_RankOrderByScore : (slot0.candidates).Nodup ∧ rankOrder listed slot0.candidates = [3, 9] := by decide +kernel

/-- Carriers 3 and 9 LIVE and scored, carrier 9 ahead of carrier 3 by more than the beat margin. -/
def rivals : State := listed.setCar 9 { carrier3 with quality := some ⟨lanes3, 90000⟩ }

/-- No carrier of slot 0 eligible. -/
def noneEligible : State := listed.setCar 3 { carrier3 with state := .lost }

theorem witness_EvaluationByCourse :
    (∃ r : ServiceRec, r.pin = some 3 ∧ r.selected = some 3)
    ∧ firstEligible noneEligible slot0.candidates = none ∧ firstEligible listed slot0.candidates = some 3
    ∧ eligible noneEligible 3 = false ∧ eligible (noneEligible.setCar 9 carrier3) 3 = false
    ∧ firstEligible (noneEligible.setCar 9 carrier3) slot0.candidates = some 9
    ∧ slot0.pin = none ∧ slot0.selected = some 3 ∧ eligible listed 3 = true ∧ eligible rivals 3 = true
    ∧ bestMasked listed slot0 3 = none ∧ bestMasked rivals slot0 3 = some 9
    ∧ (listed.setCar 9 { carrier3 with quality := some ⟨lanes3, 72767 + 2048⟩ }).rank.settings.beatMargin = 2048
    ∧ bestMasked (listed.setCar 9 { carrier3 with quality := some ⟨lanes3, 72767 + 2048⟩ }) slot0 3 = none
    ∧ bestMasked (listed.setCar 9 { carrier3 with quality := some ⟨lanes3, 72767 + 2049⟩ }) slot0 3 = some 9
    ∧ rivals.rank.settings.persistence = 3
    ∧ (∃ r : ServiceRec, r.challenger = some ⟨9, 2⟩ ∧ bestMasked rivals r 3 = some 9)
    ∧ ∃ r : ServiceRec, r.challenger = some ⟨9, 1⟩ ∧ bestMasked rivals r 3 = some 9 :=
  ⟨⟨{ slot0 with pin := some 3 }, rfl, rfl⟩, by decide +kernel, by decide +kernel, by decide +kernel, by decide +kernel,
    by decide +kernel, rfl, rfl, by decide +kernel, by decide +kernel, by decide +kernel, by decide +kernel,
    by decide +kernel, by decide +kernel, by decide +kernel, by decide +kernel,
    ⟨{ slot0 with challenger := some ⟨9, 2⟩ }, rfl, by decide +kernel⟩,
    ⟨{ slot0 with challenger := some ⟨9, 1⟩ }, rfl, by decide +kernel⟩⟩

/-- The state with these reports outstanding. -/
def reported (l : List EvalReport) (s : State) : State := { s with rank := { s.rank with evals := l } }

theorem witness_ServiceEvaluationTakesRecord :
    (∀ k ∈ [EvalCause.burst, .eligibility, .merge, .setRanking],
      (reported [⟨k, none, [0]⟩] listed).rank.evals[0]? = some ⟨k, none, [0]⟩
      ∧ EvaluationMade ⟨k, none, [0]⟩ (listed.svc 0))
    ∧ (∃ (s : State) (q : EvalReport), s.rank.evals[1]? = some q ∧ q.services = 1 :: [0]
      ∧ ∀ m x, m < 1 → s.rank.evals[m]? = some x → (1 : ServiceIdx) ∉ x.services)
    ∧ EvaluationMade ⟨.burst, some 3, [0]⟩ (listed.svc 0) ∧ ¬ EvaluationMade ⟨.burst, some 4, [0]⟩ (listed.svc 0)
    ∧ (∀ st ∈ [SvcState.free, .retired, .orphaned], ¬ EvaluationMade ⟨.setRanking, none, [0]⟩ { slot0 with state := st })
    ∧ (∀ st ∈ [SvcState.provisional, .degraded], EvaluationMade ⟨.setRanking, none, [0]⟩ { slot0 with state := st })
    ∧ (evaluated listed true slot0).state = slot0.state ∧ (evaluated listed true slot0).selected = slot0.selected
    ∧ (evaluated noneEligible false slot0).state ≠ slot0.state
    ∧ (evaluated rivals true { slot0 with challenger := some ⟨9, 2⟩ }).selected ≠ slot0.selected :=
  ⟨by decide +kernel,
    ⟨reported [⟨.burst, none, [0]⟩, ⟨.merge, none, [1, 0]⟩] listed, ⟨.merge, none, [1, 0]⟩, rfl, rfl, fun m x hm h => by
      have e : m = 0 := by omega
      subst e
      have e : x = ⟨.burst, none, [0]⟩ := by
        have : some (⟨.burst, none, [0]⟩ : EvalReport) = some x := h
        exact (Option.some.inj this).symm
      subst e
      decide⟩,
    by decide +kernel, by decide +kernel, by decide +kernel, by decide +kernel, by decide +kernel, by decide +kernel,
    by decide +kernel, by decide +kernel⟩

/-! ### The hypotheses of the statements can be met: the end of a step -/

/-- The state with all paths alike. -/
def allPaths (r : PathRec) (s : State) : State := { s with paths := Vector.replicate 8 r }

/-- A path at work on carrier 9. -/
def onCarrier9 (st : PathState) (u : Use) : PathRec := { grantedPath u 9 with state := st }

theorem shaped_powerOn : ServiceRec.powerOn.shaped := by
  simp [ServiceRec.shaped, ServiceRec.choicesOk, ServiceRec.fieldsOfState, ServiceRec.powerOn]

theorem shaped_listed : ServicesShaped listed := by
  intro i
  rw [svc_listed]
  split
  · simp [ServiceRec.shaped, ServiceRec.choicesOk, ServiceRec.fieldsOfState, slot0, ServiceRec.powerOn]
  · exact shaped_powerOn

/-- The listed state with this cursor and visit queue. -/
def planned (cursor : CarrierIdx) (queue : List CarrierIdx) (sweep : Bool) : State :=
  { listed with plan := { listed.plan with cursor := cursor, queue := queue, sweepEnabled := sweep } }

theorem grantable_reset (c : CarrierIdx) : ¬ Grantable active c := by
  rintro ⟨h, _⟩
  rw [show active.car c = State.reset.car c from rfl, car_reset] at h
  exact h rfl

/-- Carrier 3 is the only one with work for a scan path. -/
theorem grantable_planned (cursor : CarrierIdx) (queue : List CarrierIdx) (sweep : Bool) (c : CarrierIdx) (h : c ≠ 3) :
    ¬ Grantable (planned cursor queue sweep) c := by
  rintro ⟨g, _⟩
  have a : (planned cursor queue sweep).car c = (active.setCar 3 carrier3).car c := rfl
  rw [a, State.car_setCar, if_neg (fun x => h x.symm), show active.car c = State.reset.car c from rfl, car_reset] at g
  exact g rfl

theorem grantable_listed : Grantable listed 3 :=
  ⟨by decide +kernel, by decide +kernel, by decide +kernel, params3, by decide +kernel⟩

theorem witness_ScanGrantTakesWork :
    (∀ p, ((carrying 8 active).path p).state ≠ .idle)
    ∧ ((listed.path 0).state = .idle ∧ ∀ q, q < (0 : PathIdx) → (listed.path q).state ≠ .idle)
    ∧ (((carrying 7 active).path 7).state = .idle ∧ ∀ q, q < (7 : PathIdx) → ((carrying 7 active).path q).state ≠ .idle)
    ∧ (∀ c, ¬ Grantable active c)
    ∧ (planned 0 [9] false).plan.sweepEnabled = false ∧ ¬ Grantable (planned 0 [9] false) 9
    ∧ (planned 0 [9, 3, 10] false).plan.queue = [9] ++ 3 :: [10] ∧ Grantable (planned 0 [9, 3, 10] false) 3
    ∧ (∀ c ∈ ([0, 3, 4, 191] : List CarrierIdx), ServicesShaped (planned c [] true)
      ∧ (planned c [] true).plan.sweepEnabled = true ∧ Grantable (planned c [] true) 3
      ∧ (∀ d, d ≠ 3 → ¬ Grantable (planned c [] true) d) ∧ ((planned c [] true).car 3).params = some params3)
    ∧ Grantable (((active.setCar 191 carrier3).setInp 0 { InputRec.powerOn with kind := .satellite })) 191 :=
  ⟨by decide +kernel, by decide +kernel, by decide +kernel, grantable_reset, rfl, grantable_planned _ _ _ 9 (by decide), rfl,
    grantable_listed,
    fun c _ => ⟨fun i => shaped_listed i, rfl, grantable_listed, fun d h => grantable_planned c [] true d h,
      (show (listed.car 3).params = some params3 by decide +kernel)⟩,
    ⟨by decide +kernel, by decide +kernel, by decide +kernel, params3, by decide +kernel⟩⟩

theorem witness_ClaimItemServed :
    (∀ k ∈ [PathState.awaitTune, .tuning], ∀ n ∈ [6, 7], ∀ s, s = (carrying n listed).setPath 7 (onCarrier3 k .sweep) →
      (s.path 7).scan = true ∧ (s.path 7).state.working = true ∧ (s.path 7).forgotten = false ∧ carryCount s = n
        ∧ 8 - s.arb.reserve = 7)
    ∧ pathOn (onPath (onCarrier3 .tuning .sweep)) 3 = some 0
    ∧ pathOn ((allPaths (onCarrier9 .engaged .carry) listed).setPath 0 (onCarrier3 .tuning .queue)) 3 = some 0
    ∧ carryCount ((allPaths (onCarrier9 .engaged .carry) listed).setPath 0 (onCarrier3 .tuning .queue)) = 7
    ∧ pathOn (allPaths (onCarrier9 .engaged .carry) listed) 3 = none
    ∧ carryCount (allPaths (onCarrier9 .engaged .carry) listed) = 8
    ∧ (pathOn listed 3 = none ∧ carryCount listed = 0 ∧ (listed.car 3).params = some params3
      ∧ (listed.inp 0).kind = .satellite ∧ params3.feed = some (listed.inp 0).feed ∧ (listed.path 0).state = .idle)
    ∧ (∀ s, s = listed.setInp 0 { listed.inp 0 with feed := ⟨.high, .vertical⟩, attached := [1] } →
      (s.inp 0).kind = .satellite ∧ params3.feed ≠ some (s.inp 0).feed ∧ (s.inp 0).attached ≠ []
        ∧ pathOn (s.setPath 1 (onCarrier9 .engaged .carry)) 3 = none
        ∧ ((s.setPath 1 (onCarrier9 .engaged .carry)).path 1).scan = false
        ∧ ((s.setInp 0 { s.inp 0 with attached := [] }).inp 0).attached = [])
    ∧ (∀ k ∈ [PathState.awaitTune, .tuning], ∀ s, s = allPaths (onCarrier9 k .sweep) listed →
      pathOn s 3 = none ∧ carryCount s = 0 ∧ (∀ p, (s.path p).state ≠ .idle) ∧ s.arb.cuts = [] ∧ (s.path 0).scan = true
        ∧ (s.path 0).cutPending = false ∧ (s.path 0).state = k)
    ∧ ∃ s : State, s.arb.cuts = [(0, 2)] := by
  refine ⟨fun k hk n hn s e => ?_, by decide +kernel, by decide +kernel, by decide +kernel, by decide +kernel,
    by decide +kernel, by decide +kernel, fun s e => ?_, fun k hk s e => ?_,
    ⟨{ listed with arb := { listed.arb with cuts := [(0, 2)] } }, rfl⟩⟩
  · subst e
    revert k n
    decide +kernel
  · subst e
    decide +kernel
  · subst e
    revert k
    decide +kernel

theorem witness_ArbitrationFrame : State.reset.arb.due = false ∧ standing.arb.mode ≠ .active
    ∧ ({ State.reset with arb := { State.reset.arb with mode := .stopping } } : State).arb.mode ≠ .active
    ∧ (listed.svc 0).state ≠ .orphaned ∧ listed.inExec = none := by decide +kernel

/-! ### The hypotheses of the invariants can be met -/

theorem witness_step : step State.reset = .next { State.reset with now := 1 } := by
  have h : nextOwn State.reset = none := by decide +kernel
  have p : State.reset.pending = [] := rfl
  unfold step
  rw [p, h]
  rfl

theorem witness_invariants :
    ServicesShaped State.reset ∧ ClaimsShaped State.reset ∧ CarryWithinReserve State.reset ∧ BudgetsKept State.reset
    ∧ EpochsBounded State.reset ∧ SuppressionBounded State.reset ∧ QueueBounded State.reset ∧ ChangedInOrder State.reset
    ∧ AttachedInOrder State.reset ∧ State.reset.arb.due = false ∧ RequestsFit State.reset ∧ ResponsesFit State.reset
    ∧ AttentionInRange State.reset ∧ KeysDistinct State.reset ∧ NoneSuppressedLive State.reset
    ∧ ClaimsCounted State.reset ∧ QueueDistinct State.reset ∧ WaitersInOrder State.reset :=
  ⟨fun i => by rw [svc_reset]; exact shaped_powerOn, fun ch => by rw [claim_reset]; simp [ClaimRec.shaped, ClaimRec.free],
    by unfold CarryWithinReserve; decide +kernel,
    fun i => by rw [inp_reset]; simp [historyOk, InputRec.powerOn],
    fun i => by rw [svc_reset]; simp [State.reset, ServiceRec.powerOn],
    by simp [SuppressionBounded, State.reset], by simp [QueueBounded, State.reset], by simp [ChangedInOrder, State.reset],
    fun i => by rw [inp_reset]; exact List.Pairwise.nil, rfl, by unfold RequestsFit; decide +kernel, by unfold ResponsesFit; decide +kernel,
    by unfold AttentionInRange; decide, fun i _ _ h => absurd (by rw [svc_reset]; rfl) h,
    fun _ _ _ _ => by simp [State.reset],
    fun i => by rw [svc_reset, claimsOn_none State.reset i (fun ch => by rw [claim_reset]; rfl)]; rfl,
    by simp [QueueDistinct, State.reset], fun i => by rw [inp_reset]; exact List.Pairwise.nil⟩

/-- They are met away from reset too, at the edge of their ranges. -/
theorem witness_invariants_atTheirEdge :
    ServicesShaped listed ∧ CarryWithinReserve (carrying 7 active)
    ∧ QueueBounded { active with plan := { active.plan with queue := List.replicate 16 3 } }
    ∧ historyOk 55 [19, 23, 27, 55] ∧ RequestsFit (framed (frameOf 1 none none .storing) [open_ 15, open_ 15, open_ 15, open_ 15])
    ∧ ResponsesFit (crowded 62 (entry 2 0 []) { State.reset with inExec := some ⟨0x0801, false, .standby⟩ }) :=
  ⟨shaped_listed, by unfold CarryWithinReserve; decide +kernel, by simp [QueueBounded], by unfold historyOk; decide,
    by unfold RequestsFit; decide +kernel, by unfold ResponsesFit; decide +kernel⟩

/-- Channels 0 and 7 claim slot 0, and another key is suppressed. -/
def counted : State :=
  (setClaim 7 (.waiting 0 .noPath) (claimed .active (.waiting 0 .noPath)
    { listed with svcs := { listed.svcs with suppressed := [⟨100, 12⟩] } })).setSvc 0 { slot0 with claimCount := 2 }

theorem svc_counted (j : ServiceIdx) : counted.svc j = if 0 = j then { slot0 with claimCount := 2 } else ServiceRec.powerOn := by
  unfold counted
  rw [State.svc_setSvc]
  split
  · rfl
  · rename_i h
    exact (show _ = listed.svc j from rfl).trans ((svc_listed j).trans (if_neg h))

theorem witness_invariants_laws :
    ServicesShaped counted ∧ KeysDistinct counted ∧ NoneSuppressedLive counted ∧ ClaimsShaped counted ∧ ClaimsCounted counted
    ∧ (∀ s, s = ({ counted with svcs := { counted.svcs with suppressed := [⟨100, 11⟩] } } : State) → ¬ NoneSuppressedLive s)
    ∧ ¬ ClaimsCounted (counted.setSvc 0 slot0) ∧ ¬ KeysDistinct (counted.setSvc 1 slot0)
    ∧ QueueDistinct (planned 0 [3, 9] false) ∧ ¬ QueueDistinct (planned 0 [3, 9, 3] false)
    ∧ WaitersInOrder (withInput .steady [] [⟨1, 5⟩, ⟨0, 7⟩, ⟨4, 7⟩]) ∧ ¬ WaitersInOrder (withInput .steady [] [⟨4, 7⟩, ⟨0, 7⟩]) := by
  refine ⟨fun i => ?_, fun i j k _ _ hi hj => ?_, fun i k _ hk => ?_, fun ch => ?_, fun i => ?_, fun s e h => ?_,
    fun h => absurd (h 0) (by decide +kernel),
    fun h => absurd (h 0 1 ⟨100, 11⟩ (by decide +kernel) (by decide +kernel) (by decide +kernel) (by decide +kernel))
      (by decide),
    by unfold QueueDistinct; decide +kernel, by unfold QueueDistinct; decide +kernel,
    by unfold WaitersInOrder Waiter.noLater; decide +kernel, by unfold WaitersInOrder Waiter.noLater; decide +kernel⟩
  · rw [svc_counted]
    split
    · simp [ServiceRec.shaped, ServiceRec.choicesOk, ServiceRec.fieldsOfState, slot0, ServiceRec.powerOn]
    · exact shaped_powerOn
  · rw [svc_counted] at hi hj
    split at hi
    · split at hj
      · rename_i a b; rw [← a, ← b]
      · cases hj
    · cases hi
  · rw [svc_counted] at hk
    split at hk
    · cases hk; decide +kernel
    · cases hk
  · have : ∀ d : ChannelIdx, counted.claim d = .free ∨ counted.claim d = .waiting 0 .noPath := by decide +kernel
    rcases this ch with w | w <;> rw [w] <;> simp [ClaimRec.shaped, ClaimRec.free, ClaimRec.waiting]
  · rw [svc_counted]
    split
    · rename_i e; rw [← e]; decide +kernel
    · rename_i e
      exact (List.countP_eq_zero.mpr (fun ch _ => by
        have : ∀ d : ChannelIdx, (counted.claim d).service = none ∨ (counted.claim d).service = some 0 := by decide +kernel
        rcases this ch with w | w <;> simp [w, e])).symm
  · subst e
    exact h 0 ⟨100, 11⟩ (by decide +kernel) (by decide +kernel) (by decide +kernel)

/-! ### The hypotheses of the statements can be met: departures, claims and cuts -/

/-- Carrier 3 has carrying path 0, ENGAGED, for the claim on channel 0. -/
def onAir : State := claimed .active ⟨.carrying, none, some 0, some 3, none, some 0⟩ (engaged.setCar 3 { carrier3 with carrying := some 0 })

theorem witness_ForgetCarrierClears_parts :
    (∀ u ∈ [Use.sweep, .queue], ((onPath (onCarrier3 .tuning u)).path 0).carrier = some 3
      ∧ ((onPath (onCarrier3 .tuning u)).path 0).scan = true ∧ ((onPath (onCarrier3 .tuning u)).path 0).state.working = true
      ∧ ((onPath (onCarrier3 .tuning u)).path 0).use = some u)
    ∧ (((onPath (onCarrier3 .dwell .sweep)).path 0).use ≠ some .carry
      ∧ ((onPath (onCarrier3 .dwell .sweep)).path 0).state.working = false
      ∧ ((onPath (onCarrier3 .dwell .sweep)).path 0).carrier = some 3)
    ∧ (3 : CarrierIdx) ∈ (listed.svc 0).candidates
    ∧ (slot0.state = .listed ∧ slot0.selected = some 3 ∧ (without 3 slot0.candidates) = [9] ∧ eligible listed 9 = false
      ∧ RanksFirst rivals [9] 9)
    ∧ (∃ r : ServiceRec, r.state = .degraded ∧ without 3 r.candidates = [])
    ∧ ∃ r : ServiceRec, r.state = .provisional ∧ (3 : CarrierIdx) ∈ r.candidates :=
  ⟨by decide +kernel, by decide +kernel, by decide +kernel, by decide +kernel,
    ⟨{ slot0 with state := .degraded, candidates := [3] }, rfl, by decide⟩,
    ⟨{ slot0 with state := .provisional, selected := none }, rfl, by decide⟩⟩

theorem test_forgetCarrier_departs :
    ((asked .forgetCarrier (entry 10 1 [3]) rivals).svc 0).selected = some 9
    ∧ ((asked .forgetCarrier (entry 10 1 [3]) listed).svc 0).state = .degraded
    ∧ ((asked .forgetCarrier (entry 10 1 [3]) (listed.setSvc 0 { slot0 with candidates := [3] })).svc 0).state = .orphaned := by
  decide +kernel

theorem witness_ReleaseClaimFreesChannel_path :
    takes .releaseClaim 33 onAir [0] = true ∧ (onAir.claim 0).service = some 0 ∧ (onAir.claim 0).current = some 3
    ∧ ((onAir.car 3).carrying = some 0 ∧ (onAir.path 0).use = some .carry ∧ (onAir.path 0).state.working = true
      ∧ (onAir.path 0).carrier = some 3)
    ∧ Unneeded (asked .releaseClaim (entry 33 0 [0]) onAir) 3
    ∧ ¬ Unneeded (asked .releaseClaim (entry 33 0 [0])
        (setClaim 7 ⟨.carrying, none, some 0, some 3, none, some 0⟩ onAir)) 3
    ∧ (onAir.car 9).carrying = none := by decide +kernel

/-- A claim on slot 0, which selects `sel`; carrier 9 has carrying path 1, in the state `st`. -/
def followed (st : PathState) (sel : Option CarrierIdx) (c : ClaimRec) : State :=
  claimed .active c (((listed.setSvc 0 { slot0 with selected := sel }).setCar 9 { carrier3 with carrying := some 1 }).setPath 1
    (onCarrier9 st .carry))

theorem witness_ClaimsFollowSelection :
    (∀ k ∈ [ClaimState.acquiring, .recovering, .carrying], ∀ x ∈ [none, some 3, some 9, some 10], ∀ s,
        s = followed .engaged x ⟨k, none, some 0, some 3, none, some 0⟩ →
      (s.claim 0).state = k ∧ (s.claim 0).service = some 0 ∧ (s.claim 0).current = some 3 ∧ (s.svc 0).selected = x
        ∧ (s.car 9).carrying = some 1 ∧ (s.path 1).state = .engaged ∧ (s.car 10).carrying = none)
    ∧ (∀ x ∈ [none, some 3, some 9, some 10], ∀ s,
        s = followed .tuning x ⟨.handover, none, some 0, some 3, some 11, some 0⟩ →
      (s.claim 0).state = .handover ∧ (s.claim 0).target = some 11 ∧ (s.svc 0).selected = x
        ∧ (s.path 1).state ≠ .engaged ∧ (s.car 9).carrying = some 1)
    ∧ (∀ w ∈ [Reason.standby, .noPath], ((followed .engaged (some 3) (.waiting 0 w)).claim 0).reason = some w)
    ∧ (∀ d, d ≠ (0 : ChannelIdx) → (onAir.claim d).service ≠ some 0)
    ∧ (∀ d, (listed.claim d).service ≠ some 0) ∧ (listed.svc 0).selected = some 3 ∧ (listed.svc 1).selected = none
    ∧ Unneeded (toldSelection 0 0 (onAir.setSvc 0 { slot0 with selected := none })) 3 := by
  refine ⟨fun k hk x hx s e => ?_, fun x hx s e => ?_, by decide +kernel⟩
  · subst e
    revert k x
    decide +kernel
  · subst e
    revert x
    decide +kernel

/-- R134: a claim on the air moves at once to a new selection that has an ENGAGED carrying path, and by a handover
otherwise. -/
theorem test_toldSelection :
    (toldSelection 0 0 (followed .engaged (some 9) ⟨.carrying, none, some 0, some 3, none, some 0⟩)).claim 0
      = ⟨.carrying, none, some 0, some 9, none, some 1⟩
    ∧ (toldSelection 0 0 (followed .tuning (some 9) ⟨.carrying, none, some 0, some 3, none, some 0⟩)).claim 0
      = ⟨.handover, none, some 0, some 3, some 9, some 0⟩
    ∧ ((toldSelection 0 0 (onAir.setSvc 0 { slot0 with selected := none })).car 3).carrying = none := by decide +kernel

theorem witness_ClaimsAfterPathFailures :
    (∀ k ∈ [ClaimState.acquiring, .recovering, .carrying], ∀ s, s = claimed .active ⟨k, none, some 0, some 3, none, some 0⟩ listed →
      (s.claim 0).state = k ∧ (s.claim 0).path = some 0 ∧ (s.claim 0).service = some 0 ∧ (s.claim 1).path ≠ some 0)
    ∧ (((claimed .active ⟨.handover, none, some 0, some 9, some 3, some 1⟩ listed).claim 0).target = some 3
      ∧ eligible listed 3 = true ∧ (listed.car 3).carrying = none)
    ∧ (∀ b ∈ [(9 : CarrierIdx), 10], ∀ s, s = followed .engaged (some b) ⟨.handover, none, some 0, some 3, some b, some 0⟩ →
      (s.claim 0).state = .handover ∧ (s.claim 0).path = some 0 ∧ (s.claim 0).target = some b
        ∧ ((s.car b).carrying = none ↔ b = 10))
    ∧ ¬ Unneeded (lockLossToClaims 0 3 onAir) 3
    ∧ Unneeded (lockLossToClaims 0 3 (followed .engaged (some 9) ⟨.handover, none, some 0, some 3, some 9, some 0⟩)) 3 := by
  refine ⟨fun k hk s e => ?_, by decide +kernel, fun b hb s e => ?_, by decide +kernel, by decide +kernel⟩
  · subst e
    revert k
    decide +kernel
  · subst e
    revert b
    decide +kernel

/-- R137: the handover claim of a lost path joins the path of its target, and the lost path is let go. -/
theorem test_lockLossToClaims :
    (lockLossToClaims 0 3 onAir).claim 0 = ⟨.recovering, none, some 0, some 3, none, some 0⟩
    ∧ (lockLossToClaims 0 3 (followed .engaged (some 9) ⟨.handover, none, some 0, some 3, some 9, some 0⟩)).claim 0
      = ⟨.carrying, none, some 0, some 9, none, some 1⟩ := by decide +kernel

theorem witness_LockTimerExpiry_claims :
    ∀ k ∈ [ClaimState.acquiring, .recovering, .handover], ∀ s, s = claimed .active ⟨k, none, some 0, some 3, none, some 0⟩
        (onPath { onCarrier3 .tuning .carry with lockTimer := some 120, lockTime := some 0, relocks := 3 }) →
      (s.claim 0).service = some 0 ∧ s.arb.mode = .active ∧ (s.claim 0).state = k ∧ (s.claim 0).path = some 0
        ∧ (s.svc 0).selected = some 3 ∧ (s.path 0).relocks = 3 := by
  intro k hk s e
  subst e
  revert k
  decide +kernel

theorem witness_VisitQueueChanges :
    (3 : CarrierIdx) ∈ (planned 0 [3] false).plan.queue ∧ (3 : CarrierIdx) ∉ (planned 0 [] false).plan.queue
    ∧ (∀ q, q = (List.range 16).map (fun n => (Fin.ofNat 192 (n + 10) : CarrierIdx)) →
      q.length = 16 ∧ (3 : CarrierIdx) ∉ q ∧ q = q.take 15 ++ [25])
    ∧ (onAir.car 3).carrying ≠ none ∧ (listed.car 3).carrying = none
    ∧ (listed.svc 0).state ≠ .degraded ∧ (evaluated noneEligible false slot0).state = .degraded
    ∧ (evaluated noneEligible false slot0).selected = slot0.selected := by
  refine ⟨by decide +kernel, by decide +kernel, fun q e => ?_, by decide +kernel⟩
  subst e
  decide +kernel

/-- R122: a cut visit's carrier goes to the head of a full queue, and the last entry makes room. -/
theorem test_putBack : ∀ q, q = (List.range 16).map (fun n => (Fin.ofNat 192 (n + 10) : CarrierIdx)) →
    (visitEndReport .queue 3 .cut (planned 0 q false)).plan.queue = 3 :: q.take 15 := by
  intro q e
  subst e
  decide +kernel

theorem witness_EvaluationByCourse_ranks :
    RanksFirst listed slot0.candidates 3 ∧ RanksFirst (noneEligible.setCar 9 carrier3) slot0.candidates 9
    ∧ (∀ d ∈ slot0.candidates, eligible noneEligible d = false)
    ∧ RanksFirst (listed.setCar 9 carrier3) slot0.candidates 3
    ∧ ((9 : CarrierIdx) ∈ slot0.candidates ∧ eligible rivals 9 = true ∧ (9 : CarrierIdx) ≠ 3
      ∧ score rivals 3 + rivals.rank.settings.beatMargin.toNat < score rivals 9)
    ∧ slot0.challenger = none ∧ (∃ r : ServiceRec, r.challenger = some ⟨9, 1⟩)
    ∧ (listed.rank.settings.floor ≤ score listed 3 ∧ ¬ (72768 ≤ score listed 3)) :=
  ⟨by decide +kernel, by decide +kernel, by decide +kernel, by decide +kernel, by decide +kernel, rfl,
    ⟨{ slot0 with challenger := some ⟨9, 1⟩ }, rfl⟩, by decide +kernel⟩

theorem witness_ServiceEvaluationTakesRecord_offers :
    ((evaluated noneEligible false slot0).state = .degraded ∧ (noneEligible.svc 0).state ≠ .degraded
      ∧ (evaluated noneEligible false slot0).selected = (noneEligible.svc 0).selected
      ∧ (evaluated noneEligible false slot0).candidates.Nodup
      ∧ (rankOrder noneEligible slot0.candidates).filter (fun d => decide (slot0.selected ≠ some d)
          && (noneEligible.car d).carrying.isNone && decide (d ∉ noneEligible.plan.queue)) = [9])
    ∧ (∀ l ∈ [[⟨EvalCause.setRanking, none, [0]⟩], [⟨EvalCause.setRanking, none, [0, 1]⟩]], ∀ s,
        s = { reported l listed with inExec := some ⟨0x1001, false, .setRanking⟩ } →
      s.inExec = some ⟨0x1001, false, .setRanking⟩ ∧ (s.rank.evals[0]?).isSome = true)
    ∧ listed.inExec = none := by
  refine ⟨by decide +kernel, fun l hl s e => ?_, rfl⟩
  subst e
  revert l
  decide +kernel

/-- R58 step 4, R163: the last evaluation of a held SET RANKING completes it with its eight result words. -/
theorem test_setRanking_completes :
    (after (.serviceEvaluation 0) { reported [⟨.setRanking, none, [0]⟩] listed with
      inExec := some ⟨0x1001, false, .setRanking⟩ }).port.respFifo
      = [0x1001, 8, 16384, 32768, 32768, 16384, 2048, 3, 0, 8192]
    ∧ (after (.serviceEvaluation 0) (reported [⟨.eligibility, none, [0]⟩] noneEligible)).plan.queue = [9] := by
  decide +kernel

theorem witness_ClaimItemServed_engagedAndDwell :
    (∀ k ∈ [none, some Collection.empty], ∀ s, s = onPath { onCarrier3 .engaged .sweep with collection := k } →
      pathOn s 3 = some 0 ∧ (s.path 0).scan = true ∧ (s.path 0).state = .engaged ∧ (s.path 0).forgotten = false
        ∧ carryCount s < 8 - s.arb.reserve ∧ (s.path 0).collection = k)
    ∧ (∀ h ∈ [true, false], ∀ u ∈ [Use.sweep, .queue, .carry], ∀ s,
        s = onPath { onCarrier3 .dwell u with lockTime := some 0, lockHeld := h, dwellEnd := some 250 } →
      pathOn s 3 = some 0 ∧ (s.path 0).state = .dwell ∧ (s.path 0).lockHeld = h ∧ (s.path 0).forgotten = false
        ∧ (s.path 0).use = some u ∧ carryCount s < 8 - s.arb.reserve)
    ∧ (∀ s, s = (allPaths (onCarrier9 .engaged .carry) listed).setPath 0 { onCarrier3 .dwell .queue with lockHeld := true } →
      pathOn s 3 = some 0 ∧ (s.path 0).use ≠ some .carry ∧ 8 - s.arb.reserve ≤ carryCount s)
    ∧ (∀ s, s = claimed .active (.waiting 0 .noPath) listed →
      (s.claim 0).state = .waiting ∧ (s.claim 0).reason ≠ some .standby ∧ (s.claim 0).service = some 0
        ∧ (s.svc 0).selected = some 3 ∧ eligible s 3 = true ∧ s.arb.mode = .active) := by
  refine ⟨fun k hk s e => ?_, fun h hh u hu s e => ?_, fun s e => ?_, fun s e => ?_⟩ <;> subst e
  · revert k
    decide +kernel
  · revert h u
    decide +kernel
  · decide +kernel
  · decide +kernel

/-- R105, R106: a claim takes the ENGAGED scan path and the dwelling path on its carrier. -/
theorem test_claim_convertsAndResumes :
    (asked .claim (entry 32 1 [5, 0]) (onPath { onCarrier3 .engaged .sweep with lockTime := some 0, lockHeld := true })).claim 5
      = ⟨.carrying, none, some 0, some 3, none, some 0⟩
    ∧ ((asked .claim (entry 32 1 [5, 0]) (onPath { onCarrier3 .dwell .sweep with
        lockTime := some 0, lockHeld := true, dwellEnd := some 250 })).path 0).sampleDue = some 20 := by decide +kernel

/-- Carrier 3 is feed-blocked on input 0 by scan paths on carrier 9, which have gathered n samples. -/
def blocked (r : PathRec) : State :=
  ((listed.setInp 0 { listed.inp 0 with feed := ⟨.high, .vertical⟩, attached := [0, 2] }).setPath 0 r).setPath 2 r

theorem witness_CutsForClaim :
    (∀ k ∈ [PathState.awaitTune, .tuning, .engaged], ∀ n ∈ [3, 4], ∀ b ∈ [false, true], ∀ s,
        s = blocked { onCarrier9 k .queue with accum := ⟨n, none, b⟩, lockTime := some 0 } →
      pathOn s 3 = none ∧ carryCount s < 8 - s.arb.reserve ∧ s.arb.cuts = [] ∧ (s.car 3).params = some params3
        ∧ (s.inp 0).kind = .satellite ∧ params3.feed ≠ some (s.inp 0).feed ∧ (s.inp 0).attached ≠ []
        ∧ (∀ q ∈ (s.inp 0).attached, (s.path q).scan = true)
        ∧ (s.inp 0).attached.filter (fun q => (s.path q).state.working && !(s.path q).cutPending) = [0, 2]
        ∧ (s.path 0).state = k ∧ (s.path 0).accum = ⟨n, none, b⟩)
    ∧ (∀ s, s = allPaths { onCarrier9 .engaged .sweep with lockTime := some 0 } listed →
      (∀ p, (s.path p).state ≠ .idle) ∧ (s.inp 0).kind = .satellite ∧ params3.feed = some (s.inp 0).feed
        ∧ (s.path 0).scan = true ∧ (s.path 0).cutPending = false ∧ (s.path 0).state = .engaged
        ∧ ∀ q, (s.path q).scan = true → (s.path q).state ≠ .awaitTune ∧ (s.path q).state ≠ .tuning)
    ∧ (∀ s, s = allPaths { onCarrier9 .engaged .sweep with cutPending := true } listed →
      ∀ p, (s.path p).scan = true ∧ (s.path p).state = .engaged ∧ (s.path p).cutPending = true)
    ∧ ∃ m : Monitor, m.select = some .preemption := by
  refine ⟨fun k hk n hn b hb s e => ?_, fun s e => ?_, fun s e => ?_, ⟨⟨some .preemption, 0, 0, none⟩, rfl⟩⟩ <;> subst e
  · revert k n b
    decide +kernel
  · decide +kernel
  · decide +kernel

/-- R101, R117: an ENGAGED scan path is cut at its half boundary where it has fewer than four samples, and at once
otherwise. -/
theorem test_cuts :
    ((serveItem 0 3 (blocked { onCarrier9 .engaged .queue with accum := ⟨3, none, false⟩, lockTime := some 0 })).path 2).cutPending
      = true
    ∧ ((serveItem 0 3 (blocked { onCarrier9 .engaged .queue with accum := ⟨4, none, false⟩, lockTime := some 0 })).path 2).state
      = .dwell
    ∧ (serveItem 0 3 (blocked (onCarrier9 .tuning .queue))).arb.cuts = [(0, 0), (0, 2)] := by decide +kernel

/-- R124: the cut that leaves an input unattached has the claim served before scan work, though the sweep's cursor stands
at a carrier that the sweep could take with the input's old feed setting. -/
theorem test_claimBeforeScanWork : ∀ s, s = asked .claim (entry 32 1 [5, 0])
      { (blocked (onCarrier9 .tuning .sweep)).setCar 10 { carrier3 with
          state := .silent, params := some { params3 with feed := some ⟨.high, .vertical⟩ } } with
        plan := { listed.plan with sweepEnabled := true, cursor := 10 } } →
    s.claim 5 = ⟨.acquiring, none, some 0, some 3, none, some 1⟩ ∧ (s.path 1).use = some .carry
    ∧ (s.inp 0).feed = ⟨.low, .vertical⟩ ∧ (s.path 0).state = .recovery := by
  intro s e
  subst e
  decide +kernel

theorem witness_ArbitrationFrame_scanWork :
    (serveClaims (pruneCuts (claimed .active (.waiting 0 .noPath) (blocked (onCarrier9 .tuning .sweep))))).arb.due = true
    ∧ (serveClaims (pruneCuts listed)).arb.due = false := by decide +kernel

theorem witness_TuningBudgetKept : ∀ s, s = { withInput .steady [15, 19, 23, 27] [⟨0, 0⟩] with pending := [.tuneStart 0] } →
    (s.inp 0).history = [15, 19, 23, 27] ∧ historyOk 55 (s.inp 0).history ∧ step s = .next (after (.tuneStart 0) { s with pending := [] })
    ∧ ((after (.tuneStart 0) s).inp 0).history = [19, 23, 27, 55] := by
  intro s e
  subst e
  exact ⟨by decide +kernel, by unfold historyOk; decide +kernel, rfl, by decide +kernel⟩

/-! ### The hypotheses of the statements can be met: evaluations asked and claims told -/

/-- Slot 0's claim on channel 0 waits, carrier 3 is so, and path 0 too. -/
def awaiting (c : CarrierRec) (r : PathRec) : State := (claimed .active (.waiting 0 .noPath) (onPath r)).setCar 3 c

/-- The claim awaits carrier 3, and no other claim does. -/
theorem awaits (c : CarrierRec) (r : PathRec) : AwaitsCarrier (awaiting c r) 0 3 ∧ ¬ AwaitsCarrier (awaiting c r) 1 3 :=
  ⟨⟨rfl, (by decide : some Reason.noPath ≠ some .standby), 0, rfl, rfl⟩, fun h => by cases h.1⟩

/-- A carrier of each kind that the statements tell apart: it becomes eligible by a lock, by a first vector, and it loses
its eligibility by a third failed visit. -/
theorem witness_AwaitsCarrier_carriers : ∀ f, f = (fun c => (awaiting c PathRec.powerOn).car 3) →
    ((f { carrier3 with state := .lost }).state ≠ .live ∧ (f { carrier3 with state := .lost }).quality ≠ none)
    ∧ ((f { carrier3 with quality := none }).state = .live ∧ (f { carrier3 with quality := none }).quality = none)
    ∧ ((f { carrier3 with failures := 2 }).state = .live ∧ (f { carrier3 with failures := 2 }).quality ≠ none)
    ∧ evalsWith listed .burst 3 = [⟨.burst, some 3, [0]⟩] ∧ evalsWith listed .burst 9 = [] := by
  rintro f rfl
  decide +kernel

/-- R25, R28, R61, R136: a lock, and a first vector, make carrier 3 eligible: its service is to be evaluated, and its
claim is examined. -/
theorem test_becomesEligible :
    (lockEffect 0 (awaiting { carrier3 with state := .lost } (onCarrier3 .tuning .sweep))).rank.evals
      = [⟨.eligibility, some 3, [0]⟩]
    ∧ (burstResult 3 true lanes3 (awaiting { carrier3 with quality := none } PathRec.powerOn)).rank.evals
      = [⟨.burst, some 3, [0]⟩]
    ∧ (burstResult 3 true lanes3 (claimed .active (.waiting 0 .noSource)
        (listed.setCar 3 { carrier3 with quality := none }))).claim 0 = .waiting 0 .noPath := by decide +kernel

/-- R26, R61, R136: the third failed visit, by a lock timer and by a loss of lock, and the exhaustion of relocks. -/
theorem test_losesEligibility :
    (∀ s ∈ [lockTimerExpiryEffect 0 (awaiting { carrier3 with failures := 2 }
              { onCarrier3 .tuning .sweep with lockTimer := some 120 }),
            lockTimerExpiryEffect 0 (awaiting carrier3
              { onCarrier3 .tuning .carry with lockTimer := some 120, lockTime := some 0, relocks := 3 }),
            sampleEffect 0 ⟨0, 0, 0, false⟩ (awaiting { carrier3 with failures := 2 }
              { onCarrier3 .engaged .sweep with lockTime := some 0, lockHeld := true, sampleDue := some 160 })],
      (s.car 3).state = .lost ∧ s.rank.evals = [⟨.eligibility, some 3, [0]⟩] ∧ s.claim 0 = .waiting 0 .noSource) := by
  decide +kernel

/-- R137 step 2: the claim of a lost path whose target has no carrying path enters WAITING, and is counted. -/
theorem test_lockLossToClaims_counted : ∀ s,
    s = { followed .engaged (some 10) ⟨.handover, none, some 0, some 3, some 10, some 0⟩ with
            mons := (asked .setMonitor (entry 40 1 [0, 4, 2]) State.reset).mons } →
      ((s.claim 0).target.any (fun b => decide ((s.car b).carrying = none)) = true)
      ∧ ((lockLossToClaims 0 3 s).claim 0).state = .waiting ∧ ((lockLossToClaims 0 3 s).mon 0).count = 1 := by
  rintro s rfl
  decide +kernel

/-- R30, R31, R33: a section taken by an empty collection, by one of another version, with another last number, held
already, and held before and after another. -/
theorem test_collection_take : ∀ x y z : AnnSection, x = ⟨5, 0, 2, 100, [⟨11, .radio, [0x41, 0x0A]⟩]⟩ →
    y = ⟨5, 2, 2, 100, []⟩ → z = ⟨5, 1, 2, 100, []⟩ →
    Collection.empty.take x = ⟨some 5, 2, [⟨5, 0, 2, 100, [⟨11, .radio, [0x41, 0x3F]⟩]⟩], false⟩
    ∧ Collection.take ⟨some 6, 1, [y], true⟩ y = ⟨some 5, 2, [y], true⟩
    ∧ Collection.take ⟨some 5, 3, [y], false⟩ y = ⟨some 5, 3, [y], true⟩
    ∧ Collection.take ⟨some 5, 2, [y], false⟩ y = ⟨some 5, 2, [y], false⟩
    ∧ Collection.take ⟨some 5, 2, [y], false⟩ z = ⟨some 5, 2, [z, y], false⟩
    ∧ Collection.take ⟨some 5, 2, [z], false⟩ y = ⟨some 5, 2, [z, y], false⟩
    ∧ Collection.complete ⟨some 5, 1, [z, y], false⟩ = false
    ∧ (Collection.take ⟨some 5, 2, [z, y], false⟩ { x with entries := [] }).complete = true := by
  rintro x y z rfl rfl rfl
  decide +kernel

/-- A roster of two entries, one of slot 0 and one of a new service, completed by its one section; and a roster that
names slot 0 no longer. -/
def merged : State :=
  after (.announcementSection 0 ⟨6, 0, 0, 100, [⟨11, .television, [0x4F, 0x4E, 0x45]⟩, ⟨12, .radio, []⟩]⟩)
    { collecting .carry (some 5) false with mons := (asked .setMonitor (entry 40 1 [0, 6, 2]) State.reset).mons }
def emptied : State := after (.announcementSection 0 ⟨6, 0, 0, 100, []⟩) (collecting .carry (some 5) false)

/-- R38 to R40. -/
theorem test_section_merged :
    (merged.car 3).announced = [0, 1] ∧ (merged.svc 1).candidates = [3] ∧ (merged.svc 1).key = some ⟨100, 12⟩
    ∧ merged.rank.evals = [⟨.merge, some 3, [1]⟩] ∧ (merged.mon 0).count = 1 := by decide +kernel

theorem test_section_emptied : (emptied.car 3).announced = [] ∧ (emptied.svc 0).candidates = [9]
    ∧ (emptied.svc 0).state = .degraded ∧ emptied.rank.evals = [] := by decide +kernel

/-- Slot 0 before its first selection, with the floor above the score of carrier 3. -/
def unselected : ServiceRec := { slot0 with state := .provisional, selected := none }
def highFloor : State :=
  (claimed .active (.waiting 0 .noSource) { listed with rank := { listed.rank with
    settings := { listed.rank.settings with floor := 72768 } } }).setSvc 0 unselected

/-- R63, R70, R71: a record that enters DEGRADED with a changed selection; and one that changes its selection alone. -/
theorem witness_VisitQueueChanges_selection : ∀ r, r = evaluated highFloor false unselected →
    (r.state = .degraded ∧ (highFloor.svc 0).state ≠ .degraded ∧ r.selected = some 3 ∧ (highFloor.svc 0).selected = none)
    ∧ (applyChange 0 r highFloor).plan.queue = [9] ∧ (applyChange 0 r highFloor).claim 0 = .waiting 0 .noPath
    ∧ EvaluationMade ⟨.merge, some 3, [0]⟩ unselected
    ∧ (evaluated rivals true { slot0 with challenger := some ⟨9, 2⟩ }).state = slot0.state
    ∧ (evaluated rivals true { slot0 with challenger := some ⟨9, 2⟩ }).selected = some 9 := by
  rintro r rfl
  decide +kernel

/-! ### The hypotheses of the statements can be met: ends of visits, handovers and what is counted -/

/-- Monitor 0 counts an event. -/
def watched (e : Event) (s : State) : State := s.setMon 0 ⟨some e, 0, 0, none⟩

/-- A carrier under a queue visit, with these entries in the visit queue. -/
def visiting (c : CarrierIdx) (q : List CarrierIdx) (s : State) : State :=
  { s with plan := { s.plan with queue := q, underQueue := [c] } }

/-- Sixteen carriers, from carrier 10 on. -/
def sixteen : List CarrierIdx := (List.range 16).map (fun n => Fin.ofNat 192 (n + 10))

theorem witness_StandbyStopsPaths_uses : ∀ u ∈ [Use.sweep, .queue, .carry], ∀ s,
    s = given (entry 2 0 []) (onPath (onCarrier3 .engaged u)) →
    Taken .standby (entry 2 0 []) s ∧ s.arb.mode = .active ∧ (s.path 0).use = some u ∧ (s.path 0).state.working = true
      ∧ (s.path 0).carrier = some 3 ∧ ∀ p, (s.path p).use = some .carry → (s.path p).carrier ≠ some 9 := by
  intro u h s e
  subst e
  revert u
  decide +kernel

/-- STANDBY takes carrier 3 from under its queue visit, with a full queue; and stops a path that carries. -/
def stopped : State :=
  asked .standby (entry 2 1 []) (watched .visitQueueFull (visiting 3 sixteen (onPath (onCarrier3 .engaged .queue))))
def silenced : State := asked .standby (entry 2 1 []) onAir

/-- R111, R122: STANDBY puts the carrier of a queue visit back, into a full queue too, and clears the carrying path. -/
theorem test_standby_visits : stopped.plan.queue = 3 :: sixteen.take 15 ∧ stopped.plan.underQueue = []
    ∧ (stopped.mon 0).count = 1 ∧ (silenced.car 3).carrying = none ∧ (silenced.path 0).state = .dwell := by
  decide +kernel

/-- Channels 0 and 7 on carrier 9, on the way to carrier 3. -/
def handingOver : State :=
  setClaim 7 ⟨.handover, none, some 0, some 9, some 3, some 1⟩
    (followed .engaged (some 3) ⟨.handover, none, some 0, some 9, some 3, some 1⟩)

/-- Both handovers are complete. -/
def handedOver : State := engagedToClaims 0 3 (watched .handoverDone handingOver)

/-- R131: both handovers complete and are counted, and the carrier left loses its path. -/
theorem witness_EngagementToldToClaims_left : (handingOver.car 9).carrying = some 1 ∧ (handingOver.path 1).use = some .carry
    ∧ (handingOver.path 1).state.working = true ∧ (handingOver.path 1).carrier = some 9 ∧ Unneeded handedOver 9 ∧ ¬ Unneeded handedOver 3
    ∧ (handedOver.mon 0).count = 2 ∧ (handedOver.car 9).carrying = none ∧ (handedOver.path 1).state = .recovery := by
  decide +kernel

/-- R71: each claim on the service is told. -/
theorem test_reportSelection : ∀ s, s = setClaim 7 ⟨.carrying, none, some 0, some 3, none, some 0⟩
      (watched .claimWaiting (onAir.setSvc 0 { slot0 with selected := none })) →
    ((List.finRange 32).filter (fun ch => decide ((s.claim ch).service = some 0))) = [0, 7]
    ∧ ((reportSelection 0 s).mon 0).count = 2 ∧ (reportSelection 0 s).claim 7 = .waiting 0 .noSource := by
  rintro s rfl
  decide +kernel

/-- R26, R95, R122, R179: a visit that fails is counted; it ends COMPLETED, and CUT by a loss with a cut pending. -/
theorem test_visitFailed : ∀ s t, s = lockTimerExpiryEffect 0
      (watched .visitFailed (visiting 3 [] (onPath { onCarrier3 .tuning .queue with lockTimer := some 120 }))) →
    t = sampleEffect 0 ⟨0, 0, 0, false⟩ (watched .visitFailed (visiting 3 [9] (sampling .queue 2 true false))) →
    (s.mon 0).count = 1 ∧ s.plan.queue = [] ∧ s.plan.underQueue = []
    ∧ (t.mon 0).count = 1 ∧ t.plan.queue = [3, 9] ∧ t.plan.underQueue = [] := by
  rintro s t rfl rfl
  decide +kernel

/-- R132: the claim of a failed acquisition is counted as it enters WAITING. -/
theorem test_acquisitionFailed_counted : ((lockTimerExpiryEffect 0 (watched .claimWaiting
      (claimed .active ⟨.acquiring, none, some 0, some 3, none, some 0⟩
        (onPath { onCarrier3 .tuning .carry with lockTimer := some 120 })))).mon 0).count = 1 := by decide +kernel

/-- R35, R94, R172: a queue visit that ends by a roster timeout ends the held SETTLE that waits for it. -/
theorem test_visitCompleted_settles : ∀ s, s = rosterTimeoutEffect 0 { visiting 3 []
      ((collecting .queue none false).setPath 0 { (collecting .queue none false).path 0 with accum := ⟨0, none, true⟩ }) with
        inExec := some ⟨0x6400, false, .settle [3] 5000⟩ } →
    s.inExec = none ∧ s.port.respFifo = [0x6400, 1, 0] ∧ s.plan.underQueue = [] := by
  rintro s rfl
  decide +kernel

/-- R100, R118, R122: two cuts of queue visits put their carrier back, and each is counted. -/
theorem test_cuts_putBack : ∀ s t, s = watched .preemption (visiting 9 [] (blocked (onCarrier9 .tuning .queue))) →
    t = serveItem 0 3 s → (s.inp 0).attached.Pairwise (fun a b => a < b) ∧ t.plan.queue = [9]
    ∧ t.plan.underQueue = [] ∧ (t.mon 0).count = 2 := by
  rintro s t rfl rfl
  decide +kernel

/-- R115: a claim served by the conversion of an ENGAGED path or a resumption completes the handover to the carrier, whose
demand departs. -/
theorem witness_ClaimItemServed_demandDeparts : ∀ st ∈ [PathState.engaged, .dwell], ∀ s, s = claimed .active
      ⟨.handover, none, some 0, some 9, some 3, some 1⟩
      (onPath { onCarrier3 st .sweep with lockTime := some 0, lockHeld := true, dwellEnd := some 250 }) →
    HandoverDemand s 0 3 ∧ pathOn s 3 = some 0 ∧ (s.path 0).state = st ∧ carryCount s < 8 - s.arb.reserve
    ∧ (serveItem 5 3 s).arb.due = true ∧ (serveItem 5 3 s).claim 0 = ⟨.carrying, none, some 0, some 3, none, some 0⟩ := by
  intro st h s e
  subst e
  revert st
  decide +kernel

/-- R141: the channel of a changed claim is in the changed-claims set. -/
theorem witness_CommandFrame_changed : (asked .claim (entry 32 1 [5, 0]) listed).claim 5 ≠ listed.claim 5
    ∧ (asked .claim (entry 32 1 [5, 0]) listed).claims.changed = [5] := by decide +kernel

/-! ### The inputs that paths leave, and the wait list -/

/-- Paths 0, 1 and 2 are attached to input 0; paths 0 and 1 wait for a tune start, path 0 with this latest lock. -/
def waitingPair (lock : Option Nat) (u : Use) : State :=
  (((withInput .steady [] [⟨1, 0⟩, ⟨0, 7⟩]).setInp 0 { (withInput .steady [] [⟨1, 0⟩, ⟨0, 7⟩]).inp 0 with
    attached := [0, 1, 2] }).setPath 0 { onCarrier3 .awaitTune u with lockTime := lock }).setPath 1 (onCarrier9 .awaitTune .sweep)

/-- R79, R87, R99, R100, R104: a path that leaves its carrier from AWAIT-TUNE, by a release or by a cut, is off the wait
list, the other waiter staying; it is detached at RECOVERY, and still attached in DWELL. -/
theorem test_leavesWaitList : ∀ x ∈ [(none, [1, 2]), (some 0, [0, 1, 2])],
    ((releaseCarry 0 (waitingPair x.1 .carry)).inp 0).waitList = [⟨1, 0⟩]
    ∧ ((releaseCarry 0 (waitingPair x.1 .carry)).inp 0).attached = x.2
    ∧ ((cutPath 0 (waitingPair x.1 .queue)).inp 0).waitList = [⟨1, 0⟩]
    ∧ ((cutPath 0 (waitingPair x.1 .queue)).inp 0).attached = x.2
    ∧ InputsFollow (waitingPair x.1 .carry) (releaseCarry 0 (waitingPair x.1 .carry))
    ∧ ¬ InputsFollow (waitingPair x.1 .carry)
        ((releaseCarry 0 (waitingPair x.1 .carry)).setInp 0 ((waitingPair x.1 .carry).inp 0)) := by decide +kernel

/-- R84: a request takes its place by its time, and among requests of one time by the path number. -/
theorem test_waitListPlace : insertWaiter ⟨3, 7⟩ [⟨5, 6⟩, ⟨2, 7⟩, ⟨4, 7⟩, ⟨0, 9⟩] = [⟨5, 6⟩, ⟨2, 7⟩, ⟨3, 7⟩, ⟨4, 7⟩, ⟨0, 9⟩] := by
  decide

theorem witness_Queued : Queued ⟨3, 7⟩ [⟨5, 6⟩, ⟨2, 7⟩, ⟨4, 7⟩] [⟨5, 6⟩, ⟨2, 7⟩, ⟨3, 7⟩, ⟨4, 7⟩] :=
  ⟨[⟨5, 6⟩, ⟨2, 7⟩], [⟨4, 7⟩], rfl, rfl, by decide, by decide⟩

/-- Path 0 relocks on carrier 3, which it carries, for the last time. -/
def lastRelock : State :=
  (onPath { onCarrier3 .tuning .carry with lockTimer := some 120, lockTime := some 0, relocks := 3 }).setCar 3
    { carrier3 with carrying := some 0 }

/-- R29, R47, R103, R138: exhausted relocks clear the carrying path; a loss of lock on a scan visit leads to DWELL or
RECOVERY by the lock time. -/
theorem test_lossesLeaveCarrier :
    ((lockTimerExpiryEffect 0 lastRelock).car 3).carrying = none ∧ ((lockTimerExpiryEffect 0 lastRelock).car 3).state = .lost
    ∧ ((sampleEffect 0 ⟨0, 0, 0, false⟩ (sampling .sweep 2 false false)).path 0).state = .dwell
    ∧ ((sampleEffect 0 ⟨0, 0, 0, false⟩ { sampling .sweep 2 false false with now := 249 }).path 0).state = .dwell
    ∧ ((sampleEffect 0 ⟨0, 0, 0, false⟩ { sampling .sweep 2 false false with now := 250 }).path 0).state = .recovery := by
  decide +kernel

end OneByOne

end Sys2Proof.Tests
end

section
/-! PROOF. The attention line and the attention level (R150), on the fact that every command and every step keeps the laws
of Safety.lean. -/

namespace Sys2Proof.Machine

/-! ### The laws are kept by every command and every step -/

/-- What keeps the laws still does so once the arbitration that ends its step has been taken (log 12). -/
theorem LawsKept.closeStep {s t : State} (h : LawsKept s t) : LawsKept s (closeStep t) :=
  h.trans (keeps_closeStep t).laws

/-- No command ends in a fault or a refusal, and each keeps the laws. -/
theorem exec_keeps_laws (c : Instr) (s : State) : ∃ t, exec c s = .next t ∧ LawsKept s t :=
  match c with
  | .powerOnReset => ⟨_, rfl, laws_powerOnReset s⟩
  | .selectFall => ⟨_, rfl, laws_selectFall s⟩
  | .firstWord w => ⟨_, rfl, laws_firstWord w s⟩
  | .argumentWord w => ⟨_, rfl, laws_argumentWord w s⟩
  | .selectRise bits => ⟨_, rfl, laws_selectRise bits s⟩
  | .responseWordShifted => ⟨_, rfl, laws_responseWordShifted s⟩
  | .brokenEntry => ⟨_, rfl, laws_takeBroken s⟩
  | .unknownRequest => ⟨_, rfl, laws_takeUnknown s⟩
  | .activate => ⟨_, rfl, (laws_takeRequest _ _ laws_runActivate s).closeStep⟩
  | .standby => ⟨_, rfl, (laws_takeRequest _ _ laws_runStandby s).closeStep⟩
  | .scanControl => ⟨_, rfl, (laws_takeRequest _ _ laws_runScanControl s).closeStep⟩
  | .setRanking => ⟨_, rfl, (laws_takeRequest _ _ laws_runSetRanking s).closeStep⟩
  | .setPort => ⟨_, rfl, laws_takeRequest _ _ laws_runSetPort s⟩
  | .defineInput => ⟨_, rfl, laws_takeRequest _ _ laws_runDefineInput s⟩
  | .defineCarrier => ⟨_, rfl, (laws_takeRequest _ _ laws_runDefineCarrier s).closeStep⟩
  | .forgetCarrier => ⟨_, rfl, (laws_takeRequest _ _ laws_runForgetCarrier s).closeStep⟩
  | .carrierInfo => ⟨_, rfl, laws_takeRequest _ _ laws_runCarrierInfo s⟩
  | .carrierServices => ⟨_, rfl, laws_takeRequest _ _ laws_runCarrierServices s⟩
  | .enrol => ⟨_, rfl, (laws_takeRequest _ _ laws_runEnrol s).closeStep⟩
  | .lookup => ⟨_, rfl, laws_takeRequest _ _ laws_runLookup s⟩
  | .listServices => ⟨_, rfl, laws_takeRequest _ _ laws_runListServices s⟩
  | .listChanged => ⟨_, rfl, laws_takeRequest _ _ laws_runListChanged s⟩
  | .pin => ⟨_, rfl, (laws_takeRequest _ _ laws_runPin s).closeStep⟩
  | .unpin => ⟨_, rfl, (laws_takeRequest _ _ laws_runUnpin s).closeStep⟩
  | .retire => ⟨_, rfl, (laws_takeRequest _ _ laws_runRetire s).closeStep⟩
  | .unsuppress => ⟨_, rfl, laws_takeRequest _ _ laws_runUnsuppress s⟩
  | .refresh => ⟨_, rfl, (laws_takeRequest _ _ laws_runRefresh s).closeStep⟩
  | .settle => ⟨_, rfl, laws_takeRequest _ _ laws_runSettle s⟩
  | .settleTimerExpiry => ⟨_, rfl, (runs_settleTimerExpiry s).laws⟩
  | .claim => ⟨_, rfl, (laws_takeRequest _ _ laws_runClaim s).closeStep⟩
  | .releaseClaim => ⟨_, rfl, (laws_takeRequest _ _ laws_runReleaseClaim s).closeStep⟩
  | .claimStatus => ⟨_, rfl, laws_takeRequest _ _ laws_runClaimStatus s⟩
  | .claimChanges => ⟨_, rfl, laws_takeRequest _ _ laws_runClaimChanges s⟩
  | .setMonitor => ⟨_, rfl, laws_takeRequest _ _ laws_runSetMonitor s⟩
  | .readMonitors => ⟨_, rfl, laws_takeRequest _ _ laws_runReadMonitors s⟩
  | .ackAlert => ⟨_, rfl, laws_takeRequest _ _ laws_runAckAlert s⟩
  | .status => ⟨_, rfl, laws_takeRequest _ _ laws_runStatus s⟩
  | .tuneStart i => ⟨_, rfl, laws_tuneStart i s⟩
  | .feedSettleEnd i => ⟨_, rfl, (runs_feedSettleEnd i s).laws⟩
  | .lock p => ⟨_, rfl, (keeps_lock p s).laws.closeStep⟩
  | .lockTimerExpiry p => ⟨_, rfl, (runs_lockTimerExpiry p s).laws.closeStep⟩
  | .sample p x => ⟨_, rfl, (runs_sample p x s).laws.closeStep⟩
  | .announcementSection p x => ⟨_, rfl, (keeps_section p x s).laws.closeStep⟩
  | .rosterTimeout p => ⟨_, rfl, (runs_rosterTimeout p s).laws.closeStep⟩
  | .serviceEvaluation n => ⟨_, rfl, (keeps_serviceEvaluation n s).laws.closeStep⟩
  | .dwellEnd p => ⟨_, rfl, (runs_dwellEnd p s).laws.closeStep⟩
  | .recoveryEnd p => ⟨_, rfl, (runs_recoveryEnd p s).laws.closeStep⟩

theorem laws_of_exec {c : Instr} {s t : State} (h : exec c s = .next t) : LawsKept s t := by
  obtain ⟨u, hu, laws⟩ := exec_keeps_laws c s
  cases hu.symm.trans h
  exact laws

theorem laws_tick (s : State) : LawsKept s (tick s) :=
  Runs.laws ⟨s.now + 1, Nat.le_succ _, Keeps.refl _⟩

/-- A step is a command of the queue, an event of the part's own, or a millisecond (log 2); each keeps the laws. -/
theorem laws_of_step {s t : State} (h : step s = .next t) : LawsKept s t := by
  unfold step at h
  split at h
  · rename_i c rest _
    have queueTaken : LawsKept s { s with pending := rest } := { LawsKept.refl s with }
    exact queueTaken.trans (laws_of_exec h)
  · split at h
    · exact laws_of_exec h
    · cases h
      exact laws_tick s

/-! ### The attention line -/

theorem alertPending_iff (s : State) :
    alertPending s = true ↔ s.claims.changed ≠ [] ∨ ∃ m, (s.mon m).sample ≠ none := by
  unfold alertPending
  rw [Bool.or_eq_true, any_toList]
  simp only [Bool.not_eq_true', List.isEmpty_eq_false_iff, Option.isSome_iff_ne_none, State.mon]

theorem attention_iff (s : State) : attention s = true ↔
    s.port.attentionLevel ≤ s.port.respFifo.length ∨ s.claims.changed ≠ [] ∨ ∃ m, (s.mon m).sample ≠ none := by
  unfold attention
  rw [Bool.or_eq_true, decide_eq_true_iff, alertPending_iff]

/-! ### SET PORT -/

/-- R151, R156, R159: an entry that passes the first checks, of a code the mode admits, is handed to the run of its code. -/
theorem takeRequest_of_taken {c : ReqCode} {e : ReqEntry} {s : State} (run : ReqEntry → State → State)
    (h : Taken c e s) (admitted : c.admission s.arb.mode = .taken) : takeRequest c run s = run e (dropHead s) := by
  obtain ⟨head, idle, ended, unbroken, code, room, form, _⟩ := h
  have taken : takeable s = some e := (takeable_eq_some s e).mpr
    ⟨head, idle, ended, by rw [roomNeeded_of_code e c unbroken code]; omega⟩
  rw [takeRequest_of_takeable c run s e taken unbroken code]
  have admittedNow : c.admission (dropHead s).arb.mode = .taken := admitted
  unfold checked
  rw [if_pos form, admittedNow]

/-- R152: the entry taken from the head and replied to is the entry answered. -/
theorem reply_dropHead (e : ReqEntry) (k : Completion) (results : List Word) (s : State) :
    reply e k results (dropHead s) = answered e k results s := rfl

theorem admission_setPort (m : Mode) : ReqCode.admission .setPort m = .taken := by cases m <;> rfl

theorem exec_setPort_of_taken {e : ReqEntry} {s : State} (h : Taken .setPort e s) :
    exec .setPort s = .next (runSetPort e (dropHead s)) :=
  congrArg _ (takeRequest_of_taken runSetPort h (admission_setPort _))

theorem runSetPort_of_outside (e : ReqEntry) (s : State) (h : (e.arg 0).toNat = 0 ∨ 64 < (e.arg 0).toNat) :
    runSetPort e s = reply e .range [] s := if_pos h

theorem runSetPort_of_inside (e : ReqEntry) (s : State) (low : 1 ≤ (e.arg 0).toNat) (high : (e.arg 0).toNat ≤ 64) :
    runSetPort e s = reply e .done [] { s with port := { s.port with attentionLevel := (e.arg 0).toNat } } :=
  if_neg (by omega)

/-- Settles O17: the range is one of the laws that every step keeps; SET PORT is its run on the entry it takes. -/
theorem attentionLine : Obligations.AttentionLine := by
  refine ⟨attention_iff, rfl, fun s => rfl, fun s t inRange next => (laws_of_step next).level inRange,
    fun s e taken => ⟨fun outside => ?refused, fun low high => ?set⟩⟩
  case refused =>
    show exec .setPort s = _
    rw [exec_setPort_of_taken taken, runSetPort_of_outside e _ outside, reply_dropHead]
  case set =>
    rw [exec_setPort_of_taken taken, runSetPort_of_inside e _ low high]
    rfl

end Sys2Proof.Machine
end

section
/-! SUPPORT. The requests that every mode takes (R159), and what the claim and monitor requests answer. -/

namespace Sys2Proof.Machine

/-! ### The requests that every mode takes -/

/-- R159: the table's rows by mode name four requests; every other is taken in each mode. -/
theorem admission_of_unrestricted {c : ReqCode} (h : c ∉ [.activate, .standby, .defineInput, .settle]) (m : Mode) :
    c.admission m = .taken := by
  simp only [List.mem_cons, List.not_mem_nil, or_false, not_or] at h
  obtain ⟨activate, standby, defineInput, settle⟩ := h
  unfold ReqCode.admission
  split
  case h_13 => rfl
  all_goals contradiction

/-- R151, R156, R159: an entry that passes the first checks, of a code that every mode takes, is handed to its run. -/
theorem takeRequest_of_unrestricted {c : ReqCode} {e : ReqEntry} {s : State} (run : ReqEntry → State → State)
    (h : Taken c e s) (every : c ∉ [.activate, .standby, .defineInput, .settle]) :
    takeRequest c run s = run e (dropHead s) :=
  takeRequest_of_taken run h (admission_of_unrestricted every _)

section Taken
variable {e : ReqEntry} {s : State}

theorem exec_claimStatus_of_taken (h : Taken .claimStatus e s) :
    exec .claimStatus s = .next (runClaimStatus e (dropHead s)) :=
  congrArg _ (takeRequest_of_unrestricted runClaimStatus h (by decide))

theorem exec_claimChanges_of_taken (h : Taken .claimChanges e s) :
    exec .claimChanges s = .next (runClaimChanges e (dropHead s)) :=
  congrArg _ (takeRequest_of_unrestricted runClaimChanges h (by decide))

theorem exec_setMonitor_of_taken (h : Taken .setMonitor e s) :
    exec .setMonitor s = .next (runSetMonitor e (dropHead s)) :=
  congrArg _ (takeRequest_of_unrestricted runSetMonitor h (by decide))

theorem exec_readMonitors_of_taken (h : Taken .readMonitors e s) :
    exec .readMonitors s = .next (runReadMonitors e (dropHead s)) :=
  congrArg _ (takeRequest_of_unrestricted runReadMonitors h (by decide))

theorem exec_ackAlert_of_taken (h : Taken .ackAlert e s) :
    exec .ackAlert s = .next (runAckAlert e (dropHead s)) :=
  congrArg _ (takeRequest_of_unrestricted runAckAlert h (by decide))

end Taken

/-! ### Words -/

theorem toNat_word {n : Nat} (h : n < 65536) : (word n).toNat = n := by
  rw [word, BitVec.toNat_ofNat]
  exact Nat.mod_eq_of_lt h

/-- Channels in order from lowest are reported in words in order from lowest. -/
theorem pairwise_channelWords {l : List ChannelIdx} (h : l.Pairwise (fun a b => a < b)) :
    (l.map (fun ch => word ch.val)).Pairwise (fun a b => a.toNat < b.toNat) := by
  refine List.pairwise_map.mpr (h.imp fun {a b} less => ?_)
  rw [toNat_word (by omega), toNat_word (by omega)]
  exact less

/-! ### CLAIM STATUS -/

theorem targetPath_of_none (s : State) (c : ClaimRec) (h : c.target = none) : targetPath s c = none := by
  unfold targetPath; rw [h]

theorem targetPath_of_some (s : State) (c : ClaimRec) (x : CarrierIdx) (h : c.target = some x) :
    targetPath s c = (s.car x).carrying := by
  unfold targetPath; rw [h]

theorem runClaimStatus_of_outside (e : ReqEntry) (s : State) (h : 32 ≤ (e.arg 0).toNat) :
    runClaimStatus e s = reply e .range [] s := by
  unfold runClaimStatus; rw [toIdx_eq_none 32 _ h]

theorem runClaimStatus_of_channel (e : ReqEntry) (s : State) (ch : ChannelIdx) (h : (e.arg 0).toNat = ch.val) :
    runClaimStatus e s = reply e .done (claimWords ch (s.claim ch) (targetPath s (s.claim ch))) s := by
  unfold runClaimStatus; rw [toIdx_eq_some _ ch h]

/-! ### An occurrence at one monitor -/

section Take
variable {x : Event} {i : Option ServiceIdx} {c : Option CarrierIdx} {m : Monitor}

theorem Monitor.take_of_otherEvent (other : m.select ≠ some x) : Monitor.take x i c m = m := if_neg other

theorem Monitor.take_of_full (named : m.select = some x) (full : 65535 ≤ m.count) : Monitor.take x i c m = m :=
  (if_pos named).trans (if_neg (by omega))

/-- R180: below the limit an occurrence is counted, and the one that reaches the threshold is held as a sample. -/
theorem Monitor.take_of_counted (named : m.select = some x) (room : m.count < 65535) :
    Monitor.take x i c m = { m with
      count := m.count + 1,
      sample := if 0 < m.threshold.toNat ∧ m.count + 1 = m.threshold.toNat ∧ m.sample = none
        then some ⟨x, i, c⟩ else m.sample } :=
  (if_pos named).trans (if_pos room)

theorem Monitor.take_at_threshold (named : m.select = some x) (room : m.count < 65535)
    (reached : 0 < m.threshold.toNat ∧ m.count + 1 = m.threshold.toNat ∧ m.sample = none) :
    Monitor.take x i c m = { m with count := m.count + 1, sample := some ⟨x, i, c⟩ } := by
  rw [Monitor.take_of_counted named room, if_pos reached]

theorem Monitor.take_off_threshold (named : m.select = some x) (room : m.count < 65535)
    (off : ¬ (0 < m.threshold.toNat ∧ m.count + 1 = m.threshold.toNat ∧ m.sample = none)) :
    Monitor.take x i c m = { m with count := m.count + 1 } := by
  rw [Monitor.take_of_counted named room, if_neg off]

end Take

/-! ### SET MONITOR, ACK ALERT and READ MONITORS -/

theorem ofSelect?_code (x : Event) : Event.ofSelect? x.code = some (some x) := by cases x <;> rfl

theorem ofSelect?_eq_none {n : Nat} (h : 10 ≤ n) : Event.ofSelect? n = none := by
  unfold Event.ofSelect?
  split
  case h_11 => rfl
  all_goals omega

theorem runSetMonitor_of_outside (e : ReqEntry) (s : State) (h : 4 ≤ (e.arg 0).toNat ∨ 10 ≤ (e.arg 1).toNat) :
    runSetMonitor e s = reply e .range [] s := by
  unfold runSetMonitor
  rcases h with monitor | select
  · rw [toIdx_eq_none 4 _ monitor]
  · rw [ofSelect?_eq_none select]
    cases toIdx 4 (e.arg 0) <;> rfl

theorem runSetMonitor_of_inside (e : ReqEntry) (s : State) (m : MonitorIdx) (sel : Option Event)
    (monitor : (e.arg 0).toNat = m.val) (select : Event.ofSelect? (e.arg 1).toNat = some sel) :
    runSetMonitor e s
      = reply e .done [] (s.setMon m { select := sel, count := 0, threshold := e.arg 2, sample := none }) := by
  unfold runSetMonitor; rw [toIdx_eq_some _ m monitor, select]

theorem runAckAlert_of_outside (e : ReqEntry) (s : State) (h : 4 ≤ (e.arg 0).toNat) :
    runAckAlert e s = reply e .range [] s := by
  unfold runAckAlert; rw [toIdx_eq_none 4 _ h]

theorem runAckAlert_of_inside (e : ReqEntry) (s : State) (m : MonitorIdx) (h : (e.arg 0).toNat = m.val) :
    runAckAlert e s = reply e .done [] (s.setMon m { s.mon m with count := 0, sample := none }) := by
  unfold runAckAlert; rw [toIdx_eq_some _ m h]

/-- The monitors stand in the table from lowest to highest. -/
theorem mons_toList (s : State) : s.mons.toList = (List.finRange 4).map s.mon := by
  refine List.ext_getElem (by simp) fun k _ _ => ?_
  rw [Vector.getElem_toList, List.getElem_map, List.getElem_finRange]
  rfl

theorem runReadMonitors_eq (e : ReqEntry) (s : State) :
    runReadMonitors e s = reply e .done ((List.finRange 4).flatMap (fun m => monitorWords (s.mon m))) s := by
  unfold runReadMonitors
  rw [mons_toList, List.flatMap_map]

end Sys2Proof.Machine
end

section
/-! PROOF. CLAIM STATUS and CLAIM CHANGES (R174). -/

namespace Sys2Proof.Machine

/-- R174: CLAIM STATUS refuses a channel out of range, and reports the record of a channel in range as one look. -/
theorem claimStatus_reports {e : ReqEntry} {s : State} (taken : Taken .claimStatus e s) :
    (32 ≤ (e.arg 0).toNat → Refuses .claimStatus e .range s)
    ∧ ∀ ch : ChannelIdx, (e.arg 0).toNat = ch.val → exec .claimStatus s
        = .next (answered e .done (claimWords ch (s.claim ch) (targetPath s (s.claim ch))) s) := by
  rw [Refuses, exec_claimStatus_of_taken taken]
  refine ⟨fun outside => ?refused, fun ch channel => ?reported⟩
  case refused => rw [runClaimStatus_of_outside e _ outside, reply_dropHead]
  case reported => rw [runClaimStatus_of_channel e _ ch channel]; rfl

/-- R141, R174: CLAIM CHANGES reports the changed-claims set and empties it. -/
theorem claimChanges_reports {e : ReqEntry} {s : State} (taken : Taken .claimChanges e s) :
    exec .claimChanges s = .next
      { answered e .done (s.claims.changed.map (fun ch => word ch.val)) s with
        claims := { s.claims with changed := [] } } :=
  exec_claimChanges_of_taken taken

/-- Settles O31: the last word of CLAIM STATUS is absent without a target carrier, and its carrying path otherwise. -/
theorem claimReports : Obligations.ClaimReports := by
  refine ⟨fun s e taken => ?status, fun s e taken => claimChanges_reports taken,
    fun s inOrder => pairwise_channelWords inOrder⟩
  obtain ⟨refused, reported⟩ := claimStatus_reports taken
  refine ⟨refused, fun ch channel => ?_⟩
  rw [reported ch channel, claimWords]
  cases target : (s.claim ch).target with
  | none => rw [targetPath_of_none _ _ target]; rfl
  | some x => rw [targetPath_of_some _ _ x target]

end Sys2Proof.Machine
end

section
/-! PROOF. The monitors (R175, R176, R180, R181): each part of the statement is one lemma over the layer above. -/

namespace Sys2Proof.Machine

/-- R175, R181: SET MONITOR refuses an index or a select out of range, and otherwise starts the monitor afresh. -/
theorem setMonitor_sets {e : ReqEntry} {s : State} (taken : Taken .setMonitor e s) :
    (4 ≤ (e.arg 0).toNat ∨ 10 ≤ (e.arg 1).toNat → Refuses .setMonitor e .range s)
    ∧ ∀ (m : MonitorIdx) (sel : Option Event), (e.arg 0).toNat = m.val →
      Event.ofSelect? (e.arg 1).toNat = some sel → exec .setMonitor s = .next (answered e .done []
        (s.setMon m { select := sel, count := 0, threshold := e.arg 2, sample := none })) := by
  rw [Refuses, exec_setMonitor_of_taken taken]
  refine ⟨fun outside => ?refused, fun m sel monitor select => ?set⟩
  case refused => rw [runSetMonitor_of_outside e _ outside, reply_dropHead]
  case set => rw [runSetMonitor_of_inside e _ m sel monitor select]; rfl

/-- R175, R181: ACK ALERT refuses an index out of range, and otherwise clears the count and the held sample. -/
theorem ackAlert_clears {e : ReqEntry} {s : State} (taken : Taken .ackAlert e s) :
    (4 ≤ (e.arg 0).toNat → Refuses .ackAlert e .range s)
    ∧ ∀ m : MonitorIdx, (e.arg 0).toNat = m.val → exec .ackAlert s
        = .next (answered e .done [] (s.setMon m { s.mon m with count := 0, sample := none })) := by
  rw [Refuses, exec_ackAlert_of_taken taken]
  refine ⟨fun outside => ?refused, fun m monitor => ?cleared⟩
  case refused => rw [runAckAlert_of_outside e _ outside, reply_dropHead]
  case cleared => rw [runAckAlert_of_inside e _ m monitor]; rfl

/-- R176: READ MONITORS reports the monitors in index order and leaves them. -/
theorem readMonitors_reports {e : ReqEntry} {s : State} (taken : Taken .readMonitors e s) :
    exec .readMonitors s
      = .next (answered e .done ((List.finRange 4).flatMap (fun m => monitorWords (s.mon m))) s) := by
  rw [exec_readMonitors_of_taken taken, runReadMonitors_eq, reply_dropHead]
  rfl

theorem attention_of_alertPending {s : State} (h : alertPending s = true) : attention s = true :=
  (attention_iff s).mpr (Or.inr ((alertPending_iff s).mp h))

/-- Settles O32: an occurrence is `Monitor.take` at each monitor; the requests are the lemmas above. -/
theorem monitorsCountAndReport : Obligations.MonitorsCountAndReport := by
  refine ⟨fun s x i c m => ?occurrence, fun s => (alertPending_iff s).trans or_comm,
    fun s => attention_of_alertPending, fun s e taken => ?setMonitor, fun s e taken => ackAlert_clears taken,
    fun s e taken => readMonitors_reports taken⟩
  case occurrence =>
    rw [countEvent_mon]
    exact ⟨Monitor.take_of_otherEvent, fun named => ⟨Monitor.take_of_full named, fun room =>
      ⟨fun positive reached free => Monitor.take_at_threshold named room ⟨positive, reached, free⟩,
        Monitor.take_off_threshold named room⟩⟩⟩
  case setMonitor =>
    obtain ⟨refused, sets⟩ := setMonitor_sets taken
    refine ⟨refused, fun m sel monitor select => sets m sel monitor ?_⟩
    rw [select]
    cases sel with
    | none => rfl
    | some x => exact ofSelect?_code x

end Sys2Proof.Machine
end

section
/-! SUPPORT. What a step is made of: a command of the queue, an event of the part's own, or a millisecond (log 2); and
the frame of every command (`Leaves`), said once for all of them. -/

namespace Sys2Proof.Machine

/-- A step runs one command, on the state with what remains of the queue, or lets a millisecond pass. -/
theorem step_cases {s t : State} (h : step s = .next t) :
    (∃ c rest, exec c { s with pending := rest } = .next t) ∨ t = tick s := by
  unfold step at h
  split at h
  · exact .inl ⟨_, _, h⟩
  · split at h
    · exact .inl ⟨_, s.pending, h⟩
    · cases h
      exact .inr rfl

/-- What every command leaves, POWER_ON_RESET apart, which leaves nothing. -/
theorem exec_leaves (c : Instr) (s : State) (h : c ≠ .powerOnReset) : ∃ t, exec c s = .next t ∧ Leaves c s t :=
  match c with
  | .powerOnReset => absurd rfl h
  | .selectFall => ⟨_, rfl, leaves_selectFall s⟩
  | .firstWord w => ⟨_, rfl, leaves_firstWord w s⟩
  | .argumentWord w => ⟨_, rfl, leaves_argumentWord w s⟩
  | .selectRise bits => ⟨_, rfl, leaves_selectRise bits s⟩
  | .responseWordShifted => ⟨_, rfl, leaves_responseWordShifted s⟩
  | .brokenEntry => ⟨_, rfl, leaves_takeBroken s⟩
  | .unknownRequest => ⟨_, rfl, leaves_takeUnknown s⟩
  | .activate => ⟨_, rfl, leaves_closeStep (leaves_takeRequest _ _ _ leaves_runActivate s)⟩
  | .standby => ⟨_, rfl, leaves_closeStep (leaves_takeRequest _ _ _ leaves_runStandby s)⟩
  | .scanControl => ⟨_, rfl, leaves_closeStep (leaves_takeRequest _ _ _ leaves_runScanControl s)⟩
  | .setRanking => ⟨_, rfl, leaves_closeStep (leaves_takeRequest _ _ _ leaves_runSetRanking s)⟩
  | .setPort => ⟨_, rfl, leaves_takeRequest _ _ _ leaves_runSetPort s⟩
  | .defineInput => ⟨_, rfl, leaves_takeRequest _ _ _ leaves_runDefineInput s⟩
  | .defineCarrier => ⟨_, rfl, leaves_closeStep (leaves_takeRequest _ _ _ leaves_runDefineCarrier s)⟩
  | .forgetCarrier => ⟨_, rfl, leaves_closeStep (leaves_takeRequest _ _ _ leaves_runForgetCarrier s)⟩
  | .carrierInfo => ⟨_, rfl, leaves_takeRequest _ _ _ leaves_runCarrierInfo s⟩
  | .carrierServices => ⟨_, rfl, leaves_takeRequest _ _ _ leaves_runCarrierServices s⟩
  | .enrol => ⟨_, rfl, leaves_closeStep (leaves_takeRequest _ _ _ leaves_runEnrol s)⟩
  | .lookup => ⟨_, rfl, leaves_takeRequest _ _ _ leaves_runLookup s⟩
  | .listServices => ⟨_, rfl, leaves_takeRequest _ _ _ leaves_runListServices s⟩
  | .listChanged => ⟨_, rfl, leaves_takeRequest _ _ _ leaves_runListChanged s⟩
  | .pin => ⟨_, rfl, leaves_closeStep (leaves_takeRequest _ _ _ leaves_runPin s)⟩
  | .unpin => ⟨_, rfl, leaves_closeStep (leaves_takeRequest _ _ _ leaves_runUnpin s)⟩
  | .retire => ⟨_, rfl, leaves_closeStep (leaves_takeRequest _ _ _ leaves_runRetire s)⟩
  | .unsuppress => ⟨_, rfl, leaves_takeRequest _ _ _ leaves_runUnsuppress s⟩
  | .refresh => ⟨_, rfl, leaves_closeStep (leaves_takeRequest _ _ _ leaves_runRefresh s)⟩
  | .settle => ⟨_, rfl, leaves_takeRequest _ _ _ leaves_runSettle s⟩
  | .settleTimerExpiry => ⟨_, rfl, leaves_settleTimerExpiry s⟩
  | .claim => ⟨_, rfl, leaves_closeStep (leaves_takeRequest _ _ _ leaves_runClaim s)⟩
  | .releaseClaim => ⟨_, rfl, leaves_closeStep (leaves_takeRequest _ _ _ leaves_runReleaseClaim s)⟩
  | .claimStatus => ⟨_, rfl, leaves_takeRequest _ _ _ leaves_runClaimStatus s⟩
  | .claimChanges => ⟨_, rfl, leaves_takeRequest _ _ _ leaves_runClaimChanges s⟩
  | .setMonitor => ⟨_, rfl, leaves_takeRequest _ _ _ leaves_runSetMonitor s⟩
  | .readMonitors => ⟨_, rfl, leaves_takeRequest _ _ _ leaves_runReadMonitors s⟩
  | .ackAlert => ⟨_, rfl, leaves_takeRequest _ _ _ leaves_runAckAlert s⟩
  | .status => ⟨_, rfl, leaves_takeRequest _ _ _ leaves_runStatus s⟩
  | .tuneStart i => ⟨_, rfl, leaves_tuneStart i s⟩
  | .feedSettleEnd i => ⟨_, rfl, leaves_feedSettleEnd i s⟩
  | .lock p => ⟨_, rfl, leaves_closeStep (leaves_lock p s)⟩
  | .lockTimerExpiry p => ⟨_, rfl, leaves_closeStep (leaves_lockTimerExpiry p s)⟩
  | .sample p x => ⟨_, rfl, leaves_closeStep (leaves_sample p x s)⟩
  | .announcementSection p x => ⟨_, rfl, leaves_closeStep (leaves_section p x s)⟩
  | .rosterTimeout p => ⟨_, rfl, leaves_closeStep (leaves_rosterTimeout p s)⟩
  | .serviceEvaluation n => ⟨_, rfl, leaves_closeStep (leaves_serviceEvaluation n s)⟩
  | .dwellEnd p => ⟨_, rfl, leaves_closeStep (leaves_dwellEnd p s)⟩
  | .recoveryEnd p => ⟨_, rfl, leaves_closeStep (leaves_recoveryEnd p s)⟩

theorem leaves_of_exec {c : Instr} {s t : State} (h : exec c s = .next t) (reset : c ≠ .powerOnReset) :
    Leaves c s t := by
  obtain ⟨u, hu, leaves⟩ := exec_leaves c s reset
  cases hu.symm.trans h
  exact leaves

end Sys2Proof.Machine
end

section
/-! PROOF. The laws of the service records, the claims and the CARRY use that every step keeps: parts of `LawsKept`. -/

namespace Sys2Proof.Machine

/-- Settles O54: four of the laws that every step keeps. -/
theorem serviceRecordsStayShaped : Obligations.ServiceRecordsStayShaped :=
  ⟨fun _ _ shaped next => (laws_of_step next).services shaped,
    fun _ _ distinct next => (laws_of_step next).keys distinct,
    fun _ _ shaped distinct unsuppressed next => (laws_of_step next).unsuppressed shaped distinct unsuppressed,
    fun _ _ shaped claims counted next => (laws_of_step next).counted shaped claims counted⟩

/-- Settles O55. -/
theorem claimsStayShaped : Obligations.ClaimsStayShaped :=
  fun _ _ shaped next => (laws_of_step next).claims shaped

/-- Settles O56. -/
theorem carryStaysWithinReserve : Obligations.CarryStaysWithinReserve :=
  fun _ _ within next => (laws_of_step next).carry within

end Sys2Proof.Machine
end

section
/-! PROOF. The frame of every command. -/

namespace Sys2Proof.Machine

/-- Settles O4: `Leaves`, field by field. -/
theorem commandFrame : Obligations.CommandFrame := by
  intro c s t reset next
  have leaves := leaves_of_exec next reset
  exact ⟨leaves.settings, leaves.scan, leaves.suppressed, leaves.kinds, leaves.carriers, leaves.history,
    leaves.level, leaves.mode, leaves.monitors, leaves.now, leaves.records, leaves.others,
    fun changes => ⟨(leaves.noted changes).1, (leaves.noted changes).2⟩⟩

end Sys2Proof.Machine
end

section
/-! PROOF. The tuning budget (R83): no command but TUNE_START appends to a history, and that one does so at the first
moment that the budget allows. -/

namespace Sys2Proof.Machine

/-- R83: what may become of a tune-start history: it stands, is emptied, or takes one start that the budget allows. -/
def HistoryStep (h h' : List Nat) : Prop :=
  h' = h ∨ h' = [] ∨ ∃ m, h' = (if h.length < 4 then h else h.drop 1) ++ [m]
    ∧ (∀ a, h.getLast? = some a → a + 4 ≤ m) ∧ ∀ a b c d, h = [a, b, c, d] → a + 40 ≤ m

theorem spacing_of_budgetMoment {h : List Nat} {m a : Nat} (budget : budgetMoment h ≤ m) (last : h.getLast? = some a) :
    a + 4 ≤ m := by
  simp only [budgetMoment, last, Config.tuneSpacing] at budget
  omega

theorem window_of_budgetMoment {m a b c d : Nat} (budget : budgetMoment [a, b, c, d] ≤ m) : a + 40 ≤ m := by
  simp [budgetMoment, Config.tuneSpacing, Config.tuneHistory, Config.tuneWindow] at budget
  omega

/-- A start at a moment that the budget allows. -/
theorem historyStep_pushStart {h : List Nat} {m : Nat} (budget : budgetMoment h ≤ m) :
    HistoryStep h (pushStart h m) :=
  .inr (.inr ⟨m, rfl, fun _ last => spacing_of_budgetMoment budget last,
    fun _ _ _ _ four => window_of_budgetMoment (four ▸ budget)⟩)

/-- R85: TUNE_START grants the head of the wait list its start at a moment that the budget allows. -/
theorem historyStep_tuneStart (i j : InputIdx) (s : State) :
    HistoryStep (s.inp j).history ((tuneStartEffect i s).inp j).history := by
  unfold tuneStartEffect
  dsimp only
  split
  · exact .inl rfl
  · exact .inl rfl
  · rw [State.inp_setPath, State.inp_setInp]
    by_cases same : i = j
    · subst same
      rw [if_pos rfl]
      exact historyStep_pushStart (Nat.le_max_right _ _)
    · rw [if_neg same]
      exact .inl rfl

theorem historyStep_exec {c : Instr} {s t : State} (h : exec c s = .next t) (j : InputIdx) :
    HistoryStep (s.inp j).history (t.inp j).history := by
  by_cases reset : c = .powerOnReset
  · subst reset
    cases h
    exact .inr (.inl (congrArg InputRec.history (inp_reset j)))
  · by_cases start : ∃ i, c = .tuneStart i
    · obtain ⟨i, rfl⟩ := start
      cases h
      exact historyStep_tuneStart i j s
    · exact .inl ((leaves_of_exec h reset).history (fun i same => start ⟨i, same⟩) j)

/-- Settles O57: the budget is one of the laws that every step keeps; the history is followed command by command. -/
theorem tuningBudgetKept : Obligations.TuningBudgetKept := by
  refine fun s t next => ⟨(laws_of_step next).budgets, fun j => ?_⟩
  obtain ⟨c, rest, run⟩ | rfl := step_cases next
  · exact historyStep_exec run j
  · exact .inl rfl

end Sys2Proof.Machine
end

section
/-! PROOF. The bounds of the lists, and that no step leaves an arbitration due: a command that may call for one takes it
at its end (log 12), and the others leave the Path Arbiter as it is. -/

namespace Sys2Proof.Machine

/-! ### The commands that leave the Path Arbiter alone -/

theorem arb_takeRequest {c : ReqCode} {run : ReqEntry → State → State} (h : ∀ e s, (run e s).arb = s.arb) (s : State) :
    (takeRequest c run s).arb = s.arb := by
  obtain same | ⟨e, _, _, _, taken⟩ := takeRequest_cases c run s
  · rw [same]
  · rw [taken]
    unfold checked
    split
    · split
      · rfl
      · rfl
      · exact h e (dropHead s)
    · rfl

theorem arb_takeBroken (s : State) : (takeBroken s).arb = s.arb := by
  unfold takeBroken
  split
  · split <;> rfl
  · rfl

theorem arb_takeUnknown (s : State) : (takeUnknown s).arb = s.arb := by
  unfold takeUnknown
  split
  · split <;> rfl
  · rfl

theorem arb_finish (k : Completion) (l : List Word) (s : State) : (finish k l s).arb = s.arb := by
  unfold finish
  split
  · rfl
  · dsimp only
    split <;> rfl

theorem arb_settleTimerExpiry (s : State) : (settleTimerExpiryEffect s).arb = s.arb := by
  unfold settleTimerExpiryEffect
  split
  · exact arb_finish _ _ _
  · rfl

theorem arb_selectFall (s : State) : (selectFallEffect s).arb = s.arb := by
  unfold selectFallEffect
  split <;> rfl

theorem arb_firstWord (w : Word) (s : State) : (firstWordEffect w s).arb = s.arb := by
  unfold firstWordEffect
  split
  · rfl
  · split
    · split
      · rfl
      · split <;> rfl
    · rfl

theorem arb_argumentWord (w : Word) (s : State) : (argumentWordEffect w s).arb = s.arb := by
  unfold argumentWordEffect
  split
  · rfl
  · split
    case h_5 =>
      split
      · split <;> rfl
      · rfl
    all_goals rfl

theorem arb_endFrame (f : Frame) (s : State) : (endFrame f s).arb = s.arb := by
  unfold endFrame
  split
  · rfl
  · split <;> rfl

theorem arb_selectRise (bits : List Bool) (s : State) : (selectRiseEffect bits s).arb = s.arb := by
  unfold selectRiseEffect
  split
  · rfl
  · exact arb_endFrame _ s

theorem arb_responseWordShifted (s : State) : (responseWordShiftedEffect s).arb = s.arb := by
  unfold responseWordShiftedEffect
  split <;> rfl

theorem arb_tuneStart (i : InputIdx) (s : State) : (tuneStartEffect i s).arb = s.arb := by
  unfold tuneStartEffect
  dsimp only
  split <;> rfl

theorem arb_feedSettleEnd (i : InputIdx) (s : State) : (feedSettleEndEffect i s).arb = s.arb := by
  unfold feedSettleEndEffect
  split <;> rfl

theorem arb_runSetPort (e : ReqEntry) (s : State) : (runSetPort e s).arb = s.arb := by
  unfold runSetPort
  dsimp only
  split <;> rfl

theorem arb_runDefineInput (e : ReqEntry) (s : State) : (runDefineInput e s).arb = s.arb := by
  unfold runDefineInput
  split
  · split <;> rfl
  · rfl

theorem arb_runCarrierInfo (e : ReqEntry) (s : State) : (runCarrierInfo e s).arb = s.arb := by
  unfold runCarrierInfo
  split <;> rfl

theorem arb_runCarrierServices (e : ReqEntry) (s : State) : (runCarrierServices e s).arb = s.arb := by
  unfold runCarrierServices
  dsimp only
  split
  · rfl
  · split <;> rfl

theorem arb_runLookup (e : ReqEntry) (s : State) : (runLookup e s).arb = s.arb := by
  unfold runLookup
  split
  case h_3 => rfl
  all_goals split <;> rfl

theorem arb_runListServices (e : ReqEntry) (s : State) : (runListServices e s).arb = s.arb := by
  unfold runListServices
  dsimp only
  split
  · rfl
  · split <;> rfl

theorem arb_runListChanged (e : ReqEntry) (s : State) : (runListChanged e s).arb = s.arb := by
  unfold runListChanged
  dsimp only
  split <;> rfl

theorem arb_runUnsuppress (e : ReqEntry) (s : State) : (runUnsuppress e s).arb = s.arb := by
  unfold runUnsuppress
  dsimp only
  split <;> rfl

theorem arb_runSettle (e : ReqEntry) (s : State) : (runSettle e s).arb = s.arb := by
  unfold runSettle
  dsimp only
  split
  · rfl
  · split <;> rfl

theorem arb_runClaimStatus (e : ReqEntry) (s : State) : (runClaimStatus e s).arb = s.arb := by
  unfold runClaimStatus
  split <;> rfl

theorem arb_runSetMonitor (e : ReqEntry) (s : State) : (runSetMonitor e s).arb = s.arb := by
  unfold runSetMonitor
  split <;> rfl

theorem arb_runAckAlert (e : ReqEntry) (s : State) : (runAckAlert e s).arb = s.arb := by
  unfold runAckAlert
  split <;> rfl

/-! ### No arbitration is left due -/

/-- The outcome of a command leaves no arbitration due, where none was due before. -/
def NotLeftDue (s : State) (o : Host.Outcome State Fault Refusal) : Prop :=
  s.arb.due = false → ∀ t, o = .next t → t.arb.due = false

theorem notLeftDue_closed (s t : State) : NotLeftDue s (.next (closeStep t)) := by
  intro _ u h
  cases h
  exact due_closeStep t

theorem notLeftDue_of_arb {s t : State} (h : t.arb = s.arb) : NotLeftDue s (.next t) := by
  intro clear u next
  cases next
  rw [h, clear]

theorem exec_notLeftDue (c : Instr) (s : State) : NotLeftDue s (exec c s) :=
  match c with
  | .powerOnReset => fun _ _ h => by cases h; rfl
  | .selectFall => notLeftDue_of_arb (arb_selectFall s)
  | .firstWord w => notLeftDue_of_arb (arb_firstWord w s)
  | .argumentWord w => notLeftDue_of_arb (arb_argumentWord w s)
  | .selectRise bits => notLeftDue_of_arb (arb_selectRise bits s)
  | .responseWordShifted => notLeftDue_of_arb (arb_responseWordShifted s)
  | .brokenEntry => notLeftDue_of_arb (arb_takeBroken s)
  | .unknownRequest => notLeftDue_of_arb (arb_takeUnknown s)
  | .setPort => notLeftDue_of_arb (arb_takeRequest arb_runSetPort s)
  | .defineInput => notLeftDue_of_arb (arb_takeRequest arb_runDefineInput s)
  | .carrierInfo => notLeftDue_of_arb (arb_takeRequest arb_runCarrierInfo s)
  | .carrierServices => notLeftDue_of_arb (arb_takeRequest arb_runCarrierServices s)
  | .lookup => notLeftDue_of_arb (arb_takeRequest arb_runLookup s)
  | .listServices => notLeftDue_of_arb (arb_takeRequest arb_runListServices s)
  | .listChanged => notLeftDue_of_arb (arb_takeRequest arb_runListChanged s)
  | .unsuppress => notLeftDue_of_arb (arb_takeRequest arb_runUnsuppress s)
  | .settle => notLeftDue_of_arb (arb_takeRequest arb_runSettle s)
  | .settleTimerExpiry => notLeftDue_of_arb (arb_settleTimerExpiry s)
  | .claimStatus => notLeftDue_of_arb (arb_takeRequest arb_runClaimStatus s)
  | .claimChanges => notLeftDue_of_arb (arb_takeRequest (run := runClaimChanges) (fun _ _ => rfl) s)
  | .setMonitor => notLeftDue_of_arb (arb_takeRequest arb_runSetMonitor s)
  | .readMonitors => notLeftDue_of_arb (arb_takeRequest (run := runReadMonitors) (fun _ _ => rfl) s)
  | .ackAlert => notLeftDue_of_arb (arb_takeRequest arb_runAckAlert s)
  | .status => notLeftDue_of_arb (arb_takeRequest (run := runStatus) (fun _ _ => rfl) s)
  | .tuneStart i => notLeftDue_of_arb (arb_tuneStart i s)
  | .feedSettleEnd i => notLeftDue_of_arb (arb_feedSettleEnd i s)
  | .activate | .standby | .scanControl | .setRanking | .defineCarrier | .forgetCarrier | .enrol | .pin | .unpin
  | .retire | .refresh | .claim | .releaseClaim | .lock _ | .lockTimerExpiry _ | .sample _ _
  | .announcementSection _ _ | .rosterTimeout _ | .serviceEvaluation _ | .dwellEnd _ | .recoveryEnd _ =>
    notLeftDue_closed s _

theorem step_notLeftDue {s t : State} (clear : s.arb.due = false) (h : step s = .next t) : t.arb.due = false := by
  obtain ⟨c, rest, run⟩ | rfl := step_cases h
  · exact exec_notLeftDue c { s with pending := rest } clear t run
  · exact clear

/-- Settles O58: seven of the laws that every step keeps, and the mark that an arbitration is due. -/
theorem listsStayBounded : Obligations.ListsStayBounded :=
  ⟨fun _ _ bounded next => (laws_of_step next).epochs bounded,
    fun _ _ bounded next => (laws_of_step next).suppression bounded,
    fun _ _ bounded next => (laws_of_step next).queue bounded,
    fun _ _ shaped distinct next => (laws_of_step next).queued shaped distinct,
    fun _ _ inOrder next => (laws_of_step next).changed inOrder,
    fun _ _ inOrder next => (laws_of_step next).attached inOrder,
    fun _ _ inOrder next => (laws_of_step next).waiters inOrder,
    fun _ _ clear next => step_notLeftDue clear next⟩

end Sys2Proof.Machine
end

section
/-! PROOF. The FIFOs (R145, R146, R148, R151): the request FIFO is one of the laws that every step keeps; the response
FIFO keeps room for the request in execution, whose code was given its room when the entry was taken. -/

namespace Sys2Proof.Machine

/-- What shortens the response FIFO, and leaves the room that the request in execution holds, keeps its bound. -/
theorem responsesFit_of_le {s t : State} (w : ResponsesFit s)
    (fifo : t.port.respFifo.length ≤ s.port.respFifo.length) (held : roomHeld t.inExec = roomHeld s.inExec) :
    ResponsesFit t := by
  unfold ResponsesFit at *
  omega

theorem responses_powerOnReset (s : State) : ResponsesFit (powerOnResetEffect s) := Nat.zero_le 64

theorem responses_selectFall {s : State} (w : ResponsesFit s) : ResponsesFit (selectFallEffect s) := by
  unfold selectFallEffect
  split <;> exact w

theorem responses_firstWord (x : Word) {s : State} (w : ResponsesFit s) : ResponsesFit (firstWordEffect x s) := by
  unfold firstWordEffect
  split
  · exact w
  · split
    · split
      · exact w
      · split <;> exact w
    · exact w

theorem responses_argumentWord (x : Word) {s : State} (w : ResponsesFit s) :
    ResponsesFit (argumentWordEffect x s) := by
  unfold argumentWordEffect
  split
  · exact w
  · split
    case h_5 =>
      split
      · split <;> exact w
      · exact w
    all_goals exact w

/-- R153: a port reset suppresses a response and holds its room as before. -/
theorem roomHeld_suppressed (o : Option Execution) :
    roomHeld (o.map (fun x => { x with suppressed := true })) = roomHeld o := by
  cases o <;> rfl

theorem responses_endFrame (f : Frame) {s : State} (w : ResponsesFit s) : ResponsesFit (endFrame f s) := by
  unfold endFrame
  split
  · exact responsesFit_of_le w (Nat.zero_le _) (roomHeld_suppressed s.inExec)
  · split <;> exact w

theorem responses_selectRise (bits : List Bool) {s : State} (w : ResponsesFit s) :
    ResponsesFit (selectRiseEffect bits s) := by
  unfold selectRiseEffect
  split
  · exact w
  · exact responses_endFrame _ w

theorem responses_responseWordShifted {s : State} (w : ResponsesFit s) :
    ResponsesFit (responseWordShiftedEffect s) := by
  unfold responseWordShiftedEffect
  split
  · refine responsesFit_of_le w ?_ rfl
    show (s.port.respFifo.drop 1).length ≤ s.port.respFifo.length
    rw [List.length_drop]
    omega
  · exact w

/-- R151: an entry that is taken finds the response FIFO with the room it needs, and no request in execution. -/
theorem responses_answerHead {s : State} {e : ReqEntry} (k : Completion) (taken : takeable s = some e)
    (room : 2 ≤ e.roomNeeded) : ResponsesFit (reply e k [] (dropHead s)) := by
  obtain ⟨_, idle, _, free⟩ := (takeable_eq_some s e).mp taken
  refine fits_reply e k [] (dropHead s) idle ?_
  show s.port.respFifo.length + (0 + 2) ≤ 64
  omega

theorem responses_takeBroken {s : State} (w : ResponsesFit s) : ResponsesFit (takeBroken s) := by
  unfold takeBroken
  split
  next e taken =>
    split
    next broken =>
      exact responses_answerHead .overrun taken (by unfold ReqEntry.roomNeeded; rw [if_pos broken])
    next => exact w
  next => exact w

theorem responses_takeUnknown {s : State} (w : ResponsesFit s) : ResponsesFit (takeUnknown s) := by
  unfold takeUnknown
  split
  next e taken =>
    split
    next unassigned =>
      obtain ⟨unbroken, code⟩ := unassigned
      refine responses_answerHead .unknown taken ?_
      unfold ReqEntry.roomNeeded
      rw [unbroken, code]
      exact Nat.le_refl 2
    next => exact w
  next => exact w

theorem responses_tuneStart (i : InputIdx) {s : State} (w : ResponsesFit s) : ResponsesFit (tuneStartEffect i s) := by
  unfold tuneStartEffect
  dsimp only
  split <;> exact w

/-- The outcome of a command keeps the response FIFO within its bound. -/
def ResponsesKept (o : Host.Outcome State Fault Refusal) : Prop := ∀ t, o = .next t → ResponsesFit t

theorem responsesKept_next {t : State} (h : ResponsesFit t) : ResponsesKept (.next t) := by
  intro u next
  cases next
  exact h

theorem responsesKept_closed {t : State} (h : ResponsesFit t) : ResponsesKept (.next (closeStep t)) :=
  responsesKept_next ((keeps_closeStep t).responses h)

theorem exec_responses (c : Instr) (s : State) (ordered : ChangedInOrder s) (w : ResponsesFit s) :
    ResponsesKept (exec c s) :=
  match c with
  | .powerOnReset => responsesKept_next (responses_powerOnReset s)
  | .selectFall => responsesKept_next (responses_selectFall w)
  | .firstWord x => responsesKept_next (responses_firstWord x w)
  | .argumentWord x => responsesKept_next (responses_argumentWord x w)
  | .selectRise bits => responsesKept_next (responses_selectRise bits w)
  | .responseWordShifted => responsesKept_next (responses_responseWordShifted w)
  | .brokenEntry => responsesKept_next (responses_takeBroken w)
  | .unknownRequest => responsesKept_next (responses_takeUnknown w)
  | .activate => responsesKept_closed (responses_takeRequest _ _ fits_runActivate s ordered w)
  | .standby => responsesKept_closed (responses_takeRequest _ _ fits_runStandby s ordered w)
  | .scanControl => responsesKept_closed (responses_takeRequest _ _ fits_runScanControl s ordered w)
  | .setRanking => responsesKept_closed (responses_takeRequest _ _ fits_runSetRanking s ordered w)
  | .setPort => responsesKept_next (responses_takeRequest _ _ fits_runSetPort s ordered w)
  | .defineInput => responsesKept_next (responses_takeRequest _ _ fits_runDefineInput s ordered w)
  | .defineCarrier => responsesKept_closed (responses_takeRequest _ _ fits_runDefineCarrier s ordered w)
  | .forgetCarrier => responsesKept_closed (responses_takeRequest _ _ fits_runForgetCarrier s ordered w)
  | .carrierInfo => responsesKept_next (responses_takeRequest _ _ fits_runCarrierInfo s ordered w)
  | .carrierServices => responsesKept_next (responses_takeRequest _ _ fits_runCarrierServices s ordered w)
  | .enrol => responsesKept_closed (responses_takeRequest _ _ fits_runEnrol s ordered w)
  | .lookup => responsesKept_next (responses_takeRequest _ _ fits_runLookup s ordered w)
  | .listServices => responsesKept_next (responses_takeRequest _ _ fits_runListServices s ordered w)
  | .listChanged => responsesKept_next (responses_takeRequest _ _ fits_runListChanged s ordered w)
  | .pin => responsesKept_closed (responses_takeRequest _ _ fits_runPin s ordered w)
  | .unpin => responsesKept_closed (responses_takeRequest _ _ fits_runUnpin s ordered w)
  | .retire => responsesKept_closed (responses_takeRequest _ _ fits_runRetire s ordered w)
  | .unsuppress => responsesKept_next (responses_takeRequest _ _ fits_runUnsuppress s ordered w)
  | .refresh => responsesKept_closed (responses_takeRequest _ _ fits_runRefresh s ordered w)
  | .settle => responsesKept_next (responses_takeRequest _ _ fits_runSettle s ordered w)
  | .settleTimerExpiry => responsesKept_next ((runs_settleTimerExpiry s).responses w)
  | .claim => responsesKept_closed (responses_takeRequest _ _ fits_runClaim s ordered w)
  | .releaseClaim => responsesKept_closed (responses_takeRequest _ _ fits_runReleaseClaim s ordered w)
  | .claimStatus => responsesKept_next (responses_takeRequest _ _ fits_runClaimStatus s ordered w)
  | .claimChanges => responsesKept_next (responses_takeRequest _ _ fits_runClaimChanges s ordered w)
  | .setMonitor => responsesKept_next (responses_takeRequest _ _ fits_runSetMonitor s ordered w)
  | .readMonitors => responsesKept_next (responses_takeRequest _ _ fits_runReadMonitors s ordered w)
  | .ackAlert => responsesKept_next (responses_takeRequest _ _ fits_runAckAlert s ordered w)
  | .status => responsesKept_next (responses_takeRequest _ _ fits_runStatus s ordered w)
  | .tuneStart i => responsesKept_next (responses_tuneStart i w)
  | .feedSettleEnd i => responsesKept_next ((runs_feedSettleEnd i s).responses w)
  | .lock p => responsesKept_closed ((keeps_lock p s).responses w)
  | .lockTimerExpiry p => responsesKept_closed ((runs_lockTimerExpiry p s).responses w)
  | .sample p x => responsesKept_closed ((runs_sample p x s).responses w)
  | .announcementSection p x => responsesKept_closed ((keeps_section p x s).responses w)
  | .rosterTimeout p => responsesKept_closed ((runs_rosterTimeout p s).responses w)
  | .serviceEvaluation n => responsesKept_closed ((keeps_serviceEvaluation n s).responses w)
  | .dwellEnd p => responsesKept_closed ((runs_dwellEnd p s).responses w)
  | .recoveryEnd p => responsesKept_closed ((runs_recoveryEnd p s).responses w)

theorem responses_of_step {s t : State} (ordered : ChangedInOrder s) (w : ResponsesFit s) (h : step s = .next t) :
    ResponsesFit t := by
  obtain ⟨c, rest, run⟩ | rfl := step_cases h
  · exact exec_responses c { s with pending := rest } ordered w t run
  · exact w

/-- Settles O59. -/
theorem fifosStayBounded : Obligations.FifosStayBounded :=
  ⟨fun _ _ fits next => (laws_of_step next).requests fits,
    fun _ _ ordered fits next => responses_of_step ordered fits next⟩

end Sys2Proof.Machine
end

section
/-! PROOF. Every command answers a next state, keeps the queue of the others and never runs the clock back (log 3, log
25). -/

namespace Sys2Proof.Machine

/-! ### The queue through a request -/

theorem pending_reply (e : ReqEntry) (k : Completion) (l : List Word) (s : State) :
    (reply e k l s).pending = s.pending := rfl

theorem pending_inExec (o : Option Execution) (s : State) : ({ s with inExec := o } : State).pending = s.pending := rfl

theorem pending_takeRequest {c : ReqCode} {run : ReqEntry → State → State}
    (h : ∀ e s, (run e s).pending = s.pending) (s : State) : (takeRequest c run s).pending = s.pending := by
  obtain same | ⟨e, _, _, _, taken⟩ := takeRequest_cases c run s
  · rw [same]
  · rw [taken]
    unfold checked
    split
    · split
      · rfl
      · rfl
      · exact h e (dropHead s)
    · rfl

theorem pending_applyChange (i : ServiceIdx) (r : ServiceRec) (s : State) :
    (applyChange i r s).pending = s.pending := by
  have committed : (commit i r s).pending = s.pending := by rw [commit_parts i r s]
  unfold applyChange
  dsimp only
  split <;> split <;>
    simp only [(keeps_offerOthers _ _).pending, (keeps_reportSelection _ _).pending, committed]

theorem pending_runActivate (e : ReqEntry) (s : State) : (runActivate e s).pending = s.pending := by
  unfold runActivate
  dsimp only
  rw [(keeps_raiseArb _).pending, pending_reply]
  refine (Keeps.forChannels _ (fun ch t => ?_) { s with arb := { s.arb with mode := .active } }).pending
  split
  next service =>
    split
    · exact keeps_examine ch _ t service
    · exact Keeps.refl t
  next => exact Keeps.refl t

theorem pending_runStandby (e : ReqEntry) (s : State) : (runStandby e s).pending = s.pending := by
  unfold runStandby
  split
  · rw [pending_reply, (keeps_standbyEffects _).pending]
  · rw [pending_inExec, (keeps_standbyEffects _).pending]

theorem pending_runScanControl (e : ReqEntry) (s : State) : (runScanControl e s).pending = s.pending := by
  unfold runScanControl
  dsimp only
  split
  · rfl
  · split
    · rfl
    · split <;> rfl

theorem pending_setRankingEffects (g : Settings) (s : State) : (setRankingEffects g s).pending = s.pending :=
  (keeps_pushReport .setRanking none _
    { s with rank := { s.rank with settings := g }, carriers := vmap (rescored g) s.carriers }).pending

theorem pending_runSetRanking (e : ReqEntry) (s : State) : (runSetRanking e s).pending = s.pending := by
  unfold runSetRanking
  dsimp only
  split
  · rfl
  · split
    · rw [pending_inExec, pending_setRankingEffects]
    · rw [pending_reply, pending_setRankingEffects]

theorem pending_runSetPort (e : ReqEntry) (s : State) : (runSetPort e s).pending = s.pending := by
  unfold runSetPort
  dsimp only
  split <;> rfl

theorem pending_runSettle (e : ReqEntry) (s : State) : (runSettle e s).pending = s.pending := by
  unfold runSettle
  dsimp only
  split
  · rfl
  · split <;> rfl

theorem pending_runDefineInput (e : ReqEntry) (s : State) : (runDefineInput e s).pending = s.pending := by
  unfold runDefineInput
  split
  · split <;> rfl
  · rfl

theorem pending_runDefineCarrier (e : ReqEntry) (s : State) : (runDefineCarrier e s).pending = s.pending := by
  unfold runDefineCarrier
  split
  · rfl
  · dsimp only
    split
    · split
      · rfl
      · split <;> rfl
    · rfl

theorem pending_forgetEffects (c : CarrierIdx) (s : State) : (forgetEffects c s).pending = s.pending := by
  have left := (Keeps.foldl _ (keeps_forgetOnPath c) (List.finRange 8) s).trans (keeps_dropEntry c _)
  have departed := left.trans (Keeps.foldl (depart c) (keeps_depart c)
    (((dropEntry c ((List.finRange 8).foldl (forgetOnPath c) s)).car c).announced) _)
  unfold forgetEffects
  dsimp only
  rw [State.pending_setCar]
  split
  · rw [State.pending_modInp, departed.pending]
  · exact departed.pending

theorem pending_runForgetCarrier (e : ReqEntry) (s : State) : (runForgetCarrier e s).pending = s.pending := by
  unfold runForgetCarrier
  split
  · rfl
  · split
    · rfl
    · split
      · rfl
      · rw [pending_reply, pending_forgetEffects]

theorem pending_runCarrierInfo (e : ReqEntry) (s : State) : (runCarrierInfo e s).pending = s.pending := by
  unfold runCarrierInfo
  split <;> rfl

theorem pending_runCarrierServices (e : ReqEntry) (s : State) : (runCarrierServices e s).pending = s.pending := by
  unfold runCarrierServices
  dsimp only
  split
  · rfl
  · split <;> rfl

theorem pending_runEnrol (e : ReqEntry) (s : State) : (runEnrol e s).pending = s.pending := by
  unfold runEnrol
  dsimp only
  split
  · rfl
  · split
    · rfl
    · split
      · exact pending_applyChange _ _ s
      · rfl

theorem pending_runLookup (e : ReqEntry) (s : State) : (runLookup e s).pending = s.pending := by
  unfold runLookup
  split
  case h_3 => rfl
  all_goals split <;> rfl

theorem pending_runListServices (e : ReqEntry) (s : State) : (runListServices e s).pending = s.pending := by
  unfold runListServices
  dsimp only
  split
  · rfl
  · split <;> rfl

theorem pending_runListChanged (e : ReqEntry) (s : State) : (runListChanged e s).pending = s.pending := by
  unfold runListChanged
  dsimp only
  split <;> rfl

theorem pending_runPin (e : ReqEntry) (s : State) : (runPin e s).pending = s.pending := by
  unfold runPin
  split
  case h_2 => rfl
  case h_1 =>
    dsimp only
    split
    · rfl
    · split
      · rfl
      · split
        · rfl
        · split
          · rfl
          · split
            · rfl
            · exact pending_applyChange _ _ s

theorem pending_runUnpin (e : ReqEntry) (s : State) : (runUnpin e s).pending = s.pending := by
  unfold runUnpin
  split
  · rfl
  · dsimp only
    split
    · rfl
    · split
      · rfl
      · exact pending_applyChange _ _ s

theorem pending_suppress (k : Key) (s : State) : (suppress k s).pending = s.pending := by
  unfold suppress
  split <;> rfl

theorem pending_retireEffects (i : ServiceIdx) (b : Bool) (s : State) : (retireEffects i b s).pending = s.pending := by
  have retired : (if (s.svc i).state.live = true then retireRecord i s else s).pending = s.pending := by
    split
    · exact (pending_applyChange i _ _).trans (Keeps.foldl _ (keeps_unannounce i) _ s).pending
    · rfl
  unfold retireEffects
  dsimp only
  split
  · rw [pending_suppress, retired]
  · exact retired

theorem pending_runRetire (e : ReqEntry) (s : State) : (runRetire e s).pending = s.pending := by
  unfold runRetire
  dsimp only
  split
  · rfl
  · split
    · rfl
    · split
      · rfl
      · split
        · rfl
        · split
          · rfl
          · split
            · rfl
            · exact pending_retireEffects _ _ s

theorem pending_runUnsuppress (e : ReqEntry) (s : State) : (runUnsuppress e s).pending = s.pending := by
  unfold runUnsuppress
  dsimp only
  split <;> rfl

theorem pending_joinAll (l : List CarrierIdx) (s : State) :
    (l.foldl (fun s c => joinQueue c s) s).pending = s.pending := by
  induction l generalizing s with
  | nil => rfl
  | cons c l ih => exact ih (joinQueue c s)

theorem pending_refreshWith (e : ReqEntry) (l : List CarrierIdx) (s : State) :
    (refreshWith e l s).pending = s.pending := by
  unfold refreshWith
  dsimp only
  split
  · exact pending_joinAll _ s
  · rfl

theorem pending_runRefresh (e : ReqEntry) (s : State) : (runRefresh e s).pending = s.pending := by
  unfold runRefresh
  split
  case h_3 => rfl
  all_goals
    split
    · rfl
    · split
      · rfl
      · exact pending_refreshWith e _ s

theorem pending_runClaim (e : ReqEntry) (s : State) : (runClaim e s).pending = s.pending := by
  unfold runClaim
  split
  case h_2 => rfl
  case h_1 ch i _ _ =>
    split
    · rfl
    · split
      · rfl
      · exact (base_examine ch i (setClaimCount i ((s.svc i).claimCount + 1) s)).pending

theorem pending_releaseEffects (ch : ChannelIdx) (s : State) : (releaseEffects ch s).pending = s.pending := by
  unfold releaseEffects
  dsimp only
  split
  · rfl
  next i _ =>
    exact (base_released ch (s.claim ch).current (s.claim ch).target
      (setClaimCount i ((s.svc i).claimCount - 1) s)).pending

theorem pending_runReleaseClaim (e : ReqEntry) (s : State) : (runReleaseClaim e s).pending = s.pending := by
  unfold runReleaseClaim
  split
  · rfl
  · exact pending_releaseEffects _ s

theorem pending_runClaimStatus (e : ReqEntry) (s : State) : (runClaimStatus e s).pending = s.pending := by
  unfold runClaimStatus
  split <;> rfl

theorem pending_runSetMonitor (e : ReqEntry) (s : State) : (runSetMonitor e s).pending = s.pending := by
  unfold runSetMonitor
  split <;> rfl

theorem pending_runAckAlert (e : ReqEntry) (s : State) : (runAckAlert e s).pending = s.pending := by
  unfold runAckAlert
  split <;> rfl

/-! ### The queue through the port and the first checks -/

theorem pending_takeBroken (s : State) : (takeBroken s).pending = s.pending := by
  unfold takeBroken
  split
  · split <;> rfl
  · rfl

theorem pending_takeUnknown (s : State) : (takeUnknown s).pending = s.pending := by
  unfold takeUnknown
  split
  · split <;> rfl
  · rfl

theorem pending_selectFall (s : State) : (selectFallEffect s).pending = s.pending := by
  unfold selectFallEffect
  split <;> rfl

theorem pending_firstWord (w : Word) (s : State) : (firstWordEffect w s).pending = s.pending := by
  unfold firstWordEffect
  split
  · rfl
  · split
    · split
      · rfl
      · split <;> rfl
    · rfl

theorem pending_argumentWord (w : Word) (s : State) : (argumentWordEffect w s).pending = s.pending := by
  unfold argumentWordEffect
  split
  · rfl
  · split
    case h_5 =>
      split
      · split <;> rfl
      · rfl
    all_goals rfl

theorem pending_selectRise (bits : List Bool) (s : State) : (selectRiseEffect bits s).pending = s.pending := by
  unfold selectRiseEffect
  split
  · rfl
  · unfold endFrame
    split
    · rfl
    · split <;> rfl

theorem pending_responseWordShifted (s : State) : (responseWordShiftedEffect s).pending = s.pending := by
  unfold responseWordShiftedEffect
  split <;> rfl

/-! ### Completion -/

/-- The outcome of a command is a next state, with the queue as it was and the clock not run back. -/
def Completes (s : State) (o : Host.Outcome State Fault Refusal) : Prop :=
  ∃ t, o = .next t ∧ t.pending = s.pending ∧ s.now ≤ t.now

theorem Runs.completes {s t : State} (h : Runs s t) : Completes s (.next t) := by
  obtain ⟨n, later, keeps⟩ := h
  exact ⟨t, rfl, keeps.pending, keeps.now ▸ later⟩

theorem Runs.completesClosed {s t : State} (h : Runs s t) : Completes s (.next (closeStep t)) :=
  (h.keeps (keeps_closeStep t)).completes

theorem Keeps.completesClosed {s t : State} (h : Keeps s t) : Completes s (.next (closeStep t)) :=
  (Runs.of_keeps h).completesClosed

/-- A command that is not timed leaves the clock, and completes where it keeps the queue. -/
theorem completes_of_pending {c : Instr} {s t : State} (h : exec c s = .next t) (reset : c ≠ .powerOnReset)
    (untimed : timed c = false) (queue : t.pending = s.pending) : Completes s (exec c s) :=
  ⟨t, h, queue, ((leaves_of_exec h reset).now untimed).ge⟩

theorem completes_request {c : Instr} {code : ReqCode} {run : ReqEntry → State → State} {s : State}
    (h : exec c s = .next (takeRequest code run s)) (reset : c ≠ .powerOnReset) (untimed : timed c = false)
    (queue : ∀ e s, (run e s).pending = s.pending) : Completes s (exec c s) :=
  completes_of_pending h reset untimed (pending_takeRequest queue s)

theorem completes_requestClosed {c : Instr} {code : ReqCode} {run : ReqEntry → State → State} {s : State}
    (h : exec c s = .next (closeStep (takeRequest code run s))) (reset : c ≠ .powerOnReset) (untimed : timed c = false)
    (queue : ∀ e s, (run e s).pending = s.pending) : Completes s (exec c s) :=
  completes_of_pending h reset untimed ((keeps_closeStep _).pending.trans (pending_takeRequest queue s))

theorem completes_tuneStart (i : InputIdx) (s : State) : Completes s (exec (.tuneStart i) s) := by
  refine ⟨_, rfl, ?_⟩
  unfold tuneStartEffect
  dsimp only
  split
  · exact ⟨rfl, Nat.le_refl _⟩
  · exact ⟨rfl, Nat.le_refl _⟩
  · exact ⟨rfl, Nat.le_max_left _ _⟩

theorem exec_completes (c : Instr) (s : State) : Completes s (exec c s) :=
  match c with
  | .powerOnReset => ⟨_, rfl, rfl, Nat.le_refl _⟩
  | .selectFall => completes_of_pending rfl nofun rfl (pending_selectFall s)
  | .firstWord w => completes_of_pending rfl nofun rfl (pending_firstWord w s)
  | .argumentWord w => completes_of_pending rfl nofun rfl (pending_argumentWord w s)
  | .selectRise bits => completes_of_pending rfl nofun rfl (pending_selectRise bits s)
  | .responseWordShifted => completes_of_pending rfl nofun rfl (pending_responseWordShifted s)
  | .brokenEntry => completes_of_pending rfl nofun rfl (pending_takeBroken s)
  | .unknownRequest => completes_of_pending rfl nofun rfl (pending_takeUnknown s)
  | .activate => completes_requestClosed rfl nofun rfl pending_runActivate
  | .standby => completes_requestClosed rfl nofun rfl pending_runStandby
  | .scanControl => completes_requestClosed rfl nofun rfl pending_runScanControl
  | .setRanking => completes_requestClosed rfl nofun rfl pending_runSetRanking
  | .setPort => completes_request rfl nofun rfl pending_runSetPort
  | .defineInput => completes_request rfl nofun rfl pending_runDefineInput
  | .defineCarrier => completes_requestClosed rfl nofun rfl pending_runDefineCarrier
  | .forgetCarrier => completes_requestClosed rfl nofun rfl pending_runForgetCarrier
  | .carrierInfo => completes_request rfl nofun rfl pending_runCarrierInfo
  | .carrierServices => completes_request rfl nofun rfl pending_runCarrierServices
  | .enrol => completes_requestClosed rfl nofun rfl pending_runEnrol
  | .lookup => completes_request rfl nofun rfl pending_runLookup
  | .listServices => completes_request rfl nofun rfl pending_runListServices
  | .listChanged => completes_request rfl nofun rfl pending_runListChanged
  | .pin => completes_requestClosed rfl nofun rfl pending_runPin
  | .unpin => completes_requestClosed rfl nofun rfl pending_runUnpin
  | .retire => completes_requestClosed rfl nofun rfl pending_runRetire
  | .unsuppress => completes_request rfl nofun rfl pending_runUnsuppress
  | .refresh => completes_requestClosed rfl nofun rfl pending_runRefresh
  | .settle => completes_request rfl nofun rfl pending_runSettle
  | .settleTimerExpiry => (runs_settleTimerExpiry s).completes
  | .claim => completes_requestClosed rfl nofun rfl pending_runClaim
  | .releaseClaim => completes_requestClosed rfl nofun rfl pending_runReleaseClaim
  | .claimStatus => completes_request rfl nofun rfl pending_runClaimStatus
  | .claimChanges => completes_request (run := runClaimChanges) rfl nofun rfl (fun _ _ => rfl)
  | .setMonitor => completes_request rfl nofun rfl pending_runSetMonitor
  | .readMonitors => completes_request (run := runReadMonitors) rfl nofun rfl (fun _ _ => rfl)
  | .ackAlert => completes_request rfl nofun rfl pending_runAckAlert
  | .status => completes_request (run := runStatus) rfl nofun rfl (fun _ _ => rfl)
  | .tuneStart i => completes_tuneStart i s
  | .feedSettleEnd i => (runs_feedSettleEnd i s).completes
  | .lock p => (keeps_lock p s).completesClosed
  | .lockTimerExpiry p => (runs_lockTimerExpiry p s).completesClosed
  | .sample p x => (runs_sample p x s).completesClosed
  | .announcementSection p x => (keeps_section p x s).completesClosed
  | .rosterTimeout p => (runs_rosterTimeout p s).completesClosed
  | .serviceEvaluation n => (keeps_serviceEvaluation n s).completesClosed
  | .dwellEnd p => (runs_dwellEnd p s).completesClosed
  | .recoveryEnd p => (runs_recoveryEnd p s).completesClosed

/-- Settles O3: command by command; the events by the relation `Runs`, the requests by their runs. -/
theorem everyCommandCompletes : Obligations.EveryCommandCompletes := exec_completes

end Sys2Proof.Machine
end

section
/-! PROOF. The later words and the end of a frame (R146, R147). -/

namespace Sys2Proof.Machine

theorem changeTail_append (f : ReqEntry → ReqEntry) (l : List ReqEntry) (e : ReqEntry) :
    changeTail f (l ++ [e]) = l ++ [f e] := by
  induction l with
  | nil => rfl
  | cons x l ih =>
    cases l with
    | nil => rfl
    | cons y l => exact congrArg (x :: ·) ih

/-- The frame's entry is the tail of the request FIFO. -/
theorem modTail_eq {l : List ReqEntry} {e : ReqEntry} {s : State} (tail : s.port.reqFifo = l ++ [e])
    (f : ReqEntry → ReqEntry) : modTail f s = { s with port := { s.port with reqFifo := l ++ [f e] } } := by
  unfold modTail
  rw [tail, changeTail_append]

theorem tailWords_eq {l : List ReqEntry} {e : ReqEntry} {s : State} (tail : s.port.reqFifo = l ++ [e]) :
    tailWords s = e.words := by
  unfold tailWords
  rw [tail, List.getLast?_concat]

/-! ### ARGUMENT_WORD -/

theorem argumentWord_of_notStoring {s : State} (w : Word) {f : Frame} {h : Handling} (frame : s.port.frame = some f)
    (handling : f.handling = h) (which : h = .idle ∨ h = .broken ∨ h = .dropped) :
    argumentWordEffect w s = gotWord f w h s := by
  unfold argumentWordEffect
  obtain rfl | rfl | rfl := which <;> simp only [frame, handling]

theorem argumentWord_of_storing {s : State} (w : Word) {f : Frame} (frame : s.port.frame = some f)
    (handling : f.handling = .storing) : argumentWordEffect w s =
      if tailWords s < 16 then
        if reqWords s < 64 then gotWord f w .storing (modTail (fun e => { e with args := e.args ++ [w] }) s)
        else countEvent .portOverrun none none
          (gotWord f w .broken (modTail (fun e => { e with args := [], broken := true }) s))
      else gotWord f w .storing (modTail (fun e => { e with overLong := true }) s) := by
  unfold argumentWordEffect
  simp only [frame, handling]

/-- Settles O8: by the frame's handling; the entry of a storing frame is the tail of the request FIFO. -/
theorem argumentWordByHandling : Obligations.ArgumentWordByHandling := by
  refine fun s w f frame => ⟨fun h which handling => ?other, fun l e tail storing =>
    ⟨fun short room => ?stored, fun short full => ?broken, fun long => ?overLong⟩⟩
  case other => exact congrArg _ (argumentWord_of_notStoring w frame handling which)
  all_goals
    refine congrArg Host.Outcome.next ((argumentWord_of_storing w frame storing).trans ?_)
    rw [tailWords_eq tail]
  case stored =>
    rw [if_pos short, if_pos room, modTail_eq tail]
    rfl
  case broken =>
    rw [if_pos short, if_neg (Nat.not_lt.mpr full), modTail_eq tail]
    rfl
  case overLong =>
    rw [if_neg (Nat.not_lt.mpr long), modTail_eq tail]
    rfl

/-! ### SELECT_RISE -/

theorem isPortReset_iff (f : Frame) (bits : List Bool) : ({ f with partialBits := bits } : Frame).isPortReset = true ↔
    f.words = 2 ∧ f.first = some 0x5AA5 ∧ f.second = some 0x5AA5 ∧ bits = [] := by
  simp only [Frame.isPortReset, Bool.and_eq_true, decide_eq_true_eq, List.isEmpty_iff, and_assoc]
  exact Iff.rfl

theorem selectRise_of_frame {s : State} {f : Frame} (bits : List Bool) (frame : s.port.frame = some f) :
    selectRiseEffect bits s = { endFrame { f with partialBits := bits } s with
      port := { (endFrame { f with partialBits := bits } s).port with
        selectLow := false, frame := none, out := .nothing } } := by
  unfold selectRiseEffect
  simp only [frame]

theorem endFrame_of_reset {f : Frame} (s : State) (h : f.isPortReset = true) : endFrame f s = portReset s := if_pos h

theorem endFrame_of_entry {f : Frame} (s : State) (h : ¬ f.isPortReset = true)
    (handling : f.handling = .storing ∨ f.handling = .broken) : endFrame f s = modTail (endEntry f) s := by
  unfold endFrame
  rw [if_neg h]
  obtain h | h := handling <;> simp only [h]

theorem endFrame_of_noEntry {f : Frame} (s : State) (h : ¬ f.isPortReset = true)
    (handling : f.handling = .awaiting ∨ f.handling = .idle ∨ f.handling = .dropped) : endFrame f s = s := by
  unfold endFrame
  rw [if_neg h]
  obtain h | h | h := handling <;> simp only [h]

/-- Settles O9: by the words of the frame, and then by its handling. -/
theorem selectRiseEndsFrame : Obligations.SelectRiseEndsFrame := by
  refine fun s bits f frame => ⟨fun two first second none => ?reset, fun other =>
    ⟨fun l e tail handling => ?ended, fun handling => ?nothing⟩⟩
  all_goals refine congrArg Host.Outcome.next ((selectRise_of_frame bits frame).trans ?_)
  case reset =>
    rw [endFrame_of_reset s ((isPortReset_iff f bits).mpr ⟨two, first, second, none⟩)]
    rfl
  case ended =>
    rw [endFrame_of_entry s (mt (isPortReset_iff f bits).mp other) handling, modTail_eq tail]
    rfl
  case nothing => rw [endFrame_of_noEntry s (mt (isPortReset_iff f bits).mp other) handling]

end Sys2Proof.Machine
end

section
/-! PROOF. The taking of an entry, and the checks that every request passes (R151, R152, R156, R157, R159). -/

namespace Sys2Proof.Machine

/-! ### The command of each request code -/

/-- The command of a request code takes an entry of that code; an arbitration may follow. -/
theorem exec_command (c : ReqCode) (s : State) : ∃ run, exec c.command s = .next (takeRequest c run s)
    ∨ exec c.command s = .next (closeStep (takeRequest c run s)) :=
  match c with
  | .activate => ⟨runActivate, .inr rfl⟩
  | .standby => ⟨runStandby, .inr rfl⟩
  | .scanControl => ⟨runScanControl, .inr rfl⟩
  | .setRanking => ⟨runSetRanking, .inr rfl⟩
  | .setPort => ⟨runSetPort, .inl rfl⟩
  | .defineInput => ⟨runDefineInput, .inl rfl⟩
  | .defineCarrier => ⟨runDefineCarrier, .inr rfl⟩
  | .forgetCarrier => ⟨runForgetCarrier, .inr rfl⟩
  | .carrierInfo => ⟨runCarrierInfo, .inl rfl⟩
  | .carrierServices => ⟨runCarrierServices, .inl rfl⟩
  | .enrol => ⟨runEnrol, .inr rfl⟩
  | .lookup => ⟨runLookup, .inl rfl⟩
  | .listServices => ⟨runListServices, .inl rfl⟩
  | .listChanged => ⟨runListChanged, .inl rfl⟩
  | .pin => ⟨runPin, .inr rfl⟩
  | .unpin => ⟨runUnpin, .inr rfl⟩
  | .retire => ⟨runRetire, .inr rfl⟩
  | .unsuppress => ⟨runUnsuppress, .inl rfl⟩
  | .refresh => ⟨runRefresh, .inr rfl⟩
  | .settle => ⟨runSettle, .inl rfl⟩
  | .claim => ⟨runClaim, .inr rfl⟩
  | .releaseClaim => ⟨runReleaseClaim, .inr rfl⟩
  | .claimStatus => ⟨runClaimStatus, .inl rfl⟩
  | .claimChanges => ⟨runClaimChanges, .inl rfl⟩
  | .setMonitor => ⟨runSetMonitor, .inl rfl⟩
  | .readMonitors => ⟨runReadMonitors, .inl rfl⟩
  | .ackAlert => ⟨runAckAlert, .inl rfl⟩
  | .status => ⟨runStatus, .inl rfl⟩

/-- A request whose taking comes to one state whatever its run does, and leaves no arbitration due, comes to that
state. -/
theorem exec_command_of_take {c : ReqCode} {s t : State} (take : ∀ run, takeRequest c run s = t)
    (clear : t.arb.due = false) : exec c.command s = .next t := by
  obtain ⟨run, h | h⟩ := exec_command c s
  · rw [h, take]
  · rw [h, take, closeStep_of_not_due t clear]

/-! ### When an entry is taken -/

theorem two_le_roomNeeded (e : ReqEntry) : 2 ≤ e.roomNeeded := by
  unfold ReqEntry.roomNeeded
  split
  · exact Nat.le_refl 2
  · split
    · exact two_le_largest _
    · exact Nat.le_refl 2

theorem takeable_of_head {s : State} {e : ReqEntry} (head : s.port.reqFifo.head? = some e) (idle : s.inExec = none)
    (ended : e.ended = true) (room : s.port.respFifo.length + e.roomNeeded ≤ 64) : takeable s = some e :=
  (takeable_eq_some s e).mpr ⟨head, idle, ended, by omega⟩

theorem roomNeeded_of_broken {e : ReqEntry} (h : e.broken = true) : e.roomNeeded = 2 := if_pos h

theorem roomNeeded_of_unassigned {e : ReqEntry} (unbroken : e.broken = false)
    (code : ReqCode.ofNat? (headerCode e.header) = none) : e.roomNeeded = 2 := by
  unfold ReqEntry.roomNeeded ReqEntry.code?
  rw [unbroken, code]
  rfl

/-- R151: nothing is taken while a request is in execution, or while the head entry is not ended or has no room. -/
theorem takeable_eq_none {s : State} (h : s.inExec ≠ none ∨ s.port.reqFifo = [] ∨ ∃ e, s.port.reqFifo.head? = some e
    ∧ (e.ended = false ∨ 64 < s.port.respFifo.length + 2)) : takeable s = none := by
  refine Option.eq_none_iff_forall_ne_some.mpr fun e taken => ?_
  obtain ⟨head, idle, ended, room⟩ := (takeable_eq_some s e).mp taken
  obtain executing | empty | ⟨d, headD, waits⟩ := h
  · exact executing idle
  · rw [empty] at head
    cases head
  · cases headD.symm.trans head
    have := two_le_roomNeeded e
    obtain open_ | full := waits
    · simp [open_] at ended
    · omega

theorem takeRequest_of_other {c : ReqCode} {s : State} (h : s.inExec ≠ none ∨ s.port.reqFifo = []
    ∨ ∃ e, s.port.reqFifo.head? = some e ∧ (e.ended = false ∨ e.broken = true
      ∨ ReqCode.ofNat? (headerCode e.header) ≠ some c ∨ 64 < s.port.respFifo.length + c.largest))
    (run : ReqEntry → State → State) : takeRequest c run s = s := by
  obtain same | ⟨e, taken, unbroken, code, _⟩ := takeRequest_cases c run s
  · exact same
  · obtain ⟨head, idle, ended, room⟩ := (takeable_eq_some s e).mp taken
    rw [roomNeeded_of_code e c unbroken code] at room
    obtain executing | empty | ⟨d, headD, waits⟩ := h
    · exact absurd idle executing
    · rw [empty] at head
      cases head
    · cases headD.symm.trans head
      obtain open_ | broken | uncoded | full := waits
      · simp [open_] at ended
      · simp [broken] at unbroken
      · exact absurd code uncoded
      · have := two_le_largest c
        omega

/-- Settles O11: the entry at the head is taken, or is not, by `takeable`. -/
theorem entryTaking : Obligations.EntryTaking := by
  refine ⟨fun s e head idle ended room => ⟨fun broken => ?broken, fun unbroken code => ?unassigned⟩,
    fun s waits => ?waits, fun c s clear waits => ?other⟩
  case broken =>
    have taken := takeable_of_head head idle ended (by rw [roomNeeded_of_broken broken]; exact room)
    show Host.Outcome.next (takeBroken s) = _
    unfold takeBroken
    simp only [taken]
    rw [if_pos broken, reply_dropHead]
  case unassigned =>
    have taken := takeable_of_head head idle ended (by rw [roomNeeded_of_unassigned unbroken code]; exact room)
    show Host.Outcome.next (takeUnknown s) = _
    unfold takeUnknown
    simp only [taken]
    rw [if_pos ⟨unbroken, code⟩, reply_dropHead]
  case waits =>
    have none := takeable_eq_none waits
    refine ⟨congrArg Host.Outcome.next ?_, congrArg Host.Outcome.next ?_⟩
    · unfold takeBroken
      simp only [none]
    · unfold takeUnknown
      simp only [none]
  case other => exact exec_command_of_take (takeRequest_of_other waits) clear

/-! ### The checks -/

/-- R157: an entry fails the check of its form. -/
theorem formOk_eq_false {c : ReqCode} {e : ReqEntry} (h : e.overLong = true ∨ e.partialMark = true
    ∨ headerCount e.header ≠ e.args.length ∨ e.args.length ≠ c.args.length
    ∨ (∃ x ∈ c.args.zip e.args, ¬ (x.1.absentOk = true ∧ x.2 = 0xFFFF) ∧ 2 ^ x.1.bits ≤ x.2.toNat)
    ∨ (c = .lookup ∧ e.arg 0 = 0 ∧ e.arg 2 ≠ 0)) : e.formOk c = false := by
  refine Bool.eq_false_iff.mpr fun ok => ?_
  simp only [ReqEntry.formOk, Bool.and_eq_true, Bool.not_eq_true', decide_eq_true_eq, List.all_eq_true,
    Bool.and_eq_false_iff, decide_eq_false_iff_not] at ok
  obtain ⟨⟨⟨⟨⟨notLong, whole⟩, counted⟩, length⟩, fits⟩, lookup⟩ := ok
  obtain long | part | count | len | ⟨x, mem, notAbsent, large⟩ | ⟨code, first, third⟩ := h
  · simp [long] at notLong
  · simp [part] at whole
  · exact count counted
  · exact len length
  · have fit := fits x mem
    simp only [ArgShape.fits, absentWord, Bool.or_eq_true, Bool.and_eq_true, beq_iff_eq, decide_eq_true_eq] at fit
    exact fit.elim notAbsent (Nat.not_lt.mpr large)
  · obtain (h | h) | h := lookup
    · exact h code
    · exact h first
    · exact h third

theorem admission_defineInput_refused {m : Mode} (h : m ≠ .standby) :
    ReqCode.admission .defineInput m = .refusedMode := by
  cases m with
  | standby => exact absurd rfl h
  | active => rfl
  | stopping => rfl

theorem admission_settle_refused {m : Mode} (h : m ≠ .active) : ReqCode.admission .settle m = .refusedMode := by
  cases m with
  | standby => rfl
  | active => exact absurd rfl h
  | stopping => rfl

theorem admission_standby_done {m : Mode} (h : m ≠ .active) : ReqCode.admission .standby m = .doneNoEffect := by
  cases m with
  | standby => rfl
  | active => exact absurd rfl h
  | stopping => rfl

/-- Settles O12: the form is checked before the mode, and neither check depends on the run of the request. -/
theorem formAndModeChecks : Obligations.FormAndModeChecks := by
  refine ⟨fun c s e head idle ended unbroken code room clear fails => ?form, fun c s e taken => ⟨?refused, ?done⟩⟩
  case form =>
    have needed := roomNeeded_of_code e c unbroken code
    refine exec_command_of_take (fun run => ?_) clear
    rw [takeRequest_of_takeable c run s e (takeable_of_head head idle ended (needed.symm ▸ room)) unbroken code]
    unfold checked
    rw [formOk_eq_false fails]
    exact reply_dropHead e .form [] s
  all_goals
    intro mode
    obtain ⟨head, idle, ended, unbroken, code, room, form, clear⟩ := taken
    have needed := roomNeeded_of_code e c unbroken code
    refine exec_command_of_take (fun run => ?_) clear
    rw [takeRequest_of_takeable c run s e (takeable_of_head head idle ended (needed.symm ▸ room)) unbroken code]
    unfold checked
    rw [if_pos form, show (dropHead s).arb.mode = s.arb.mode from rfl]
  case refused =>
    have refuses : c.admission s.arb.mode = .refusedMode := by
      obtain ⟨rfl, mode⟩ | ⟨rfl, mode⟩ | ⟨rfl, mode⟩ := mode
      · rw [mode]
        rfl
      · exact admission_defineInput_refused mode
      · exact admission_settle_refused mode
    rw [refuses]
    exact reply_dropHead e .mode [] s
  case done =>
    have done : c.admission s.arb.mode = .doneNoEffect := by
      obtain ⟨rfl, mode⟩ | ⟨rfl, mode⟩ := mode
      · rw [mode]
        rfl
      · exact admission_standby_done mode
    rw [done]
    exact reply_dropHead e .done [] s

end Sys2Proof.Machine
end

section
/-! SUPPORT. A request whose step ends with an arbitration: its run on the entry it takes, and the requests whose run
calls for none. -/

namespace Sys2Proof.Machine

/-- A command whose arbitration is not called for comes to the state before it. -/
theorem exec_eq_of_clear {c : Instr} {s t u : State} (h : exec c s = .next (closeStep t)) (eq : t = u)
    (clear : u.arb.due = false) : exec c s = .next u := by
  rw [h, eq, closeStep_of_not_due u clear]

theorem Taken.clear {c : ReqCode} {e : ReqEntry} {s : State} (h : Taken c e s) : s.arb.due = false := by
  obtain ⟨_, _, _, _, _, _, _, clear⟩ := h
  exact clear

theorem Taken.idle {c : ReqCode} {e : ReqEntry} {s : State} (h : Taken c e s) : s.inExec = none := by
  obtain ⟨_, idle, _⟩ := h
  exact idle

/-- A request refused by its own checks, at the end of a step that may arbitrate: nothing calls for arbitration. -/
theorem refuses_of_reply {c : Instr} {e : ReqEntry} {k : Completion} {s t : State} (clear : s.arb.due = false)
    (h : exec c s = .next (closeStep t)) (eq : t = reply e k [] (dropHead s)) : Refuses c e k s :=
  exec_eq_of_clear h (eq.trans (reply_dropHead e k [] s)) clear

/-- A request refused by its own checks, at the end of a step that never arbitrates. -/
theorem refuses_of_reply_open {c : Instr} {e : ReqEntry} {k : Completion} {s t : State}
    (h : exec c s = .next t) (eq : t = reply e k [] (dropHead s)) : Refuses c e k s := by
  rw [Refuses, h, eq, reply_dropHead]

section Taken
variable {e : ReqEntry} {s : State}

theorem exec_activate_of_taken (h : Taken .activate e s) (mode : s.arb.mode = .standby) :
    exec .activate s = .next (closeStep (runActivate e (dropHead s))) :=
  congrArg (fun t => Host.Outcome.next (closeStep t)) (takeRequest_of_taken runActivate h (by rw [mode]; rfl))

theorem exec_standby_of_taken (h : Taken .standby e s) (mode : s.arb.mode = .active) :
    exec .standby s = .next (closeStep (runStandby e (dropHead s))) :=
  congrArg (fun t => Host.Outcome.next (closeStep t)) (takeRequest_of_taken runStandby h (by rw [mode]; rfl))

theorem exec_settle_of_taken (h : Taken .settle e s) (mode : s.arb.mode = .active) :
    exec .settle s = .next (runSettle e (dropHead s)) :=
  congrArg _ (takeRequest_of_taken runSettle h (by rw [mode]; rfl))

theorem exec_defineInput_of_taken (h : Taken .defineInput e s) (mode : s.arb.mode = .standby) :
    exec .defineInput s = .next (runDefineInput e (dropHead s)) :=
  congrArg _ (takeRequest_of_taken runDefineInput h (by rw [mode]; rfl))

theorem exec_scanControl_of_taken (h : Taken .scanControl e s) :
    exec .scanControl s = .next (closeStep (runScanControl e (dropHead s))) :=
  congrArg (fun t => Host.Outcome.next (closeStep t)) (takeRequest_of_unrestricted runScanControl h (by decide))

theorem exec_setRanking_of_taken (h : Taken .setRanking e s) :
    exec .setRanking s = .next (closeStep (runSetRanking e (dropHead s))) :=
  congrArg (fun t => Host.Outcome.next (closeStep t)) (takeRequest_of_unrestricted runSetRanking h (by decide))

theorem exec_defineCarrier_of_taken (h : Taken .defineCarrier e s) :
    exec .defineCarrier s = .next (closeStep (runDefineCarrier e (dropHead s))) :=
  congrArg (fun t => Host.Outcome.next (closeStep t)) (takeRequest_of_unrestricted runDefineCarrier h (by decide))

theorem exec_forgetCarrier_of_taken (h : Taken .forgetCarrier e s) :
    exec .forgetCarrier s = .next (closeStep (runForgetCarrier e (dropHead s))) :=
  congrArg (fun t => Host.Outcome.next (closeStep t)) (takeRequest_of_unrestricted runForgetCarrier h (by decide))

theorem exec_carrierInfo_of_taken (h : Taken .carrierInfo e s) :
    exec .carrierInfo s = .next (runCarrierInfo e (dropHead s)) :=
  congrArg _ (takeRequest_of_unrestricted runCarrierInfo h (by decide))

theorem exec_carrierServices_of_taken (h : Taken .carrierServices e s) :
    exec .carrierServices s = .next (runCarrierServices e (dropHead s)) :=
  congrArg _ (takeRequest_of_unrestricted runCarrierServices h (by decide))

theorem exec_enrol_of_taken (h : Taken .enrol e s) :
    exec .enrol s = .next (closeStep (runEnrol e (dropHead s))) :=
  congrArg (fun t => Host.Outcome.next (closeStep t)) (takeRequest_of_unrestricted runEnrol h (by decide))

theorem exec_lookup_of_taken (h : Taken .lookup e s) : exec .lookup s = .next (runLookup e (dropHead s)) :=
  congrArg _ (takeRequest_of_unrestricted runLookup h (by decide))

theorem exec_listServices_of_taken (h : Taken .listServices e s) :
    exec .listServices s = .next (runListServices e (dropHead s)) :=
  congrArg _ (takeRequest_of_unrestricted runListServices h (by decide))

theorem exec_listChanged_of_taken (h : Taken .listChanged e s) :
    exec .listChanged s = .next (runListChanged e (dropHead s)) :=
  congrArg _ (takeRequest_of_unrestricted runListChanged h (by decide))

theorem exec_pin_of_taken (h : Taken .pin e s) : exec .pin s = .next (closeStep (runPin e (dropHead s))) :=
  congrArg (fun t => Host.Outcome.next (closeStep t)) (takeRequest_of_unrestricted runPin h (by decide))

theorem exec_unpin_of_taken (h : Taken .unpin e s) : exec .unpin s = .next (closeStep (runUnpin e (dropHead s))) :=
  congrArg (fun t => Host.Outcome.next (closeStep t)) (takeRequest_of_unrestricted runUnpin h (by decide))

theorem exec_retire_of_taken (h : Taken .retire e s) : exec .retire s = .next (closeStep (runRetire e (dropHead s))) :=
  congrArg (fun t => Host.Outcome.next (closeStep t)) (takeRequest_of_unrestricted runRetire h (by decide))

theorem exec_unsuppress_of_taken (h : Taken .unsuppress e s) :
    exec .unsuppress s = .next (runUnsuppress e (dropHead s)) :=
  congrArg _ (takeRequest_of_unrestricted runUnsuppress h (by decide))

theorem exec_refresh_of_taken (h : Taken .refresh e s) :
    exec .refresh s = .next (closeStep (runRefresh e (dropHead s))) :=
  congrArg (fun t => Host.Outcome.next (closeStep t)) (takeRequest_of_unrestricted runRefresh h (by decide))

theorem exec_claim_of_taken (h : Taken .claim e s) : exec .claim s = .next (closeStep (runClaim e (dropHead s))) :=
  congrArg (fun t => Host.Outcome.next (closeStep t)) (takeRequest_of_unrestricted runClaim h (by decide))

theorem exec_releaseClaim_of_taken (h : Taken .releaseClaim e s) :
    exec .releaseClaim s = .next (closeStep (runReleaseClaim e (dropHead s))) :=
  congrArg (fun t => Host.Outcome.next (closeStep t)) (takeRequest_of_unrestricted runReleaseClaim h (by decide))

theorem exec_status_of_taken (h : Taken .status e s) : exec .status s = .next (runStatus e (dropHead s)) :=
  congrArg _ (takeRequest_of_unrestricted runStatus h (by decide))

end Taken

end Sys2Proof.Machine
end

section
/-! PROOF. ACTIVATE (R112, R140, R162). -/

namespace Sys2Proof.Machine

theorem mons_forChannels_of_kept {f : ChannelIdx → State → State} (h : ∀ ch s, (f ch s).mons = s.mons) (s : State) :
    (forChannels f s).mons = s.mons := by
  unfold forChannels
  induction List.finRange 32 generalizing s with
  | nil => rfl
  | cons ch l ih => exact (ih (f ch s)).trans (h ch s)

theorem mons_setClaim (ch : ChannelIdx) (c : ClaimRec) (s : State) : (setClaim ch c s).mons = s.mons := by
  unfold setClaim
  split <;> rfl

theorem mons_changeClaim (ch : ChannelIdx) (c : ClaimRec) (s : State) : (changeClaim ch c s).mons = s.mons := by
  obtain same | raised := changeClaim_eq ch c s
  · rw [same, mons_setClaim]
  · rw [raised]
    exact mons_setClaim ch c s

/-- R140: a claim with reason STANDBY is examined. -/
def activateClaim (ch : ChannelIdx) (s : State) : State :=
  match (s.claim ch).service with
  | some svc => if (s.claim ch).reason = some .standby then examine ch svc s else s
  | none => s

theorem runActivate_eq (e : ReqEntry) (s : State) : runActivate e s
    = raiseArb (reply e .done [] (forChannels activateClaim { s with arb := { s.arb with mode := .active } })) := rfl

theorem claimsOnly_activateClaim (ch : ChannelIdx) (s : State) : ClaimsOnly s (activateClaim ch s) := by
  unfold activateClaim
  split
  · split
    · exact claimsOnly_examine _ _ _
    · exact ClaimsOnly.refl s
  · exact ClaimsOnly.refl s

theorem mons_activateClaim (ch : ChannelIdx) (s : State) : (activateClaim ch s).mons = s.mons := by
  unfold activateClaim
  split
  · split
    · exact mons_changeClaim _ _ _
    · rfl
  · rfl

theorem claim_activateClaim_other (ch d : ChannelIdx) (s : State) (h : d ≠ ch) :
    (activateClaim ch s).claim d = s.claim d := by
  unfold activateClaim
  split
  · split
    · rw [claim_examine, if_neg h.symm]
    · rfl
  · rfl

theorem claim_activateClaim_of_otherReason {ch : ChannelIdx} {s : State} (h : (s.claim ch).reason ≠ some .standby) :
    (activateClaim ch s).claim ch = s.claim ch := by
  unfold activateClaim
  split
  · rw [if_neg h]
  · rfl

theorem claim_activateClaim_of_standby {ch : ChannelIdx} {i : ServiceIdx} {s : State}
    (h : (s.claim ch).reason = some .standby) (service : (s.claim ch).service = some i) :
    (activateClaim ch s).claim ch = examined s i := by
  unfold activateClaim
  simp only [service]
  rw [if_pos h, claim_examine, if_pos rfl]

/-! ### What an examination makes of a claim (R128) -/

theorem examined_of_standby {s : State} (i : ServiceIdx) (h : s.arb.mode ≠ .active) :
    examined s i = .waiting i .standby := if_pos h

theorem examined_of_unselected {s : State} {i : ServiceIdx} (mode : s.arb.mode = .active)
    (h : (s.svc i).selected = none) : examined s i = .waiting i .noSource := by
  unfold examined
  rw [if_neg (not_not_intro mode), h]

theorem examined_of_ineligible {s : State} {i : ServiceIdx} {c : CarrierIdx} (mode : s.arb.mode = .active)
    (h : (s.svc i).selected = some c) (lost : eligible s c = false) : examined s i = .waiting i .noSource := by
  simp [examined, mode, h, lost]

theorem examined_of_noPath {s : State} {i : ServiceIdx} {c : CarrierIdx} (mode : s.arb.mode = .active)
    (h : (s.svc i).selected = some c) (ok : eligible s c = true) (none : (s.car c).carrying = none) :
    examined s i = .waiting i .noPath := by
  simp [examined, mode, h, ok, none]

theorem examined_of_carrying {s : State} {i : ServiceIdx} {c : CarrierIdx} {p : PathIdx} (mode : s.arb.mode = .active)
    (h : (s.svc i).selected = some c) (ok : eligible s c = true) (path : (s.car c).carrying = some p) :
    examined s i = joined s i c p := by
  simp [examined, mode, h, ok, path]

/-- R130: what a claim joined to a carrying path is, by what the path is doing. -/
theorem joins_joined (s : State) (i : ServiceIdx) (c : CarrierIdx) (p : PathIdx) : Joins s i c p (joined s i c p) := by
  unfold Joins joined joinState
  refine ⟨fun engaged => by rw [engaged], fun unlocked => ?_⟩
  cases lock : (s.path p).lockTime <;> obtain state | state := unlocked <;> rw [state] <;> rfl

/-- R128: the words of the statements for an examination. -/
theorem examined_examined (s : State) (i : ServiceIdx) : Examined s i (examined s i) :=
  ⟨examined_of_standby i, examined_of_unselected, fun _ mode selected =>
    ⟨examined_of_ineligible mode selected, examined_of_noPath mode selected, fun p ok path => by
      rw [examined_of_carrying mode selected ok path]
      exact joins_joined s i _ p⟩⟩

/-- Settles O13: the claims are told one by one, and each examination reads what none of them changes. -/
theorem activateEntersActive : Obligations.ActivateEntersActive := by
  intro s e taken mode
  refine ⟨_, exec_activate_of_taken taken mode, ?_⟩
  rw [runActivate_eq]
  generalize woken : ({ dropHead s with arb := { (dropHead s).arb with mode := .active } } : State) = w
  obtain ⟨told, each⟩ := forChannels_claimsOnly activateClaim claimsOnly_activateClaim claim_activateClaim_other w
  have mons := mons_forChannels_of_kept mons_activateClaim w
  generalize forChannels activateClaim w = v at told each mons
  have examines : ∀ ch i, (s.claim ch).reason = some .standby → (s.claim ch).service = some i →
      v.claim ch = examined w i := by
    intro ch i reason service
    obtain ⟨t, before, same, result⟩ := each ch
    have claim : t.claim ch = s.claim ch := by rw [same, ← woken]; rfl
    rw [result, claim_activateClaim_of_standby (claim ▸ reason) (claim ▸ service), before.examined]
  subst woken
  refine ⟨?arb, ?port, told.inExec.trans taken.idle, told.svcs, told.carriers, told.inputs, told.paths, told.plan,
    told.rank, mons, fun ch => ⟨fun reason => ?other, fun i reason service => ?examined⟩⟩
  case arb => exact congrArg (fun a : Arbiter => { a with due := true }) told.arb
  case port =>
    exact congrArg (fun q : Port => { q with respFifo := q.respFifo ++ responseWords e.header .done [] }) told.port
  case other =>
    obtain ⟨t, _, same, result⟩ := each ch
    have claim : t.claim ch = s.claim ch := same
    show v.claim ch = _
    rw [result, claim_activateClaim_of_otherReason (claim ▸ reason), claim]
  case examined =>
    show ((s.svc i).selected = none → v.claim ch = _) ∧ ∀ c, (s.svc i).selected = some c →
      (eligible s c = false → v.claim ch = _) ∧ (eligible s c = true → (s.car c).carrying = none → v.claim ch = _)
    rw [examines ch i reason service]
    exact ⟨fun none => examined_of_unselected rfl none, fun c some =>
      ⟨fun lost => examined_of_ineligible rfl some lost, fun ok free => examined_of_noPath rfl some ok free⟩⟩

end Sys2Proof.Machine
end

section
/-! PROOF. SCAN CONTROL, SET RANKING and SETTLE (R57, R58, R114, R153, R163, R171, R172). -/

namespace Sys2Proof.Machine

/-! ### SCAN CONTROL -/

theorem runScanControl_of_outside (e : ReqEntry) (s : State) (h : 2 < (e.arg 0).toNat ∨ 1 < (e.arg 1).toNat) :
    runScanControl e s = reply e .range [] s := if_pos h

theorem runScanControl_of_crowded (e : ReqEntry) (s : State) (reserve : (e.arg 0).toNat ≤ 2)
    (sweep : (e.arg 1).toNat ≤ 1) (h : 8 - (e.arg 0).toNat < carryCount s) :
    runScanControl e s = reply e .inUse [] s := by
  unfold runScanControl
  dsimp only
  rw [if_neg (by omega), if_pos h]

theorem runScanControl_of_room (e : ReqEntry) (s : State) (reserve : (e.arg 0).toNat ≤ 2)
    (sweep : (e.arg 1).toNat ≤ 1) (h : carryCount s ≤ 8 - (e.arg 0).toNat) :
    runScanControl e s =
      if (decide ((e.arg 0).toNat < s.arb.reserve) || (decide ((e.arg 1).toNat = 1) && !s.plan.sweepEnabled)) = true
      then raiseArb (reply e .done [] (setScan (e.arg 0).toNat (decide ((e.arg 1).toNat = 1)) s))
      else reply e .done [] (setScan (e.arg 0).toNat (decide ((e.arg 1).toNat = 1)) s) := by
  unfold runScanControl
  dsimp only
  rw [if_neg (by omega), if_neg (by omega)]

/-- Settles O15: the three answers of the run; arbitration is called for by the reserve and the sweep. -/
theorem scanControlSetsReserveAndSweep : Obligations.ScanControlSetsReserveAndSweep := by
  refine fun s e taken => ⟨fun outside => ?range, fun reserve sweep => ⟨fun crowded => ?inUse, fun room => ?set⟩⟩
  case range =>
    exact refuses_of_reply taken.clear (exec_scanControl_of_taken taken) (runScanControl_of_outside e _ outside)
  case inUse =>
    exact refuses_of_reply taken.clear (exec_scanControl_of_taken taken)
      (runScanControl_of_crowded e _ reserve sweep crowded)
  case set =>
    rw [exec_scanControl_of_taken taken, runScanControl_of_room e (dropHead s) reserve sweep room,
      show (dropHead s).arb.reserve = s.arb.reserve from rfl, show (dropHead s).plan = s.plan from rfl]
    split
    next wakes =>
      rw [wakes]
      rfl
    next sleeps =>
      rw [Bool.eq_false_iff.mpr sleeps, ← taken.clear]
      rfl

/-! ### SET RANKING -/

theorem port_reply (e : ReqEntry) (k : Completion) (w : List Word) (s : State) : (reply e k w s).port
    = { s.port with respFifo := s.port.respFifo ++ responseWords e.header k w } := rfl

theorem runSetRanking_of_outside (e : ReqEntry) (s : State) (h : (settingsOf e).persistence = 0
    ∨ 8 < (settingsOf e).persistence ∨ 262136 < (settingsOf e).floor) :
    runSetRanking e s = reply e .range [] s := if_pos h

/-- R58 step 3: whether a record is left to be evaluated. -/
theorem anyLive_iff (s : State) :
    s.svcs.recs.toList.any (fun r => r.state.live) = true ↔ ∃ i, (s.svc i).state.live = true :=
  any_toList s.svcs.recs _

/-- R58: the state once the settings have been replaced, the scores recomputed and the live records asked for. -/
structure Rescores (g : Settings) (s t : State) : Prop where
  settings : t.rank.settings = g
  cars : ∀ c, t.car c = rescored g (s.car c)
  svcs : t.svcs = s.svcs
  inputs : t.inputs = s.inputs
  paths : t.paths = s.paths
  arb : t.arb = s.arb
  plan : t.plan = s.plan
  claims : t.claims = s.claims
  mons : t.mons = s.mons
  evals : t.rank.evals = if (List.finRange 512).filter (fun i => (s.svc i).state.live) = [] then s.rank.evals
    else s.rank.evals ++ [⟨.setRanking, none, (List.finRange 512).filter (fun i => (s.svc i).state.live)⟩]
  port : t.port = s.port
  inExec : t.inExec = s.inExec

theorem car_of_mapped {f : CarrierRec → CarrierRec} {s t : State} (h : t.carriers = vmap f s.carriers)
    (c : CarrierIdx) : t.car c = f (s.car c) := by
  unfold State.car
  rw [h]
  exact getElem_vmap f s.carriers c.val c.isLt

/-- A report to the Ranking Engine joins the evaluations and changes nothing else. -/
theorem pushReport_eq (k : EvalCause) (c : Option CarrierIdx) (l : List ServiceIdx) (s : State) : pushReport k c l s
    = { s with rank := { s.rank with evals := if l = [] then s.rank.evals else s.rank.evals ++ [⟨k, c, l⟩] } } := by
  unfold pushReport
  split <;> rfl

theorem rescores_setRankingEffects (g : Settings) (s : State) : Rescores g s (setRankingEffects g s) := by
  have live : idxWhere s.svcs.recs (fun r => r.state.live)
      = (List.finRange 512).filter (fun i => (s.svc i).state.live) := idxWhere_eq _ _
  unfold setRankingEffects
  dsimp only
  rw [pushReport_eq, live]
  exact { settings := rfl, cars := car_of_mapped rfl, svcs := rfl, inputs := rfl, paths := rfl, arb := rfl, plan := rfl,
          claims := rfl, mons := rfl, evals := by dsimp only, port := rfl, inExec := rfl }

theorem runSetRanking_of_live (e : ReqEntry) (s : State) (low : 1 ≤ (settingsOf e).persistence)
    (high : (settingsOf e).persistence ≤ 8) (floor : (settingsOf e).floor ≤ 262136)
    (live : ∃ i, (s.svc i).state.live = true) : runSetRanking e s
      = { setRankingEffects (settingsOf e) s with inExec := some ⟨e.header, false, .setRanking⟩ } := by
  have inside : ¬ ((settingsOf e).persistence = 0 ∨ 8 < (settingsOf e).persistence
      ∨ Config.scoreMax < (settingsOf e).floor) := by simp only [Config.scoreMax]; omega
  unfold runSetRanking
  dsimp only
  rw [if_neg inside, (rescores_setRankingEffects (settingsOf e) s).svcs, if_pos ((anyLive_iff s).mpr live)]

theorem runSetRanking_of_noneLive (e : ReqEntry) (s : State) (low : 1 ≤ (settingsOf e).persistence)
    (high : (settingsOf e).persistence ≤ 8) (floor : (settingsOf e).floor ≤ 262136)
    (none : ∀ i, (s.svc i).state.live = false) : runSetRanking e s
      = reply e .done (settingsWords (settingsOf e)) (setRankingEffects (settingsOf e) s) := by
  have inside : ¬ ((settingsOf e).persistence = 0 ∨ 8 < (settingsOf e).persistence
      ∨ Config.scoreMax < (settingsOf e).floor) := by simp only [Config.scoreMax]; omega
  have noLive : ¬ s.svcs.recs.toList.any (fun r => r.state.live) = true := fun any => by
    obtain ⟨i, live⟩ := (anyLive_iff s).mp any
    simp [none i] at live
  unfold runSetRanking
  dsimp only
  rw [if_neg inside, (rescores_setRankingEffects (settingsOf e) s).svcs, if_neg noLive]

theorem filter_live_eq_nil {s : State} (h : ∀ i, (s.svc i).state.live = false) :
    (List.finRange 512).filter (fun i => (s.svc i).state.live) = [] :=
  List.filter_eq_nil_iff.mpr fun i _ => by simp [h i]

theorem filter_live_ne_nil {s : State} (h : ∃ i, (s.svc i).state.live = true) :
    (List.finRange 512).filter (fun i => (s.svc i).state.live) ≠ [] := by
  obtain ⟨i, live⟩ := h
  exact List.ne_nil_of_mem (List.mem_filter.mpr ⟨List.mem_finRange i, live⟩)

/-- Settles O16: whether a record is live decides between the answer and the wait for the evaluations. -/
theorem setRankingRescores : Obligations.SetRankingRescores := by
  intro s e g taken settings
  have g_eq : g = settingsOf e := settings
  subst g_eq
  refine ⟨fun outside => ?range, fun low high floor => ?set⟩
  case range =>
    exact refuses_of_reply taken.clear (exec_setRanking_of_taken taken) (runSetRanking_of_outside e _ outside)
  case set =>
    have effects := rescores_setRankingEffects (settingsOf e) (dropHead s)
    have held := runSetRanking_of_live e (dropHead s) low high floor
    have answers := runSetRanking_of_noneLive e (dropHead s) low high floor
    have run := exec_setRanking_of_taken taken
    generalize setRankingEffects (settingsOf e) (dropHead s) = t at effects held answers
    have clear : t.arb.due = false := by
      rw [effects.arb]
      exact taken.clear
    by_cases live : ∃ i, (s.svc i).state.live = true
    · refine ⟨_, exec_eq_of_clear run (held live) clear, effects.settings, effects.cars, effects.svcs, effects.inputs,
        effects.paths, effects.arb, effects.plan, effects.claims, effects.mons, fun noneLive => ?_,
        fun _ => ⟨effects.evals.trans (if_neg (filter_live_ne_nil live)), rfl, effects.port⟩⟩
      obtain ⟨i, isLive⟩ := live
      simp [noneLive i] at isLive
    · have noneLive : ∀ i, (s.svc i).state.live = false := fun i =>
        Bool.eq_false_iff.mpr fun isLive => live ⟨i, isLive⟩
      refine ⟨_, exec_eq_of_clear run (answers noneLive) clear, effects.settings, effects.cars, effects.svcs,
        effects.inputs, effects.paths, effects.arb, effects.plan, effects.claims, effects.mons,
        fun _ => ⟨effects.evals.trans (if_pos (filter_live_eq_nil noneLive)), effects.inExec.trans taken.idle, ?_⟩,
        fun isLive => absurd isLive live⟩
      rw [port_reply, effects.port]
      rfl

/-! ### SETTLE -/

theorem runSettle_of_outside (e : ReqEntry) (s : State) (h : (e.arg 0).toNat < 100 ∨ 60000 < (e.arg 0).toNat) :
    runSettle e s = reply e .range [] s := if_pos h

theorem runSettle_of_inside (e : ReqEntry) (s : State) (low : 100 ≤ (e.arg 0).toNat) (high : (e.arg 0).toNat ≤ 60000) :
    runSettle e s = if capturedSet s = [] then reply e .done [0] s
      else { s with inExec := some ⟨e.header, false, .settle (capturedSet s) (s.now + (e.arg 0).toNat)⟩ } :=
  if_neg (by omega)

section Held
variable {s : State} {h : Word} {sup : Bool} {l : List CarrierIdx} {t : Nat}

theorem visitEnded_of_held (c : CarrierIdx) (held : s.inExec = some ⟨h, sup, .settle l t⟩) : visitEnded c s =
    if c ∈ l then
      if without c l = [] then finish .done [0] s
      else { s with inExec := some ⟨h, sup, .settle (without c l) t⟩ }
    else s := by
  unfold visitEnded
  simp only [held]

theorem finish_of_held {x : Execution} (k : Completion) (w : List Word) (held : s.inExec = some x) :
    finish k w s = { s with
      inExec := none,
      port := { s.port with respFifo := s.port.respFifo ++ (if x.suppressed then [] else responseWords x.header k w) } }
    := by
  unfold finish
  simp only [held]
  split
  · simp
  · rfl

theorem settleTimerExpiry_of_held (held : s.inExec = some ⟨h, sup, .settle l t⟩) :
    settleTimerExpiryEffect s = finish .timeout [word l.length] (reach t s) := by
  unfold settleTimerExpiryEffect
  simp only [held]

end Held

theorem without_eq_nil_iff {c : CarrierIdx} {l : List CarrierIdx} : without c l = [] ↔ ∀ d ∈ l, d = c := by
  simp [without, List.filter_eq_nil_iff]

/-- R171: SETTLE itself. -/
theorem settle_captures {e : ReqEntry} {s : State} (taken : Taken .settle e s) (mode : s.arb.mode = .active) :
    ((e.arg 0).toNat < 100 ∨ 60000 < (e.arg 0).toNat → Refuses .settle e .range s)
    ∧ (100 ≤ (e.arg 0).toNat → (e.arg 0).toNat ≤ 60000 →
      (capturedSet s = [] → exec .settle s = .next (answered e .done [0] s))
      ∧ (capturedSet s ≠ [] → exec .settle s = .next
          { s with
            port := { s.port with reqFifo := s.port.reqFifo.drop 1 },
            inExec := some ⟨e.header, false, .settle (capturedSet s) (s.now + (e.arg 0).toNat)⟩ })) := by
  have run := exec_settle_of_taken taken mode
  refine ⟨fun outside => refuses_of_reply_open run (runSettle_of_outside e _ outside), fun low high => ?_⟩
  rw [run, runSettle_of_inside e _ low high]
  refine ⟨fun empty => ?_, fun some => ?_⟩
  · rw [if_pos (show capturedSet (dropHead s) = [] from empty), reply_dropHead]
  · rw [if_neg (show ¬ capturedSet (dropHead s) = [] from some)]
    rfl

/-- Settles O18: the request, the reports of ended visits, and the timer. -/
theorem settleHoldsUntilTimer : Obligations.SettleHoldsUntilTimer := by
  refine ⟨fun s e l taken mode captured => ?request, fun s h sup l t c held => ⟨fun absent => ?other,
    fun mem more => ?fewer, fun mem last => ?done⟩, fun s h sup l t held => congrArg Host.Outcome.next ?timer⟩
  case request =>
    have captured_eq : l = capturedSet s := captured
    subst captured_eq
    exact settle_captures taken mode
  case other => rw [visitEnded_of_held c held, if_neg absent]
  case fewer =>
    obtain ⟨d, memD, ne⟩ := more
    rw [visitEnded_of_held c held, if_pos mem, if_neg (fun empty => ne (without_eq_nil_iff.mp empty d memD))]
    rfl
  case done =>
    rw [visitEnded_of_held c held, if_pos mem, if_pos (without_eq_nil_iff.mpr last), finish_of_held _ _ held]
    rfl
  case timer =>
    refine (settleTimerExpiry_of_held held).trans ?_
    rw [finish_of_held (s := reach t s) _ _ held]
    rfl

end Sys2Proof.Machine
end

section
/-! SUPPORT. The words of the statements for a path that leaves its carrier and for the end of a scan visit, tied to
what the laws say of them. -/

namespace Sys2Proof.Machine

/-! ### The record of the path (R52, R102 to R104) -/

theorem leftPath_of_within {now a : Nat} {r : PathRec} (locked : r.lockTime = some a) (within : now < a + 250) :
    leftPath now r = { r.quiet with state := .dwell, dwellEnd := some (a + 250),
                                    demod := if r.state = .tuning then none else r.demod } := by
  unfold leftPath
  simp only [locked]
  exact if_pos within

theorem leftPath_of_passed {now : Nat} {r : PathRec} (passed : ∀ a, r.lockTime = some a → a + 250 ≤ now) :
    leftPath now r = { r.quiet with state := .recovery, recoveryEnd := some (now + 3), dwellEnd := none,
                                    demod := none } := by
  unfold leftPath
  cases locked : r.lockTime with
  | none => rfl
  | some a => exact if_neg (Nat.not_lt.mpr (passed a locked))

theorem leavesCarrier_leftPath (now : Nat) (r : PathRec) : LeavesCarrier now r (leftPath now r) :=
  ⟨fun _ locked within => leftPath_of_within locked within, fun passed => leftPath_of_passed passed⟩

/-- R79, R87, R104: the inputs follow the paths. -/
theorem Follows.inputsFollow {s t : State} (h : Follows s t) : InputsFollow s t := h.inputs

/-! ### Putting back (R122) -/

theorem plan_putBack (c : CarrierIdx) (s : State) : (putBack c s).plan = putBackIn c s.plan := by
  unfold putBack
  dsimp only
  have queue : (endUnderQueue c s).plan.queue = s.plan.queue := rfl
  rw [queue]
  split
  next mem => rw [putBackIn, if_pos mem]; rfl
  next absent =>
    split
    next room => rw [putBackIn, if_neg absent, if_pos room]; rfl
    next full => rw [putBackIn, if_neg absent, if_neg full]; rfl

theorem mons_putBackTo_of_full {c : CarrierIdx} {s : State} (h : c ∉ s.plan.queue ∧ 16 ≤ s.plan.queue.length) :
    (putBackTo c s).mons = (countEvent .visitQueueFull none s.plan.queue.getLast? s).mons := by
  unfold putBackTo
  rw [if_pos h]

theorem mons_putBackTo_of_room {c : CarrierIdx} {s : State} (h : ¬ (c ∉ s.plan.queue ∧ 16 ≤ s.plan.queue.length)) :
    (putBackTo c s).mons = s.mons := by
  unfold putBackTo
  rw [if_neg h]

theorem mons_putBack (c : CarrierIdx) (s : State) : (putBack c s).mons = (putBackTo c s).mons := by
  unfold putBack
  dsimp only
  have queue : (endUnderQueue c s).plan.queue = s.plan.queue := rfl
  rw [queue]
  split
  next mem => exact (mons_putBackTo_of_room (fun h => h.1 mem)).symm
  next absent =>
    split
    next room => exact (mons_putBackTo_of_room (fun h => Nat.not_lt.mpr h.2 room)).symm
    next full => exact (mons_putBackTo_of_full ⟨absent, Nat.not_lt.mp full⟩).symm

theorem inExec_putBack (c : CarrierIdx) (s : State) : (putBack c s).inExec = s.inExec := by
  unfold putBack
  dsimp only
  split
  · rfl
  · split <;> rfl

theorem port_putBack (c : CarrierIdx) (s : State) : (putBack c s).port = s.port := by
  unfold putBack
  dsimp only
  split
  · rfl
  · split <;> rfl

/-! ### The ends of scan visits (R95, R122) -/

/-- R122: the ends after which the carrier of a queue visit is put back. -/
def VisitEnd.putsBack : VisitEnd → Bool
  | .cut | .abandonedByStandby => true
  | .completed | .converted | .abandonedByForget => false

theorem visitEndReport_queue (c : CarrierIdx) (k : VisitEnd) (s : State) : visitEndReport .queue c k s
    = if k.putsBack then putBack c s else visitEnded c (endUnderQueue c s) := by
  cases k <;> rfl

theorem mons_finish (k : Completion) (l : List Word) (s : State) : (finish k l s).mons = s.mons := by
  unfold finish
  split
  · rfl
  · dsimp only
    split <;> rfl

theorem mons_visitEnded (c : CarrierIdx) (s : State) : (visitEnded c s).mons = s.mons := by
  unfold visitEnded
  split
  · split
    · split
      · exact mons_finish _ _ _
      · rfl
    · rfl
  · rfl

theorem inExec_finish (k : Completion) (l : List Word) (s : State) : (finish k l s).inExec = none := by
  unfold finish
  split
  next idle => exact idle
  next =>
    dsimp only
    split <;> rfl

/-- What a completion writes depends on the request in execution and the port alone. -/
theorem finish_congr {s t : State} (inExec : t.inExec = s.inExec) (port : t.port = s.port) (k : Completion)
    (l : List Word) : (finish k l t).port = (finish k l s).port := by
  unfold finish
  rw [inExec]
  split
  · exact port
  · dsimp only
    split
    · exact port
    · rw [port_respond, port_respond, port]

theorem visitEnded_congr {s t : State} (c : CarrierIdx) (inExec : t.inExec = s.inExec) (port : t.port = s.port) :
    (visitEnded c t).inExec = (visitEnded c s).inExec ∧ (visitEnded c t).port = (visitEnded c s).port := by
  unfold visitEnded
  rw [inExec]
  split
  · split
    · split
      · exact ⟨by rw [inExec_finish, inExec_finish], finish_congr inExec port _ _⟩
      · exact ⟨rfl, port⟩
    · exact ⟨inExec, port⟩
  · exact ⟨inExec, port⟩

/-- R95, R122: the report of an ended visit, in the words of the statements. -/
theorem visitEnds_visitEndReport (u : Use) (c : CarrierIdx) (k : VisitEnd) (s : State) :
    VisitEnds (some u) c k.putsBack s (visitEndReport u c k s) := by
  refine ⟨fun sweep => ?_, fun queue back => ?_, fun queue back => ?_⟩
  · cases sweep
    exact ⟨rfl, rfl, rfl, rfl⟩
  · cases queue
    rw [visitEndReport_queue, back]
    obtain ⟨inExec, port⟩ := visitEnded_congr (s := s) (t := endUnderQueue c s) c rfl rfl
    exact ⟨plan_visitEnded c _, mons_visitEnded c _, inExec, port⟩
  · cases queue
    rw [visitEndReport_queue, back]
    exact ⟨plan_putBack c s, mons_putBack c s, inExec_putBack c s, port_putBack c s⟩

theorem endScanVisit_eq {p : PathIdx} {u : Use} {c : CarrierIdx} {s : State} (k : VisitEnd)
    (use : (s.path p).use = some u) (carrier : (s.path p).carrier = some c) :
    endScanVisit p k s = leaveCarrier p (visitEndReport u c k s) := by
  unfold endScanVisit
  simp only [use, carrier]

theorem endScanVisit_of_noCarrier {p : PathIdx} {s : State} (k : VisitEnd) (carrier : (s.path p).carrier = none) :
    endScanVisit p k s = leaveCarrier p s := by
  unfold endScanVisit
  rw [carrier]
  cases (s.path p).use <;> rfl

/-- What leaves the plan, the monitors, the port and the request in execution alone does not show in the words for the
end of a visit. -/
theorem VisitEnds.of_eq {use : Option Use} {c : CarrierIdx} {back : Bool} {s t u : State} (h : VisitEnds use c back s t)
    (plan : u.plan = t.plan) (mons : u.mons = t.mons) (inExec : u.inExec = t.inExec) (port : u.port = t.port) :
    VisitEnds use c back s u := by
  unfold VisitEnds
  rw [plan, mons, inExec, port]
  exact h

/-- R95: the end of a scan visit, in the words of the statements. -/
theorem visitEnds_endScanVisit {p : PathIdx} {u : Use} {c : CarrierIdx} {s : State} (k : VisitEnd)
    (use : (s.path p).use = some u) (carrier : (s.path p).carrier = some c) :
    VisitEnds (s.path p).use c k.putsBack s (endScanVisit p k s) := by
  rw [endScanVisit_eq k use carrier, use]
  have left := leavingOnly_leaveCarrier p (visitEndReport u c k s)
  exact (visitEnds_visitEndReport u c k s).of_eq left.plan left.mons left.inExec left.port

theorem carriers_endScanVisit (p : PathIdx) (k : VisitEnd) (s : State) : (endScanVisit p k s).carriers = s.carriers := by
  unfold endScanVisit
  split
  · rw [carriers_leaveCarrier, (plannerOnly_visitEndReport _ _ _ _).carriers]
  · exact carriers_leaveCarrier p s

end Sys2Proof.Machine
end

section
/-! PROOF. STANDBY (R29, R87, R95, R102 to R104, R111, R122, R140, R162). -/

namespace Sys2Proof.Machine

/-! ### The claims -/

theorem claim_standbyClaim_other (ch d : ChannelIdx) (s : State) (h : d ≠ ch) :
    (standbyClaim ch s).claim d = s.claim d := by
  unfold standbyClaim
  split
  · rw [claim_setClaim, if_neg h.symm]
  · rfl

theorem claimsOnly_standbyClaim (ch : ChannelIdx) (s : State) : ClaimsOnly s (standbyClaim ch s) := by
  unfold standbyClaim
  split
  · exact claimsOnly_setClaim _ _ _
  · exact ClaimsOnly.refl s

theorem mons_standbyClaim (ch : ChannelIdx) (s : State) : (standbyClaim ch s).mons = s.mons := by
  unfold standbyClaim
  split
  · exact mons_setClaim _ _ _
  · rfl

theorem claim_standbyClaim (ch : ChannelIdx) (s : State) : (∀ i, (s.claim ch).service = some i →
      (standbyClaim ch s).claim ch = .waiting i .standby)
    ∧ ((s.claim ch).service = none → (standbyClaim ch s).claim ch = s.claim ch) := by
  unfold standbyClaim
  refine ⟨fun i service => ?_, fun none => ?_⟩
  · simp only [service]
    rw [claim_setClaim, if_pos rfl]
  · simp only [none]

/-- R111 step 1: every claim on a service waits with reason STANDBY. -/
theorem claim_standbyClaims (s : State) (ch : ChannelIdx) :
    (∀ i, (s.claim ch).service = some i → (forChannels standbyClaim s).claim ch = .waiting i .standby)
    ∧ ((s.claim ch).service = none → (forChannels standbyClaim s).claim ch = s.claim ch) := by
  obtain ⟨t, _, same, result⟩ :=
    (forChannels_claimsOnly standbyClaim claimsOnly_standbyClaim claim_standbyClaim_other s).2 ch
  rw [result, ← same]
  exact claim_standbyClaim ch t

/-! ### The paths -/

/-- What stopping paths leaves, whichever paths they are: `PathEnds` without the other paths. -/
structure PathsStop (s t : State) : Prop where
  svcs : t.svcs = s.svcs
  rank : t.rank = s.rank
  claims : t.claims = s.claims
  now : t.now = s.now
  arb : { t.arb with due := s.arb.due } = s.arb

theorem PathsStop.refl (s : State) : PathsStop s s := ⟨rfl, rfl, rfl, rfl, rfl⟩

theorem PathsStop.trans {s t u : State} (a : PathsStop s t) (b : PathsStop t u) : PathsStop s u where
  svcs := b.svcs.trans a.svcs
  rank := b.rank.trans a.rank
  claims := b.claims.trans a.claims
  now := b.now.trans a.now
  arb := (congrArg (fun x : Arbiter => { x with due := s.arb.due }) b.arb).trans a.arb

theorem PathEnds.pathsStop {p : PathIdx} {s t : State} (h : PathEnds p s t) : PathsStop s t :=
  ⟨h.steady.svcs, h.steady.rank, h.claims, h.now, h.arb⟩

theorem PathsStop.foldl {f : State → PathIdx → State} (h : ∀ s p, PathsStop s (f s p)) (l : List PathIdx) (s : State) :
    PathsStop s (l.foldl f s) := by
  induction l generalizing s with
  | nil => exact PathsStop.refl s
  | cons p l ih => exact (h s p).trans (ih (f s p))

/-- R111: the scan paths abandoned, lowest first. -/
def scansAbandoned (s : State) : State := (List.finRange 8).foldl (fun s p => abandonForStandby p s) s

/-- R111: the carry paths released, lowest first. -/
def carriesReleased (s : State) : State := (List.finRange 8).foldl (fun s p => releaseCarry p s) s

theorem path_scansAbandoned (s : State) (p : PathIdx) : (scansAbandoned s).path p
    = if (s.path p).scan = true ∧ (s.path p).state.working = true then leftPath s.now (s.path p) else s.path p := by
  obtain ⟨t, path, now, result⟩ :=
    foldPaths (fun s p => abandonForStandby p s) (fun s p => pathEnds_abandonForStandby p s) s p
  rw [scansAbandoned, result, path_abandonForStandby, path, now]

theorem path_carriesReleased (s : State) (p : PathIdx) : (carriesReleased s).path p
    = if (s.path p).use = some .carry ∧ (s.path p).state.working = true then leftPath s.now (s.path p)
      else s.path p := by
  obtain ⟨t, path, now, result⟩ :=
    foldPaths (fun s p => releaseCarry p s) (fun s p => pathEnds_releaseCarry p s) s p
  rw [carriesReleased, result, path_releaseCarry, path, now]

theorem pathsStop_scansAbandoned (s : State) : PathsStop s (scansAbandoned s) :=
  PathsStop.foldl (fun s p => (pathEnds_abandonForStandby p s).pathsStop) _ s

theorem pathsStop_carriesReleased (s : State) : PathsStop s (carriesReleased s) :=
  PathsStop.foldl (fun s p => (pathEnds_releaseCarry p s).pathsStop) _ s

theorem follows_scansAbandoned (s : State) : Follows s (scansAbandoned s) :=
  Follows.foldl _ (fun s p => follows_abandonForStandby p s) _ s

theorem follows_carriesReleased (s : State) : Follows s (carriesReleased s) :=
  Follows.foldl _ (fun s p => follows_releaseCarry p s) _ s

theorem scan_iff (r : PathRec) : r.scan = true ↔ r.use = some .sweep ∨ r.use = some .queue := by
  simp [PathRec.scan]

theorem not_scan_of_carry {r : PathRec} (h : r.use = some .carry) : ¬ r.scan = true := by
  simp [PathRec.scan, h]

theorem scan_of_use {r : PathRec} (used : r.use ≠ none) (other : r.use ≠ some .carry) : r.scan = true := by
  rw [scan_iff]
  match use : r.use with
  | none => exact absurd use used
  | some .sweep => exact .inl rfl
  | some .queue => exact .inr rfl
  | some .carry => exact absurd use other

/-- R102, R103: a path with a use that is at work leaves its carrier, and every path not at work stands. -/
theorem path_stopped (s : State) (p : PathIdx) :
    ((s.path p).use ≠ none → (s.path p).state.working = true →
      (carriesReleased (scansAbandoned s)).path p = leftPath s.now (s.path p))
    ∧ ((s.path p).state.working = false → (carriesReleased (scansAbandoned s)).path p = s.path p) := by
  rw [path_carriesReleased, path_scansAbandoned, (pathsStop_scansAbandoned s).now]
  refine ⟨fun used working => ?_, fun rest => ?_⟩
  · by_cases carry : (s.path p).use = some .carry
    · have notScan : ¬ ((s.path p).scan = true ∧ (s.path p).state.working = true) :=
        fun h => not_scan_of_carry carry h.1
      rw [if_neg notScan, if_pos ⟨carry, working⟩]
    · have scan : (s.path p).scan = true ∧ (s.path p).state.working = true := ⟨scan_of_use used carry, working⟩
      rw [if_pos scan, leftPath_idle, if_neg (fun h => Bool.false_ne_true h.2)]
  · have rests : ¬ ((s.path p).scan = true ∧ (s.path p).state.working = true) := by simp [rest]
    rw [if_neg rests, if_neg (by simp [rest])]

/-! ### The carriers -/

theorem carriers_abandonForStandby (p : PathIdx) (s : State) : (abandonForStandby p s).carriers = s.carriers := by
  unfold abandonForStandby
  dsimp only
  split
  · exact carriers_endScanVisit _ _ _
  · rfl

theorem carriers_scansAbandoned (s : State) : (scansAbandoned s).carriers = s.carriers := by
  unfold scansAbandoned
  induction List.finRange 8 generalizing s with
  | nil => rfl
  | cons p l ih => exact (ih _).trans (carriers_abandonForStandby p s)

theorem car_clearCarrying (c d : CarrierIdx) (s : State) : (clearCarrying c s).car d
    = if c = d then { s.car c with carrying := none } else s.car d := State.car_modCar s c d _

theorem car_congr {s t : State} (h : t.carriers = s.carriers) (d : CarrierIdx) : t.car d = s.car d := by
  unfold State.car
  rw [h]

/-- R29: a release at work clears the carrying path of its carrier, and no other. -/
theorem car_releaseCarry_eq (p : PathIdx) (s : State) (d : CarrierIdx) : (releaseCarry p s).car d
    = if (s.path p).use = some .carry ∧ (s.path p).state.working = true ∧ (s.path p).carrier = some d
      then { s.car d with carrying := none } else s.car d := by
  by_cases works : (s.path p).use = some .carry ∧ (s.path p).state.working = true
  · obtain ⟨carry, working⟩ := works
    by_cases here : (s.path p).carrier = some d
    · rw [if_pos ⟨carry, working, here⟩, releaseCarry_working p d s carry working here,
        car_congr (carriers_leaveCarrier p _), car_clearCarrying, if_pos rfl]
    · rw [if_neg (fun h => here h.2.2), car_releaseCarry p s d here]
  · rw [releaseCarry_not_working p s works, if_neg (fun h => works ⟨h.1, h.2.1⟩)]

/-- R29: a release only ever clears a carrying path. -/
theorem carrying_releaseCarry {p : PathIdx} {s : State} {d : CarrierIdx} (h : (s.car d).carrying = none) :
    ((releaseCarry p s).car d).carrying = none := by
  rw [car_releaseCarry_eq]
  split
  · rfl
  · exact h

/-- The paths not yet released stand while the others are. -/
theorem path_releaseCarry_other {p q : PathIdx} (s : State) (h : q ≠ p) : (releaseCarry p s).path q = s.path q :=
  (pathEnds_releaseCarry p s).paths q h

theorem carrying_releases_kept {d : CarrierIdx} (l : List PathIdx) {s : State} (h : (s.car d).carrying = none) :
    ((l.foldl (fun s p => releaseCarry p s) s).car d).carrying = none := by
  induction l generalizing s with
  | nil => exact h
  | cons p l ih => exact ih (carrying_releaseCarry h)

theorem carrying_releases {p : PathIdx} {d : CarrierIdx} (l : List PathIdx) (mem : p ∈ l) (s : State)
    (carry : (s.path p).use = some .carry) (working : (s.path p).state.working = true)
    (carrier : (s.path p).carrier = some d) : ((l.foldl (fun s p => releaseCarry p s) s).car d).carrying = none := by
  induction l generalizing s with
  | nil => cases mem
  | cons q l ih =>
    by_cases here : p = q
    · subst here
      refine carrying_releases_kept l ?_
      rw [car_releaseCarry_eq, if_pos ⟨carry, working, carrier⟩]
    · have path := path_releaseCarry_other s here
      exact ih ((List.mem_cons.mp mem).resolve_left here) (releaseCarry q s) (path ▸ carry) (path ▸ working)
        (path ▸ carrier)

theorem car_releases_other {d : CarrierIdx} (l : List PathIdx) (distinct : l.Nodup) (s : State)
    (h : ∀ p ∈ l, ¬ ((s.path p).use = some .carry ∧ (s.path p).state.working = true ∧ (s.path p).carrier = some d)) :
    (l.foldl (fun s p => releaseCarry p s) s).car d = s.car d := by
  induction l generalizing s with
  | nil => rfl
  | cons q l ih =>
    obtain ⟨absent, rest⟩ := List.nodup_cons.mp distinct
    refine (ih rest (releaseCarry q s) fun p mem => ?_).trans ?_
    · have other : p ≠ q := fun same => absent (same ▸ mem)
      rw [path_releaseCarry_other s other]
      exact h p (List.mem_cons_of_mem q mem)
    · rw [car_releaseCarry_eq, if_neg (h q List.mem_cons_self)]

/-! ### The visit queue and the monitors (R122) -/

/-- Two states that agree on the plan and the monitors. -/
def SamePlan (s t : State) : Prop := t.plan = s.plan ∧ t.mons = s.mons

theorem samePlan_putBackTo {s t : State} (c : CarrierIdx) (h : SamePlan s t) :
    SamePlan (putBackTo c s) (putBackTo c t) := by
  obtain ⟨plan, mons⟩ := h
  refine ⟨congrArg (putBackIn c) plan, ?_⟩
  unfold putBackTo
  rw [plan]
  split
  · exact congrArg (vmap _) mons
  · exact mons

/-- R122: the carrier that the abandonment of a path puts back: that of a queue visit at work. -/
def putBackOf (r : PathRec) : Option CarrierIdx :=
  if r.use = some .queue ∧ r.state.working = true then r.carrier else none

theorem plan_abandonForStandby (p : PathIdx) (s : State) : SamePlan
    ((putBackOf (s.path p)).elim s (fun c => putBackTo c s)) (abandonForStandby p s) := by
  unfold abandonForStandby
  dsimp only
  split
  next works =>
    obtain ⟨scan, working⟩ := Bool.and_eq_true_iff.mp works
    generalize kind : (if (s.path p).cutPending = true then VisitEnd.cut else .abandonedByStandby) = k
    have back : k.putsBack = true := by
      subst kind
      split <;> rfl
    cases carrier : (s.path p).carrier with
    | none =>
      have none : putBackOf (s.path p) = none := by
        unfold putBackOf
        rw [carrier, ite_self]
      rw [none, endScanVisit_of_noCarrier k carrier]
      exact ⟨(leavingOnly_leaveCarrier p s).plan, (leavingOnly_leaveCarrier p s).mons⟩
    | some c =>
      obtain sweep | queue := (scan_iff _).mp scan
      · have none : putBackOf (s.path p) = none := if_neg (by simp [sweep])
        obtain ⟨swept, _, _⟩ := visitEnds_endScanVisit k sweep carrier
        rw [none]
        exact ⟨(swept sweep).1, (swept sweep).2.1⟩
      · have some : putBackOf (s.path p) = some c := (if_pos ⟨queue, working⟩).trans carrier
        obtain ⟨_, _, queued⟩ := visitEnds_endScanVisit k queue carrier
        rw [some]
        exact ⟨(queued queue back).1, (queued queue back).2.1⟩
  next rests =>
    have none : putBackOf (s.path p) = none := if_neg fun h => rests (by
      rw [Bool.and_eq_true, scan_iff]
      exact ⟨.inr h.1, h.2⟩)
    rw [none]
    exact ⟨rfl, rfl⟩

theorem plan_abandons (s : State) (l : List PathIdx) (distinct : l.Nodup) (t v : State)
    (untouched : ∀ p ∈ l, t.path p = s.path p) (h : SamePlan v t) :
    SamePlan ((l.filterMap (fun p => putBackOf (s.path p))).foldl (fun v c => putBackTo c v) v)
      (l.foldl (fun s p => abandonForStandby p s) t) := by
  induction l generalizing t v with
  | nil => exact h
  | cons p l ih =>
    obtain ⟨absent, rest⟩ := List.nodup_cons.mp distinct
    have here := plan_abandonForStandby p t
    rw [untouched p List.mem_cons_self] at here
    have others : ∀ q ∈ l, (abandonForStandby p t).path q = s.path q := fun q mem =>
      ((pathEnds_abandonForStandby p t).paths q (fun same => absent (same ▸ mem))).trans
        (untouched q (List.mem_cons_of_mem p mem))
    rw [List.foldl_cons]
    cases back : putBackOf (s.path p) with
    | none =>
      rw [List.filterMap_cons_none (f := fun p => putBackOf (s.path p)) back]
      rw [back] at here
      exact ih rest _ _ others ⟨here.1.trans h.1, here.2.trans h.2⟩
    | some c =>
      rw [List.filterMap_cons_some (f := fun p => putBackOf (s.path p)) back, List.foldl_cons]
      rw [back] at here
      have told := samePlan_putBackTo c h
      exact ih rest _ _ others ⟨here.1.trans told.1, here.2.trans told.2⟩

theorem plan_scansAbandoned (s : State) : SamePlan
    (((List.finRange 8).filterMap (fun p => putBackOf (s.path p))).foldl (fun v c => putBackTo c v) s)
    (scansAbandoned s) :=
  plan_abandons s _ (List.nodup_finRange 8) s s (fun _ _ => rfl) ⟨rfl, rfl⟩

theorem plan_releaseCarry (p : PathIdx) (s : State) : SamePlan s (releaseCarry p s) := by
  unfold releaseCarry
  dsimp only
  split
  · split
    next c _ =>
      have left := leavingOnly_leaveCarrier p (clearCarrying c s)
      exact ⟨left.plan, left.mons⟩
    next =>
      have left := leavingOnly_leaveCarrier p s
      exact ⟨left.plan, left.mons⟩
  · exact ⟨rfl, rfl⟩

theorem plan_carriesReleased (s : State) : SamePlan s (carriesReleased s) := by
  unfold carriesReleased
  induction List.finRange 8 generalizing s with
  | nil => exact ⟨rfl, rfl⟩
  | cons p l ih =>
    have here := plan_releaseCarry p s
    have rest := ih (releaseCarry p s)
    exact ⟨rest.1.trans here.1, rest.2.trans here.2⟩

/-- What putting carriers back leaves of the plan. -/
theorem putBacks_parts (l : List CarrierIdx) (s : State) :
    (l.foldl (fun v c => putBackTo c v) s).plan.cursor = s.plan.cursor
    ∧ (l.foldl (fun v c => putBackTo c v) s).plan.passCount = s.plan.passCount
    ∧ (l.foldl (fun v c => putBackTo c v) s).plan.sweepEnabled = s.plan.sweepEnabled
    ∧ ∀ c, c ∉ s.plan.underQueue ∨ c ∈ l → c ∉ (l.foldl (fun v c => putBackTo c v) s).plan.underQueue := by
  induction l generalizing s with
  | nil => exact ⟨rfl, rfl, rfl, fun c h => h.resolve_right List.not_mem_nil⟩
  | cons d l ih =>
    obtain ⟨cursor, passes, sweep, under⟩ := ih (putBackTo d s)
    refine ⟨cursor, passes, sweep, fun c h => under c ?_⟩
    have removed : (putBackTo d s).plan.underQueue = s.plan.underQueue.filter (fun x => decide (x ≠ d)) := rfl
    rw [removed, List.mem_filter]
    obtain absent | mem := h
    · exact .inl fun h => absent h.1
    · obtain rfl | mem := List.mem_cons.mp mem
      · exact .inl fun h => by simp at h
      · exact .inr mem

/-! ### The effects together -/

theorem claim_congr {s t : State} (h : t.claims = s.claims) (ch : ChannelIdx) : t.claim ch = s.claim ch := by
  unfold State.claim
  rw [h]

/-- R111: the outstanding cuts forgotten. -/
def forgetCuts (s : State) : State := { s with arb := { s.arb with cuts := [] } }

theorem standbyEffects_eq (s : State) :
    standbyEffects s = carriesReleased (scansAbandoned (forgetCuts (forChannels standbyClaim s))) := rfl

/-- R111: what STANDBY makes of the part, whichever mode it enters. -/
structure Stands (s t : State) : Prop where
  claimed : ∀ ch i, (s.claim ch).service = some i → t.claim ch = .waiting i .standby
  unclaimed : ∀ ch, (s.claim ch).service = none → t.claim ch = s.claim ch
  arb : { t.arb with due := s.arb.due } = { s.arb with cuts := [] }
  left : ∀ p, (s.path p).use ≠ none → (s.path p).state.working = true → t.path p = leftPath s.now (s.path p)
  stands : ∀ p, (s.path p).state.working = false → t.path p = s.path p
  cleared : ∀ p c, (s.path p).use = some .carry → (s.path p).state.working = true → (s.path p).carrier = some c →
    (t.car c).carrying = none
  follows : Follows s t
  cars : ∀ c, (∀ p, (s.path p).use = some .carry → (s.path p).state.working = true → (s.path p).carrier ≠ some c) →
    t.car c = s.car c
  svcs : t.svcs = s.svcs
  rank : t.rank = s.rank
  plan : SamePlan (((List.finRange 8).filterMap (fun p => putBackOf (s.path p))).foldl (fun v c => putBackTo c v) s) t

theorem carrying_carriesReleased {p : PathIdx} {c : CarrierIdx} {s : State} (carry : (s.path p).use = some .carry)
    (working : (s.path p).state.working = true) (carrier : (s.path p).carrier = some c) :
    ((carriesReleased s).car c).carrying = none :=
  carrying_releases (List.finRange 8) (List.mem_finRange p) s carry working carrier

theorem car_carriesReleased_other {c : CarrierIdx} {s : State} (h : ∀ p, ¬ ((s.path p).use = some .carry
    ∧ (s.path p).state.working = true ∧ (s.path p).carrier = some c)) : (carriesReleased s).car c = s.car c :=
  car_releases_other (List.finRange 8) (List.nodup_finRange 8) s fun p _ => h p

/-- What is abandoned is no CARRY path. -/
theorem use_scansAbandoned (s : State) (p : PathIdx) : ((scansAbandoned s).path p).use = (s.path p).use := by
  rw [path_scansAbandoned]
  split
  · exact (leftPath_fields _ _).1
  · rfl

theorem path_scansAbandoned_of_carry {s : State} {p : PathIdx} (h : (s.path p).use = some .carry) :
    (scansAbandoned s).path p = s.path p := by
  rw [path_scansAbandoned, if_neg (fun scan => not_scan_of_carry h scan.1)]

/-- R111: the paths stopped, once the claims wait and the cuts are forgotten. -/
theorem stands_pathsStopped {s w : State} (path : ∀ p, w.path p = s.path p) (now : w.now = s.now)
    (arb : { w.arb with due := s.arb.due } = { s.arb with cuts := [] })
    (claims : ∀ ch, (∀ i, (s.claim ch).service = some i → w.claim ch = .waiting i .standby)
      ∧ ((s.claim ch).service = none → w.claim ch = s.claim ch))
    (car : ∀ c, w.car c = s.car c) (follows : Follows s w) (svcs : w.svcs = s.svcs) (rank : w.rank = s.rank)
    (backs : SamePlan (((List.finRange 8).filterMap (fun p => putBackOf (s.path p))).foldl (fun v c => putBackTo c v) s)
      (scansAbandoned w)) : Stands s (carriesReleased (scansAbandoned w)) := by
  have stops := (pathsStop_scansAbandoned w).trans (pathsStop_carriesReleased _)
  have stopped := path_stopped w
  have follow := (follows.trans (follows_scansAbandoned w)).trans (follows_carriesReleased _)
  have cars : ∀ c, (scansAbandoned w).car c = s.car c := fun c => (car_congr (carriers_scansAbandoned w) c).trans (car c)
  have plan := plan_carriesReleased (scansAbandoned w)
  have cleared := fun p c => carrying_carriesReleased (p := p) (c := c) (s := scansAbandoned w)
  have other := fun c => car_carriesReleased_other (c := c) (s := scansAbandoned w)
  have released : ∀ p, (s.path p).use = some .carry → (scansAbandoned w).path p = s.path p := fun p carry =>
    (path_scansAbandoned_of_carry (path p ▸ carry)).trans (path p)
  have use : ∀ p, ((scansAbandoned w).path p).use = (s.path p).use := fun p =>
    (use_scansAbandoned w p).trans (congrArg PathRec.use (path p))
  generalize scansAbandoned w = a at *
  generalize carriesReleased a = t at *
  exact {
    claimed := fun ch i service => (claim_congr stops.claims ch).trans ((claims ch).1 i service)
    unclaimed := fun ch none => (claim_congr stops.claims ch).trans ((claims ch).2 none)
    arb := (congrArg (fun a : Arbiter => { a with due := s.arb.due }) stops.arb).trans arb
    left := fun p used working => by
      rw [(stopped p).1 (path p ▸ used) (path p ▸ working), now, path]
    stands := fun p rest => by rw [(stopped p).2 (path p ▸ rest), path]
    cleared := fun p c carry working carrier =>
      have same := released p carry
      cleared p c (same ▸ carry) (same ▸ working) (same ▸ carrier)
    follows := follow
    cars := fun c nowhere => (other c fun p ⟨carry, working, carrier⟩ =>
      have carried := (use p).symm.trans carry
      nowhere p carried (released p carried ▸ working) (released p carried ▸ carrier)).trans (cars c)
    svcs := stops.svcs.trans svcs
    rank := stops.rank.trans rank
    plan := ⟨plan.1.trans backs.1, plan.2.trans backs.2⟩ }

theorem stands_standbyEffects (s : State) : Stands s (standbyEffects s) := by
  rw [standbyEffects_eq]
  have told : ClaimsOnly s (forChannels standbyClaim s) :=
    (forChannels_claimsOnly standbyClaim claimsOnly_standbyClaim claim_standbyClaim_other s).1
  have mons : (forChannels standbyClaim s).mons = s.mons := mons_forChannels_of_kept mons_standbyClaim s
  have claims := claim_standbyClaims s
  generalize forChannels standbyClaim s = v at told mons claims ⊢
  have path : ∀ p, (forgetCuts v).path p = s.path p := told.path
  have now : (forgetCuts v).now = s.now := told.now
  have arb : { (forgetCuts v).arb with due := s.arb.due } = { s.arb with cuts := [] } :=
    congrArg (fun a : Arbiter => { a with cuts := [] }) told.arb
  have claim : ∀ ch, (forgetCuts v).claim ch = v.claim ch := fun _ => rfl
  have car : ∀ c, (forgetCuts v).car c = s.car c := told.car
  have follows : Follows s (forgetCuts v) := follows_of_paths told.inputs told.paths
  have svcs : (forgetCuts v).svcs = s.svcs := told.svcs
  have rank : (forgetCuts v).rank = s.rank := told.rank
  have backs := plan_abandons s (List.finRange 8) (List.nodup_finRange 8) (forgetCuts v) s
    (fun p _ => path p) ⟨told.plan, mons⟩
  generalize forgetCuts v = w at path now arb claim car follows svcs rank backs ⊢
  exact stands_pathsStopped path now arb (fun ch => claim ch ▸ claims ch) car follows svcs rank backs

theorem allIdle_iff (s : State) : allIdle s = true ↔ ∀ p, (s.path p).state = .idle := by
  unfold allIdle
  rw [all_toList]
  simp only [decide_eq_true_eq, State.path]

/-! ### The request -/

theorem samePlan_putBacks {s t : State} (l : List CarrierIdx) (h : SamePlan s t) :
    SamePlan (l.foldl (fun v c => putBackTo c v) s) (l.foldl (fun v c => putBackTo c v) t) := by
  induction l generalizing s t with
  | nil => exact h
  | cons c l ih => exact ih (samePlan_putBackTo c h)

/-- R122: what STANDBY makes of the plan and the monitors, in the words of the statement. -/
theorem plan_of_stands {s t : State} (h : Stands s t) :
    t.plan.cursor = s.plan.cursor ∧ t.plan.passCount = s.plan.passCount ∧ t.plan.sweepEnabled = s.plan.sweepEnabled
    ∧ ∀ l, l = (List.finRange 8).filterMap (fun p => putBackOf (s.path p)) →
      t.plan = (l.foldl (fun v c => putBackTo c v) s).plan ∧ t.mons = (l.foldl (fun v c => putBackTo c v) s).mons
      ∧ (∀ c ∈ l, c ∉ t.plan.underQueue) ∧ (l = [] → t.plan = s.plan) ∧ ∀ c, l = [c] → t.plan = putBackIn c s.plan := by
  obtain ⟨plan, mons⟩ := h.plan
  obtain ⟨cursor, passes, sweep, under⟩ :=
    putBacks_parts ((List.finRange 8).filterMap (fun p => putBackOf (s.path p))) s
  rw [plan, mons]
  refine ⟨cursor, passes, sweep, fun l same => ?_⟩
  rw [← same] at under ⊢
  refine ⟨rfl, rfl, fun c mem => under c (.inr mem), fun none => ?_, fun c one => ?_⟩
  · rw [none]
    rfl
  · rw [one]
    rfl

/-- R111: the mode that STANDBY enters, with the Scan Master and the Path Arbiter told. -/
def standsIn (m : Mode) (s : State) : State := standbyEffects { s with arb := { s.arb with mode := m } }

theorem runStandby_of_idle {e : ReqEntry} {s : State} (h : ∀ p, (s.path p).state = .idle) :
    runStandby e s = reply e .done [] (standsIn .standby s) := if_pos ((allIdle_iff s).mpr h)

theorem runStandby_of_busy {e : ReqEntry} {s : State} (h : ∃ p, (s.path p).state ≠ .idle) :
    runStandby e s = { standsIn .stopping s with inExec := some ⟨e.header, false, .standby⟩ } := by
  obtain ⟨p, busy⟩ := h
  exact if_neg fun idle => busy ((allIdle_iff s).mp idle p)

/-- R111: STANDBY leaves the state of its effects in one of two modes, and writes the port or the request in execution. -/
theorem runStandby_parts (e : ReqEntry) (s : State) (idle : s.inExec = none) : ∃ m t port held,
    runStandby e s = { t with port := port, inExec := held }
    ∧ Stands { s with arb := { s.arb with mode := m } } t
    ∧ ((∀ p, (s.path p).state = .idle) → m = .standby ∧ held = none
      ∧ port = { s.port with respFifo := s.port.respFifo ++ responseWords e.header .done [] })
    ∧ ((∃ p, (s.path p).state ≠ .idle) → m = .stopping ∧ held = some ⟨e.header, false, .standby⟩ ∧ port = s.port) := by
  by_cases rest : ∀ p, (s.path p).state = .idle
  · have stands : Stands _ (standsIn .standby s) := stands_standbyEffects _
    have keeps : Keeps _ (standsIn .standby s) := keeps_standbyEffects _
    rw [runStandby_of_idle rest]
    generalize standsIn .standby s = t at stands keeps
    refine ⟨.standby, t, _, none, ?_, stands, fun _ => ⟨rfl, rfl, rfl⟩, fun ⟨p, busy⟩ => absurd (rest p) busy⟩
    obtain ⟨none, port⟩ := keeps.idle idle
    show ({ t with port := { t.port with respFifo := _ } } : State) = _
    rw [← none, port]
  · have busy : ∃ p, (s.path p).state ≠ .idle := not_forall.mp rest
    have stands : Stands _ (standsIn .stopping s) := stands_standbyEffects _
    have keeps : Keeps _ (standsIn .stopping s) := keeps_standbyEffects _
    rw [runStandby_of_busy busy]
    generalize standsIn .stopping s = t at stands keeps
    exact ⟨.stopping, t, t.port, _, rfl, stands, fun h => absurd h rest, fun _ => ⟨rfl, rfl, (keeps.idle idle).2⟩⟩

/-- Settles O14, by what STANDBY makes of the part in either of the modes it can enter. -/
theorem standbyStopsPaths : Obligations.StandbyStopsPaths := by
  intro s e taken mode
  refine ⟨_, exec_standby_of_taken taken mode, ?_⟩
  obtain ⟨m, t, port, held, run, stands, whenIdle, whenBusy⟩ := runStandby_parts e (dropHead s) taken.idle
  rw [run]
  obtain ⟨cursor, passes, sweep, plan⟩ := plan_of_stands stands
  have arb := stands.arb
  refine ⟨fun h => ?_, fun h => ?_, stands.claimed, stands.unclaimed, congrArg Arbiter.cuts arb, fun p => ⟨?_, ?_⟩,
    stands.follows.inputsFollow, stands.cars, cursor, passes, sweep, stands.svcs, stands.rank, fun l same => ?_⟩
  · obtain ⟨rfl, rfl, rfl⟩ := whenIdle h
    exact ⟨congrArg Arbiter.mode arb, rfl, rfl⟩
  · obtain ⟨rfl, rfl, rfl⟩ := whenBusy h
    exact ⟨congrArg Arbiter.mode arb, rfl, rfl⟩
  · intro used working
    show LeavesCarrier s.now (s.path p) (t.path p)
    rw [stands.left p used working]
    exact leavesCarrier_leftPath s.now (s.path p)
  · exact ⟨stands.stands p, stands.cleared p⟩
  · obtain ⟨sameAs, mons, rest⟩ := plan l same
    obtain ⟨start, startMons⟩ := samePlan_putBacks (s := s)
      (t := { dropHead s with arb := { (dropHead s).arb with mode := m } }) l ⟨rfl, rfl⟩
    exact ⟨sameAs.trans start, mons.trans startMons, rest⟩

end Sys2Proof.Machine
end

section
/-! PROOF. The run of one step, the power-on state and the port (R22, R45, R56, R75, R89, R109, R125, R143, R145, R148,
R155, R178; log 2). -/

namespace Sys2Proof.Machine

/-! ### A step -/

/-- Settles O1. -/
theorem stepRunsFrontCommand : Obligations.StepRunsFrontCommand := by
  intro s c rest pending
  unfold step
  rw [pending]

/-- Settles O2. -/
theorem stepOnEmptyQueue : Obligations.StepOnEmptyQueue := by
  intro s pending
  unfold step
  rw [pending]
  exact ⟨fun c own => by simp only [own], fun none => by
    simp only [none, tick]
    rw [pending]⟩

/-! ### The power-on state -/

theorem car_reset (c : CarrierIdx) : State.reset.car c = CarrierRec.powerOn := by
  simp [State.car, State.reset]

theorem path_reset (p : PathIdx) : State.reset.path p = PathRec.powerOn := by
  simp [State.path, State.reset]

theorem mon_reset (m : MonitorIdx) : State.reset.mon m = Monitor.powerOn := by
  simp [State.mon, State.reset]

/-- R3: no record holds a key. -/
theorem keyMap_reset (k : Key) : keyMap State.reset k = none :=
  (firstIdx_eq_none _ _).mpr fun i => by
    rw [show State.reset.svcs.recs[i] = ServiceRec.powerOn from svc_reset i]
    rfl

theorem alertPending_reset : alertPending State.reset = false := by decide +kernel

/-- Settles O5. -/
theorem resetValues : Obligations.ResetValues := by
  refine ⟨svc_reset, rfl, rfl, rfl, keyMap_reset, car_reset, rfl, inp_reset, fun p => ?path, rfl, rfl, rfl, rfl,
    claim_reset, rfl, mon_reset⟩
  case path =>
    unfold streamOn
    rw [path_reset p]
    exact ⟨rfl, rfl, rfl, rfl, rfl, rfl, rfl, rfl, rfl, rfl, rfl, rfl, rfl, rfl, rfl, rfl⟩

/-- R3: no record of the power-on state is in the key map. -/
theorem state_reset (i : ServiceIdx) : (State.reset.svc i).state = .free := congrArg ServiceRec.state (svc_reset i)

/-- Settles O60. -/
theorem invariantsAtReset : Obligations.InvariantsAtReset := by
  refine ⟨rfl, fun i => svc_reset i ▸ shaped_powerOn, fun ch => ?claim, fun i j k used => absurd (state_reset i) used,
    fun i k live => ?unsuppressed, fun i => ?counted, ⟨by decide, carryCount_reset ▸ Nat.zero_le _⟩, fun i => ?budget,
    fun i => ?epoch, ⟨Nat.zero_le _, List.nodup_nil⟩, Nat.zero_le _, List.nodup_nil, List.Pairwise.nil, fun i => ?attached,
    fun i => ?waiters, ⟨by decide, fun e mem => absurd mem List.not_mem_nil⟩, Nat.zero_le _, ⟨Nat.le_refl 1, by decide⟩⟩
  case claim =>
    rw [claim_reset]
    simp [ClaimRec.shaped, ClaimRec.free]
  case unsuppressed =>
    rw [state_reset] at live
    cases live
  case counted =>
    rw [svc_reset, claimsOn_none State.reset i (fun ch => congrArg ClaimRec.service (claim_reset ch))]
    rfl
  case budget =>
    rw [inp_reset]
    simp [historyOk, InputRec.powerOn]
  case epoch =>
    rw [svc_reset]
    exact BitVec.le_refl _
  case attached => exact inp_reset i ▸ List.Pairwise.nil
  case waiters => exact inp_reset i ▸ List.Pairwise.nil

/-! ### The select line and the data-out line -/

theorem selectFall_of_low {s : State} (h : s.port.selectLow = true) : selectFallEffect s = s := if_pos h

theorem selectFall_of_high {s : State} (h : s.port.selectLow = false) : selectFallEffect s =
    { s with port := { s.port with selectLow := true, frame := some newFrame, out := presentNext s.port } } :=
  if_neg (by simp [h])

theorem presentNext_of_empty {q : Port} (h : q.respFifo = []) : presentNext q = .filler := if_pos h

theorem presentedWord_of_filler {s : State} (h : s.port.out = .filler) : presentedWord s = some 0xFFFF := by
  unfold presentedWord
  rw [h]
  rfl

/-- R148: with no response waiting, a fall of a high select line presents the filler. -/
theorem selectFall_presents_filler {s : State} (high : s.port.selectLow = false) (empty : s.port.respFifo = []) :
    (selectFallEffect s).port.out = .filler := by
  rw [selectFall_of_high high]
  exact presentNext_of_empty empty

theorem selectRise_of_noFrame {s : State} (bits : List Bool) (h : s.port.frame = none) : selectRiseEffect bits s =
    { s with port := { s.port with selectLow := false, frame := none, out := .nothing } } := by
  unfold selectRiseEffect
  rw [h]

theorem firstWord_of_noFrame {s : State} (w : Word) (h : s.port.frame = none) : firstWordEffect w s = s := by
  unfold firstWordEffect
  rw [h]

theorem argumentWord_of_noFrame {s : State} (w : Word) (h : s.port.frame = none) : argumentWordEffect w s = s := by
  unfold argumentWordEffect
  rw [h]

/-- R150: the attention line after a power-on reset. -/
theorem attention_powerOnReset (s : State) : attention (powerOnResetEffect s) = false :=
  (Bool.false_or _).trans alertPending_reset

/-- Settles O6. -/
theorem powerOnReset : Obligations.PowerOnReset := by
  intro s
  have attention := attention_powerOnReset s
  have frame : (powerOnResetEffect s).port.frame = none := rfl
  have empty : (powerOnResetEffect s).port.respFifo = [] := rfl
  have select : (powerOnResetEffect s).port.selectLow = s.port.selectLow := rfl
  refine ⟨powerOnResetEffect s, rfl, rfl, rfl, rfl, rfl, rfl, rfl, rfl, rfl, attention, fun low => ?low,
    fun high => ?high, fun bits => ?rise, rfl⟩
  case low =>
    exact ⟨congrArg Host.Outcome.next (selectFall_of_low (select.trans low)), fun w =>
      ⟨congrArg Host.Outcome.next (firstWord_of_noFrame w frame),
        congrArg Host.Outcome.next (argumentWord_of_noFrame w frame)⟩⟩
  case high =>
    have filler := selectFall_presents_filler (select.trans high) empty
    exact ⟨_, rfl, filler, presentedWord_of_filler filler⟩
  case rise =>
    refine ⟨_, _, congrArg Host.Outcome.next (selectRise_of_noFrame bits frame), rfl, rfl, ?_⟩
    exact presentedWord_of_filler (selectFall_presents_filler rfl empty)

/-- Settles O7, by the three branches of the first word of a frame. -/
theorem firstWordSetsHandling : Obligations.FirstWordSetsHandling := by
  intro s w f frame awaiting
  have run : firstWordEffect w s = if w = absentWord then gotWord f w .idle s
      else if reqWords s < 64 then
        gotWord f w .storing { s with port := { s.port with reqFifo := s.port.reqFifo ++ [newEntry w] } }
      else dropFrame (gotWord f w .dropped s) := by
    unfold firstWordEffect
    simp only [frame, awaiting, if_true]
  refine ⟨fun filler => ?_, fun header room => ?_, fun header full => ?_⟩
  · exact congrArg Host.Outcome.next (run.trans (if_pos filler))
  · exact congrArg Host.Outcome.next (run.trans ((if_neg header).trans (if_pos room)))
  · exact congrArg Host.Outcome.next (run.trans ((if_neg header).trans (if_neg (Nat.not_lt.mpr full))))

/-- Settles O10, by what the data-out line presents. -/
theorem responsePresentation : Obligations.ResponsePresentation := by
  intro s
  refine ⟨fun high => congrArg _ (selectFall_of_high high), fun low => congrArg _ (selectFall_of_low low),
    fun head => congrArg Host.Outcome.next (if_pos head), fun other => congrArg Host.Outcome.next (if_neg other),
    presentedWord_of_filler, fun w head first => ?_⟩
  unfold presentedWord
  rw [head]
  exact first

end Sys2Proof.Machine
end

section
/-! PROOF. The requests that report records (R161, R164 to R167, R177, R184). -/

namespace Sys2Proof.Machine

/-! ### The entries they take -/

section Taken
variable {e : ReqEntry} {s : State}

/-- A request answered DONE that changes nothing else. -/
theorem answers_of_reply {c : Instr} {l : List Word} {t : State} (h : exec c s = .next t)
    (eq : t = reply e .done l (dropHead s)) : exec c s = .next (answered e .done l s) := by
  rw [h, eq, reply_dropHead]

end Taken

/-! ### CARRIER INFO and CARRIER SERVICES -/

theorem runCarrierInfo_eq {e : ReqEntry} {c : CarrierIdx} (s : State) (h : (e.arg 0).toNat = c.val) :
    runCarrierInfo e s = reply e .done (carrierWords c (s.car c)) s := by
  unfold runCarrierInfo
  simp only [toIdx_eq_some _ c h]

theorem runCarrierInfo_out {e : ReqEntry} (s : State) (h : 192 ≤ (e.arg 0).toNat) :
    runCarrierInfo e s = reply e .range [] s := by
  unfold runCarrierInfo
  simp only [toIdx_eq_none 192 _ h]

theorem runCarrierServices_out {e : ReqEntry} (s : State) (h : 192 ≤ (e.arg 0).toNat ∨ 47 < (e.arg 1).toNat) :
    runCarrierServices e s = reply e .range [] s := by
  unfold runCarrierServices
  dsimp only
  cases index : toIdx 192 (e.arg 0) with
  | none => rfl
  | some c =>
    refine if_pos (h.resolve_left fun out => ?_)
    rw [toIdx_eq_none 192 _ out] at index
    cases index

theorem runCarrierServices_eq {e : ReqEntry} {c : CarrierIdx} (s : State) (h : (e.arg 0).toNat = c.val)
    (start : (e.arg 1).toNat ≤ 47) : runCarrierServices e s = reply e .done
      ([word (s.car c).announced.length, word (e.arg 1).toNat]
        ++ announcedWords s (s.car c).announced (e.arg 1).toNat) s := by
  unfold runCarrierServices
  simp only [toIdx_eq_some _ c h]
  exact if_neg (Nat.not_lt.mpr start)

theorem word_toNat (w : Word) : word w.toNat = w := by
  simp [word]

/-- Settles O21. -/
theorem carrierReports : Obligations.CarrierReports := by
  refine ⟨fun s e taken => ⟨fun out => ?infoOut, fun c index => ?info⟩,
    fun s e taken => ⟨fun out => ?servicesOut, fun c index start => ?services⟩⟩
  case infoOut => exact refuses_of_reply_open (exec_carrierInfo_of_taken taken) (runCarrierInfo_out _ out)
  case info =>
    refine answers_of_reply (exec_carrierInfo_of_taken taken)
      ((runCarrierInfo_eq _ index).trans (congrArg (fun l => reply e .done l (dropHead s)) ?_))
    show carrierWords c (s.car c) = _
    generalize s.car c = r
    obtain ⟨_, params, _, quality, _⟩ := r
    cases params <;> cases quality <;> rfl
  case servicesOut =>
    exact refuses_of_reply_open (exec_carrierServices_of_taken taken) (runCarrierServices_out _ out)
  case services =>
    refine answers_of_reply (exec_carrierServices_of_taken taken) ((runCarrierServices_eq _ index start).trans ?_)
    rw [word_toNat]
    rfl

/-! ### LOOKUP -/

theorem packed_codes (st : SvcState) (k : Kind) : packed st.code k.code = word (st.code * 256 + k.code) := by
  cases st <;> cases k <;> rfl

/-- R165, R184: one candidate entry, its score absent with the quality vector. -/
theorem candidateWords_eq (s : State) (c : CarrierIdx) : candidateWords s c = [word c.val]
    ++ (match (s.car c).quality with
        | none => [0xFFFF, 0xFFFF]
        | some q => [word (q.score / 65536), word q.score])
    ++ [if eligible s c then 1 else 0] := by
  unfold candidateWords
  cases (s.car c).quality <;> rfl

/-- R165, R184: the candidate entries at their places in rank order. -/
theorem candidateEntries_eq (s : State) (l : List CarrierIdx) (f : Nat → List Word)
    (missing : ∀ n, (rankOrder s l)[n]? = none → f n = [0xFFFF, 0xFFFF, 0xFFFF, 0xFFFF])
    (held : ∀ n c, (rankOrder s l)[n]? = some c → f n = candidateWords s c) :
    candidateEntries s l = (List.range 4).flatMap f := by
  unfold candidateEntries
  dsimp only
  congr 1
  funext n
  cases place : (rankOrder s l)[n]? with
  | none => exact (missing n place).symm
  | some c => exact (held n c place).symm

theorem runLookup_byIndex {e : ReqEntry} {i : ServiceIdx} (s : State) (how : (e.arg 0).toNat = 0)
    (index : (e.arg 1).toNat = i.val) : runLookup e s = reply e .done (lookupWords s i) s := by
  unfold runLookup
  simp only [how, toIdx_eq_some _ i index]

theorem runLookup_byKey {e : ReqEntry} {i : ServiceIdx} {s : State} (how : (e.arg 0).toNat = 1)
    (key : keyMap s ⟨e.arg 1, e.arg 2⟩ = some i) : runLookup e s = reply e .done (lookupWords s i) s := by
  unfold runLookup
  simp only [how, key]

theorem runLookup_absent {e : ReqEntry} {s : State} (how : (e.arg 0).toNat = 1)
    (key : keyMap s ⟨e.arg 1, e.arg 2⟩ = none) : runLookup e s = reply e .absent [] s := by
  unfold runLookup
  simp only [how, key]

theorem runLookup_out {e : ReqEntry} (s : State)
    (h : 1 < (e.arg 0).toNat ∨ (e.arg 0).toNat = 0 ∧ 512 ≤ (e.arg 1).toNat) : runLookup e s = reply e .range [] s := by
  unfold runLookup
  obtain ⟨how, out⟩ | other := h.symm
  · simp only [how, toIdx_eq_none 512 _ out]
  · match how : (e.arg 0).toNat with
    | 0 => omega
    | 1 => omega
    | n + 2 => rfl

/-- Settles O23. -/
theorem lookupReportsRecord : Obligations.LookupReportsRecord := by
  refine fun s e taken => ⟨fun out => ?out, fun how unused => ?absent, fun i which => ?found⟩
  case out => exact refuses_of_reply_open (exec_lookup_of_taken taken) (runLookup_out _ out)
  case absent =>
    exact refuses_of_reply_open (exec_lookup_of_taken taken)
      (runLookup_absent how (keyMap_eq_none (dropHead s) _ unused))
  case found =>
    have run : runLookup e (dropHead s) = reply e .done (lookupWords (dropHead s) i) (dropHead s) := by
      obtain ⟨how, index⟩ | ⟨how, used, key, alone⟩ := which
      · exact runLookup_byIndex _ how index
      · exact runLookup_byKey how (keyMap_eq_some _ _ _ used key alone)
    refine answers_of_reply (exec_lookup_of_taken taken)
      (run.trans (congrArg (fun l => reply e .done l (dropHead s)) ?_))
    have order : rankOrder (dropHead s) (s.svc i).candidates = rankOrder s (s.svc i).candidates :=
      rankOrder_congr (s := s) (t := dropHead s) rfl _
    unfold lookupWords
    refine congrArg₂ (· ++ ·) ?front (candidateEntries_eq _ _ _ (fun n none => ?missing) (fun n c some => ?held))
    case front =>
      rw [show (dropHead s).svc i = s.svc i from rfl, packed_codes]
      generalize s.svc i = r
      obtain ⟨_, key, _, _, _, _, _, _, _, challenger⟩ := r
      cases key <;> cases challenger <;> rfl
    case missing =>
      rw [← order, show (s.svc i).candidates = ((dropHead s).svc i).candidates from rfl, none]
    case held =>
      rw [← order, show (s.svc i).candidates = ((dropHead s).svc i).candidates from rfl, some]
      exact (candidateWords_eq (dropHead s) c).symm

/-! ### LIST SERVICES and LIST CHANGED -/

theorem listEntryWords_eq (i : ServiceIdx) (r : ServiceRec) :
    listEntryWords i r = [word i.val, word (r.state.code * 256 + r.kind.code)] ++ keyWords r.key := by
  unfold listEntryWords
  rw [packed_codes]

/-- R166, R167: a page, over the indices of the records. -/
theorem pageWords_eq (s : State) (start : Nat) (p : ServiceRec → Bool) : pageWords s start p
    = (((List.finRange 512).filter (fun i => decide (start ≤ i.val) && p (s.svc i))).take 10).flatMap
        (fun i => [word i.val, word ((s.svc i).state.code * 256 + (s.svc i).kind.code)] ++ keyWords (s.svc i).key) := by
  unfold pageWords
  rw [indexed_eq, List.filter_map, ← List.map_take, List.flatMap_map]
  simp only [listEntryWords_eq]
  rfl

/-- R166: the states a filter can name. -/
theorem ofFilter?_eq_some {n : Nat} (low : 1 ≤ n) (high : n ≤ 5) :
    ∃ st, SvcState.ofFilter? n = some st ∧ ∀ t : SvcState, decide (t = st) = decide (t.code = n) := by
  obtain rfl | rfl | rfl | rfl | rfl : n = 1 ∨ n = 2 ∨ n = 3 ∨ n = 4 ∨ n = 5 := by omega
  all_goals exact ⟨_, rfl, fun t => by cases t <;> rfl⟩

theorem ofFilter?_eq_none {n : Nat} (h : n = 0 ∨ 5 < n) : SvcState.ofFilter? n = none := by
  obtain rfl | high := h
  · rfl
  · match n, high with
    | n + 6, _ => rfl

theorem filterMatches_none {w : Word} (h : w ≠ 0xFFFF ∧ (w.toNat = 0 ∨ 5 < w.toNat)) : filterMatches w = none := by
  obtain ⟨given, range⟩ := h
  unfold filterMatches
  rw [if_neg (show ¬ w = absentWord from given)]
  simp only [ofFilter?_eq_none range]

/-- R166: a filter in range, as the states of the statement. -/
theorem filterMatches_some {w : Word} (h : w = 0xFFFF ∨ 1 ≤ w.toNat ∧ w.toNat ≤ 5) :
    ∃ p, filterMatches w = some p
      ∧ ∀ r, p r = if w = 0xFFFF then r.state.live else decide (r.state.code = w.toNat) := by
  unfold filterMatches
  by_cases absent : w = 0xFFFF
  · exact ⟨_, if_pos absent, fun r => (if_pos absent).symm⟩
  · obtain ⟨low, high⟩ := h.resolve_left absent
    obtain ⟨st, named, agree⟩ := ofFilter?_eq_some low high
    rw [if_neg (show ¬ w = absentWord from absent)]
    simp only [named]
    exact ⟨_, rfl, fun r => (agree r.state).trans (if_neg absent).symm⟩

theorem runListServices_out {e : ReqEntry} (s : State)
    (h : 511 < (e.arg 0).toNat ∨ (e.arg 1 ≠ 0xFFFF ∧ ((e.arg 1).toNat = 0 ∨ 5 < (e.arg 1).toNat))) :
    runListServices e s = reply e .range [] s := by
  unfold runListServices
  dsimp only
  by_cases start : 511 < (e.arg 0).toNat
  · exact if_pos start
  · rw [if_neg start, filterMatches_none (h.resolve_left start)]

theorem runListServices_eq {e : ReqEntry} {p : ServiceRec → Bool} (s : State) (start : (e.arg 0).toNat ≤ 511)
    (filter : filterMatches (e.arg 1) = some p) :
    runListServices e s = reply e .done (pageWords s (e.arg 0).toNat p) s := by
  unfold runListServices
  dsimp only
  rw [if_neg (Nat.not_lt.mpr start), filter]

/-- Settles O24. -/
theorem listPages : Obligations.ListPages := by
  refine ⟨fun s e taken => ⟨fun out => ?out, fun start filter => ?page⟩,
    fun s e taken => ⟨fun out => ?changedOut, fun start => ?changed⟩⟩
  case out => exact refuses_of_reply_open (exec_listServices_of_taken taken) (runListServices_out _ out)
  case page =>
    obtain ⟨p, named, same⟩ := filterMatches_some filter
    refine answers_of_reply (exec_listServices_of_taken taken) ((runListServices_eq _ start named).trans ?_)
    rw [pageWords_eq]
    simp only [same]
    rfl
  case changedOut => exact refuses_of_reply_open (exec_listChanged_of_taken taken) (if_pos out)
  case changed =>
    refine answers_of_reply (exec_listChanged_of_taken taken) ((if_neg (Nat.not_lt.mpr start)).trans ?_)
    rw [pageWords_eq]
    rfl

/-! ### STATUS -/

/-- Settles O33. -/
theorem statusReportsPart : Obligations.StatusReportsPart := by
  intro s e taken
  rw [exec_status_of_taken taken]
  rfl

end Sys2Proof.Machine
end

section
/-! PROOF. The events of Input Control (R81, R84 to R86). -/

namespace Sys2Proof.Machine

theorem feedSettleEnd_of_settling {s : State} {i : InputIdx} {t : Nat} (h : (s.inp i).feedState = .settling t) :
    feedSettleEndEffect i s = { s.setInp i { s.inp i with feedState := .steady } with now := max s.now t } := by
  unfold feedSettleEndEffect
  rw [h]
  rfl

theorem feedSettleEnd_of_steady {s : State} {i : InputIdx} (h : (s.inp i).feedState = .steady) :
    feedSettleEndEffect i s = s := by
  unfold feedSettleEndEffect
  rw [h]

theorem tuneStart_of_waits {s : State} {i : InputIdx}
    (h : (s.inp i).waitList = [] ∨ ∃ t, (s.inp i).feedState = .settling t) : tuneStartEffect i s = s := by
  unfold tuneStartEffect
  obtain none | ⟨t, settling⟩ := h
  · simp only [none]
  · simp only [settling]
    cases (s.inp i).waitList <;> rfl

/-- R85: the tune start that the first waiter is granted. -/
theorem tuneStart_of_waiter {s : State} {i : InputIdx} {x : Waiter} {rest : List Waiter}
    (waits : (s.inp i).waitList = x :: rest) (steady : (s.inp i).feedState = .steady) : tuneStartEffect i s =
      ((reach (budgetMoment (s.inp i).history) s).setInp i
          (startedInput (s.inp i) (max s.now (budgetMoment (s.inp i).history)))).setPath x.path
        (tuningPath (s.path x.path) (pathParams s x.path) (max s.now (budgetMoment (s.inp i).history))) := by
  unfold tuneStartEffect
  simp only [waits, steady]
  rfl

/-- R83: a start of four that are held is 40 ms past. -/
theorem budgetMoment_spacing {h : List Nat} {a : Nat} (last : h.getLast? = some a) : a + 4 ≤ budgetMoment h := by
  unfold budgetMoment
  rw [last]
  exact le_max_left _ _

/-- Settles O34. -/
theorem inputEvents : Obligations.InputEvents := by
  refine fun s i => ⟨fun steady => congrArg Host.Outcome.next (feedSettleEnd_of_steady steady),
    fun t settling => congrArg Host.Outcome.next (feedSettleEnd_of_settling settling),
    fun waits => congrArg Host.Outcome.next (tuneStart_of_waits waits), fun x rest m waits steady moment => ?_⟩
  have moment : m = max s.now (budgetMoment (s.inp i).history) := moment
  refine ⟨fun a last => ?spacing, fun a b c d four => ?window, ?started⟩
  case spacing =>
    rw [moment]
    exact (budgetMoment_spacing last).trans (le_max_right _ _)
  case window =>
    rw [moment, four]
    exact (le_max_right _ _).trans (le_max_right _ _)
  case started =>
    refine ⟨_, congrArg Host.Outcome.next (tuneStart_of_waiter waits steady), moment.symm, ?_⟩
    rw [← moment]
    refine ⟨?input, fun j other => ?inputs, ?path, fun p other => ?paths, rfl, rfl, rfl, rfl, rfl, rfl, rfl, rfl, rfl⟩
    case input =>
      rw [State.inp_setPath, State.inp_setInp, if_pos rfl]
      unfold startedInput
      rw [waits]
      rfl
    case inputs =>
      rw [State.inp_setPath, State.inp_setInp, if_neg other.symm]
      rfl
    case path =>
      rw [State.path_setPath, if_pos rfl]
      rfl
    case paths =>
      rw [State.path_setPath, if_neg other.symm, State.path_setInp]
      rfl

end Sys2Proof.Machine
end

section
/-! PROOF. Rank order and evaluations (R60 to R68). -/

namespace Sys2Proof.Machine

/-! ### Rank order -/

/-- R60: carriers of one list stand strictly one before the other. -/
theorem strictly_ranked {s : State} {l : List CarrierIdx}
    (h : l.Pairwise (fun c d => score s d < score s c ∨ score s d = score s c ∧ c ≤ d)) (distinct : l.Nodup) :
    l.Pairwise (fun c d => score s d < score s c ∨ score s d = score s c ∧ c < d) :=
  (h.and distinct).imp fun ⟨order, ne⟩ => order.imp_right fun ⟨same, le⟩ => ⟨same, lt_of_le_of_ne le ne⟩

/-- Settles O46. -/
theorem rankOrderByScore : Obligations.RankOrderByScore := by
  refine fun s l => ⟨perm_rankOrder s l, (l.filter (eligible s)).foldr (insertRanked s) [], rfl, fun c mem => ?eligible,
    fun distinct => strictly_ranked (foldr_insertRanked_sorted s _) ?distinct⟩
  case eligible => exact (List.mem_filter.mp ((mem_foldr_insertRanked s c _).mp mem)).2
  case distinct => exact List.Nodup.of_append_left ((perm_rankOrder s l).nodup_iff.mpr distinct)

/-! ### Evaluations -/

theorem firstEligible_eq_some {s : State} {l : List CarrierIdx} {c : CarrierIdx} (h : RanksFirst s l c) :
    firstEligible s l = some c :=
  (find?_rankOrder s l (eligible s) fun _ h => h).2 c h.1 h.2.1 h.2.2

theorem firstEligible_eq_none {s : State} {l : List CarrierIdx} (h : ∀ d ∈ l, eligible s d = false) :
    firstEligible s l = none :=
  (find?_rankOrder s l (eligible s) fun _ h => h).1 h

/-- R65: what a masked candidate of a record is, beside the selection. -/
def Masks (s : State) (r : ServiceRec) (sel d : CarrierIdx) : Prop :=
  d ∈ r.candidates ∧ eligible s d = true ∧ d ≠ sel ∧ score s sel + s.rank.settings.beatMargin.toNat < score s d

/-- R65: the test of the search for the best masked candidate. -/
def masksTest (s : State) (sel d : CarrierIdx) : Bool :=
  eligible s d && decide (d ≠ sel) && decide (score s sel + s.rank.settings.beatMargin.toNat < score s d)

theorem masksTest_iff (s : State) (r : ServiceRec) (sel d : CarrierIdx) :
    Masks s r sel d ↔ d ∈ r.candidates ∧ masksTest s sel d = true := by
  simp only [Masks, masksTest, Bool.and_eq_true, decide_eq_true_eq, and_assoc]

theorem eligible_of_masksTest {s : State} {sel d : CarrierIdx} (h : masksTest s sel d = true) : eligible s d = true := by
  simp only [masksTest, Bool.and_eq_true] at h
  exact h.1.1

theorem bestMasked_eq_none {s : State} {r : ServiceRec} {sel : CarrierIdx} (h : ∀ d, ¬ Masks s r sel d) :
    bestMasked s r sel = none :=
  (find?_rankOrder s r.candidates (masksTest s sel) fun _ => eligible_of_masksTest).1 fun d mem =>
    Bool.eq_false_iff.mpr fun test => h d ((masksTest_iff s r sel d).mpr ⟨mem, test⟩)

theorem bestMasked_eq_some {s : State} {r : ServiceRec} {sel b : CarrierIdx} (h : Masks s r sel b)
    (first : ∀ d, Masks s r sel d → score s d < score s b ∨ score s d = score s b ∧ b ≤ d) :
    bestMasked s r sel = some b := by
  obtain ⟨mem, test⟩ := (masksTest_iff s r sel b).mp h
  exact (find?_rankOrder s r.candidates (masksTest s sel) fun _ => eligible_of_masksTest).2 b mem test fun d mem test =>
    first d ((masksTest_iff s r sel d).mpr ⟨mem, test⟩)

/-- R68: the verdict on a carrier that is not eligible. -/
theorem verdict_of_ineligible {s : State} {c : CarrierIdx} (h : eligible s c = false) : verdict s c = .degraded :=
  if_neg (by simp [h])

/-! The courses of an evaluation. -/

section Courses
variable {s : State} {burst : Bool} {r : ServiceRec} {sel c : CarrierIdx}

theorem evaluated_of_pin (pin : r.pin = some c) : evaluated s burst r
    = { r with selected := some c, challenger := none, state := verdict s c } := by
  unfold evaluated
  simp only [pin]
  simp only [keptSelection, ← pin]

theorem evaluated_of_unselected (pin : r.pin = none) (none : r.selected = none) :
    evaluated s burst r = (firstEligible s r.candidates).elim r (withSelection s r) := by
  unfold evaluated
  simp only [pin, none]
  cases firstEligible s r.candidates <;> rfl

theorem evaluated_of_ineligible (pin : r.pin = none) (selected : r.selected = some sel) (lost : eligible s sel = false) :
    evaluated s burst r
      = (firstEligible s r.candidates).elim (keptSelection s r sel none) (withSelection s r) := by
  unfold evaluated
  simp only [pin, selected, lost]
  cases firstEligible s r.candidates <;> rfl

theorem evaluated_of_eligible (pin : r.pin = none) (selected : r.selected = some sel) (ok : eligible s sel = true) :
    evaluated s burst r = if burst then trackedBurst s r sel else trackedOther s r sel := by
  unfold evaluated
  simp only [pin, selected, ok, if_true]

/-- R64: the first eligible candidate takes the selection. -/
theorem evaluated_takes (pin : r.pin = none) (lost : r.selected = none ∨ ∃ sel, r.selected = some sel
    ∧ eligible s sel = false) (first : RanksFirst s r.candidates c) :
    evaluated s burst r = { r with selected := some c, challenger := none, state := verdict s c } := by
  obtain none | ⟨sel, selected, lost⟩ := lost
  · rw [evaluated_of_unselected pin none, firstEligible_eq_some first]
    rfl
  · rw [evaluated_of_ineligible pin selected lost, firstEligible_eq_some first]
    rfl

end Courses

/-- Settles O47, by the course the evaluation takes. -/
theorem evaluationByCourse : Obligations.EvaluationByCourse := by
  intro s burst r ok mask okIs maskIs
  obtain rfl : ok = verdict s := funext okIs
  obtain rfl : mask = Masks s r := funext fun sel => funext fun d => propext (maskIs sel d)
  refine ⟨fun c pin => evaluated_of_pin pin, fun pin none => ⟨fun lost => ?lacking, fun c first => ?taken⟩,
    fun sel pin selected lost => ⟨fun others => ?degraded, fun c first => ?replaced⟩,
    fun sel pin selected eligible => ⟨fun unmasked => ?kept, fun b masks first => ⟨fun other held => ?noChallenger,
      fun k other held => ?challenged, fun n burst lead => ⟨fun enough => ?won, fun few => ?leads⟩⟩⟩⟩
  case lacking =>
    rw [evaluated_of_unselected pin none, firstEligible_eq_none lost]
    rfl
  case taken => exact evaluated_takes pin (.inl none) first
  case degraded =>
    rw [evaluated_of_ineligible pin selected lost, firstEligible_eq_none others, ← verdict_of_ineligible lost]
    rfl
  case replaced => exact evaluated_takes pin (.inr ⟨sel, selected, lost⟩) first
  case kept =>
    have best := bestMasked_eq_none unmasked
    rw [evaluated_of_eligible pin selected eligible]
    cases burst with
    | true =>
      show trackedBurst s r sel = _
      unfold trackedBurst
      rw [best]
      rfl
    | false =>
      show trackedOther s r sel = _
      unfold trackedOther
      rw [best]
      cases r.challenger <;> rfl
  case noChallenger =>
    rw [evaluated_of_eligible pin selected eligible, other]
    show trackedOther s r sel = { r with challenger := r.challenger, state := verdict s sel }
    unfold trackedOther
    rw [held]
    rfl
  case challenged =>
    rw [evaluated_of_eligible pin selected eligible, other]
    show trackedOther s r sel = _
    unfold trackedOther
    rw [held, bestMasked_eq_some masks first]
    simp only [Option.some.injEq]
    rfl
  case won =>
    rw [evaluated_of_eligible pin selected eligible, burst]
    show trackedBurst s r sel = _
    unfold trackedBurst
    rw [bestMasked_eq_some masks first]
    have lead : n = nextLead r.challenger b := lead
    exact if_pos (lead ▸ enough)
  case leads =>
    rw [evaluated_of_eligible pin selected eligible, burst]
    show trackedBurst s r sel = _
    unfold trackedBurst
    have lead : n = nextLead r.challenger b := lead
    rw [bestMasked_eq_some masks first, lead]
    exact if_neg (Nat.not_le.mpr (lead ▸ few))

end Sys2Proof.Machine
end

section
/-! PROOF. The visit queue (R70, R121 to R123). -/

namespace Sys2Proof.Machine

/-! ### What ranking reads -/

theorem eligible_of_car {s t : State} {c : CarrierIdx}
    (h : { t.car c with carrying := none } = { s.car c with carrying := none }) : eligible t c = eligible s c := by
  have state := congrArg CarrierRec.state h
  have quality := congrArg CarrierRec.quality h
  dsimp only at state quality
  unfold eligible
  rw [state, quality]

theorem score_of_car {s t : State} {c : CarrierIdx}
    (h : { t.car c with carrying := none } = { s.car c with carrying := none }) : score t c = score s c := by
  have quality := congrArg CarrierRec.quality h
  dsimp only at quality
  unfold score
  rw [quality]

theorem Steady.rankOrder {s t : State} (h : Steady s t) (l : List CarrierIdx) :
    Machine.rankOrder t l = Machine.rankOrder s l :=
  rankOrder_agree (fun c => eligible_of_car (h.cars c)) (fun c => score_of_car (h.cars c)) l

/-! ### Putting back, removals and offers -/

theorem putBack_of_mem {c : CarrierIdx} {s : State} (h : c ∈ s.plan.queue) : putBack c s = { s with plan := { s.plan with
    queue := c :: s.plan.queue.filter (fun d => decide (d ≠ c)),
    underQueue := s.plan.underQueue.filter (fun d => decide (d ≠ c)) } } := if_pos h

theorem putBack_of_room {c : CarrierIdx} {s : State} (h : c ∉ s.plan.queue) (room : s.plan.queue.length < 16) :
    putBack c s = { s with
      plan := { s.plan with
        queue := c :: s.plan.queue, underQueue := s.plan.underQueue.filter (fun d => decide (d ≠ c)) },
      arb := { s.arb with due := true } } := (if_neg h).trans (if_pos room)

theorem putBack_of_full {c z : CarrierIdx} {l : List CarrierIdx} {s : State} (h : c ∉ s.plan.queue)
    (full : 16 ≤ s.plan.queue.length) (last : s.plan.queue = l ++ [z]) :
    putBack c s = countEvent .visitQueueFull none (some z) { s with
      plan := { s.plan with queue := c :: l, underQueue := s.plan.underQueue.filter (fun d => decide (d ≠ c)) },
      arb := { s.arb with due := true } } := by
  refine ((if_neg h).trans (if_neg (Nat.not_lt.mpr full))).trans ?_
  have tail : (endUnderQueue c s).plan.queue = l ++ [z] := last
  rw [tail, List.getLast?_concat, List.dropLast_concat]
  rfl

theorem offer_of_known {c : CarrierIdx} {s : State} (h : (s.car c).carrying ≠ none ∨ c ∈ s.plan.queue) :
    offer s c = s := by
  unfold offer
  obtain carried | queued := h
  · rw [if_pos (Option.isSome_iff_ne_none.mpr carried)]
  · rw [if_pos queued, ite_self]

theorem offer_of_unknown {c : CarrierIdx} {s : State} (uncarried : (s.car c).carrying = none) (h : c ∉ s.plan.queue) :
    offer s c = if s.plan.queue.length < 16 then joinQueue c s else countEvent .visitQueueFull none (some c) s := by
  unfold offer
  rw [uncarried, if_neg h]
  rfl

/-! ### A change of a record -/

/-- R70, R71: what a change of a record tells, from the change itself. -/
theorem applyChange_eq (i : ServiceIdx) (r : ServiceRec) (s w : State)
    (h : w = if r.selected = (s.svc i).selected then commit i r s else reportSelection i (commit i r s)) :
    applyChange i r s = if (s.svc i).state ≠ .degraded ∧ r.state = .degraded then
      ((rankOrder s r.candidates).filter (fun d => decide (r.selected ≠ some d))).foldl offer w else w := by
  have told : (if (s.svc i).selected ≠ r.selected then reportSelection i (commit i r s) else commit i r s) = w := by
    rw [h]
    by_cases same : r.selected = (s.svc i).selected
    · rw [if_pos same, if_neg (fun h => h same.symm)]
    · rw [if_neg same, if_pos (Ne.symm same)]
  have steady : Steady (commit i r s) w := by
    rw [h]
    split
    · exact Steady.refl _
    · exact steady_reportSelection i _
  have order : rankOrder w r.candidates = rankOrder s r.candidates :=
    (steady.rankOrder _).trans (rankOrder_congr (commit_others i r s).2.1 _)
  unfold applyChange
  dsimp only
  rw [told]
  unfold offerOthers
  rw [order]

/-- Settles O49. -/
theorem visitQueueChanges : Obligations.VisitQueueChanges := by
  refine ⟨fun s c k => ⟨rfl, fun rest same => ⟨fun ends => ?ended, fun cut => ?back⟩⟩,
    fun s c => ⟨fun absent => if_neg absent, fun queued => if_pos queued⟩,
    fun s c => ⟨offer_of_known, fun uncarried absent => ⟨fun room => ?room, fun full => ?full⟩⟩,
    fun s i r => ⟨commit i r s, commit_parts i r s, fun k other => ?others, fun w told => ⟨fun was is => ?enters,
      fun not => ?stays⟩⟩⟩
  case ended =>
    rw [same]
    obtain rfl | rfl | rfl := ends <;> rfl
  case back =>
    have report : visitEndReport .queue c k s = putBack c s := by obtain rfl | rfl := cut <;> rfl
    rw [report, same]
    exact ⟨putBack_of_mem, putBack_of_room, fun l z absent full last => putBack_of_full absent full last⟩
  case room => exact (offer_of_unknown uncarried absent).trans (if_pos room)
  case full => exact (offer_of_unknown uncarried absent).trans (if_neg (Nat.not_lt.mpr full))
  case others => rw [svc_commit, if_neg other.symm]
  case enters => exact (applyChange_eq i r s w told).trans (if_pos ⟨was, is⟩)
  case stays =>
    refine (applyChange_eq i r s w told).trans (if_neg fun h => ?_)
    exact not.elim h.1 (fun other => other h.2)

/-! ### REFRESH -/

/-- R121: carriers joining the queue at its tail. -/
theorem joinQueues (add : List CarrierIdx) (s : State) : add.foldl (fun s c => joinQueue c s) s = { s with
    plan := { s.plan with queue := s.plan.queue ++ add }, arb := { s.arb with due := s.arb.due || !add.isEmpty } } := by
  induction add generalizing s with
  | nil =>
    rw [List.foldl_nil, List.append_nil]
    simp
  | cons c add ih =>
    rw [List.foldl_cons, ih]
    simp [joinQueue, raiseArb]

theorem refreshWith_of_room {e : ReqEntry} {l add : List CarrierIdx} {s : State} (h : refreshable s l = add)
    (clear : s.arb.due = false) (room : s.plan.queue.length + add.length ≤ 16) :
    refreshWith e l s = reply e .done [word (s.plan.queue.length + add.length)] { s with
      plan := { s.plan with queue := s.plan.queue ++ add }, arb := { s.arb with due := !add.isEmpty } } := by
  unfold refreshWith
  dsimp only
  rw [h, if_pos (show _ ≤ Config.visitQueueMax from room), joinQueues, clear, Bool.false_or, List.length_append]

theorem refreshWith_of_full {e : ReqEntry} {l add : List CarrierIdx} {s : State} (h : refreshable s l = add)
    (full : 16 < s.plan.queue.length + add.length) : refreshWith e l s = reply e .full [] s := by
  unfold refreshWith
  dsimp only
  rw [h]
  exact if_neg (Nat.not_le.mpr full)

theorem runRefresh_carrier {e : ReqEntry} {c : CarrierIdx} (s : State) (how : (e.arg 0).toNat = 0)
    (index : (e.arg 1).toNat = c.val) :
    runRefresh e s = if (s.car c).state = .free then reply e .absent [] s else refreshWith e [c] s := by
  unfold runRefresh
  simp only [how, toIdx_eq_some _ c index]

theorem runRefresh_service {e : ReqEntry} {i : ServiceIdx} (s : State) (how : (e.arg 0).toNat = 1)
    (index : (e.arg 1).toNat = i.val) : runRefresh e s = if (s.svc i).state = .free then reply e .absent [] s
      else refreshWith e (rankOrder s (s.svc i).candidates) s := by
  unfold runRefresh
  simp only [how, toIdx_eq_some _ i index]

theorem runRefresh_out {e : ReqEntry} (s : State) (h : 1 < (e.arg 0).toNat
    ∨ (e.arg 0).toNat = 0 ∧ 192 ≤ (e.arg 1).toNat ∨ (e.arg 0).toNat = 1 ∧ 512 ≤ (e.arg 1).toNat) :
    runRefresh e s = reply e .range [] s := by
  unfold runRefresh
  obtain other | ⟨how, out⟩ | ⟨how, out⟩ := h
  · match how : (e.arg 0).toNat with
    | 0 => omega
    | 1 => omega
    | n + 2 => rfl
  · simp only [how, toIdx_eq_none 192 _ out]
  · simp only [how, toIdx_eq_none 512 _ out]

/-- R121, R170: the REFRESH of the statement, by what it names. -/
theorem runRefresh_adds {e : ReqEntry} {s : State} {add : List CarrierIdx}
    (h : (∃ c : CarrierIdx, (e.arg 0).toNat = 0 ∧ (e.arg 1).toNat = c.val ∧ (s.car c).state ≠ .free
          ∧ add = if (s.car c).carrying = none ∧ c ∉ s.plan.queue then [c] else [])
        ∨ (∃ i : ServiceIdx, (e.arg 0).toNat = 1 ∧ (e.arg 1).toNat = i.val ∧ (s.svc i).state ≠ .free
          ∧ add = (rankOrder s (s.svc i).candidates).filter (fun c =>
              (s.car c).carrying.isNone && decide (c ∉ s.plan.queue)))) :
    ∃ l, refreshable s l = add ∧ runRefresh e s = refreshWith e l s := by
  obtain ⟨c, how, index, used, rfl⟩ | ⟨i, how, index, used, rfl⟩ := h
  · refine ⟨[c], ?_, (runRefresh_carrier s how index).trans (if_neg used)⟩
    simp only [refreshable, List.filter_cons, List.filter_nil, Option.isNone_iff_eq_none, Bool.and_eq_true,
      decide_eq_true_eq]
  · exact ⟨_, rfl, (runRefresh_service s how index).trans (if_neg used)⟩

/-- Settles O28. -/
theorem refreshJoinsVisitQueue : Obligations.RefreshJoinsVisitQueue := by
  refine fun s e taken => ⟨fun out => ?out, fun c how index free => ?freeCarrier, fun i how index free => ?freeService,
    fun add named => ?adds⟩
  case out => exact refuses_of_reply taken.clear (exec_refresh_of_taken taken) (runRefresh_out _ out)
  case freeCarrier =>
    exact refuses_of_reply taken.clear (exec_refresh_of_taken taken)
      ((runRefresh_carrier _ how index).trans (if_pos free))
  case freeService =>
    exact refuses_of_reply taken.clear (exec_refresh_of_taken taken)
      ((runRefresh_service _ how index).trans (if_pos free))
  case adds =>
    have order : ∀ l, rankOrder s l = rankOrder (dropHead s) l := fun l =>
      (rankOrder_congr (s := s) (t := dropHead s) rfl l).symm
    simp only [order] at named
    obtain ⟨l, same, run⟩ := runRefresh_adds (s := dropHead s) named
    refine ⟨fun full => ?_, fun room => ?_⟩
    · exact refuses_of_reply taken.clear (exec_refresh_of_taken taken) (run.trans (refreshWith_of_full same full))
    · rw [exec_refresh_of_taken taken, run, refreshWith_of_room same taken.clear room]
      rfl

end Sys2Proof.Machine
end

section
/-! PROOF. The frame of an arbitration (R115, R124; log 12). -/

namespace Sys2Proof.Machine

/-- R110: outside ACTIVE nothing is arbitrated. -/
theorem closeStep_of_notActive {s : State} (h : s.arb.mode ≠ .active) :
    closeStep s = if s.arb.due then pruneCuts { s with arb := { s.arb with due := false } } else s := by
  unfold closeStep
  rw [show arbitrate 64 s = { s with arb := { s.arb with due := false } } from if_neg fun active => h active.2]

/-- Settles O53. -/
theorem arbitrationFrame : Obligations.ArbitrationFrame := by
  intro s
  have settled := settled_closeStep s
  have keeps := keeps_closeStep s
  refine ⟨closeStep_of_not_due s, due_closeStep s, fun mode => ?standing, settled.svc, settled.cars, keeps.inputs,
    settled.rank, keeps.reserve, keeps.now, keeps.suppressed, keeps.sweep, fun idle => (keeps.idle idle).symm,
    fun v served => ?arbitration⟩
  case standing =>
    rw [closeStep_of_notActive mode]
    split <;> exact ⟨rfl, rfl, rfl, rfl, rfl⟩
  case arbitration =>
    have once : arbitrateOnce s = pruneCuts (if v.arb.due then v else scanGrants 8 v) := by
      unfold arbitrateOnce serveClaims
      rw [← served]
    exact ⟨fun due => once.trans (congrArg pruneCuts (if_pos due)),
      fun clear => once.trans (congrArg pruneCuts (if_neg (by simp [clear])))⟩

end Sys2Proof.Machine
end

section
/-! SUPPORT. What a request that changes one service record leaves: the record with its stamps, the frame, and the
answer. -/

namespace Sys2Proof.Machine

/-- What follows a change of a record within `applyChange` keeps what every operation keeps. -/
theorem keeps_afterCommit (i : ServiceIdx) (r : ServiceRec) (s : State) : Keeps (commit i r s) (applyChange i r s) := by
  rw [applyChange_eq i r s _ rfl]
  have told : Keeps (commit i r s)
      (if r.selected = (s.svc i).selected then commit i r s else reportSelection i (commit i r s)) := by
    split
    · exact Keeps.refl _
    · exact keeps_reportSelection i _
  split
  · exact told.trans (Keeps.foldl _ keeps_offer _ _)
  · exact told

theorem port_commit (i : ServiceIdx) (r : ServiceRec) (s : State) : (commit i r s).port = s.port := by
  rw [commit_parts]

theorem inExec_commit (i : ServiceIdx) (r : ServiceRec) (s : State) : (commit i r s).inExec = s.inExec := by
  rw [commit_parts]

theorem claims_commit (i : ServiceIdx) (r : ServiceRec) (s : State) : (commit i r s).claims = s.claims := by
  rw [commit_parts]

/-- A change of a record outside a request in execution writes no response. -/
theorem idle_applyChange (i : ServiceIdx) (r : ServiceRec) {s : State} (idle : s.inExec = none) :
    (applyChange i r s).inExec = none ∧ (applyChange i r s).port = s.port := by
  obtain ⟨none, port⟩ := (keeps_afterCommit i r s).idle ((inExec_commit i r s).trans idle)
  exact ⟨none, port.trans (port_commit i r s)⟩

theorem onlyRecord_applyChange (i : ServiceIdx) (r : ServiceRec) (s : State) : OnlyRecord i s (applyChange i r s) := by
  refine ⟨fun j other => ?_, rank_applyChange i r s, (releases_applyChange i r s).now, fun c => ?_⟩
  · rw [svc_applyChange, if_neg other.symm]
  · have car : (commit i r s).car c = s.car c := car_congr (commit_others i r s).2.1 c
    rw [(steady_applyChange i r s).cars c, car]

theorem svc_applyChange_same (i : ServiceIdx) (r : ServiceRec) (s : State) :
    (applyChange i r s).svc i = stamped s i r := by
  rw [svc_applyChange, if_pos rfl]

/-! ### The stamps (R6, R7) -/

theorem stamped_of_noticed {s : State} {i : ServiceIdx} {r : ServiceRec} (h : noticed (s.svc i) r = true) :
    stamped s i r = { r with generation := (s.svc i).generation + 1, changeEpoch := nextEpoch s.svcs.epoch } := if_pos h

theorem noticed_of_state {r r' : ServiceRec} (h : r.state ≠ r'.state) : noticed r r' = true := by
  simp [noticed, h]

theorem noticed_of_pin {r r' : ServiceRec} (h : r.pin ≠ r'.pin) : noticed r r' = true := by
  simp [noticed, h]

/-- R168, R169: the answer DONE to a request that has changed one record. -/
theorem answers_changed (e : ReqEntry) (i : ServiceIdx) (r : ServiceRec) (results : List Word) {s : State}
    (idle : s.inExec = none) :
    OnlyRecord i s (reply e .done results (applyChange i r (dropHead s)))
    ∧ (reply e .done results (applyChange i r (dropHead s))).svc i = stamped s i r
    ∧ (reply e .done results (applyChange i r (dropHead s))).port = answeredPort e .done results s
    ∧ (reply e .done results (applyChange i r (dropHead s))).inExec = none := by
  have only := onlyRecord_applyChange i r (dropHead s)
  have record := svc_applyChange_same i r (dropHead s)
  obtain ⟨none, port⟩ := idle_applyChange i r (s := dropHead s) idle
  generalize applyChange i r (dropHead s) = t at only record none port
  exact ⟨only, record, by rw [port_reply, port]; rfl, none⟩

/-- R168, R169: the request changes one record, as one that the host notices, and answers with its new generation. -/
theorem changes_of_run {c : Instr} {e : ReqEntry} {i : ServiceIdx} {r : ServiceRec} {s t : State} {l : List Word}
    (idle : s.inExec = none) (run : exec c s = .next (closeStep t)) (eq : t = reply e .done
      (l ++ [((applyChange i r (dropHead s)).svc i).generation]) (applyChange i r (dropHead s)))
    (notice : noticed (s.svc i) r = true) :
    exec c s = .next (closeStep t) ∧ OnlyRecord i s t
    ∧ t.svc i = { r with generation := (s.svc i).generation + 1, changeEpoch := nextEpoch s.svcs.epoch }
    ∧ t.port = answeredPort e .done (l ++ [(s.svc i).generation + 1]) s ∧ t.inExec = none := by
  have stamps := stamped_of_noticed (s := s) notice
  have generation : ((applyChange i r (dropHead s)).svc i).generation = (s.svc i).generation + 1 :=
    congrArg ServiceRec.generation ((svc_applyChange_same i r (dropHead s)).trans stamps)
  rw [generation] at eq
  obtain ⟨only, record, port, none⟩ := answers_changed e i r (l ++ [(s.svc i).generation + 1]) idle
  rw [← eq] at only record port none
  exact ⟨run, only, record.trans stamps, port, none⟩

end Sys2Proof.Machine
end

section
/-! PROOF. ENROL and UNSUPPRESS (R13, R14, R19, R168). -/

namespace Sys2Proof.Machine

section Enrol
variable {e : ReqEntry} {s : State} {k : Key}

theorem runEnrol_suppressed (key : k = ⟨e.arg 0, e.arg 1⟩) (h : k ∈ s.svcs.suppressed) :
    runEnrol e s = reply e .conflict [] s := by
  unfold runEnrol keyOf
  rw [← key]
  exact if_pos h

theorem runEnrol_live {i : ServiceIdx} (key : k = ⟨e.arg 0, e.arg 1⟩) (h : k ∉ s.svcs.suppressed)
    (live : liveRecord s k = some i) : runEnrol e s = reply e .done [word i.val, (s.svc i).generation] s := by
  unfold runEnrol keyOf
  rw [← key]
  simp only [if_neg h, live]

theorem runEnrol_allocates {i : ServiceIdx} {r : ServiceRec} (key : k = ⟨e.arg 0, e.arg 1⟩) (h : k ∉ s.svcs.suppressed)
    (none : liveRecord s k = none) (slot : allocation s k = some (i, r)) : runEnrol e s =
      reply e .done ([word i.val] ++ [((applyChange i r s).svc i).generation]) (applyChange i r s) := by
  unfold runEnrol keyOf
  rw [← key]
  simp only [if_neg h, none, slot]
  rfl

theorem runEnrol_full (key : k = ⟨e.arg 0, e.arg 1⟩) (h : k ∉ s.svcs.suppressed) (none : liveRecord s k = none)
    (full : allocation s k = Option.none) : runEnrol e s = reply e .full [] s := by
  unfold runEnrol keyOf
  rw [← key]
  simp only [if_neg h, none, full]

end Enrol

/-- R19: an UNSUPPRESS of a key. -/
theorem runUnsuppress_eq {e : ReqEntry} {s : State} {k : Key} (key : k = ⟨e.arg 0, e.arg 1⟩) : runUnsuppress e s
    = if k ∈ s.svcs.suppressed then
        reply e .done [] { s with svcs := { s.svcs with suppressed := without k s.svcs.suppressed } }
      else reply e .absent [] s := by
  subst key
  rfl

/-- Settles O22. -/
theorem enrolAndUnsuppress : Obligations.EnrolAndUnsuppress := by
  refine ⟨fun s e k taken key => ⟨fun absent => ?absent, fun held => ?unsuppressed⟩, fun s e k taken key =>
    ⟨fun held => ?conflict, fun open' => ⟨fun i live holds alone => ?live, fun i tomb holds alone => ?revived,
      fun unused => ⟨fun i slot => ?taken, fun full => ?full⟩⟩⟩⟩
  case absent =>
    exact refuses_of_reply_open (exec_unsuppress_of_taken taken) ((runUnsuppress_eq key).trans (if_neg absent))
  case unsuppressed =>
    refine (exec_unsuppress_of_taken taken).trans (congrArg Host.Outcome.next ?_)
    exact (runUnsuppress_eq key).trans (if_pos held)
  all_goals have run := exec_enrol_of_taken taken
  case conflict => exact refuses_of_reply taken.clear run (runEnrol_suppressed key held)
  case live =>
    have found := liveRecord_eq_some (dropHead s) k i live holds alone
    have eq : runEnrol e (dropHead s) = answered e .done [word i.val, (s.svc i).generation] s :=
      (runEnrol_live (s := dropHead s) key open' found).trans (reply_dropHead e _ _ s)
    exact exec_eq_of_clear run eq taken.clear
  case revived =>
    have none := liveRecord_of_tombstone (dropHead s) k i tomb holds alone
    have slot := allocation_revives (dropHead s) k i tomb holds alone
    have notice : noticed (s.svc i) ((s.svc i).allocated k (s.svc i).kind (s.svc i).name) = true :=
      noticed_of_state (ne_of_eq_of_ne tomb SvcState.noConfusion)
    exact ⟨_, changes_of_run taken.idle run (runEnrol_allocates (s := dropHead s) key open' none slot) notice⟩
  case taken =>
    have none := liveRecord_eq_none (dropHead s) k unused
    have given := allocation_takes (dropHead s) k i unused slot
    have notice : noticed (s.svc i) ((s.svc i).allocated k .unknown Option.none) = true := by
      refine noticed_of_state ?_
      obtain ⟨free, _⟩ | ⟨_, tomb, _⟩ := slot
      · exact ne_of_eq_of_ne free SvcState.noConfusion
      · exact ne_of_eq_of_ne tomb SvcState.noConfusion
    exact ⟨_, changes_of_run taken.idle run (runEnrol_allocates (s := dropHead s) key open' none given) notice⟩
  case full =>
    exact refuses_of_reply taken.clear run
      (runEnrol_full (s := dropHead s) key open' (liveRecord_eq_none (dropHead s) k unused) (allocation_full (dropHead s) k full))

end Sys2Proof.Machine
end

section
/-! PROOF. PIN and UNPIN (R72, R73, R169). -/

namespace Sys2Proof.Machine

/-! ### PIN -/

section Pin
variable {e : ReqEntry} {i : ServiceIdx} {c : CarrierIdx}

theorem runPin_out (s : State) (h : 512 ≤ (e.arg 0).toNat ∨ 192 ≤ (e.arg 1).toNat) :
    runPin e s = reply e .range [] s := by
  unfold runPin
  obtain out | out := h
  · rw [toIdx_eq_none 512 _ out]
  · rw [toIdx_eq_none 192 _ out]
    cases toIdx 512 (e.arg 0) <;> rfl

/-- R169: the checks of a PIN in their order, then its change. -/
theorem runPin_eq (s : State) (service : (e.arg 0).toNat = i.val) (carrier : (e.arg 1).toNat = c.val) : runPin e s
    = if (s.svc i).state = .free then reply e .absent [] s
      else if (s.svc i).generation ≠ e.arg 2 then reply e .stale [] s
      else if c ∉ (s.svc i).candidates then reply e .absent [] s
      else if eligible s c = false then reply e .conflict [] s
      else if (s.svc i).pin = some c then reply e .done [(s.svc i).generation] s
      else reply e .done [((applyChange i (pinned s (s.svc i) c) s).svc i).generation]
        (applyChange i (pinned s (s.svc i) c) s) := by
  unfold runPin
  simp only [toIdx_eq_some _ i service, toIdx_eq_some _ c carrier]
  congr 4
  split <;> rfl

end Pin

theorem claims_offers (l : List CarrierIdx) (s : State) : (l.foldl offer s).claims = s.claims := by
  induction l generalizing s with
  | nil => rfl
  | cons c l ih => exact (ih (offer s c)).trans (plannerOnly_offer s c).claims

/-- R71: a change that keeps the selection is not told to the claims. -/
theorem claims_applyChange_sameSelection {i : ServiceIdx} {r : ServiceRec} {s : State}
    (h : r.selected = (s.svc i).selected) : (applyChange i r s).claims = s.claims := by
  rw [applyChange_eq i r s _ (if_pos h).symm]
  split
  · exact (claims_offers _ _).trans (claims_commit i r s)
  · exact claims_commit i r s

/-- R68: the verdict on an eligible carrier. -/
theorem verdict_of_eligible {s : State} {c : CarrierIdx} (h : eligible s c = true) :
    verdict s c = if s.rank.settings.floor ≤ score s c then .listed else .degraded := by
  unfold verdict
  simp only [h, true_and]

/-- Settles O25, by the checks in their order. -/
theorem pinChecksAndRecord : Obligations.PinChecksAndRecord := by
  intro s e taken
  have run := exec_pin_of_taken taken
  refine ⟨fun out => refuses_of_reply taken.clear run (runPin_out _ out), fun i c service carrier => ?_⟩
  have eq := runPin_eq (dropHead s) service carrier
  refine ⟨fun free => refuses_of_reply taken.clear run (eq.trans (if_pos free)), fun used stale =>
    refuses_of_reply taken.clear run (eq.trans ((if_neg used).trans (if_pos stale))), fun used fresh => ?_⟩
  have eq := eq.trans ((if_neg used).trans (if_neg (not_not.mpr fresh)))
  refine ⟨fun absent => refuses_of_reply taken.clear run (eq.trans (if_pos absent)), fun mem => ?_⟩
  have eq := eq.trans (if_neg (not_not.mpr mem))
  refine ⟨fun lost => refuses_of_reply taken.clear run (eq.trans (if_pos lost)), fun ok same => ?already,
    fun ok other => ?pins⟩
  all_goals
    have eligible : ¬ eligible (dropHead s) c = false := fun lost => Bool.false_ne_true (lost.symm.trans ok)
    have eq := eq.trans (if_neg eligible)
  case already =>
    exact exec_eq_of_clear run ((eq.trans (if_pos same)).trans (reply_dropHead e _ _ s)) taken.clear
  case pins =>
    have eq := eq.trans (if_neg other)
    have notice : noticed (s.svc i) (pinned (dropHead s) (s.svc i) c) = true := noticed_of_pin other
    obtain ⟨run, only, record, port, none⟩ := changes_of_run (l := []) taken.idle run eq notice
    refine ⟨_, run, only, record.trans ?_, fun same => ?_, port, none⟩
    · rw [← verdict_of_eligible ok]
      rfl
    · rw [eq]
      exact claims_applyChange_sameSelection (s := dropHead s) same.symm

/-! ### UNPIN -/

section Unpin
variable {e : ReqEntry} {i : ServiceIdx}

theorem runUnpin_out (s : State) (h : 512 ≤ (e.arg 0).toNat) : runUnpin e s = reply e .range [] s := by
  unfold runUnpin
  rw [toIdx_eq_none 512 _ h]

theorem runUnpin_eq (s : State) (service : (e.arg 0).toNat = i.val) : runUnpin e s
    = if (s.svc i).state = .free then reply e .absent [] s
      else if (s.svc i).pin = none then reply e .done [(s.svc i).generation] s
      else reply e .done
        [((applyChange i (evaluated s false { s.svc i with pin := none }) s).svc i).generation]
        (applyChange i (evaluated s false { s.svc i with pin := none }) s) := by
  unfold runUnpin
  simp only [toIdx_eq_some _ i service]
  congr 1
  split <;> rfl

end Unpin

/-- R66: an evaluation that no burst caused leaves a record as it is, up to the verdict, where no challenger is held. -/
theorem evaluated_keeps {s : State} {r : ServiceRec} {c : CarrierIdx} (pin : r.pin = none) (selected : r.selected = some c)
    (ok : eligible s c = true) (challenger : r.challenger = none) :
    evaluated s false r = { r with state := verdict s c } := by
  rw [evaluated_of_eligible pin selected ok]
  show trackedOther s r c = { r with challenger := r.challenger, state := verdict s c }
  unfold trackedOther
  rw [challenger]
  rfl

/-- R62 to R66: an evaluation leaves the pin. -/
theorem pin_evaluated (s : State) (burst : Bool) (r : ServiceRec) : (evaluated s burst r).pin = r.pin := by
  unfold evaluated
  split
  next pin => rfl
  next pin =>
    split
    · split <;> rfl
    · split
      · split
        · unfold trackedBurst
          split
          · rfl
          · dsimp only
            split <;> rfl
        · rfl
      · split <;> rfl

/-- Settles O26, by the course of the evaluation. -/
theorem unpinClearsAndEvaluates : Obligations.UnpinClearsAndEvaluates := by
  intro s e taken
  have run := exec_unpin_of_taken taken
  refine ⟨fun out => refuses_of_reply taken.clear run (runUnpin_out _ out), fun i service => ?_⟩
  have eq := runUnpin_eq (dropHead s) service
  refine ⟨fun free => refuses_of_reply taken.clear run (eq.trans (if_pos free)), fun used => ⟨fun none => ?unpinned,
    fun c pin selected => ?unpins⟩⟩
  all_goals have eq := eq.trans (if_neg used)
  case unpinned =>
    exact exec_eq_of_clear run ((eq.trans (if_pos none)).trans (reply_dropHead e _ _ s)) taken.clear
  case unpins =>
    have held : (s.svc i).pin ≠ none := fun none => Option.some_ne_none c (pin.symm.trans none)
    have eq := eq.trans (if_neg held)
    generalize same : evaluated (dropHead s) false { (dropHead s).svc i with pin := none } = r at eq
    have unpinned : r.pin = none := same ▸ pin_evaluated _ _ _
    obtain ⟨run, only, record, port, none⟩ :=
      changes_of_run (l := []) taken.idle run eq (noticed_of_pin (unpinned ▸ held))
    refine ⟨_, run, only, fun ok challenger => record.trans ?_, fun lost d first => record.trans ?_,
      fun lost others => record.trans ?_, port, none⟩
    · have course : r = { s.svc i with pin := Option.none, state := verdict s c } := same.symm.trans
        (evaluated_keeps (s := dropHead s) (r := { s.svc i with pin := Option.none }) rfl selected ok challenger)
      rw [course, ← verdict_of_eligible ok]
    · have first' : firstEligible (dropHead s) (s.svc i).candidates = some d :=
        (firstEligible_congr (s := s) (t := dropHead s) rfl _).trans first
      have course := evaluated_of_ineligible (s := dropHead s) (burst := false)
        (r := { s.svc i with pin := Option.none }) rfl selected lost
      rw [first'] at course
      rw [same.symm.trans course, ← verdict_of_eligible (firstEligible_mem s _ d first).2]
      rfl
    · have others : firstEligible (dropHead s) (s.svc i).candidates = Option.none :=
        (firstEligible_congr (s := s) (t := dropHead s) rfl _).trans others
      have course := evaluated_of_ineligible (s := dropHead s) (burst := false)
        (r := { s.svc i with pin := Option.none }) rfl selected lost
      rw [others] at course
      rw [same.symm.trans course, ← verdict_of_ineligible lost]
      rfl

end Sys2Proof.Machine
end

section
/-! PROOF. RETIRE (R16 to R18, R169). -/

namespace Sys2Proof.Machine

/-! ### The announced lists (R16, R41) -/

theorem car_unannounce (i : ServiceIdx) (s : State) (c d : CarrierIdx) : (unannounce i s c).car d
    = if c = d then { s.car c with announced := without i (s.car c).announced } else s.car d := State.car_modCar s c d _

/-- Only carriers change as a service leaves announced lists. -/
theorem unannounces_parts (i : ServiceIdx) (l : List CarrierIdx) (s : State) :
    l.foldl (unannounce i) s = { s with carriers := (l.foldl (unannounce i) s).carriers } := by
  induction l generalizing s with
  | nil => rfl
  | cons c l ih => exact ih (unannounce i s c)

theorem announced_unannounces_kept {i : ServiceIdx} {c : CarrierIdx} (l : List CarrierIdx) {s : State}
    (h : i ∉ (s.car c).announced) : i ∉ ((l.foldl (unannounce i) s).car c).announced := by
  induction l generalizing s with
  | nil => exact h
  | cons d l ih =>
    refine ih ?_
    rw [car_unannounce]
    split
    next same =>
      subst same
      exact fun mem => h (List.mem_filter.mp mem).1
    next => exact h

/-- R16: the service leaves the announced list of each of the carriers. -/
theorem announced_unannounces {i : ServiceIdx} {c : CarrierIdx} (l : List CarrierIdx) (mem : c ∈ l) (s : State) :
    i ∉ ((l.foldl (unannounce i) s).car c).announced := by
  induction l generalizing s with
  | nil => cases mem
  | cons d l ih =>
    by_cases here : c = d
    · subst here
      refine announced_unannounces_kept l ?_
      rw [car_unannounce, if_pos rfl]
      exact fun mem => of_decide_eq_true (List.mem_filter.mp mem).2 rfl
    · exact ih ((List.mem_cons.mp mem).resolve_left here) _

/-! ### The record retired -/

/-- R16, R17: what a retirement makes of the part. -/
structure Retires (i : ServiceIdx) (s t : State) : Prop where
  record : t.svc i = { s.svc i with
    state := .retired, candidates := [], selected := none, pin := none, challenger := none, orphanAge := 0,
    generation := (s.svc i).generation + 1, changeEpoch := nextEpoch s.svcs.epoch }
  others : ∀ j, j ≠ i → t.svc j = s.svc j
  rank : t.rank = s.rank
  suppressed : t.svcs.suppressed = s.svcs.suppressed
  announced : ∀ c ∈ (s.svc i).candidates, i ∉ (t.car c).announced
  idle : s.inExec = none → t.inExec = none ∧ t.port = s.port

theorem suppressed_applyChange (i : ServiceIdx) (r : ServiceRec) (s : State) :
    (applyChange i r s).svcs.suppressed = s.svcs.suppressed :=
  (congrArg ServiceTable.suppressed (steady_applyChange i r s).svcs).trans (commit_others i r s).2.2.2

theorem retires_retireRecord {i : ServiceIdx} {s : State} (live : (s.svc i).state.live = true) :
    Retires i s (retireRecord i s) := by
  unfold retireRecord
  dsimp only
  have parts := unannounces_parts i (s.svc i).candidates s
  have gone := fun c mem => announced_unannounces (i := i) (c := c) (s.svc i).candidates mem s
  generalize (s.svc i).candidates.foldl (unannounce i) s = v at parts gone
  have svc : ∀ j, v.svc j = s.svc j := fun j => by rw [parts]; rfl
  have notice : noticed (v.svc i) (tombstone (s.svc i)) = true := by
    refine noticed_of_state fun same => ?_
    rw [svc i] at same
    rw [same] at live
    cases live
  obtain ⟨others, rank, _, cars⟩ := onlyRecord_applyChange i (tombstone (s.svc i)) v
  exact {
    record := by
      rw [svc_applyChange_same, stamped_of_noticed notice, svc, parts]
      rfl
    others := fun j other => (others j other).trans (svc j)
    rank := rank.trans (by rw [parts])
    suppressed := (suppressed_applyChange i _ v).trans (by rw [parts])
    announced := fun c mem => by
      have same := congrArg CarrierRec.announced (cars c)
      dsimp only at same
      rw [same]
      exact gone c mem
    idle := fun idle => by
      obtain ⟨none, port⟩ := idle_applyChange i (tombstone (s.svc i)) (s := v) (by rw [parts]; exact idle)
      exact ⟨none, port.trans (by rw [parts])⟩ }

/-! ### The request -/

section Retire
variable {e : ReqEntry} {i : ServiceIdx}

theorem runRetire_out (s : State) (h : 512 ≤ (e.arg 0).toNat ∨ 1 < (e.arg 2).toNat) :
    runRetire e s = reply e .range [] s := by
  unfold runRetire
  dsimp only
  cases index : toIdx 512 (e.arg 0) with
  | none => rfl
  | some i =>
    refine if_pos (h.resolve_left fun out => ?_)
    rw [toIdx_eq_none 512 _ out] at index
    cases index

/-- R169: the checks of a RETIRE in their order, then its effects. -/
theorem runRetire_eq (s : State) (service : (e.arg 0).toNat = i.val) (flag : (e.arg 2).toNat ≤ 1) : runRetire e s
    = if (s.svc i).state = .free then reply e .absent [] s
      else if (s.svc i).generation ≠ e.arg 1 then reply e .stale [] s
      else if 0 < (s.svc i).claimCount then reply e .inUse [] s
      else if (e.arg 2).toNat = 1 ∧ suppressionFull s (s.svc i) then reply e .full [] s
      else reply e .done [((retireEffects i (decide ((e.arg 2).toNat = 1)) s).svc i).generation]
        (retireEffects i (decide ((e.arg 2).toNat = 1)) s) := by
  unfold runRetire
  simp only [toIdx_eq_some _ i service, if_neg (Nat.not_lt.mpr flag)]

end Retire

theorem suppressionFull_iff {s : State} {r : ServiceRec} {k : Key} (key : r.key = some k) :
    suppressionFull s r = true ↔ k ∉ s.svcs.suppressed ∧ 64 ≤ s.svcs.suppressed.length := by
  unfold suppressionFull
  simp only [key, Bool.and_eq_true, decide_eq_true_eq, Config.suppressionMax]

/-- R18: the suppression list once a key has been added where asked. -/
theorem suppress_parts (k : Key) (s : State) : suppress k s = { s with svcs := { s.svcs with
    suppressed := if k ∉ s.svcs.suppressed then s.svcs.suppressed ++ [k] else s.svcs.suppressed } } := by
  unfold suppress
  by_cases mem : k ∈ s.svcs.suppressed
  · rw [if_pos mem, if_neg (not_not.mpr mem)]
  · rw [if_neg mem, if_pos mem]

theorem retireEffects_eq {i : ServiceIdx} {s : State} {k : Key} (b : Bool) (key : (s.svc i).key = some k) :
    retireEffects i b s = if b then suppress k (if (s.svc i).state.live then retireRecord i s else s)
      else if (s.svc i).state.live then retireRecord i s else s := by
  unfold retireEffects
  dsimp only
  rw [key]
  cases b <;> rfl

/-- What follows the retirement of the record touches the suppression list alone. -/
theorem retireEffects_parts {i : ServiceIdx} {s : State} {k : Key} (b : Bool) (key : (s.svc i).key = some k) (t : State)
    (retired : t = if (s.svc i).state.live then retireRecord i s else s)
    (same : t.svcs.suppressed = s.svcs.suppressed) : retireEffects i b s = { t with svcs := { t.svcs with
      suppressed := if b = true ∧ k ∉ s.svcs.suppressed then s.svcs.suppressed ++ [k] else s.svcs.suppressed } } := by
  rw [retireEffects_eq b key, ← retired]
  cases b with
  | true =>
    rw [if_pos rfl, suppress_parts, same]
    simp only [true_and]
  | false =>
    simp only [Bool.false_eq_true, false_and, if_false]
    rw [← same]

theorem live_or_retired {st : SvcState} (h : st ≠ .free) : st.live = true ∨ st = .retired := by
  cases st with
  | free => exact absurd rfl h
  | retired => exact .inr rfl
  | provisional | listed | degraded | orphaned => exact .inl rfl

/-- Settles O27, by the checks in their order and by whether the record is live. -/
theorem retireLeavesTombstone : Obligations.RetireLeavesTombstone := by
  intro s e taken
  have run := exec_retire_of_taken taken
  refine ⟨fun out => refuses_of_reply taken.clear run (runRetire_out _ out), fun i service flag => ?_⟩
  have eq := runRetire_eq (dropHead s) service flag
  refine ⟨fun free => refuses_of_reply taken.clear run (eq.trans (if_pos free)), fun used stale =>
    refuses_of_reply taken.clear run (eq.trans ((if_neg used).trans (if_pos stale))), fun used fresh => ?_⟩
  have eq := eq.trans ((if_neg used).trans (if_neg (not_not.mpr fresh)))
  refine ⟨fun claimed => refuses_of_reply taken.clear run (eq.trans (if_pos claimed)), fun k unclaimed key => ?_⟩
  have eq := eq.trans (if_neg (by rw [show ((dropHead s).svc i).claimCount = 0 from unclaimed]; decide))
  have full := suppressionFull_iff (s := dropHead s) key
  refine ⟨fun asked absent long =>
    refuses_of_reply taken.clear run (eq.trans (if_pos ⟨asked, full.mpr ⟨absent, long⟩⟩)), fun fits => ?_⟩
  have eq := eq.trans (if_neg fun ⟨asked, lacks⟩ => by
    obtain ⟨absent, long⟩ := full.mp lacks
    have absent : k ∉ s.svcs.suppressed := absent
    have long : 64 ≤ s.svcs.suppressed.length := long
    simp only [absent, false_or] at fits
    omega)
  refine ⟨_, run, ?_⟩
  rw [eq]
  obtain live | tomb := live_or_retired used
  · have retires := retires_retireRecord (i := i) (s := dropHead s) live
    obtain ⟨none, port⟩ := retires.idle taken.idle
    rw [retireEffects_parts (s := dropHead s) _ key (retireRecord i (dropHead s)) (if_pos live).symm retires.suppressed]
    generalize retireRecord i (dropHead s) = t at retires none port
    refine ⟨none, retires.others, retires.rank, ?_, fun tomb => ?_, fun _ => ⟨retires.record, retires.announced, ?_⟩⟩
    · simp only [decide_eq_true_eq]
      rfl
    · rw [show ((s.svc i).state) = .retired from tomb] at live
      cases live
    · have generation : (t.svc i).generation = (s.svc i).generation + 1 :=
        congrArg ServiceRec.generation retires.record
      show ({ t.port with
        respFifo := t.port.respFifo ++ responseWords e.header .done [(t.svc i).generation] } : Port) = _
      rw [port, generation]
      rfl
  · have dead : ¬ ((dropHead s).svc i).state.live = true := by
      rw [show ((dropHead s).svc i).state = .retired from tomb]
      decide
    rw [retireEffects_parts (s := dropHead s) _ key (dropHead s) (if_neg dead).symm rfl]
    refine ⟨taken.idle, fun _ _ => rfl, rfl, ?_, fun _ => ⟨rfl, ?_⟩, fun live => absurd live dead⟩
    · simp only [decide_eq_true_eq]
      rfl
    · rfl

end Sys2Proof.Machine
end

section
/-! PROOF. DEFINE INPUT and DEFINE CARRIER (R23, R42, R77, R78, R164). -/

namespace Sys2Proof.Machine

/-! ### DEFINE INPUT -/

theorem ofNat?_code (k : InputKind) : InputKind.ofNat? k.code = some k := by cases k <;> rfl

theorem ofNat?_eq_none {n : Nat} (h : 4 ≤ n) : InputKind.ofNat? n = none := by
  match n, h with
  | n + 4, _ => rfl

theorem runDefineInput_out {e : ReqEntry} (s : State) (h : 6 ≤ (e.arg 0).toNat ∨ 4 ≤ (e.arg 1).toNat) :
    runDefineInput e s = reply e .range [] s := by
  unfold runDefineInput
  obtain out | out := h
  · rw [toIdx_eq_none 6 _ out]
  · rw [ofNat?_eq_none out]
    cases toIdx 6 (e.arg 0) <;> rfl

theorem runDefineInput_eq {e : ReqEntry} {i : InputIdx} {k : InputKind} (s : State) (input : (e.arg 0).toNat = i.val)
    (kind : (e.arg 1).toNat = k.code) : runDefineInput e s
    = if (s.inp i).kind ≠ k ∧ 0 < (s.inp i).carrierCount then reply e .inUse [] s
      else reply e .done (inputWords i { s.inp i with kind := k }) (s.setInp i { s.inp i with kind := k }) := by
  unfold runDefineInput
  simp only [toIdx_eq_some _ i input, kind, ofNat?_code, State.inp_modInp, if_true]
  rfl

/-! ### DEFINE CARRIER -/

/-- R23, R42: the ranges, in the words of the statement. -/
theorem paramsInRange_iff (k : InputKind) (q : CarrierParams) : paramsInRange k q = true ↔ InRange k q := by
  cases k <;> simp [paramsInRange, InRange, Option.isSome_iff_ne_none, Option.isNone_iff_eq_none] <;> tauto

theorem alreadyDefined_iff (s : State) (q : CarrierParams) : alreadyDefined s q = true
    ↔ ∃ d x, (s.car d).state ≠ .free ∧ (s.car d).params = some x ∧ x.input = q.input ∧ x.feed = q.feed
      ∧ x.frequency = q.frequency := by
  unfold alreadyDefined
  rw [any_toList]
  refine exists_congr fun d => ?_
  rw [show s.carriers[d] = s.car d from rfl]
  cases (s.car d).params <;> simp [and_assoc]

/-- The first index that meets a test. -/
theorem find?_finRange_eq_some {n : Nat} (p : Fin n → Bool) (i : Fin n) :
    (List.finRange n).find? p = some i ↔ p i = true ∧ ∀ j, j < i → p j = false := by
  have first := firstIdx_eq_some (Vector.ofFn (id : Fin n → Fin n)) p i
  rw [firstIdx_eq] at first
  simpa using first

/-- R42: a slot that may take a carrier. -/
def OpenSlot (s : State) (c : CarrierIdx) : Prop := (s.car c).state = .free ∧ ∀ p, (s.path p).carrier ≠ some c

theorem openSlot_eq (s : State) : openSlot s = (List.finRange 192).find? (fun c => decide ((s.car c).state = .free)
    && s.paths.toList.all (fun r => decide (r.carrier ≠ some c))) := by
  unfold openSlot
  rw [idxWhere_eq, List.find?_filter]
  simp only [Bool.decide_and, Bool.decide_eq_true]
  rfl

theorem openSlot_test (s : State) (c : CarrierIdx) : (decide ((s.car c).state = .free)
    && s.paths.toList.all (fun r => decide (r.carrier ≠ some c))) = true ↔ OpenSlot s c := by
  rw [Bool.and_eq_true, all_toList]
  simp only [decide_eq_true_eq]
  rfl

theorem openSlot_eq_none {s : State} (h : ∀ d, (s.car d).state = .free → ∃ p, (s.path p).carrier = some d) :
    openSlot s = none := by
  rw [openSlot_eq]
  refine List.find?_eq_none.mpr fun c _ test => ?_
  obtain ⟨free, unnamed⟩ := (openSlot_test s c).mp test
  obtain ⟨p, named⟩ := h c free
  exact unnamed p named

theorem openSlot_eq_some {s : State} {c : CarrierIdx} (free : (s.car c).state = .free)
    (unnamed : ∀ p, (s.path p).carrier ≠ some c)
    (first : ∀ d, d < c → (s.car d).state = .free → ∃ p, (s.path p).carrier = some d) : openSlot s = some c := by
  rw [openSlot_eq, find?_finRange_eq_some]
  refine ⟨(openSlot_test s c).mpr ⟨free, unnamed⟩, fun d before => Bool.eq_false_iff.mpr fun test => ?_⟩
  obtain ⟨free, unnamed⟩ := (openSlot_test s d).mp test
  obtain ⟨p, named⟩ := first d before free
  exact unnamed p named

section DefineCarrier
variable {e : ReqEntry} {i : InputIdx}

theorem runDefineCarrier_out (s : State) (h : 6 ≤ (e.arg 0).toNat) : runDefineCarrier e s = reply e .range [] s := by
  unfold runDefineCarrier
  rw [toIdx_eq_none 6 _ h]

/-- R42: the checks of a DEFINE CARRIER in their order. -/
theorem runDefineCarrier_eq (s : State) (input : (e.arg 0).toNat = i.val) : runDefineCarrier e s
    = if paramsInRange (s.inp i).kind (paramsOf e i) then
        if alreadyDefined s (paramsOf e i) then reply e .conflict [] s
        else (openSlot s).elim (reply e .full [] s) (fun c => raiseArb (reply e .done [word c.val]
          ((s.setCar c (newCarrier (paramsOf e i))).modInp i
            (fun r => { r with carrierCount := r.carrierCount + 1 }))))
      else reply e .range [] s := by
  unfold runDefineCarrier
  simp only [toIdx_eq_some _ i input]
  cases openSlot s <;> rfl

end DefineCarrier

/-- Settles O19, by the checks of either request in their order. -/
theorem defineInputAndCarrier : Obligations.DefineInputAndCarrier := by
  refine ⟨fun s e taken mode => ⟨fun out => ?inputOut, fun i k input kind => ⟨fun other used => ?inputUsed,
    fun free => ?input⟩⟩, fun s e taken => ⟨fun out => ?out, fun i q input params => ⟨fun outside => ?outside,
      fun inside => ⟨fun ⟨d, x, same⟩ => ?conflict, fun new => ⟨fun none => ?full, fun c free unnamed first => ?carrier⟩⟩⟩⟩⟩
  case inputOut =>
    exact refuses_of_reply_open (exec_defineInput_of_taken taken mode) (runDefineInput_out _ out)
  case inputUsed =>
    exact refuses_of_reply_open (exec_defineInput_of_taken taken mode)
      ((runDefineInput_eq _ input kind).trans (if_pos ⟨other, used⟩))
  case input =>
    have usable : ¬ (((dropHead s).inp i).kind ≠ k ∧ 0 < ((dropHead s).inp i).carrierCount) := fun ⟨other, used⟩ =>
      free.elim other (fun zero => Nat.lt_irrefl 0 (zero ▸ used))
    rw [exec_defineInput_of_taken taken mode, runDefineInput_eq _ input kind, if_neg usable]
    rfl
  all_goals have run := exec_defineCarrier_of_taken taken
  case out => exact refuses_of_reply taken.clear run (runDefineCarrier_out _ out)
  all_goals
    have eq := runDefineCarrier_eq (dropHead s) input
    rw [show paramsOf e i = q from params.symm] at eq
  case outside =>
    exact refuses_of_reply taken.clear run (eq.trans (if_neg (mt (paramsInRange_iff _ q).mp outside)))
  all_goals have eq := eq.trans (if_pos ((paramsInRange_iff _ q).mpr inside))
  case conflict =>
    exact refuses_of_reply taken.clear run
      (eq.trans (if_pos ((alreadyDefined_iff (dropHead s) q).mpr ⟨d, x, same⟩)))
  all_goals have eq := eq.trans (if_neg fun defined => by
    obtain ⟨d, x, used, params, same⟩ := (alreadyDefined_iff (dropHead s) q).mp defined
    exact new d x used params same)
  case full =>
    rw [openSlot_eq_none (s := dropHead s) none] at eq
    exact refuses_of_reply taken.clear run eq
  case carrier =>
    rw [openSlot_eq_some (s := dropHead s) free unnamed first] at eq
    refine ⟨_, run, ?_⟩
    rw [eq]
    have defined := fun j => State.inp_modInp ((dropHead s).setCar c (newCarrier q)) i j
      (fun r => { r with carrierCount := r.carrierCount + 1 })
    refine ⟨?car, fun d other => ?cars, ?inp, fun j other => ?inps, rfl, taken.idle, rfl, rfl, rfl, rfl, rfl, rfl, rfl⟩
    case car => exact (State.car_setCar _ c c _).trans (if_pos rfl)
    case cars => exact (State.car_setCar _ c d _).trans (if_neg other.symm)
    case inp => exact (defined i).trans (if_pos rfl)
    case inps => exact (defined j).trans (if_neg other.symm)

end Sys2Proof.Machine
end

section
/-! SUPPORT. The carrying paths let go as claims give up their carriers (R29, R102, R103, R127, R139): what one release
does, and how releases follow one another. -/

namespace Sys2Proof.Machine

/-- R127: from `s` to `t` carrying paths of carriers with the property `U` have been let go, and no other path or
carrier has changed. -/
structure LetGo (U : CarrierIdx → Prop) (s t : State) : Prop where
  releases : Releases s t
  cars : ∀ x, t.car x = s.car x ∨ t.car x = { s.car x with carrying := none }
  left : ∀ q, t.path q ≠ s.path q →
    ∃ x, U x ∧ (s.car x).carrying = some q ∧ (s.path q).carrier = some x ∧ (t.car x).carrying = none
  cleared : ∀ x q, (s.car x).carrying = some q → (t.car x).carrying ≠ some q →
    (s.path q).carrier = some x ∧ t.path q = leftPath s.now (s.path q)
  plan : t.plan = s.plan
  svcs : t.svcs = s.svcs
  rank : t.rank = s.rank
  mode : t.arb.mode = s.arb.mode
  cuts : t.arb.cuts = s.arb.cuts
  port : t.port = s.port
  inExec : t.inExec = s.inExec

/-- What leaves the paths and the carriers alone lets nothing go. -/
theorem letGo_of_parts {U : CarrierIdx → Prop} {s t : State} (paths : t.paths = s.paths) (inputs : t.inputs = s.inputs)
    (carriers : t.carriers = s.carriers) (now : t.now = s.now) (plan : t.plan = s.plan) (svcs : t.svcs = s.svcs)
    (rank : t.rank = s.rank) (mode : t.arb.mode = s.arb.mode) (cuts : t.arb.cuts = s.arb.cuts) (port : t.port = s.port)
    (inExec : t.inExec = s.inExec) : LetGo U s t where
  releases := releases_of_paths now paths inputs
  cars x := .inl (car_congr carriers x)
  left q changed := absurd (by unfold State.path; rw [paths]) changed
  cleared x q held gone := absurd ((congrArg CarrierRec.carrying (car_congr carriers x)).trans held) gone
  plan := plan
  svcs := svcs
  rank := rank
  mode := mode
  cuts := cuts
  port := port
  inExec := inExec

theorem LetGo.refl (U : CarrierIdx → Prop) (s : State) : LetGo U s s :=
  letGo_of_parts rfl rfl rfl rfl rfl rfl rfl rfl rfl rfl rfl

theorem ClaimsOnly.cuts {s t : State} (h : ClaimsOnly s t) : t.arb.cuts = s.arb.cuts := by
  have same := congrArg Arbiter.cuts h.arb
  exact same

theorem ClaimsOnly.letGo {U : CarrierIdx → Prop} {s t : State} (h : ClaimsOnly s t) : LetGo U s t :=
  letGo_of_parts h.paths h.inputs h.carriers h.now h.plan h.svcs h.rank h.mode h.cuts h.port h.inExec

theorem LetGo.mono {U V : CarrierIdx → Prop} {s t : State} (h : LetGo U s t) (le : ∀ x, U x → V x) : LetGo V s t where
  releases := h.releases
  cars := h.cars
  left q changed := by
    obtain ⟨x, may, rest⟩ := h.left q changed
    exact ⟨x, le x may, rest⟩
  cleared := h.cleared
  plan := h.plan
  svcs := h.svcs
  rank := h.rank
  mode := h.mode
  cuts := h.cuts
  port := h.port
  inExec := h.inExec

theorem LetGo.carrying {U : CarrierIdx → Prop} {s t : State} (h : LetGo U s t) {x : CarrierIdx} {q : PathIdx}
    (held : (t.car x).carrying = some q) : (s.car x).carrying = some q ∧ t.car x = s.car x := by
  obtain same | cleared := h.cars x
  · exact ⟨same ▸ held, same⟩
  · rw [cleared] at held
    cases held

/-- A carrier without a carrying path is given none. -/
theorem LetGo.uncarried {U : CarrierIdx → Prop} {s t : State} (h : LetGo U s t) {x : CarrierIdx}
    (free : (s.car x).carrying = none) : (t.car x).carrying = none := by
  obtain same | cleared := h.cars x
  · rw [same, free]
  · rw [cleared]

/-- A path that is not at work stays. -/
theorem LetGo.path_of_idle {U : CarrierIdx → Prop} {s t : State} (h : LetGo U s t) {q : PathIdx}
    (idle : (s.path q).state.working = false) : t.path q = s.path q := by
  obtain same | ⟨_, working, _⟩ := h.releases.path q
  · exact same
  · exact absurd (idle.symm.trans working) Bool.false_ne_true

theorem LetGo.trans {U : CarrierIdx → Prop} {s t u : State} (a : LetGo U s t) (b : LetGo U t u) : LetGo U s u where
  releases := a.releases.trans b.releases
  cars x := by
    obtain same | cleared := b.cars x
    · rw [same]
      exact a.cars x
    · rw [cleared]
      obtain same | cleared := a.cars x
      · exact .inr (by rw [same])
      · exact .inr (by rw [cleared])
  left q changed := by
    by_cases first : t.path q = s.path q
    · obtain ⟨x, may, held, names, gone⟩ := b.left q (fun same => changed (same.trans first))
      exact ⟨x, may, (a.carrying held).1, first ▸ names, gone⟩
    · obtain ⟨x, may, held, names, gone⟩ := a.left q first
      exact ⟨x, may, held, names, b.uncarried gone⟩
  cleared x q held gone := by
    by_cases kept : (t.car x).carrying = some q
    · obtain ⟨names, left⟩ := b.cleared x q kept gone
      by_cases first : t.path q = s.path q
      · rw [first] at names left
        exact ⟨names, left.trans (by rw [a.releases.now])⟩
      · obtain ⟨y, _, _, named, none⟩ := a.left q first
        have carrier : (t.path q).carrier = (s.path q).carrier := by
          obtain same | ⟨_, _, leaves⟩ := a.releases.path q
          · rw [same]
          · rw [leaves, (leftPath_fields _ _).2.1]
        have same : x = y := Option.some.inj (names.symm.trans (carrier.trans named))
        subst same
        exact absurd (none.symm.trans kept) (Option.some_ne_none q).symm
    · obtain ⟨names, left⟩ := a.cleared x q held kept
      have idle : (t.path q).state.working = false := left ▸ leftPath_idle _ _
      exact ⟨names, (b.path_of_idle idle).trans left⟩
  plan := b.plan.trans a.plan
  svcs := b.svcs.trans a.svcs
  rank := b.rank.trans a.rank
  mode := b.mode.trans a.mode
  cuts := b.cuts.trans a.cuts
  port := b.port.trans a.port
  inExec := b.inExec.trans a.inExec

/-- R29, R102, R103: the carrying path of a carrier that worked on it has left, and the carrier has none. -/
def Gone (s t : State) (x : CarrierIdx) : Prop :=
  ∀ q, (s.car x).carrying = some q → (s.path q).use = some .carry → (s.path q).state.working = true →
    (s.path q).carrier = some x → t.path q = leftPath s.now (s.path q) ∧ (t.car x).carrying = none

theorem Gone.letsGo {s t : State} {x : CarrierIdx} (h : Gone s t x) : LetsGo s t x := fun q held use working names => by
  obtain ⟨left, none⟩ := h q held use working names
  exact ⟨left ▸ leavesCarrier_leftPath _ _, none⟩

theorem Gone.before {U : CarrierIdx → Prop} {s t u : State} {x : CarrierIdx} (a : Gone s t x) (b : LetGo U t u) :
    Gone s u x := fun q held use working names => by
  obtain ⟨left, none⟩ := a q held use working names
  have idle : (t.path q).state.working = false := left ▸ leftPath_idle _ _
  exact ⟨(b.path_of_idle idle).trans left, b.uncarried none⟩

theorem Gone.after {U : CarrierIdx → Prop} {s t u : State} {x : CarrierIdx} (a : LetGo U s t) (b : Gone t u x)
    (rest : LetGo U t u) : Gone s u x := fun q held use working names => by
  by_cases kept : (t.car x).carrying = some q
  · have same : t.path q = s.path q := by
      by_contra changed
      obtain ⟨y, _, _, named, none⟩ := a.left q changed
      have same : x = y := Option.some.inj (names.symm.trans named)
      subst same
      exact Option.some_ne_none q (kept.symm.trans none)
    obtain ⟨left, none⟩ := b q kept (same ▸ use) (same ▸ working) (same ▸ names)
    rw [same, a.releases.now] at left
    exact ⟨left, none⟩
  · obtain ⟨_, left⟩ := a.cleared x q held kept
    have idle : (t.path q).state.working = false := left ▸ leftPath_idle _ _
    refine ⟨(rest.path_of_idle idle).trans left, rest.uncarried ?_⟩
    obtain same | cleared := a.cars x
    · exact absurd ((congrArg CarrierRec.carrying same).trans held) kept
    · rw [cleared]

/-- Only paths of carriers no longer needed have changed. -/
theorem LetGo.stays {s t : State} (h : LetGo (Unneeded t) s t) (q : PathIdx)
    (carried : ∀ x, (s.car x).carrying = some q → ¬ Unneeded t x) : t.path q = s.path q := by
  by_contra changed
  obtain ⟨x, unneeded, held, _⟩ := h.left q changed
  exact carried x held unneeded

/-! ### One release -/

theorem needed_eq_false (s : State) (x : CarrierIdx) : needed s x = false ↔ Unneeded s x := by
  rw [← Bool.not_eq_true, needed_eq_true]
  exact ⟨fun h ch => ⟨fun held => h ⟨ch, .inl held⟩, fun held => h ⟨ch, .inr held⟩⟩,
    fun h ⟨ch, held⟩ => held.elim (h ch).1 (h ch).2⟩

theorem unneeded_congr {s t : State} (h : t.claims = s.claims) (x : CarrierIdx) : Unneeded t x ↔ Unneeded s x := by
  unfold Unneeded
  simp only [claim_congr h]

/-- R102, R103: the release of the carrying path that works on a carrier. -/
theorem letGo_releaseCarry {c : CarrierIdx} {p : PathIdx} {s : State} (held : (s.car c).carrying = some p)
    (names : (s.path p).carrier = some c) : LetGo (· = c) s (releaseCarry p s) := by
  by_cases works : (s.path p).use = some .carry ∧ (s.path p).state.working = true
  · have run := releaseCarry_working p c s works.1 works.2 names
    have ends := pathEnds_releaseCarry p s
    have leaving := leavingOnly_leaveCarrier p (clearCarrying c s)
    rw [← run] at leaving
    have path := (path_releaseCarry p s).trans (if_pos works)
    have car : ∀ d, (releaseCarry p s).car d = if c = d then { s.car c with carrying := none } else s.car d := fun d => by
      rw [run, car_congr (carriers_leaveCarrier p _), car_clearCarrying]
    exact {
      releases := ⟨ends.now, follows_releaseCarry p s, fun q => by
        by_cases same : q = p
        · subst same
          exact .inr ⟨works.1, works.2, path⟩
        · exact .inl (ends.paths q same)⟩
      cars := fun d => by
        rw [car]
        split
        next same => exact .inr (same ▸ rfl)
        next => exact .inl rfl
      left := fun q changed => by
        have same : q = p := by
          by_contra other
          exact changed (ends.paths q other)
        subst same
        exact ⟨c, rfl, held, names, by rw [car, if_pos rfl]⟩
      cleared := fun d q held' gone => by
        rw [car] at gone
        split at gone
        next same =>
          subst same
          obtain rfl : p = q := Option.some.inj (held.symm.trans held')
          exact ⟨names, path⟩
        next => exact absurd held' gone
      plan := leaving.plan
      svcs := leaving.svcs
      rank := leaving.rank
      mode := leaving.mode
      cuts := leaving.cuts
      port := leaving.port
      inExec := leaving.inExec }
  · rw [releaseCarry_not_working p s works]
    exact LetGo.refl _ s

theorem letGo_releaseUnneeded (c : CarrierIdx) (s : State) :
    LetGo (fun x => Unneeded s x ∧ x = c) s (releaseUnneeded c s) := by
  obtain same | ⟨p, unneeded, held, names, release⟩ := releaseUnneeded_cases c s
  · rw [same]
    exact LetGo.refl _ s
  · rw [release]
    exact (letGo_releaseCarry held names).mono fun x same => ⟨same ▸ (needed_eq_false s c).mp unneeded, same⟩

theorem letGo_releaseUnneeded? (o : Option CarrierIdx) (s : State) :
    LetGo (fun x => Unneeded s x ∧ o = some x) s (releaseUnneeded? o s) := by
  cases o with
  | none => exact LetGo.refl _ s
  | some c => exact (letGo_releaseUnneeded c s).mono fun x ⟨unneeded, same⟩ => ⟨unneeded, same ▸ rfl⟩

theorem claims_releaseUnneeded? (o : Option CarrierIdx) (s : State) : (releaseUnneeded? o s).claims = s.claims := by
  cases o with
  | none => rfl
  | some c => exact claims_releaseUnneeded c s

theorem mons_releaseCarry (p : PathIdx) (s : State) : (releaseCarry p s).mons = s.mons := (plan_releaseCarry p s).2

theorem mons_releaseUnneeded (c : CarrierIdx) (s : State) : (releaseUnneeded c s).mons = s.mons := by
  obtain same | ⟨p, _, _, _, release⟩ := releaseUnneeded_cases c s
  · rw [same]
  · rw [release, mons_releaseCarry]

theorem mons_releaseUnneeded? (o : Option CarrierIdx) (s : State) : (releaseUnneeded? o s).mons = s.mons := by
  cases o with
  | none => rfl
  | some c => exact mons_releaseUnneeded c s

/-- R127: a carrier that no claim holds loses the carrying path that works on it. -/
theorem gone_releaseUnneeded {c : CarrierIdx} {s : State} (h : Unneeded s c) : Gone s (releaseUnneeded c s) c :=
  fun q held use working names => by
  have release : releaseUnneeded c s = releaseCarry q s := by
    unfold releaseUnneeded
    simp only [held, (needed_eq_false s c).mpr h, names, ne_eq, not_true_eq_false, decide_false, Bool.or_self,
      Bool.false_eq_true, if_false]
  rw [release]
  refine ⟨(path_releaseCarry q s).trans (if_pos ⟨use, working⟩), ?_⟩
  rw [car_releaseCarry_eq, if_pos ⟨use, working, names⟩]

theorem gone_releaseUnneeded? {x : CarrierIdx} {o : Option CarrierIdx} {s : State} (h : Unneeded s x) (is : o = some x) :
    Gone s (releaseUnneeded? o s) x := by
  subst is
  exact gone_releaseUnneeded h

/-! ### A change of claims, then the releases it brings -/

/-- R127: what a change of claims followed by two releases lets go. -/
theorem letGo_releases (a b : Option CarrierIdx) {s u : State} (told : LetGo (Unneeded u) s u) :
    LetGo (Unneeded u) s (releaseUnneeded? b (releaseUnneeded? a u))
    ∧ ∀ x, a = some x ∨ b = some x → Unneeded u x → Gone s (releaseUnneeded? b (releaseUnneeded? a u)) x := by
  have same := claims_releaseUnneeded? a u
  have first : LetGo (Unneeded u) u (releaseUnneeded? a u) := (letGo_releaseUnneeded? a u).mono fun _ h => h.1
  have second : LetGo (Unneeded u) (releaseUnneeded? a u) (releaseUnneeded? b (releaseUnneeded? a u)) :=
    (letGo_releaseUnneeded? b _).mono fun x h => (unneeded_congr same x).mp h.1
  refine ⟨told.trans (first.trans second), fun x is unneeded => Gone.after told ?_ (first.trans second)⟩
  obtain is | is := is
  · exact (gone_releaseUnneeded? unneeded is).before second
  · exact Gone.after first (gone_releaseUnneeded? ((unneeded_congr same x).mpr unneeded) is) second

end Sys2Proof.Machine
end

section
/-! PROOF. CLAIM and RELEASE CLAIM (R20, R129, R139, R173). -/

namespace Sys2Proof.Machine

/-! ### The changed-claims set (R141) -/

theorem mem_insertIdx_self {n : Nat} (x : Fin n) (l : List (Fin n)) : x ∈ insertIdx x l := by
  induction l with
  | nil => exact List.mem_singleton.mpr rfl
  | cons y l ih =>
    unfold insertIdx
    split
    next same => exact same ▸ List.mem_cons_self
    next =>
      split
      · exact List.mem_cons_self
      · exact List.mem_cons_of_mem y ih

theorem changed_setClaim {ch : ChannelIdx} {c : ClaimRec} {s : State} (h : s.claim ch ≠ c) :
    ch ∈ (setClaim ch c s).claims.changed := by
  unfold setClaim
  rw [if_neg h]
  exact mem_insertIdx_self ch _

theorem changed_changeClaim {ch : ChannelIdx} {c : ClaimRec} {s : State} (h : s.claim ch ≠ c) :
    ch ∈ (changeClaim ch c s).claims.changed := by
  unfold changeClaim
  dsimp only
  split
  · exact changed_setClaim h
  · exact changed_setClaim h

/-! ### CLAIM -/

theorem joinState_ne_free (r : PathRec) : joinState r ≠ .free := by
  unfold joinState
  cases r.state with
  | awaitTune | tuning =>
    dsimp only
    split <;> exact ClaimState.noConfusion
  | idle | engaged | dwell | recovery => exact ClaimState.noConfusion

theorem state_examined (s : State) (i : ServiceIdx) : (examined s i).state ≠ .free := by
  unfold examined
  split
  · exact ClaimState.noConfusion
  · split
    · exact ClaimState.noConfusion
    · split
      · split
        · exact joinState_ne_free _
        · exact ClaimState.noConfusion
      · exact ClaimState.noConfusion

section Claim
variable {e : ReqEntry} {ch : ChannelIdx} {i : ServiceIdx}

theorem runClaim_out (s : State) (h : 32 ≤ (e.arg 0).toNat ∨ 512 ≤ (e.arg 1).toNat) :
    runClaim e s = reply e .range [] s := by
  unfold runClaim
  obtain out | out := h
  · rw [toIdx_eq_none 32 _ out]
  · rw [toIdx_eq_none 512 _ out]
    cases toIdx 32 (e.arg 0) <;> rfl

theorem runClaim_eq (s : State) (channel : (e.arg 0).toNat = ch.val) (service : (e.arg 1).toNat = i.val) : runClaim e s
    = if (s.claim ch).state ≠ .free then reply e .inUse [] s
      else if (s.svc i).state.live = false then reply e .absent [] s
      else reply e .done [word ((claimEffects ch i s).claim ch).state.code,
        natWord (((claimEffects ch i s).claim ch).reason.map Reason.code)] (claimEffects ch i s) := by
  unfold runClaim
  simp only [toIdx_eq_some _ ch channel, toIdx_eq_some _ i service]

end Claim

/-- R20, R129: the claim count is of no account to an examination. -/
theorem examined_setClaimCount (i j : ServiceIdx) (n : Nat) (s : State) :
    examined (setClaimCount j n s) i = examined s i := by
  have selected : ((setClaimCount j n s).svc i).selected = (s.svc i).selected := by
    unfold setClaimCount
    rw [State.svc_setSvc]
    split
    next same => rw [same]
    next => rfl
  unfold examined
  rw [selected]
  rfl

/-- R20, R129: what CLAIM makes of the part, in one change. -/
structure Claims (ch : ChannelIdx) (i : ServiceIdx) (s t : State) : Prop where
  only : ClaimsOnly (setClaimCount i ((s.svc i).claimCount + 1) s) t
  claim : ∀ d, t.claim d = if ch = d then examined s i else s.claim d
  mons : t.mons = s.mons
  changed : (s.claim ch).state = .free → ch ∈ t.claims.changed

theorem claims_claimEffects (ch : ChannelIdx) (i : ServiceIdx) (s : State) : Claims ch i s (claimEffects ch i s) where
  only := claimsOnly_examine ch i _
  claim d := by
    rw [claimEffects, claim_examine, examined_setClaimCount]
    rfl
  mons := mons_changeClaim ch _ _
  changed free := changed_changeClaim fun same => by
    have state := congrArg ClaimRec.state same
    rw [examined_setClaimCount] at state
    exact state_examined s i (state.symm.trans free)

/-- Settles O29, by the checks in their order; the claim is what an examination makes of it. -/
theorem claimChecksAndClaim : Obligations.ClaimChecksAndClaim := by
  intro s e taken
  have run := exec_claim_of_taken taken
  refine ⟨fun out => refuses_of_reply taken.clear run (runClaim_out _ out), fun ch i channel service => ?_⟩
  have eq := runClaim_eq (dropHead s) channel service
  refine ⟨fun used => refuses_of_reply taken.clear run (eq.trans (if_pos used)), fun free => ⟨fun dead =>
    refuses_of_reply taken.clear run (eq.trans ((if_neg (not_not.mpr free)).trans (if_pos dead))), fun live => ?_⟩⟩
  have notDead : ¬ ((dropHead s).svc i).state.live = false := fun dead => Bool.false_ne_true (dead.symm.trans live)
  have eq := eq.trans ((if_neg (not_not.mpr free)).trans (if_neg notDead))
  have told := claims_claimEffects ch i (dropHead s)
  generalize claimEffects ch i (dropHead s) = t at eq told
  have svc := fun j => (told.only.svc j).trans (State.svc_setSvc (dropHead s) i j _)
  have result : (reply e .done [word (t.claim ch).state.code, natWord ((t.claim ch).reason.map Reason.code)] t).claim ch
      = examined s i := (told.claim ch).trans (if_pos rfl)
  refine ⟨_, run, ?_⟩
  rw [eq]
  refine ⟨told.only.inExec.trans taken.idle, (svc i).trans (if_pos rfl), fun j other => (svc j).trans (if_neg other.symm),
    fun d other => (told.claim d).trans (if_neg other.symm), told.changed free, told.only.carriers, told.only.paths,
    told.only.inputs, told.only.plan, told.only.rank, told.mons, ?port, ?examined⟩
  case port =>
    rw [port_reply, told.only.port]
    rfl
  case examined =>
    rw [result]
    exact examined_examined s i

/-! ### RELEASE CLAIM -/

theorem runReleaseClaim_out {e : ReqEntry} (s : State) (h : 32 ≤ (e.arg 0).toNat) :
    runReleaseClaim e s = reply e .range [] s := by
  unfold runReleaseClaim
  rw [toIdx_eq_none 32 _ h]

theorem runReleaseClaim_eq {e : ReqEntry} {ch : ChannelIdx} (s : State) (channel : (e.arg 0).toNat = ch.val) :
    runReleaseClaim e s = reply e .done [] (releaseEffects ch s) := by
  unfold runReleaseClaim
  rw [toIdx_eq_some _ ch channel]

theorem releaseEffects_of_free {ch : ChannelIdx} {s : State} (h : (s.claim ch).service = none) :
    releaseEffects ch s = s := by
  unfold releaseEffects
  simp only [h]

/-- R139: the claim is freed before its carriers are let go. -/
def freed (ch : ChannelIdx) (i : ServiceIdx) (s : State) : State :=
  changeClaim ch .free (setClaimCount i ((s.svc i).claimCount - 1) s)

theorem releaseEffects_of_claim {ch : ChannelIdx} {i : ServiceIdx} {s : State} (h : (s.claim ch).service = some i) :
    releaseEffects ch s
      = releaseUnneeded? (s.claim ch).target (releaseUnneeded? (s.claim ch).current (freed ch i s)) := by
  unfold releaseEffects
  simp only [h]
  rfl

/-- R20, R127, R139: what RELEASE CLAIM makes of the part. -/
structure ClaimFreed (ch : ChannelIdx) (i : ServiceIdx) (s t : State) : Prop where
  letGo : LetGo (Unneeded t) (setClaimCount i ((s.svc i).claimCount - 1) s) t
  gone : ∀ x, (s.claim ch).current = some x ∨ (s.claim ch).target = some x → Unneeded t x → Gone s t x
  claim : ∀ d, t.claim d = if ch = d then ClaimRec.free else s.claim d
  changed : ch ∈ t.claims.changed
  mons : t.mons = s.mons

theorem claimFreed_releaseEffects {ch : ChannelIdx} {i : ServiceIdx} {s : State} (h : (s.claim ch).service = some i) :
    ClaimFreed ch i s (releaseEffects ch s) := by
  rw [releaseEffects_of_claim h]
  have told : ClaimsOnly (setClaimCount i ((s.svc i).claimCount - 1) s) (freed ch i s) := claimsOnly_changeClaim ch _ _
  obtain ⟨letGo, gone⟩ := letGo_releases (s.claim ch).current (s.claim ch).target (told.letGo (U := Unneeded (freed ch i s)))
  have claims : (releaseUnneeded? (s.claim ch).target (releaseUnneeded? (s.claim ch).current (freed ch i s))).claims
      = (freed ch i s).claims := (claims_releaseUnneeded? _ _).trans (claims_releaseUnneeded? _ _)
  have mons : (releaseUnneeded? (s.claim ch).target (releaseUnneeded? (s.claim ch).current (freed ch i s))).mons
      = (freed ch i s).mons := (mons_releaseUnneeded? _ _).trans (mons_releaseUnneeded? _ _)
  have unneeded := unneeded_congr claims
  exact {
    letGo := letGo.mono fun x h => (unneeded x).mpr h
    gone := fun x is none => gone x is ((unneeded x).mp none)
    claim := fun d => (claim_congr claims d).trans (claim_changeClaim _ ch d _)
    changed := by
      rw [claims]
      refine changed_changeClaim fun same => ?_
      have service : (s.claim ch).service = none := congrArg ClaimRec.service same
      rw [h] at service
      cases service
    mons := mons.trans (mons_changeClaim ch _ _) }

/-- Settles O30. -/
theorem releaseClaimFreesChannel : Obligations.ReleaseClaimFreesChannel := by
  intro s e taken
  have run := exec_releaseClaim_of_taken taken
  refine ⟨fun out => refuses_of_reply taken.clear run (runReleaseClaim_out _ out), fun ch channel => ⟨fun free => ?free,
    fun i service => ?freed⟩⟩
  all_goals have eq := runReleaseClaim_eq (dropHead s) channel
  case free =>
    rw [releaseEffects_of_free (s := dropHead s) free] at eq
    exact exec_eq_of_clear run (eq.trans (reply_dropHead e _ _ s)) taken.clear
  case freed =>
    have freed := claimFreed_releaseEffects (s := dropHead s) service
    refine ⟨_, run, ?_⟩
    rw [eq]
    generalize releaseEffects ch (dropHead s) = t at freed
    have letGo := freed.letGo
    have svc := fun j => (congrArg (fun v : ServiceTable => v.recs[j]) letGo.svcs).trans
      (State.svc_setSvc (dropHead s) i j _)
    refine ⟨letGo.inExec.trans taken.idle, (freed.claim ch).trans (if_pos rfl),
      fun d other => (freed.claim d).trans (if_neg other.symm), freed.changed, (svc i).trans (if_pos rfl),
      ⟨fun j other => (svc j).trans (if_neg other.symm), letGo.rank, letGo.releases.now, fun c => ?cars⟩, freed.mons,
      fun x is none => (freed.gone x is none).letsGo, letGo.stays, letGo.releases.follows.inputsFollow,
      fun x => letGo.uncarried, ?port⟩
    case cars =>
      obtain same | cleared := letGo.cars c
      · exact congrArg (fun r : CarrierRec => { r with carrying := none }) same
      · exact congrArg (fun r : CarrierRec => { r with carrying := none }) cleared
    case port =>
      rw [port_reply, letGo.port]
      rfl

end Sys2Proof.Machine
end

section
/-! SUPPORT. A report to every claim: what it does to one claim, and the arbitration it calls for. -/

namespace Sys2Proof.Machine

theorem mons_countEvent_congr {t w : State} (h : t.mons = w.mons) (e : Event) (i : Option ServiceIdx)
    (c : Option CarrierIdx) : (countEvent e i c t).mons = (countEvent e i c w).mons := congrArg (vmap _) h

theorem mons_becomeWaiting (ch : ChannelIdx) (i : ServiceIdx) (s : State) :
    (becomeWaiting ch i s).mons = (countEvent .claimWaiting (some i) none s).mons := mons_changeClaim ch _ _

theorem claim_becomeWaiting_other {ch d : ChannelIdx} (h : d ≠ ch) (i : ServiceIdx) (s : State) :
    (becomeWaiting ch i s).claim d = s.claim d := (claim_becomeWaiting ch d i s).trans (if_neg h.symm)

theorem claim_changeClaim_other {ch d : ChannelIdx} (h : d ≠ ch) (c : ClaimRec) (s : State) :
    (changeClaim ch c s).claim d = s.claim d := (claim_changeClaim s ch d c).trans (if_neg h.symm)

theorem claim_changeClaim_same (ch : ChannelIdx) (c : ClaimRec) (s : State) : (changeClaim ch c s).claim ch = c :=
  (claim_changeClaim s ch ch c).trans (if_pos rfl)

theorem ClaimsOnly.joined {s t : State} (h : ClaimsOnly s t) (i : ServiceIdx) (c : CarrierIdx) (p : PathIdx) :
    Machine.joined t i c p = Machine.joined s i c p := by
  unfold Machine.joined
  rw [h.path]

/-- A claim that becomes WAITING is as an examination makes it. -/
theorem examined_becomeWaiting {s t : State} (h : ClaimsOnly s t) (ch : ChannelIdx) (i : ServiceIdx) :
    Examined s i ((becomeWaiting ch i t).claim ch) := by
  rw [claim_becomeWaiting, if_pos rfl, h.examined]
  exact examined_examined s i

/-- A report to every claim, from the moment it comes to one of them. -/
theorem forChannels_reaches {f : ChannelIdx → State → State} (only : ∀ ch s, ClaimsOnly s (f ch s))
    (other : ∀ ch d s, d ≠ ch → (f ch s).claim d = s.claim d) (s : State) (ch : ChannelIdx) :
    ∃ t, ∃ l : List ChannelIdx, ClaimsOnly s t ∧ t.claim ch = s.claim ch ∧ forChannels f s = l.foldl (fun s d => f d s) (f ch t) := by
  have before : ∀ (l : List ChannelIdx) (s : State), ch ∉ l →
      ClaimsOnly s (l.foldl (fun s d => f d s) s) ∧ (l.foldl (fun s d => f d s) s).claim ch = s.claim ch := by
    intro l
    induction l with
    | nil => exact fun s _ => ⟨ClaimsOnly.refl s, rfl⟩
    | cons d l ih =>
      intro s absent
      obtain ⟨here, rest⟩ := not_or.mp (mt List.mem_cons.mpr absent)
      obtain ⟨told, same⟩ := ih (f d s) rest
      exact ⟨(only d s).trans told, same.trans (other d ch s here)⟩
  obtain ⟨as, bs, split⟩ := List.append_of_mem (List.mem_finRange ch)
  have distinct : (as ++ ch :: bs).Nodup := split ▸ List.nodup_finRange 32
  obtain ⟨_, _, apart⟩ := List.nodup_append.mp distinct
  obtain ⟨told, same⟩ := before as s fun mem => apart ch mem ch List.mem_cons_self rfl
  refine ⟨_, bs, told, same, ?_⟩
  unfold forChannels
  rw [split, List.foldl_append, List.foldl_cons]

/-- R115: a report that calls for arbitration at one claim calls for it in the end. -/
theorem due_forChannels {f : ChannelIdx → State → State} (only : ∀ ch s, ClaimsOnly s (f ch s))
    (other : ∀ ch d s, d ≠ ch → (f ch s).claim d = s.claim d)
    (kept : ∀ ch s, s.arb.due = true → (f ch s).arb.due = true) {s : State} (ch : ChannelIdx)
    (raised : ∀ t, ClaimsOnly s t → t.claim ch = s.claim ch → (f ch t).arb.due = true) :
    (forChannels f s).arb.due = true := by
  obtain ⟨t, l, told, same, reaches⟩ := forChannels_reaches only other s ch
  have due := raised t told same
  rw [reaches]
  clear reaches
  generalize f ch t = u at due
  induction l generalizing u with
  | nil => exact due
  | cons d l ih => exact ih (f d u) (kept d u due)

end Sys2Proof.Machine
end

section
/-! PROOF. The claims after the failures of paths (R132, R137, R138). -/

namespace Sys2Proof.Machine

/-! ### A failed acquisition (R132) -/

/-- R132: what a failed acquisition is to one claim. -/
def acquisitionFailedAt (p : PathIdx) (x : CarrierIdx) (ch : ChannelIdx) (s : State) : State :=
  match (s.claim ch).state, (s.claim ch).service with
  | .acquiring, some i => if (s.claim ch).path = some p then becomeWaiting ch i s else s
  | .handover, _ => if (s.claim ch).target = some x ∧ isDemand s (s.claim ch) = true then raiseArb s else s
  | _, _ => s

theorem acquisitionFailedToClaims_eq (p : PathIdx) (x : CarrierIdx) (s : State) :
    acquisitionFailedToClaims p x s = forChannels (acquisitionFailedAt p x) s := rfl

section At
variable {p : PathIdx} {x : CarrierIdx} {ch : ChannelIdx} {s : State}

theorem acquisitionFailedAt_cases (p : PathIdx) (x : CarrierIdx) (ch : ChannelIdx) (s : State) :
    (∃ i, (s.claim ch).state = .acquiring ∧ (s.claim ch).path = some p ∧ (s.claim ch).service = some i
      ∧ acquisitionFailedAt p x ch s = becomeWaiting ch i s)
    ∨ ((s.claim ch).state = .handover ∧ (s.claim ch).target = some x ∧ isDemand s (s.claim ch) = true
      ∧ acquisitionFailedAt p x ch s = raiseArb s)
    ∨ (¬ ((s.claim ch).state = .acquiring ∧ (s.claim ch).path = some p ∧ (s.claim ch).service ≠ none)
      ∧ ¬ ((s.claim ch).state = .handover ∧ (s.claim ch).target = some x ∧ isDemand s (s.claim ch) = true)
      ∧ acquisitionFailedAt p x ch s = s) := by
  unfold acquisitionFailedAt
  split
  next i state service =>
    by_cases path : (s.claim ch).path = some p
    · exact .inl ⟨i, state, path, service, if_pos path⟩
    · exact .inr (.inr ⟨fun h => path h.2.1, fun h => ClaimState.noConfusion (state.symm.trans h.1), if_neg path⟩)
  next state =>
    by_cases demand : (s.claim ch).target = some x ∧ isDemand s (s.claim ch) = true
    · exact .inr (.inl ⟨state, demand.1, demand.2, if_pos demand⟩)
    · exact .inr (.inr ⟨fun h => ClaimState.noConfusion (state.symm.trans h.1), fun h => demand h.2, if_neg demand⟩)
  next handover acquiring =>
    refine .inr (.inr ⟨fun ⟨state, _, held⟩ => ?_, fun h => handover h.1, rfl⟩)
    obtain ⟨i, service⟩ := Option.ne_none_iff_exists'.mp held
    exact acquiring i state service

theorem claimsOnly_acquisitionFailedAt (p : PathIdx) (x : CarrierIdx) (ch : ChannelIdx) (s : State) :
    ClaimsOnly s (acquisitionFailedAt p x ch s) := by
  obtain ⟨i, _, _, _, run⟩ | ⟨_, _, _, run⟩ | ⟨_, _, run⟩ := acquisitionFailedAt_cases p x ch s
  · rw [run]
    exact claimsOnly_becomeWaiting ch i s
  · rw [run]
    exact claimsOnly_raiseArb s
  · rw [run]
    exact ClaimsOnly.refl s

theorem claim_acquisitionFailedAt_other (p : PathIdx) (x : CarrierIdx) (ch d : ChannelIdx) (s : State) (h : d ≠ ch) :
    (acquisitionFailedAt p x ch s).claim d = s.claim d := by
  obtain ⟨i, _, _, _, run⟩ | ⟨_, _, _, run⟩ | ⟨_, _, run⟩ := acquisitionFailedAt_cases p x ch s
  · rw [run, claim_becomeWaiting_other h]
  · rw [run, claim_raiseArb]
  · rw [run]

theorem due_becomeWaiting (ch : ChannelIdx) (i : ServiceIdx) {s : State} (h : s.arb.due = true) :
    (becomeWaiting ch i s).arb.due = true := due_changeClaim ch _ _ h

theorem due_acquisitionFailedAt (p : PathIdx) (x : CarrierIdx) (ch : ChannelIdx) (s : State) (h : s.arb.due = true) :
    (acquisitionFailedAt p x ch s).arb.due = true := by
  obtain ⟨i, _, _, _, run⟩ | ⟨_, _, _, run⟩ | ⟨_, _, run⟩ := acquisitionFailedAt_cases p x ch s
  · rw [run]
    exact due_becomeWaiting ch i h
  · rw [run]
    rfl
  · rw [run]
    exact h

end At

theorem ClaimsOnly.isDemand {s t : State} (h : ClaimsOnly s t) (c : ClaimRec) :
    Machine.isDemand t c = Machine.isDemand s c := by
  unfold Machine.isDemand
  cases c.target with
  | none => rfl
  | some x =>
    dsimp only
    rw [h.eligible, h.car]

/-- R127: a HANDOVER claim to an eligible carrier without a carrying path is demand. -/
theorem isDemand_of_handover {s : State} {c : ClaimRec} {x : CarrierIdx} (state : c.state = .handover)
    (target : c.target = some x) (ok : eligible s x = true) (free : (s.car x).carrying = none) :
    isDemand s c = true := by
  unfold isDemand
  simp only [state, target, ok, free, decide_true, Option.isNone_none, Bool.and_self, Bool.or_true]

/-- R132: what a failed acquisition makes of the claims, in the words of the statement. -/
structure AcquisitionFails (p : PathIdx) (x : CarrierIdx) (s t : State) : Prop where
  only : ClaimsOnly s t
  examined : ∀ ch i, (s.claim ch).state = .acquiring → (s.claim ch).path = some p → (s.claim ch).service = some i →
    t.claim ch = examined s i
  other : ∀ ch, (s.claim ch).state ≠ .acquiring ∨ (s.claim ch).path ≠ some p → t.claim ch = s.claim ch
  due : ∀ ch, (s.claim ch).state = .handover → (s.claim ch).target = some x → eligible s x = true →
    (s.car x).carrying = none → t.arb.due = true
  mons : t.mons = ((List.finRange 32).foldl (fun u ch =>
    if (s.claim ch).state = .acquiring ∧ (s.claim ch).path = some p ∧ (s.claim ch).service ≠ none then
      countEvent .claimWaiting (s.claim ch).service none u else u) s).mons

theorem acquisitionFails (p : PathIdx) (x : CarrierIdx) (s : State) :
    AcquisitionFails p x s (acquisitionFailedToClaims p x s) := by
  rw [acquisitionFailedToClaims_eq]
  have only := claimsOnly_acquisitionFailedAt p x
  have others := claim_acquisitionFailedAt_other p x
  obtain ⟨told, each⟩ := forChannels_claimsOnly (acquisitionFailedAt p x) only others s
  refine ⟨told, fun ch i state path service => ?_, fun ch other => ?_, fun ch state target ok free => ?_, ?_⟩
  · obtain ⟨t, before, same, result⟩ := each ch
    rw [result]
    obtain ⟨j, _, _, service', run⟩ | ⟨handover, _⟩ | ⟨not, _⟩ := acquisitionFailedAt_cases p x ch t
    · rw [same, service] at service'
      obtain rfl := Option.some.inj service'
      rw [run, claim_becomeWaiting, if_pos rfl, before.examined]
    · rw [same, state] at handover
      cases handover
    · rw [same] at not
      exact absurd ⟨state, path, service ▸ Option.some_ne_none i⟩ not
  · obtain ⟨t, before, same, result⟩ := each ch
    rw [result, ← same]
    rw [← same] at other
    obtain ⟨j, state, path, _, run⟩ | ⟨_, _, _, run⟩ | ⟨_, _, run⟩ := acquisitionFailedAt_cases p x ch t
    · exact absurd other (not_or.mpr ⟨not_not.mpr state, not_not.mpr path⟩)
    · rw [run, claim_raiseArb]
    · rw [run]
  · refine due_forChannels only others (due_acquisitionFailedAt p x) ch fun t before same => ?_
    have demand : isDemand t (t.claim ch) = true := by
      rw [same, before.isDemand]
      exact isDemand_of_handover state target ok free
    rw [← same] at state target
    obtain ⟨j, acquiring, _⟩ | ⟨_, _, _, run⟩ | ⟨_, not, _⟩ := acquisitionFailedAt_cases p x ch t
    · rw [state] at acquiring
      cases acquiring
    · rw [run]
      rfl
    · exact absurd ⟨state, target, demand⟩ not
  · refine mons_forChannels _ _ s only others fun ch t w before same mons => ?_
    rw [← same]
    obtain ⟨i, state, path, service, run⟩ | ⟨state, _, _, run⟩ | ⟨not, _, run⟩ := acquisitionFailedAt_cases p x ch t
    · rw [run, if_pos ⟨state, path, service ▸ Option.some_ne_none i⟩, mons_becomeWaiting, service]
      exact mons_countEvent_congr mons _ _ _
    · rw [run, if_neg fun h => ClaimState.noConfusion (state.symm.trans h.1)]
      exact mons
    · rw [run, if_neg not]
      exact mons

/-! ### A lost lock (R137) -/

/-- R137: what a carry path's loss of lock is to one claim. -/
def lockLossAt (p : PathIdx) (ch : ChannelIdx) (s : State) : State :=
  if (s.claim ch).path = some p then
    match (s.claim ch).state, (s.claim ch).service, (s.claim ch).target with
    | .carrying, _, _ => changeClaim ch { s.claim ch with state := .recovering } s
    | .handover, some i, some b =>
      match (s.car b).carrying with
      | some q => changeClaim ch (joined s i b q) s
      | none => becomeWaiting ch i s
    | _, _, _ => s
  else s

theorem lockLossToClaims_eq (p : PathIdx) (x : CarrierIdx) (s : State) :
    lockLossToClaims p x s = releaseUnneeded x (forChannels (lockLossAt p) s) := rfl

/-- R137: a HANDOVER claim on the path that has lost lock, with its service and its target. -/
structure LosesHandover (p : PathIdx) (s : State) (ch : ChannelIdx) (i : ServiceIdx) (b : CarrierIdx) : Prop where
  path : (s.claim ch).path = some p
  state : (s.claim ch).state = .handover
  service : (s.claim ch).service = some i
  target : (s.claim ch).target = some b

theorem lockLossAt_of_carrying {p : PathIdx} {ch : ChannelIdx} {s : State} (path : (s.claim ch).path = some p)
    (state : (s.claim ch).state = .carrying) :
    lockLossAt p ch s = changeClaim ch { s.claim ch with state := .recovering } s := by
  unfold lockLossAt
  rw [if_pos path]
  simp only [state]

theorem lockLossAt_of_handover {p : PathIdx} {ch : ChannelIdx} {s : State} {i : ServiceIdx} {b : CarrierIdx}
    (h : LosesHandover p s ch i b) : lockLossAt p ch s
      = (s.car b).carrying.elim (becomeWaiting ch i s) (fun q => changeClaim ch (joined s i b q) s) := by
  unfold lockLossAt
  rw [if_pos h.path]
  simp only [h.state, h.service, h.target]
  cases (s.car b).carrying <;> rfl

theorem lockLossAt_cases (p : PathIdx) (ch : ChannelIdx) (s : State) :
    ((s.claim ch).path = some p ∧ (s.claim ch).state = .carrying)
    ∨ (∃ i b, LosesHandover p s ch i b)
    ∨ ((∀ i b, ¬ LosesHandover p s ch i b) ∧ lockLossAt p ch s = s) := by
  by_cases path : (s.claim ch).path = some p
  · by_cases carrying : (s.claim ch).state = .carrying
    · exact .inl ⟨path, carrying⟩
    · by_cases loses : ∃ i b, LosesHandover p s ch i b
      · exact .inr (.inl loses)
      · refine .inr (.inr ⟨fun i b h => loses ⟨i, b, h⟩, ?_⟩)
        unfold lockLossAt
        rw [if_pos path]
        split
        next state => exact absurd state carrying
        next i b state service target => exact absurd ⟨i, b, path, state, service, target⟩ loses
        next => rfl
  · exact .inr (.inr ⟨fun i b h => path h.path, if_neg path⟩)

theorem claimsOnly_lockLossAt (p : PathIdx) (ch : ChannelIdx) (s : State) : ClaimsOnly s (lockLossAt p ch s) := by
  obtain ⟨path, state⟩ | ⟨i, b, loses⟩ | ⟨_, run⟩ := lockLossAt_cases p ch s
  · rw [lockLossAt_of_carrying path state]
    exact claimsOnly_changeClaim ch _ s
  · rw [lockLossAt_of_handover loses]
    cases (s.car b).carrying with
    | none => exact claimsOnly_becomeWaiting ch i s
    | some q => exact claimsOnly_changeClaim ch _ s
  · rw [run]
    exact ClaimsOnly.refl s

theorem claim_lockLossAt_other (p : PathIdx) (ch d : ChannelIdx) (s : State) (h : d ≠ ch) :
    (lockLossAt p ch s).claim d = s.claim d := by
  obtain ⟨path, state⟩ | ⟨i, b, loses⟩ | ⟨_, run⟩ := lockLossAt_cases p ch s
  · rw [lockLossAt_of_carrying path state, claim_changeClaim_other h]
  · rw [lockLossAt_of_handover loses]
    cases (s.car b).carrying with
    | none => exact claim_becomeWaiting_other h i s
    | some q => exact claim_changeClaim_other h _ s
  · rw [run]

/-- R137: what a lost lock makes of the claims, before the carrier is let go. -/
structure LockLost (p : PathIdx) (s t : State) : Prop where
  only : ClaimsOnly s t
  carrying : ∀ ch, (s.claim ch).state = .carrying → (s.claim ch).path = some p →
    t.claim ch = { s.claim ch with state := .recovering }
  handover : ∀ ch i b, LosesHandover p s ch i b →
    t.claim ch = (s.car b).carrying.elim (examined s i) (fun q => joined s i b q)
  other : ∀ ch, (s.claim ch).path ≠ some p ∨ (s.claim ch).state ≠ .carrying ∧ (s.claim ch).state ≠ .handover →
    t.claim ch = s.claim ch
  mons : t.mons = ((List.finRange 32).foldl (fun u ch =>
    if (s.claim ch).state = .handover ∧ (s.claim ch).path = some p ∧ (s.claim ch).service ≠ none
        ∧ (s.claim ch).target.any (fun b => decide ((s.car b).carrying = none)) = true then
      countEvent .claimWaiting (s.claim ch).service none u else u) s).mons

theorem LosesHandover.of_claim {p : PathIdx} {s t : State} {ch : ChannelIdx} {i : ServiceIdx} {b : CarrierIdx}
    (h : LosesHandover p s ch i b) (same : t.claim ch = s.claim ch) : LosesHandover p t ch i b :=
  ⟨same ▸ h.path, same ▸ h.state, same ▸ h.service, same ▸ h.target⟩

theorem lockLost (p : PathIdx) (s : State) : LockLost p s (forChannels (lockLossAt p) s) := by
  have only := claimsOnly_lockLossAt p
  have others := claim_lockLossAt_other p
  obtain ⟨told, each⟩ := forChannels_claimsOnly (lockLossAt p) only others s
  refine ⟨told, fun ch state path => ?_, fun ch i b loses => ?_, fun ch other => ?_, ?_⟩
  · obtain ⟨t, _, same, result⟩ := each ch
    rw [result, lockLossAt_of_carrying (same ▸ path) (same ▸ state), claim_changeClaim_same, same]
  · obtain ⟨t, before, same, result⟩ := each ch
    rw [result, lockLossAt_of_handover (loses.of_claim same), before.car]
    cases (s.car b).carrying with
    | none => exact (claim_becomeWaiting ch ch i t).trans ((if_pos rfl).trans (before.examined i))
    | some q => exact (claim_changeClaim_same ch _ t).trans (before.joined i b q)
  · obtain ⟨t, _, same, result⟩ := each ch
    rw [result, ← same]
    rw [← same] at other
    obtain ⟨path, state⟩ | ⟨i, b, loses⟩ | ⟨_, run⟩ := lockLossAt_cases p ch t
    · exact other.elim (absurd path) (fun h => absurd state h.1)
    · exact other.elim (absurd loses.path) (fun h => absurd loses.state h.2)
    · rw [run]
  · refine mons_forChannels _ _ s only others fun ch t w before same mons => ?_
    obtain ⟨path, state⟩ | ⟨i, b, loses⟩ | ⟨not, run⟩ := lockLossAt_cases p ch t
    · rw [lockLossAt_of_carrying path state, mons_changeClaim,
        if_neg fun h => ClaimState.noConfusion (state.symm.trans (same ▸ h.1))]
      exact mons
    · rw [lockLossAt_of_handover loses, before.car]
      obtain ⟨path, state, service, target⟩ := loses.of_claim same.symm
      simp only [path, state, service, target, Option.any_some, decide_eq_true_eq, true_and, ne_eq, reduceCtorEq,
        not_false_eq_true]
      cases held : (s.car b).carrying with
      | none =>
        rw [if_pos rfl]
        exact (mons_becomeWaiting ch i t).trans (mons_countEvent_congr mons _ _ _)
      | some q =>
        rw [if_neg (Option.some_ne_none q)]
        exact (mons_changeClaim ch _ t).trans mons
    · rw [run, mons]
      refine congrArg State.mons (if_neg fun ⟨state, path, held, found⟩ => ?_).symm
      obtain ⟨i, service⟩ := Option.ne_none_iff_exists'.mp held
      obtain ⟨b, target, _⟩ := (Option.any_eq_true _ _).mp found
      exact not i b ⟨same ▸ path, same ▸ state, same ▸ service, same ▸ target⟩

/-! ### Exhausted relocks (R138) -/

/-- R138: what the exhaustion of a path's relocks is to one claim. -/
def exhaustedAt (p : PathIdx) (ch : ChannelIdx) (s : State) : State :=
  match (s.claim ch).state, (s.claim ch).service with
  | .recovering, some i => if (s.claim ch).path = some p then becomeWaiting ch i s else s
  | _, _ => s

theorem exhaustedToClaims_eq (p : PathIdx) (s : State) : exhaustedToClaims p s = forChannels (exhaustedAt p) s := rfl

theorem exhaustedAt_cases (p : PathIdx) (ch : ChannelIdx) (s : State) :
    (∃ i, (s.claim ch).state = .recovering ∧ (s.claim ch).path = some p ∧ (s.claim ch).service = some i
      ∧ exhaustedAt p ch s = becomeWaiting ch i s)
    ∨ (¬ ((s.claim ch).state = .recovering ∧ (s.claim ch).path = some p ∧ (s.claim ch).service ≠ none)
      ∧ exhaustedAt p ch s = s) := by
  unfold exhaustedAt
  split
  next i state service =>
    by_cases path : (s.claim ch).path = some p
    · exact .inl ⟨i, state, path, service, if_pos path⟩
    · exact .inr ⟨fun h => path h.2.1, if_neg path⟩
  next recovering =>
    refine .inr ⟨fun ⟨state, _, held⟩ => ?_, rfl⟩
    obtain ⟨i, service⟩ := Option.ne_none_iff_exists'.mp held
    exact recovering i state service

theorem claimsOnly_exhaustedAt (p : PathIdx) (ch : ChannelIdx) (s : State) : ClaimsOnly s (exhaustedAt p ch s) := by
  obtain ⟨i, _, _, _, run⟩ | ⟨_, run⟩ := exhaustedAt_cases p ch s
  · rw [run]
    exact claimsOnly_becomeWaiting ch i s
  · rw [run]
    exact ClaimsOnly.refl s

theorem claim_exhaustedAt_other (p : PathIdx) (ch d : ChannelIdx) (s : State) (h : d ≠ ch) :
    (exhaustedAt p ch s).claim d = s.claim d := by
  obtain ⟨i, _, _, _, run⟩ | ⟨_, run⟩ := exhaustedAt_cases p ch s
  · rw [run, claim_becomeWaiting_other h]
  · rw [run]

/-- R138: what exhausted relocks make of the claims. -/
structure Exhausts (p : PathIdx) (s t : State) : Prop where
  only : ClaimsOnly s t
  examined : ∀ ch i, (s.claim ch).state = .recovering → (s.claim ch).path = some p → (s.claim ch).service = some i →
    t.claim ch = examined s i
  other : ∀ ch, (s.claim ch).state ≠ .recovering ∨ (s.claim ch).path ≠ some p → t.claim ch = s.claim ch
  mons : t.mons = ((List.finRange 32).foldl (fun u ch =>
    if (s.claim ch).state = .recovering ∧ (s.claim ch).path = some p ∧ (s.claim ch).service ≠ none then
      countEvent .claimWaiting (s.claim ch).service none u else u) s).mons

theorem exhausts (p : PathIdx) (s : State) : Exhausts p s (exhaustedToClaims p s) := by
  rw [exhaustedToClaims_eq]
  have only := claimsOnly_exhaustedAt p
  have others := claim_exhaustedAt_other p
  obtain ⟨told, each⟩ := forChannels_claimsOnly (exhaustedAt p) only others s
  refine ⟨told, fun ch i state path service => ?_, fun ch other => ?_, ?_⟩
  · obtain ⟨t, before, same, result⟩ := each ch
    rw [result]
    obtain ⟨j, _, _, service', run⟩ | ⟨not, _⟩ := exhaustedAt_cases p ch t
    · rw [same, service] at service'
      obtain rfl := Option.some.inj service'
      rw [run, claim_becomeWaiting, if_pos rfl, before.examined]
    · rw [same] at not
      exact absurd ⟨state, path, service ▸ Option.some_ne_none i⟩ not
  · obtain ⟨t, before, same, result⟩ := each ch
    rw [result, ← same]
    rw [← same] at other
    obtain ⟨j, state, path, _, run⟩ | ⟨_, run⟩ := exhaustedAt_cases p ch t
    · exact absurd other (not_or.mpr ⟨not_not.mpr state, not_not.mpr path⟩)
    · rw [run]
  · refine mons_forChannels _ _ s only others fun ch t w before same mons => ?_
    rw [← same]
    obtain ⟨i, state, path, service, run⟩ | ⟨not, run⟩ := exhaustedAt_cases p ch t
    · rw [run, if_pos ⟨state, path, service ▸ Option.some_ne_none i⟩, mons_becomeWaiting, service]
      exact mons_countEvent_congr mons _ _ _
    · rw [run, if_neg not]
      exact mons

/-- Settles O38, by the three reports. -/
theorem claimsAfterPathFailures : Obligations.ClaimsAfterPathFailures := by
  refine fun s p x => ⟨fun t is => ?failed, fun t is => ?lost, fun t is => ?exhausted⟩
  case failed =>
    have fails := acquisitionFails p x s
    rw [← is] at fails
    exact ⟨fun ch i state path service => fails.examined ch i state path service ▸ examined_examined s i, fails.other,
      fails.due, fails.mons, fails.only.paths, fails.only.inputs, fails.only.carriers, fails.only.svcs⟩
  case lost =>
    have lost := lockLost p s
    have claims := claims_releaseUnneeded x (forChannels (lockLossAt p) s)
    have release := letGo_releaseUnneeded x (forChannels (lockLossAt p) s)
    have gone := gone_releaseUnneeded (c := x) (s := forChannels (lockLossAt p) s)
    have mons := mons_releaseUnneeded x (forChannels (lockLossAt p) s)
    have cases' := releaseUnneeded_cases x (forChannels (lockLossAt p) s)
    rw [← lockLossToClaims_eq, ← is] at claims release gone mons cases'
    generalize forChannels (lockLossAt p) s = u at lost claims release gone mons cases'
    have claim := claim_congr claims
    have unneeded := unneeded_congr claims x
    refine ⟨fun ch state path => (claim ch).trans (lost.carrying ch state path), fun ch i b state path service target =>
      ?_, fun ch other => (claim ch).trans (lost.other ch other), mons.trans lost.mons, fun none =>
      (Gone.after lost.only.letGo (gone (unneeded.mp none)) release).letsGo, fun held => ?_,
      (lost.only.letGo.trans release).releases.follows.inputsFollow, release.svcs.trans lost.only.svcs⟩
    · have result := (claim ch).trans (lost.handover ch i b ⟨path, state, service, target⟩)
      rw [result]
      refine ⟨fun q held => ?_, fun free => ?_⟩
      · rw [held]
        exact joins_joined s i b q
      · rw [free]
        exact examined_examined s i
    · have same : t = u := by
        obtain same | ⟨_, none, _⟩ := cases'
        · exact same
        · exact absurd (unneeded.mpr ((needed_eq_false u x).mp none)) held
      rw [same]
      exact ⟨lost.only.paths, lost.only.carriers⟩
  case exhausted =>
    have exhausts := exhausts p s
    rw [← is] at exhausts
    exact ⟨fun ch i state path service => exhausts.examined ch i state path service ▸ examined_examined s i,
      exhausts.other, exhausts.mons, exhausts.only.paths, exhausts.only.inputs, exhausts.only.carriers,
      exhausts.only.svcs⟩

end Sys2Proof.Machine
end

section
/-! PROOF. The claims follow the selection (R71, R127, R128, R133 to R135). -/

namespace Sys2Proof.Machine

/-! ### The moves of one claim -/

theorem claimsOnly_completeHandover (ch : ChannelIdx) (i : ServiceIdx) (c : CarrierIdx) (p : PathIdx) (s : State) :
    ClaimsOnly s (completeHandover ch i c p s) :=
  (claimsOnly_changeClaim ch _ s).trans (claimsOnly_countEvent _ _ _ _)

theorem claim_completeHandover (ch d : ChannelIdx) (i : ServiceIdx) (c : CarrierIdx) (p : PathIdx) (s : State) :
    (completeHandover ch i c p s).claim d
      = if ch = d then ⟨.carrying, none, some i, some c, none, some p⟩ else s.claim d :=
  claim_changeClaim s ch d _

theorem mons_completeHandover (ch : ChannelIdx) (i : ServiceIdx) (c : CarrierIdx) (p : PathIdx) (s : State) :
    (completeHandover ch i c p s).mons = (countEvent .handoverDone (some i) (some c) s).mons :=
  mons_countEvent_congr (mons_changeClaim ch _ s) _ _ _

theorem engagedCarrying_eq_some {s : State} {x : CarrierIdx} {q : PathIdx} (held : (s.car x).carrying = some q)
    (engaged : (s.path q).state = .engaged) : engagedCarrying s x = some q := by
  unfold engagedCarrying
  simp only [held]
  exact if_pos engaged

theorem engagedCarrying_eq_none {s : State} {x : CarrierIdx}
    (h : ∀ q, (s.car x).carrying = some q → (s.path q).state ≠ .engaged) : engagedCarrying s x = none := by
  unfold engagedCarrying
  cases held : (s.car x).carrying with
  | none => rfl
  | some q => exact if_neg (h q held)

theorem ClaimsOnly.engagedCarrying {s t : State} (h : ClaimsOnly s t) (x : CarrierIdx) :
    Machine.engagedCarrying t x = Machine.engagedCarrying s x := by
  unfold Machine.engagedCarrying
  rw [h.car]
  cases (s.car x).carrying with
  | none => rfl
  | some q =>
    dsimp only
    rw [h.path]

/-- R134, R135: what a claim on the air becomes as its service selects another carrier. -/
def movedTo (s : State) (i : ServiceIdx) (c : ClaimRec) (x : CarrierIdx) : ClaimRec :=
  match engagedCarrying s x with
  | some q => ⟨.carrying, none, some i, some x, none, some q⟩
  | none => { c with state := .handover, target := some x }

theorem claim_moveTo (ch d : ChannelIdx) (i : ServiceIdx) (x : CarrierIdx) (s : State) :
    (moveTo ch i x s).claim d = if ch = d then movedTo s i (s.claim ch) x else s.claim d := by
  unfold moveTo movedTo
  cases engagedCarrying s x with
  | none => exact claim_changeClaim s ch d _
  | some q => exact claim_completeHandover ch d i x q s

theorem mons_moveTo_engaged {s : State} {x : CarrierIdx} {q : PathIdx} (h : engagedCarrying s x = some q)
    (ch : ChannelIdx) (i : ServiceIdx) :
    (moveTo ch i x s).mons = (countEvent .handoverDone (some i) (some x) s).mons := by
  unfold moveTo
  rw [h]
  exact mons_completeHandover ch i x q s

theorem mons_moveTo_handover {s : State} {x : CarrierIdx} (h : engagedCarrying s x = none) (ch : ChannelIdx)
    (i : ServiceIdx) : (moveTo ch i x s).mons = s.mons := by
  unfold moveTo
  rw [h]
  exact mons_changeClaim ch _ s

/-! ### The change of one claim, before the carriers it gives up -/

/-- R133: a claim not yet on the air, as its service selects another carrier. -/
def joinsSelection (ch : ChannelIdx) (i : ServiceIdx) (x : CarrierIdx) (s : State) : State :=
  match (s.car x).carrying with
  | some q => changeClaim ch (joined s i x q) s
  | none => becomeWaiting ch i s

/-- R133 to R135: the change of a claim that is told of its service's selection, where it is not the carrier that the
claim is on or goes to. -/
def selectionChange (ch : ChannelIdx) (i : ServiceIdx) (s : State) : State :=
  match (s.svc i).selected with
  | none => becomeWaiting ch i s
  | some x =>
    match (s.claim ch).state with
    | .acquiring | .recovering => joinsSelection ch i x s
    | .handover =>
      if (s.claim ch).current = some x then
        changeClaim ch { s.claim ch with state := .carrying, target := none } s
      else moveTo ch i x s
    | .free | .waiting | .carrying => moveTo ch i x s

/-- The carrier that a claim follows the selection of: its target in HANDOVER, and its current carrier otherwise. -/
def ClaimRec.follows (c : ClaimRec) : Option CarrierIdx := if c.state = .handover then c.target else c.current

/-- The carriers that a claim on its way or on the air gives up: its current one, and in HANDOVER its target. -/
def ClaimRec.givesUp (c : ClaimRec) : Option CarrierIdx := if c.state = .handover then c.target else none

theorem toldSelection_free {ch : ChannelIdx} {i : ServiceIdx} {s : State} (state : (s.claim ch).state = .free) :
    toldSelection ch i s = s := by
  unfold toldSelection
  simp only [state]

theorem toldSelection_standby {ch : ChannelIdx} {i : ServiceIdx} {s : State} (state : (s.claim ch).state = .waiting)
    (reason : (s.claim ch).reason = some .standby) : toldSelection ch i s = s := by
  unfold toldSelection
  simp only [state]
  exact if_pos reason

theorem toldSelection_waiting {ch : ChannelIdx} {i : ServiceIdx} {s : State} (state : (s.claim ch).state = .waiting)
    (reason : (s.claim ch).reason ≠ some .standby) : toldSelection ch i s = examine ch i s := by
  unfold toldSelection
  simp only [state]
  exact if_neg reason

/-- A claim that holds carriers: on its way, on the air or in HANDOVER. -/
def ClaimRec.active (c : ClaimRec) : Prop := c.state ≠ .free ∧ c.state ≠ .waiting

theorem toldSelection_followed {ch : ChannelIdx} {i : ServiceIdx} {s : State} (active : (s.claim ch).active)
    (same : (s.svc i).selected = (s.claim ch).follows) : toldSelection ch i s = s := by
  obtain ⟨used, onAir⟩ := active
  unfold ClaimRec.follows at same
  unfold toldSelection
  dsimp only
  cases state : (s.claim ch).state with
  | free => exact absurd state used
  | waiting => exact absurd state onAir
  | acquiring | recovering | carrying | handover =>
    rw [state] at same
    exact if_pos same

theorem toldSelection_moved {ch : ChannelIdx} {i : ServiceIdx} {s : State} (active : (s.claim ch).active)
    (other : (s.svc i).selected ≠ (s.claim ch).follows) : toldSelection ch i s
      = releaseUnneeded? (s.claim ch).givesUp (releaseUnneeded? (s.claim ch).current (selectionChange ch i s)) := by
  obtain ⟨used, onAir⟩ := active
  unfold ClaimRec.follows at other
  unfold toldSelection selectionChange ClaimRec.givesUp
  dsimp only
  cases state : (s.claim ch).state with
  | free => exact absurd state used
  | waiting => exact absurd state onAir
  | acquiring | recovering | carrying | handover =>
    rw [state] at other
    refine (if_neg other).trans ?_
    cases (s.svc i).selected <;> rfl

/-! ### What the change does -/

theorem claimsOnly_selectionChange (ch : ChannelIdx) (i : ServiceIdx) (s : State) :
    ClaimsOnly s (selectionChange ch i s) := by
  unfold selectionChange
  split
  · exact claimsOnly_becomeWaiting ch i s
  next x _ =>
    split
    · unfold joinsSelection
      split
      · exact claimsOnly_changeClaim ch _ s
      · exact claimsOnly_becomeWaiting ch i s
    · unfold joinsSelection
      split
      · exact claimsOnly_changeClaim ch _ s
      · exact claimsOnly_becomeWaiting ch i s
    · split
      · exact claimsOnly_changeClaim ch _ s
      · exact claimsOnly_moveTo ch i x s
    all_goals exact claimsOnly_moveTo ch i x s

/-- R133 to R135: the claim after the change. -/
def selectionClaim (s : State) (i : ServiceIdx) (c : ClaimRec) : ClaimRec :=
  match (s.svc i).selected with
  | none => examined s i
  | some x =>
    match c.state with
    | .acquiring | .recovering => (s.car x).carrying.elim (examined s i) (joined s i x)
    | .handover =>
      if c.current = some x then { c with state := .carrying, target := none } else movedTo s i c x
    | .free | .waiting | .carrying => movedTo s i c x

theorem claim_joinsSelection (ch d : ChannelIdx) (i : ServiceIdx) (x : CarrierIdx) (s : State) :
    (joinsSelection ch i x s).claim d
      = if ch = d then (s.car x).carrying.elim (examined s i) (joined s i x) else s.claim d := by
  unfold joinsSelection
  cases (s.car x).carrying with
  | none => exact claim_becomeWaiting ch d i s
  | some q => exact claim_changeClaim s ch d _

theorem claim_selectionChange (ch d : ChannelIdx) (i : ServiceIdx) (s : State) : (selectionChange ch i s).claim d
    = if ch = d then selectionClaim s i (s.claim ch) else s.claim d := by
  unfold selectionChange selectionClaim
  cases (s.svc i).selected with
  | none => exact claim_becomeWaiting ch d i s
  | some x =>
    dsimp only
    cases (s.claim ch).state with
    | acquiring | recovering => exact claim_joinsSelection ch d i x s
    | free | waiting | carrying => exact claim_moveTo ch d i x s
    | handover =>
      dsimp only
      split
      · exact claim_changeClaim s ch d _
      · exact claim_moveTo ch d i x s

theorem ClaimsOnly.selectionClaim {s t : State} (h : ClaimsOnly s t) (i : ServiceIdx) (c : ClaimRec) :
    Machine.selectionClaim t i c = Machine.selectionClaim s i c := by
  unfold Machine.selectionClaim movedTo
  rw [h.svc, h.examined]
  have joins : ∀ x, Machine.joined t i x = Machine.joined s i x := fun x => funext fun q => h.joined i x q
  simp only [h.car, h.engagedCarrying, joins]

/-! ### One claim told -/

/-- R133 to R135: what the telling of one claim lets go and leaves. -/
structure TellsClaim (ch : ChannelIdx) (s t : State) : Prop where
  letGo : LetGo (Unneeded t) s t
  others : ∀ d, d ≠ ch → t.claim d = s.claim d
  gone : ∀ x, (s.claim ch).active →
    (s.claim ch).current = some x ∨ (s.claim ch).state = .handover ∧ (s.claim ch).target = some x →
    Unneeded t x → Gone s t x

theorem TellsClaim.of_claimsOnly {ch : ChannelIdx} {s t : State} (told : ClaimsOnly s t)
    (others : ∀ d, d ≠ ch → t.claim d = s.claim d) (held : (s.claim ch).active → t = s) : TellsClaim ch s t where
  letGo := told.letGo
  others := others
  gone x active holds none := by
    obtain ⟨current, target⟩ := none ch
    rw [held active] at current target
    exact holds.elim (fun h => absurd h current) (fun h => absurd h.2 target)

theorem tellsClaim_moved {ch : ChannelIdx} {i : ServiceIdx} {s t : State}
    (is : t = releaseUnneeded? (s.claim ch).givesUp
      (releaseUnneeded? (s.claim ch).current (selectionChange ch i s))) :
    TellsClaim ch s t ∧ t.claims = (selectionChange ch i s).claims ∧ t.mons = (selectionChange ch i s).mons := by
  have told := claimsOnly_selectionChange ch i s
  have claim := claim_selectionChange ch
  obtain ⟨letGo, gone⟩ := letGo_releases (s.claim ch).current (s.claim ch).givesUp
    (told.letGo (U := Unneeded (selectionChange ch i s)))
  have claims : t.claims = (selectionChange ch i s).claims :=
    is ▸ (claims_releaseUnneeded? _ _).trans (claims_releaseUnneeded? _ _)
  have mons : t.mons = (selectionChange ch i s).mons :=
    is ▸ (mons_releaseUnneeded? _ _).trans (mons_releaseUnneeded? _ _)
  rw [← is] at letGo gone
  have unneeded := unneeded_congr claims
  refine ⟨⟨letGo.mono fun x h => (unneeded x).mpr h, fun d other => ?_, fun x active holds none =>
    gone x (holds.imp_right fun ⟨state, target⟩ => (if_pos state).trans target) ((unneeded x).mp none)⟩, claims, mons⟩
  rw [claim_congr claims, claim, if_neg other.symm]

theorem tellsClaim (ch : ChannelIdx) (i : ServiceIdx) (s : State) : TellsClaim ch s (toldSelection ch i s) := by
  by_cases active : (s.claim ch).active
  · by_cases same : (s.svc i).selected = (s.claim ch).follows
    · rw [toldSelection_followed active same]
      exact .of_claimsOnly (ClaimsOnly.refl s) (fun _ _ => rfl) fun _ => rfl
    · exact (tellsClaim_moved (toldSelection_moved active same)).1
  · have idle : (s.claim ch).state = .free ∨ (s.claim ch).state = .waiting := by
      by_contra none
      exact active (not_or.mp none)
    obtain free | waiting := idle
    · rw [toldSelection_free free]
      exact .of_claimsOnly (ClaimsOnly.refl s) (fun _ _ => rfl) fun h => absurd h active
    · by_cases reason : (s.claim ch).reason = some .standby
      · rw [toldSelection_standby waiting reason]
        exact .of_claimsOnly (ClaimsOnly.refl s) (fun _ _ => rfl) fun h => absurd h active
      · rw [toldSelection_waiting waiting reason]
        exact .of_claimsOnly (claimsOnly_examine ch i s)
          (fun d other => (claim_examine s ch d i).trans (if_neg other.symm)) fun h => absurd h active

/-- What a claim becomes depends on the claim itself, the records, the carriers and the paths. -/
theorem claim_toldSelection_congr {s t : State} (h : ClaimsOnly s t) (ch : ChannelIdx) (i : ServiceIdx)
    (same : t.claim ch = s.claim ch) : (toldSelection ch i t).claim ch = (toldSelection ch i s).claim ch := by
  by_cases active : (s.claim ch).active
  · by_cases followed : (s.svc i).selected = (s.claim ch).follows
    · rw [toldSelection_followed active followed,
        toldSelection_followed (s := t) (same ▸ active) (by rw [h.svc, same]; exact followed), same]
    · have moved := (tellsClaim_moved (toldSelection_moved active followed)).2.1
      have other : (t.svc i).selected ≠ (t.claim ch).follows := by
        rw [h.svc, same]
        exact followed
      have moved' := (tellsClaim_moved (toldSelection_moved (s := t) (same ▸ active) other)).2.1
      rw [claim_congr moved, claim_congr moved', claim_selectionChange, claim_selectionChange, if_pos rfl, if_pos rfl,
        same, h.selectionClaim]
  · have idle : (s.claim ch).state = .free ∨ (s.claim ch).state = .waiting := by
      by_contra none
      exact active (not_or.mp none)
    obtain free | waiting := idle
    · rw [toldSelection_free free, toldSelection_free (s := t) (same ▸ free), same]
    · by_cases reason : (s.claim ch).reason = some .standby
      · rw [toldSelection_standby waiting reason, toldSelection_standby (s := t) (same ▸ waiting) (same ▸ reason), same]
      · rw [toldSelection_waiting waiting reason, toldSelection_waiting (s := t) (same ▸ waiting) (same ▸ reason),
          claim_examine, claim_examine, if_pos rfl, if_pos rfl, h.examined]

/-! ### The report to the claims of a service -/

/-- R71: the count of a changed selection. -/
def selectionCounted (i : ServiceIdx) (s : State) : State :=
  match (s.svc i).selected with
  | some x => countEvent .selectionChanged (some i) (some x) s
  | none => s

theorem claimsOnly_selectionCounted (i : ServiceIdx) (s : State) : ClaimsOnly s (selectionCounted i s) := by
  unfold selectionCounted
  split
  · exact claimsOnly_countEvent _ _ _ s
  · exact ClaimsOnly.refl s

theorem claim_selectionCounted (i : ServiceIdx) (s : State) (d : ChannelIdx) :
    (selectionCounted i s).claim d = s.claim d := by
  unfold selectionCounted
  split
  · exact claim_countEvent _ _ _ s d
  · rfl

/-- The claims on a service, in order of channel. -/
def claimsOf (s : State) (i : ServiceIdx) : List ChannelIdx :=
  (List.finRange 32).filter (fun ch => decide ((s.claim ch).service = some i))

theorem mem_claimsOf {s : State} {i : ServiceIdx} {ch : ChannelIdx} : ch ∈ claimsOf s i ↔ (s.claim ch).service = some i := by
  simp [claimsOf, List.mem_finRange]

theorem claimsOf_eq_singleton {s : State} {i : ServiceIdx} {ch : ChannelIdx} (service : (s.claim ch).service = some i)
    (alone : ∀ d, d ≠ ch → (s.claim d).service ≠ some i) : claimsOf s i = [ch] := by
  have test : ∀ d, decide ((s.claim d).service = some i) = decide (d = ch) := fun d => by
    by_cases same : d = ch
    · rw [same]
      simp [service]
    · simp [same, alone d same]
  unfold claimsOf
  simp only [test]
  rw [List.filter_eq, List.count_eq_one_of_mem (List.nodup_finRange 32) (List.mem_finRange ch)]
  rfl

theorem foldl_told (i : ServiceIdx) (s : State) (l : List ChannelIdx) (distinct : l.Nodup) (t : State)
    (same : ∀ ch ∈ l, t.claim ch = s.claim ch) :
    l.foldl (fun s ch => if (s.claim ch).service = some i then toldSelection ch i s else s) t
      = (l.filter (fun ch => decide ((s.claim ch).service = some i))).foldl (fun u ch => toldSelection ch i u) t := by
  induction l generalizing t with
  | nil => rfl
  | cons ch l ih =>
    obtain ⟨absent, rest⟩ := List.nodup_cons.mp distinct
    rw [List.foldl_cons, List.filter_cons, same ch List.mem_cons_self]
    by_cases service : (s.claim ch).service = some i
    · rw [if_pos service, if_pos (decide_eq_true service), List.foldl_cons]
      refine ih rest _ fun d mem => ?_
      have other : d ≠ ch := fun is => absent (is ▸ mem)
      exact ((tellsClaim ch i t).others d other).trans (same d (List.mem_cons_of_mem ch mem))
    · rw [if_neg service, if_neg (by simp [service])]
      exact ih rest t fun d mem => same d (List.mem_cons_of_mem ch mem)

theorem reportSelection_eq (i : ServiceIdx) (s : State) : reportSelection i s
    = (claimsOf s i).foldl (fun u ch => toldSelection ch i u) (selectionCounted i s) :=
  foldl_told i s (List.finRange 32) (List.nodup_finRange 32) (selectionCounted i s)
    fun ch _ => claim_selectionCounted i s ch

theorem claim_toldAll_other (i : ServiceIdx) (d : ChannelIdx) (l : List ChannelIdx) (absent : d ∉ l) (s : State) :
    (l.foldl (fun u ch => toldSelection ch i u) s).claim d = s.claim d := by
  induction l generalizing s with
  | nil => rfl
  | cons ch l ih =>
    obtain ⟨here, rest⟩ := not_or.mp (mt List.mem_cons.mpr absent)
    exact (ih rest _).trans ((tellsClaim ch i s).others d here)

/-- R71: what the report of a selection does to the claims, in the words of the statement. -/
theorem claims_reportSelection (i : ServiceIdx) (s : State) :
    (∀ d, (s.claim d).service ≠ some i → (reportSelection i s).claim d = s.claim d)
    ∧ (∀ ch, (s.claim ch).service = some i → (∀ d, d ≠ ch → (s.claim d).service ≠ some i) →
      (reportSelection i s).claim ch = (toldSelection ch i s).claim ch)
    ∧ ((∀ d, (s.claim d).service ≠ some i) → reportSelection i s = selectionCounted i s) := by
  rw [reportSelection_eq]
  refine ⟨fun d other => ?_, fun ch service alone => ?_, fun none => ?_⟩
  · rw [claim_toldAll_other i d _ (mt mem_claimsOf.mp other), claim_selectionCounted]
  · rw [claimsOf_eq_singleton service alone]
    exact claim_toldSelection_congr (claimsOnly_selectionCounted i s) ch i (claim_selectionCounted i s ch)
  · rw [List.eq_nil_iff_forall_not_mem.mpr fun d mem => none d (mem_claimsOf.mp mem)]
    rfl

/-! ### The claim that moves -/

section Moves
variable {ch : ChannelIdx} {i : ServiceIdx} {s : State} {x : CarrierIdx}

/-- R128: the claim waits, and is counted. -/
theorem selectionChange_waits (none : (s.svc i).selected = none) :
    (selectionChange ch i s).claim ch = examined s i
    ∧ (selectionChange ch i s).mons = (countEvent .claimWaiting (some i) Option.none s).mons := by
  unfold selectionChange
  rw [none]
  exact ⟨(claim_becomeWaiting ch ch i s).trans (if_pos rfl), mons_becomeWaiting ch i s⟩

theorem selectionChange_joins (selected : (s.svc i).selected = some x)
    (state : (s.claim ch).state = .acquiring ∨ (s.claim ch).state = .recovering) :
    selectionChange ch i s = joinsSelection ch i x s := by
  unfold selectionChange
  obtain state | state := state <;> simp only [selected, state]

theorem selectionChange_moves (selected : (s.svc i).selected = some x)
    (state : (s.claim ch).state = .carrying ∨ (s.claim ch).state = .handover ∧ (s.claim ch).current ≠ some x) :
    selectionChange ch i s = moveTo ch i x s := by
  unfold selectionChange
  obtain state | ⟨state, other⟩ := state
  · simp only [selected, state]
  · simp only [selected, state]
    exact if_neg other

theorem selectionChange_returns (selected : (s.svc i).selected = some x) (state : (s.claim ch).state = .handover)
    (same : (s.claim ch).current = some x) :
    selectionChange ch i s = changeClaim ch { s.claim ch with state := .carrying, target := none } s := by
  unfold selectionChange
  simp only [selected, state]
  exact if_pos same

/-- R134, R135: a claim on the air moves at once to an ENGAGED carrying path, and hands over otherwise. -/
theorem claim_moved (h : selectionChange ch i s = moveTo ch i x s) :
    (∀ q, (s.car x).carrying = some q → (s.path q).state = .engaged →
      (selectionChange ch i s).claim ch = ⟨.carrying, none, some i, some x, none, some q⟩
      ∧ (selectionChange ch i s).mons = (countEvent .handoverDone (some i) (some x) s).mons)
    ∧ ((∀ q, (s.car x).carrying = some q → (s.path q).state ≠ .engaged) →
      (selectionChange ch i s).claim ch = { s.claim ch with state := .handover, target := some x }
      ∧ (selectionChange ch i s).mons = s.mons) := by
  rw [h, claim_moveTo, if_pos rfl]
  unfold movedTo
  refine ⟨fun q held engaged => ?_, fun unengaged => ?_⟩
  · have carrying := engagedCarrying_eq_some held engaged
    rw [carrying]
    exact ⟨rfl, mons_moveTo_engaged carrying ch i⟩
  · have carrying := engagedCarrying_eq_none unengaged
    rw [carrying]
    exact ⟨rfl, mons_moveTo_handover carrying ch i⟩

/-- R133: a claim not yet on the air joins the carrying path of the selection, or waits. -/
theorem claim_joined (h : selectionChange ch i s = joinsSelection ch i x s) :
    (∀ q, (s.car x).carrying = some q → Joins s i x q ((selectionChange ch i s).claim ch)
      ∧ (selectionChange ch i s).mons = s.mons)
    ∧ ((s.car x).carrying = none → Examined s i ((selectionChange ch i s).claim ch)
      ∧ (selectionChange ch i s).mons = (countEvent .claimWaiting (some i) none s).mons) := by
  rw [h, claim_joinsSelection, if_pos rfl]
  unfold joinsSelection
  refine ⟨fun q held => ?_, fun free => ?_⟩
  · rw [held]
    exact ⟨joins_joined s i x q, mons_changeClaim ch _ s⟩
  · rw [free]
    exact ⟨examined_examined s i, mons_becomeWaiting ch i s⟩

end Moves

/-- Settles O37: the report, then one claim, by its state. -/
theorem claimsFollowSelection : Obligations.ClaimsFollowSelection := by
  refine ⟨fun s i => ?report, fun s t ch i c claim service is => ?told⟩
  case report =>
    obtain ⟨others, alone, none⟩ := claims_reportSelection i s
    refine ⟨others, alone, fun v counted => ?_, fun unclaimed => ⟨fun unselected => ?_, fun x selected => ?_⟩⟩
    · rw [show v = selectionCounted i s from counted]
      exact reportSelection_eq i s
    · rw [none unclaimed, selectionCounted, unselected]
    · rw [none unclaimed, selectionCounted, selected]
  case told =>
    subst claim
    have tells := tellsClaim ch i s
    rw [← is] at tells
    have followed := fun active same => is.trans (toldSelection_followed (ch := ch) (i := i) (s := s) active same)
    have moved : (s.claim ch).active → (s.svc i).selected ≠ (s.claim ch).follows →
        t.claim ch = (selectionChange ch i s).claim ch ∧ t.mons = (selectionChange ch i s).mons := fun active other => by
      obtain ⟨_, claims, mons⟩ := tellsClaim_moved (is.trans (toldSelection_moved active other))
      exact ⟨claim_congr claims ch, mons⟩
    refine ⟨tells.others, tells.letGo.svcs, tells.letGo.plan, fun waiting => ⟨fun standby =>
      is.trans (toldSelection_standby waiting standby), fun other => ?waiting⟩, fun coming => ?coming, fun carrying =>
      ?carrying, fun handover => ?handover, fun x used onAir holds none => (tells.gone x ⟨used, onAir⟩ holds none).letsGo,
      tells.letGo.releases.follows.inputsFollow, tells.letGo.stays⟩
    case waiting =>
      rw [is, toldSelection_waiting waiting other, claim_examine, if_pos rfl]
      exact examined_examined s i
    case coming =>
      have active : (s.claim ch).active := by
        obtain state | state := coming <;> exact ⟨by rw [state]; decide, by rw [state]; decide⟩
      have follows : (s.claim ch).follows = (s.claim ch).current :=
        if_neg (by obtain state | state := coming <;> rw [state] <;> decide)
      rw [follows] at followed moved
      refine ⟨followed active, fun other => ⟨fun none => ?_, fun x selected => ?_⟩⟩
      all_goals
        obtain ⟨claim, mons⟩ := moved active other
        rw [claim, mons]
      · obtain ⟨waits, counted⟩ := selectionChange_waits (ch := ch) none
        exact ⟨waits ▸ examined_examined s i, counted⟩
      · exact claim_joined (selectionChange_joins selected coming)
    case carrying =>
      have active : (s.claim ch).active := ⟨by rw [carrying]; decide, by rw [carrying]; decide⟩
      have follows : (s.claim ch).follows = (s.claim ch).current := if_neg (by rw [carrying]; decide)
      rw [follows] at followed moved
      refine ⟨followed active, fun other => ⟨fun none => ?_, fun x selected => ?_⟩⟩
      all_goals
        obtain ⟨claim, mons⟩ := moved active other
        rw [claim, mons]
      · obtain ⟨waits, counted⟩ := selectionChange_waits (ch := ch) none
        exact ⟨waits ▸ examined_examined s i, counted⟩
      · exact claim_moved (selectionChange_moves selected (.inl carrying))
    case handover =>
      have active : (s.claim ch).active := ⟨by rw [handover]; decide, by rw [handover]; decide⟩
      have follows : (s.claim ch).follows = (s.claim ch).target := if_pos handover
      rw [follows] at followed moved
      refine ⟨followed active, fun other => ⟨fun none => ?_, fun x selected => ⟨fun same => ?_, fun differs => ?_⟩⟩⟩
      all_goals
        obtain ⟨claim, mons⟩ := moved active other
        rw [claim, mons]
      · obtain ⟨waits, counted⟩ := selectionChange_waits (ch := ch) none
        exact ⟨waits ▸ examined_examined s i, counted⟩
      · rw [selectionChange_returns selected handover same, claim_changeClaim_same, mons_changeClaim]
        exact ⟨rfl, rfl⟩
      · exact claim_moved (selectionChange_moves selected (.inr ⟨handover, differs⟩))

end Sys2Proof.Machine
end

section
/-! PROOF. An engagement told to the claims (R127, R131). -/

namespace Sys2Proof.Machine

/-- The occurrences that a report to every claim counts, where each depends on the claim alone. -/
theorem mons_forChannels_of_claims (f : ChannelIdx → State → State) (g : State → ChannelIdx → State) (s : State)
    (other : ∀ ch d t, d ≠ ch → (f ch t).claim d = t.claim d)
    (here : ∀ ch t w, t.claim ch = s.claim ch → t.mons = w.mons → (f ch t).mons = (g w ch).mons) :
    (forChannels f s).mons = ((List.finRange 32).foldl g s).mons := by
  have run : ∀ (l : List ChannelIdx) (t w : State), l.Nodup → (∀ ch ∈ l, t.claim ch = s.claim ch) → t.mons = w.mons →
      (l.foldl (fun s ch => f ch s) t).mons = (l.foldl g w).mons := by
    intro l
    induction l with
    | nil => exact fun _ _ _ _ same => same
    | cons ch l ih =>
      intro t w distinct same mons
      obtain ⟨absent, rest⟩ := List.nodup_cons.mp distinct
      refine ih _ _ rest (fun d mem => ?_) (here ch t w (same ch List.mem_cons_self) mons)
      have apart : d ≠ ch := fun is => absent (is ▸ mem)
      exact (other ch d t apart).trans (same d (List.mem_cons_of_mem ch mem))
  exact run _ s s (List.nodup_finRange 32) (fun _ _ => rfl) rfl

/-- R131: what an engagement is to one claim. -/
def engagedAt (p : PathIdx) (x : CarrierIdx) (ch : ChannelIdx) (s : State) : State :=
  match (s.claim ch).state, (s.claim ch).service with
  | .acquiring, _ | .recovering, _ =>
    if (s.claim ch).path = some p then changeClaim ch { s.claim ch with state := .carrying } s else s
  | .handover, some i =>
    if (s.claim ch).target = some x then releaseUnneeded? (s.claim ch).current (completeHandover ch i x p s) else s
  | _, _ => s

theorem engagedToClaims_eq (p : PathIdx) (x : CarrierIdx) (s : State) :
    engagedToClaims p x s = forChannels (engagedAt p x) s := rfl

/-- R131: a claim that an engagement puts on the air. -/
def ClaimRec.engages (c : ClaimRec) (p : PathIdx) : Prop :=
  (c.state = .acquiring ∨ c.state = .recovering) ∧ c.path = some p

/-- R131: a HANDOVER claim that an engagement on its target completes. -/
def ClaimRec.completes (c : ClaimRec) (x : CarrierIdx) (i : ServiceIdx) : Prop :=
  c.state = .handover ∧ c.service = some i ∧ c.target = some x

section At
variable {p : PathIdx} {x : CarrierIdx} {ch : ChannelIdx} {s : State}

theorem engagedAt_of_engages (h : (s.claim ch).engages p) :
    engagedAt p x ch s = changeClaim ch { s.claim ch with state := .carrying } s := by
  obtain ⟨state | state, path⟩ := h
  all_goals
    unfold engagedAt
    simp only [state]
    exact if_pos path

theorem engagedAt_of_completes {i : ServiceIdx} (h : (s.claim ch).completes x i) :
    engagedAt p x ch s = releaseUnneeded? (s.claim ch).current (completeHandover ch i x p s) := by
  obtain ⟨state, service, target⟩ := h
  unfold engagedAt
  simp only [state, service]
  exact if_pos target

theorem engagedAt_of_other (awaits : ¬ (s.claim ch).engages p) (not : ∀ i, ¬ (s.claim ch).completes x i) :
    engagedAt p x ch s = s := by
  unfold engagedAt
  split
  next state => exact if_neg fun path => awaits ⟨.inl state, path⟩
  next state => exact if_neg fun path => awaits ⟨.inr state, path⟩
  next i state service => exact if_neg fun target => not i ⟨state, service, target⟩
  next => rfl

theorem engagedAt_cases (p : PathIdx) (x : CarrierIdx) (c : ClaimRec) :
    c.engages p ∨ (∃ i, c.completes x i) ∨ (¬ c.engages p ∧ ∀ i, ¬ c.completes x i) := by
  by_cases engages : c.engages p
  · exact .inl engages
  · by_cases completes : ∃ i, c.completes x i
    · exact .inr (.inl completes)
    · exact .inr (.inr ⟨engages, not_exists.mp completes⟩)

theorem not_engages_of_handover {c : ClaimRec} (h : c.state = .handover) : ¬ c.engages p := fun ⟨state, _⟩ =>
  state.elim (fun is => ClaimState.noConfusion (h.symm.trans is)) (fun is => ClaimState.noConfusion (h.symm.trans is))

end At

/-- The claims after an engagement has come to one of them. -/
structure EngagesClaim (p : PathIdx) (x : CarrierIdx) (ch : ChannelIdx) (s t : State) : Prop where
  letGo : LetGo (fun y => Unneeded t y ∧ y ≠ x) s t
  others : ∀ d, d ≠ ch → t.claim d = s.claim d
  engages : (s.claim ch).engages p → t.claim ch = { s.claim ch with state := .carrying }
  completes : ∀ i, (s.claim ch).completes x i → t.claim ch = ⟨.carrying, none, some i, some x, none, some p⟩
  stays : ¬ (s.claim ch).engages p → (∀ i, ¬ (s.claim ch).completes x i) → t.claim ch = s.claim ch
  gone : ∀ i y, (s.claim ch).completes x i → (s.claim ch).current = some y → Unneeded t y → Gone s t y
  mons : ∀ w : State, s.mons = w.mons → t.mons = (if (s.claim ch).state = .handover ∧ (s.claim ch).service ≠ none
    ∧ (s.claim ch).target = some x then countEvent .handoverDone (s.claim ch).service (some x) w else w).mons

theorem engagesClaim_of_completes {p : PathIdx} {x : CarrierIdx} {ch : ChannelIdx} {i : ServiceIdx} {s : State}
    (h : (s.claim ch).completes x i) : EngagesClaim p x ch s (engagedAt p x ch s) := by
  rw [engagedAt_of_completes h]
  have told := claimsOnly_completeHandover ch i x p s
  have claim := fun d => claim_completeHandover ch d i x p s
  have mons := mons_completeHandover ch i x p s
  obtain ⟨state, service, target⟩ := h
  generalize completeHandover ch i x p s = u at told claim mons
  have claims := claims_releaseUnneeded? (s.claim ch).current u
  have release := letGo_releaseUnneeded? (s.claim ch).current u
  have gone : ∀ y, (s.claim ch).current = some y → Unneeded u y → Gone u (releaseUnneeded? (s.claim ch).current u) y :=
    fun y is none => gone_releaseUnneeded? none is
  have mons' := mons_releaseUnneeded? (s.claim ch).current u
  generalize releaseUnneeded? (s.claim ch).current u = t at claims release gone mons'
  have unneeded := unneeded_congr claims
  have own : t.claim ch = ⟨.carrying, none, some i, some x, none, some p⟩ :=
    (claim_congr claims ch).trans ((claim ch).trans (if_pos rfl))
  refine ⟨told.letGo.trans (release.mono fun y ⟨free, _⟩ => ⟨(unneeded y).mpr free, fun same => ?_⟩),
    fun d other => (claim_congr claims d).trans ((claim d).trans (if_neg other.symm)),
    fun engages => absurd engages (not_engages_of_handover state), fun j completes => ?_,
    fun _ not => absurd ⟨state, service, target⟩ (not i), fun _ y _ current none =>
    Gone.after told.letGo (gone y current ((unneeded y).mp none)) release, fun w same => ?_⟩
  · obtain ⟨current, _⟩ := (unneeded y).mpr free ch
    exact current (by rw [own, same])
  · obtain ⟨_, service', _⟩ := completes
    obtain rfl := Option.some.inj (service.symm.trans service')
    exact own
  · rw [if_pos ⟨state, service ▸ Option.some_ne_none i, target⟩, mons', mons, service]
    exact mons_countEvent_congr same _ _ _

theorem engagesClaim (p : PathIdx) (x : CarrierIdx) (ch : ChannelIdx) (s : State) :
    EngagesClaim p x ch s (engagedAt p x ch s) := by
  obtain engages | ⟨i, completes⟩ | ⟨awaits, not⟩ := engagedAt_cases p x (s.claim ch)
  · have notHandover : ¬ (s.claim ch).state = .handover := fun state => not_engages_of_handover state engages
    rw [engagedAt_of_engages engages]
    exact ⟨(claimsOnly_changeClaim ch _ s).letGo, fun d other => claim_changeClaim_other other _ s,
      fun _ => claim_changeClaim_same ch _ s, fun i completes => absurd completes.1 notHandover,
      fun awaits => absurd engages awaits, fun i _ completes => absurd completes.1 notHandover, fun w same => by
        rw [mons_changeClaim, if_neg fun h => notHandover h.1, same]⟩
  · exact engagesClaim_of_completes completes
  · rw [engagedAt_of_other awaits not]
    refine ⟨LetGo.refl _ s, fun _ _ => rfl, fun engages => absurd engages awaits,
      fun i completes => absurd completes (not i), fun _ _ => rfl, fun i _ completes => absurd completes (not i),
      fun w same => ?_⟩
    rw [same]
    refine congrArg State.mons (if_neg fun ⟨state, held, target⟩ => ?_).symm
    obtain ⟨i, service⟩ := Option.ne_none_iff_exists'.mp held
    exact not i ⟨state, service, target⟩

/-- R127: a claim that an engagement comes to takes no carrier but the engaged one. -/
theorem EngagesClaim.holds {p : PathIdx} {x y : CarrierIdx} {ch : ChannelIdx} {s t : State} (h : EngagesClaim p x ch s t)
    (other : y ≠ x) (held : (t.claim ch).current = some y ∨ (t.claim ch).target = some y) :
    (s.claim ch).current = some y ∨ (s.claim ch).target = some y := by
  obtain engages | ⟨i, completes⟩ | ⟨awaits, not⟩ := engagedAt_cases p x (s.claim ch)
  · rw [h.engages engages] at held
    exact held
  · rw [h.completes i completes] at held
    obtain current | target := held
    · exact absurd (Option.some.inj current).symm other
    · cases target
  · rwa [h.stays awaits not] at held

theorem EngagesClaim.unneeded {p : PathIdx} {x y : CarrierIdx} {ch : ChannelIdx} {s t : State}
    (h : EngagesClaim p x ch s t) (other : y ≠ x) (none : Unneeded s y) : Unneeded t y := fun d => by
  refine not_or.mp fun held => ?_
  by_cases same : d = ch
  · subst same
    exact (h.holds other held).elim (none d).1 (none d).2
  · rw [h.others d same] at held
    exact held.elim (none d).1 (none d).2

/-- What an engagement makes of the claims on a list of channels, from the first to the last. -/
structure EngagesAll (p : PathIdx) (x : CarrierIdx) (l : List ChannelIdx) (s t : State) : Prop where
  letGo : LetGo (Unneeded t) s t
  others : ∀ d, d ∉ l → t.claim d = s.claim d
  engages : ∀ ch ∈ l, (s.claim ch).engages p → t.claim ch = { s.claim ch with state := .carrying }
  completes : ∀ ch ∈ l, ∀ i, (s.claim ch).completes x i →
    t.claim ch = ⟨.carrying, none, some i, some x, none, some p⟩
  stays : ∀ ch ∈ l, ¬ (s.claim ch).engages p → (∀ i, ¬ (s.claim ch).completes x i) → t.claim ch = s.claim ch
  gone : ∀ ch ∈ l, ∀ i y, (s.claim ch).completes x i → (s.claim ch).current = some y → Unneeded t y → Gone s t y
  unneeded : ∀ y, y ≠ x → Unneeded s y → Unneeded t y

/-- R127: a carrier that no claim of the list gives up and that none holds in the end, none has held before. -/
theorem EngagesAll.unneeded_before {p : PathIdx} {x y : CarrierIdx} {l : List ChannelIdx} {s t : State}
    (h : EngagesAll p x l s t) (other : y ≠ x)
    (kept : ∀ d ∈ l, ∀ i, (s.claim d).completes x i → (s.claim d).current ≠ some y) (none : Unneeded t y) :
    Unneeded s y := fun d => by
  refine not_or.mp fun held => ?_
  have final := not_or.mpr (none d)
  by_cases mem : d ∈ l
  · obtain engages | ⟨i, completes⟩ | ⟨awaits, not⟩ := engagedAt_cases p x (s.claim d)
    · rw [h.engages d mem engages] at final
      exact final held
    · obtain current | target := held
      · exact kept d mem i completes current
      · exact other (Option.some.inj (target.symm.trans completes.2.2))
    · rw [h.stays d mem awaits not] at final
      exact final held
  · rw [h.others d mem] at final
    exact final held

theorem engagesAll (p : PathIdx) (x : CarrierIdx) (l : List ChannelIdx) (distinct : l.Nodup) (s : State) :
    EngagesAll p x l s (l.foldl (fun s ch => engagedAt p x ch s) s) := by
  induction l generalizing s with
  | nil =>
    exact ⟨LetGo.refl _ s, fun _ _ => rfl, by simp, by simp, by simp, by simp, fun _ _ none => none⟩
  | cons ch l ih =>
    obtain ⟨absent, rest⟩ := List.nodup_cons.mp distinct
    have one := engagesClaim p x ch s
    have all := ih rest (engagedAt p x ch s)
    rw [List.foldl_cons]
    generalize engagedAt p x ch s = u at one all
    generalize l.foldl (fun s ch => engagedAt p x ch s) u = t at all
    have own : t.claim ch = u.claim ch := all.others ch absent
    have before : ∀ d ∈ l, u.claim d = s.claim d := fun d mem => one.others d fun same => absent (same ▸ mem)
    have letGo : LetGo (Unneeded t) s u := one.letGo.mono fun y ⟨free, other⟩ => all.unneeded y other free
    refine ⟨letGo.trans all.letGo, fun d out => ?_, fun d mem engages => ?_, fun d mem i completes => ?_,
      fun d mem awaits not => ?_, fun d mem i y completes current none => ?_,
      fun y other none => all.unneeded y other (one.unneeded other none)⟩
    · obtain ⟨here, out⟩ := not_or.mp (mt List.mem_cons.mpr out)
      exact (all.others d out).trans (one.others d here)
    · obtain rfl | mem := List.mem_cons.mp mem
      · exact own.trans (one.engages engages)
      · exact (all.engages d mem (before d mem ▸ engages)).trans (by rw [before d mem])
    · obtain rfl | mem := List.mem_cons.mp mem
      · exact own.trans (one.completes i completes)
      · exact all.completes d mem i (before d mem ▸ completes)
    · obtain rfl | mem := List.mem_cons.mp mem
      · exact own.trans (one.stays awaits not)
      · exact (all.stays d mem (before d mem ▸ awaits) (before d mem ▸ not)).trans (before d mem)
    · by_cases later : ∃ e ∈ l, ∃ j, (u.claim e).completes x j ∧ (u.claim e).current = some y
      · obtain ⟨e, mem, j, completes, current⟩ := later
        exact Gone.after letGo (all.gone e mem j y completes current none) all.letGo
      · have here : d = ch := (List.mem_cons.mp mem).resolve_right fun mem =>
          later ⟨d, mem, i, before d mem ▸ completes, before d mem ▸ current⟩
        subst here
        have other : y ≠ x := fun same => (none d).1 (by rw [own, one.completes i completes, same])
        have none' := all.unneeded_before other
          (fun e mem j completes current => later ⟨e, mem, j, completes, current⟩) none
        exact (one.gone i y completes current none').before all.letGo

/-- Settles O36. -/
theorem engagementToldToClaims : Obligations.EngagementToldToClaims := by
  intro s t p c is
  have all := engagesAll p c (List.finRange 32) (List.nodup_finRange 32) s
  have mem := fun ch : ChannelIdx => List.mem_finRange ch
  have mons := mons_forChannels_of_claims (engagedAt p c) (fun u ch =>
      if (s.claim ch).state = .handover ∧ (s.claim ch).service ≠ none ∧ (s.claim ch).target = some c then
        countEvent .handoverDone (s.claim ch).service (some c) u else u) s
    (fun ch d u other => (engagesClaim p c ch u).others d other)
    (fun ch u w same mons => same ▸ (engagesClaim p c ch u).mons w mons)
  have result : t = (List.finRange 32).foldl (fun s ch => engagedAt p c ch s) s := is
  rw [← result] at all
  rw [← engagedToClaims_eq, ← is] at mons
  refine ⟨fun ch => ⟨fun coming => ⟨fun path => all.engages ch (mem ch) ⟨coming, path⟩, fun other => ?_⟩,
    fun i handover service => ⟨fun target => all.completes ch (mem ch) i ⟨handover, service, target⟩, fun other => ?_⟩,
    fun rests => ?_, fun x handover held target current none => ?_⟩, mons, all.letGo.stays,
    all.letGo.releases.follows.inputsFollow, all.letGo.svcs, all.letGo.plan, all.letGo.rank⟩
  · refine all.stays ch (mem ch) (fun engages => other engages.2) fun i completes => ?_
    exact coming.elim (fun is => ClaimState.noConfusion (completes.1.symm.trans is))
      fun is => ClaimState.noConfusion (completes.1.symm.trans is)
  · exact all.stays ch (mem ch) (not_engages_of_handover handover) fun j completes => other completes.2.2
  · refine all.stays ch (mem ch) (fun ⟨state, _⟩ => ?_) fun i ⟨state, _⟩ => ?_
    · obtain is | is := state <;> rw [is] at rests <;> exact absurd rests (by decide)
    · rw [state] at rests
      exact absurd rests (by decide)
  · obtain ⟨i, service⟩ := Option.ne_none_iff_exists'.mp held
    exact (all.gone ch (mem ch) i x ⟨handover, service, target⟩ current none).letsGo

end Sys2Proof.Machine
end

section
/-! PROOF. The ends of a dwell and of a recovery (R103, R104, R112). -/

namespace Sys2Proof.Machine

variable {s : State} {p : PathIdx} {t : Nat}

theorem dwellEndEffect_of_dwell (state : (s.path p).state = .dwell) (ends : (s.path p).dwellEnd = some t) :
    dwellEndEffect p s = enterRecovery p (reach t s) := by
  unfold dwellEndEffect
  simp only [state, ends]

theorem dwellEndEffect_of_other (h : (s.path p).state ≠ .dwell) : dwellEndEffect p s = s := by
  unfold dwellEndEffect
  split
  next dwell _ => exact absurd dwell h
  next => rfl

theorem recoveryEndEffect_of_recovery (state : (s.path p).state = .recovery) (ends : (s.path p).recoveryEnd = some t) :
    recoveryEndEffect p s = standbyComplete (raiseArb (forgetCutsOfPath p ((reach t s).setPath p .powerOn))) := by
  unfold recoveryEndEffect
  simp only [state, ends]

theorem recoveryEndEffect_of_other (h : (s.path p).state ≠ .recovery) : recoveryEndEffect p s = s := by
  unfold recoveryEndEffect
  split
  next recovery _ => exact absurd recovery h
  next => rfl

theorem path_enterRecovery (p : PathIdx) (s : State) : (enterRecovery p s).path p = { (s.path p).quiet with
    state := .recovery, dwellEnd := none, recoveryEnd := some (s.now + 3), demod := none } :=
  (State.path_setPath s p p _).trans (if_pos rfl)

/-- R79, R104: the inputs follow a path that enters RECOVERY and does not wait for a tune start. -/
theorem follows_enterRecovery (resting : (s.path p).state ≠ .awaitTune) (attached : (s.path p).state ≠ .recovery) :
    Follows s (enterRecovery p s) := by
  have own : ((enterRecovery p s).path p).state = .recovery := congrArg PathRec.state (path_enterRecovery p s)
  have others := (pathEnds_enterRecovery p s).paths
  have inp := inp_enterRecovery p s
  generalize enterRecovery p s = u at own others inp
  refine ⟨fun i => ?_, fun q recovery => ?_, fun q waits => ?_⟩
  · have left : (s.inp i).attached.filter (fun q => decide ((s.path q).state = .recovery ∨ (u.path q).state ≠ .recovery))
        = without p (s.inp i).attached := by
      refine List.filter_congr fun q _ => decide_eq_decide.mpr ?_
      by_cases same : q = p
      · subst same
        simp [own, attached]
      · simp [others q same, same, em]
    have waiting : (s.inp i).waitList.filter (fun w =>
        decide ((s.path w.path).state ≠ .awaitTune ∨ (u.path w.path).state = .awaitTune)) = (s.inp i).waitList := by
      refine List.filter_eq_self.mpr fun w _ => decide_eq_true ?_
      by_cases same : w.path = p
      · exact .inl (same ▸ resting)
      · rw [others w.path same]
        exact (em _).symm
    rw [inp]
    unfold inputFollowing
    rw [left, waiting]
  · by_cases same : q = p
    · exact same ▸ own
    · rw [others q same]
      exact recovery
  · by_cases same : q = p
    · subst same
      exact absurd (own.symm.trans waits) PathState.noConfusion
    · rw [← others q same]
      exact waits

theorem standbyComplete_of_other (h : ¬ (s.arb.mode = .stopping ∧ ∀ p, (s.path p).state = .idle)) :
    standbyComplete s = s :=
  if_neg fun ⟨mode, idle⟩ => h ⟨mode, (allIdle_iff s).mp idle⟩

/-- R112: the part stands by once its last path is IDLE, and the held STANDBY request completes. -/
theorem standbyComplete_of_idle (mode : s.arb.mode = .stopping) (idle : ∀ p, (s.path p).state = .idle) :
    ∃ held port, standbyComplete s = { s with arb := { s.arb with mode := .standby }, inExec := held, port := port }
      ∧ ∀ h sup, s.inExec = some ⟨h, sup, .standby⟩ → held = none
        ∧ port = { s.port with respFifo := s.port.respFifo ++ if sup then [] else responseWords h .done [] } := by
  by_cases waits : ∃ h sup, s.inExec = some ⟨h, sup, .standby⟩
  · obtain ⟨h, sup, held⟩ := waits
    refine ⟨none, { s.port with respFifo := s.port.respFifo ++ if sup then [] else responseWords h .done [] }, ?_,
      fun h' sup' held' => ⟨rfl, ?_⟩⟩
    · unfold standbyComplete
      rw [if_pos ⟨mode, (allIdle_iff s).mpr idle⟩]
      dsimp only
      split
      next => exact finish_of_held (s := { s with arb := { s.arb with mode := .standby } }) .done [] held
      next other => exact absurd held (other h sup)
    · obtain ⟨rfl, rfl, -⟩ := Execution.mk.inj (Option.some.inj (held.symm.trans held'))
      rfl
  · refine ⟨s.inExec, s.port, ?_, fun h sup held => absurd ⟨h, sup, held⟩ waits⟩
    unfold standbyComplete
    rw [if_pos ⟨mode, (allIdle_iff s).mpr idle⟩]
    dsimp only
    split
    next h sup held => exact absurd ⟨h, sup, held⟩ waits
    next => rfl

/-- R104: the state in which the recovery of a path has ended. -/
def recovered (t : Nat) (p : PathIdx) (s : State) : State :=
  raiseArb (forgetCutsOfPath p ((reach t s).setPath p .powerOn))

theorem path_recovered (t : Nat) (p q : PathIdx) (s : State) :
    (recovered t p s).path q = if p = q then PathRec.powerOn else s.path q := State.path_setPath (reach t s) p q .powerOn

theorem idle_recovered (h : ∀ q, q ≠ p → (s.path q).state = .idle) (q : PathIdx) :
    ((recovered t p s).path q).state = .idle := by
  rw [path_recovered]
  split
  next => rfl
  next other => exact h q fun same => other same.symm

/-- Settles O45, by the last path that comes to rest. -/
theorem dwellAndRecoveryEnd : Obligations.DwellAndRecoveryEnd := by
  refine fun s p t => ⟨fun state ends => ?_, fun state ends => ?_,
    fun other clear => exec_eq_of_clear (c := .dwellEnd p) rfl (dwellEndEffect_of_other other) clear,
    fun other clear => exec_eq_of_clear (c := .recoveryEnd p) rfl (recoveryEndEffect_of_other other) clear⟩
  · refine ⟨_, congrArg (fun u => Host.Outcome.next (closeStep u)) (dwellEndEffect_of_dwell state ends), rfl, rfl,
      path_enterRecovery p (reach t s), fun q other => (pathEnds_enterRecovery p (reach t s)).paths q other,
      (follows_enterRecovery (s := reach t s) (ne_of_eq_of_ne state PathState.noConfusion)
        (ne_of_eq_of_ne state PathState.noConfusion)).inputsFollow, fun i => ?_, rfl, rfl, rfl, rfl, rfl⟩
    rw [inp_enterRecovery]
    refine ⟨fun mem => of_decide_eq_true (List.mem_filter.mp mem).2 rfl, fun q other => ?_⟩
    exact ⟨fun mem => (List.mem_filter.mp mem).1, fun mem => List.mem_filter.mpr ⟨mem, decide_eq_true other⟩⟩
  · refine ⟨_, congrArg (fun u => Host.Outcome.next (closeStep u)) (recoveryEndEffect_of_recovery state ends), ?_⟩
    have own : (recovered t p s).path p = .powerOn := (path_recovered t p p s).trans (if_pos rfl)
    have others : ∀ q, q ≠ p → (recovered t p s).path q = s.path q := fun q other =>
      (path_recovered t p q s).trans (if_neg other.symm)
    by_cases last : s.arb.mode = .stopping ∧ ∀ q, q ≠ p → (s.path q).state = .idle
    · obtain ⟨mode, idle⟩ := last
      obtain ⟨held, port, eq, completes⟩ :=
        standbyComplete_of_idle (s := recovered t p s) mode (idle_recovered idle)
      rw [show standbyComplete (raiseArb (forgetCutsOfPath p ((reach t s).setPath p .powerOn))) = _ from eq]
      refine ⟨rfl, rfl, own, others, rfl, rfl, rfl, rfl, rfl, fun other => ?_, fun _ _ => ⟨rfl, fun h sup waits => ?_⟩⟩
      · obtain active | ⟨q, notThis, busy⟩ := other
        · exact absurd mode active
        · exact absurd (idle q notThis) busy
      · obtain ⟨rfl, rfl⟩ := completes h sup waits
        exact ⟨rfl, rfl⟩
    · have same : standbyComplete (recovered t p s) = recovered t p s :=
        standbyComplete_of_other fun ⟨mode, idle⟩ => last ⟨mode, fun q other => others q other ▸ idle q⟩
      rw [show standbyComplete (raiseArb (forgetCutsOfPath p ((reach t s).setPath p .powerOn))) = _ from same]
      exact ⟨rfl, rfl, own, others, rfl, rfl, rfl, rfl, rfl, fun _ => ⟨rfl, rfl, rfl⟩,
        fun mode idle => absurd ⟨mode, idle⟩ last⟩

end Sys2Proof.Machine
end

section
/-! SUPPORT. The end of a scan visit in one structure (R94, R95, R103), for every event that can end one. -/

namespace Sys2Proof.Machine

/-- What is over when the scan visit of a path on a carrier has ended, the carrier put back or not. -/
structure VisitOver (p : PathIdx) (c : CarrierIdx) (back : Bool) (s t : State) : Prop where
  left : t.path p = leftPath s.now (s.path p)
  others : ∀ q, q ≠ p → t.path q = s.path q
  follows : Follows s t
  carriers : t.carriers = s.carriers
  claims : t.claims = s.claims
  svcs : t.svcs = s.svcs
  rank : t.rank = s.rank
  now : t.now = s.now
  ends : VisitEnds (s.path p).use c back s t

theorem visitOver_endScanVisit {p : PathIdx} {c : CarrierIdx} {s : State} (k : VisitEnd)
    (state : (s.path p).state ≠ .recovery) (carrier : (s.path p).carrier = some c) :
    VisitOver p c k.putsBack s (endScanVisit p k s) := by
  have ends := pathEnds_endScanVisit p k s
  refine ⟨path_endScanVisit p k s, ends.paths, follows_endScanVisit p k s state, carriers_endScanVisit p k s,
    ends.claims, ends.steady.svcs, ends.steady.rank, ends.now, ?_⟩
  cases use : (s.path p).use with
  | none => exact ⟨fun is => (nomatch is), fun is => (nomatch is), fun is => (nomatch is)⟩
  | some u => exact use ▸ visitEnds_endScanVisit k use carrier

/-- R122: what a visit's end makes of the plan, the monitors and a held SETTLE depends on these alone. -/
theorem VisitEnds.before {use : Option Use} {c : CarrierIdx} {back : Bool} {r s t : State} (h : VisitEnds use c back s t)
    (plan : s.plan = r.plan) (mons : s.mons = r.mons) (inExec : s.inExec = r.inExec) (port : s.port = r.port) :
    VisitEnds use c back r t := by
  obtain ⟨sweep, ended, putBack⟩ := h
  obtain ⟨exec, answer⟩ := visitEnded_congr c inExec port
  obtain ⟨samePlan, sameMons⟩ := samePlan_putBackTo c (⟨plan, mons⟩ : SamePlan r s)
  refine ⟨fun use => ?_, fun use back => ?_, fun use back => ?_⟩
  · rw [← plan, ← mons, ← inExec, ← port]
    exact sweep use
  · rw [← plan, ← mons, ← exec, ← answer]
    exact ended use back
  · rw [← samePlan, ← sameMons, ← inExec, ← port]
    exact putBack use back

/-! ### The end of a visit's work (R94) -/

/-- What a scan path that no longer listens comes to: its visit is over where its burst is. -/
structure WorkOver (p : PathIdx) (c : CarrierIdx) (s t : State) : Prop where
  others : ∀ q, q ≠ p → t.path q = s.path q
  follows : Follows s t
  carriers : t.carriers = s.carriers
  claims : t.claims = s.claims
  svcs : t.svcs = s.svcs
  rank : t.rank = s.rank
  now : t.now = s.now
  goesOn : (s.path p).accum.burstDone = false → t = s
  ends : (s.path p).accum.burstDone = true →
    t.path p = leftPath s.now (s.path p) ∧ VisitEnds (s.path p).use c false s t

theorem endWork_of_burst {p : PathIdx} {s : State} (listening : (s.path p).listening = false)
    (done : (s.path p).accum.burstDone = true) : endWork p s = endScanVisit p .completed s := by
  unfold endWork
  simp [done, listening]

theorem endWork_of_noBurst {p : PathIdx} {s : State} (done : (s.path p).accum.burstDone = false) : endWork p s = s := by
  unfold endWork
  simp [done]

theorem endWork_of_listening {p : PathIdx} {s : State} (listening : (s.path p).listening = true) : endWork p s = s := by
  unfold endWork
  simp [listening]

theorem workOver_endWork {p : PathIdx} {c : CarrierIdx} {s : State} (listening : (s.path p).listening = false)
    (state : (s.path p).state ≠ .recovery) (carrier : (s.path p).carrier = some c) : WorkOver p c s (endWork p s) := by
  cases done : (s.path p).accum.burstDone with
  | true =>
    rw [endWork_of_burst listening done]
    have ended := visitOver_endScanVisit .completed state carrier
    exact ⟨ended.others, ended.follows, ended.carriers, ended.claims, ended.svcs, ended.rank, ended.now,
      fun open' => absurd (done.symm.trans open') Bool.noConfusion, fun _ => ⟨ended.left, ended.ends⟩⟩
  | false =>
    rw [endWork_of_noBurst done]
    exact ⟨fun _ _ => rfl, Follows.refl s, rfl, rfl, rfl, rfl, rfl, fun _ => rfl,
      fun ended => absurd (done.symm.trans ended) Bool.noConfusion⟩

/-- R103: what a path still runs does not show in the record it leaves its carrier with. -/
theorem leftPath_endListening (now : Nat) (r : PathRec) :
    leftPath now { r with listening := false, collection := none, rosterTimer := none } = leftPath now r := rfl

/-- R103: a path that has left its carrier listens no more, and no roster timeout runs on it. -/
theorem leftPath_quiet (now : Nat) (r : PathRec) : (leftPath now r).listening = false
    ∧ (leftPath now r).collection = none ∧ (leftPath now r).rosterTimer = none := by
  obtain ⟨_, _, _, _, _, _, collection, listening, _⟩ := leftPath_fields now r
  refine ⟨listening, collection, ?_⟩
  unfold leftPath PathRec.quiet
  dsimp only
  split
  · rfl
  · split <;> rfl

theorem path_endListening (p : PathIdx) (s : State) : (endListening p s).path p
    = { s.path p with listening := false, collection := none, rosterTimer := none } :=
  (State.path_setPath s p p _).trans (if_pos rfl)

theorem path_endListening_other {p q : PathIdx} (s : State) (other : q ≠ p) : (endListening p s).path q = s.path q :=
  (State.path_setPath s p q _).trans (if_neg other.symm)

theorem follows_endListening (p : PathIdx) (s : State) : Follows s (endListening p s) := follows_setPath p _ s rfl

end Sys2Proof.Machine
end

section
/-! PROOF. The roster timeout (R35, R94, R95). -/

namespace Sys2Proof.Machine

variable {s : State} {p : PathIdx} {t : Nat} {c : CarrierIdx} {k : Collection}

theorem rosterTimeoutEffect_of_resting (h : (s.path p).state ≠ .engaged ∨ (s.path p).rosterTimer = none) :
    rosterTimeoutEffect p s = s := by
  unfold rosterTimeoutEffect
  dsimp only
  split
  next state timer _ => exact h.elim (absurd state) fun none => nomatch none.symm.trans timer
  next => rfl

/-- R35: the state in which the listening of a path has ended with its roster timeout. -/
def timedOut (p : PathIdx) (c : CarrierIdx) (mark : Bool) (t : Nat) (s : State) : State :=
  (endListening p (reach t s)).modCar c (fun r => { r with stale := true, malformed := mark })

theorem rosterTimeoutEffect_of_engaged (state : (s.path p).state = .engaged) (timer : (s.path p).rosterTimer = some t)
    (carrier : (s.path p).carrier = some c) (gathers : (s.path p).collection = some k) :
    rosterTimeoutEffect p s = endWork p (timedOut p c k.malformed t s) := by
  unfold rosterTimeoutEffect
  simp only [state, timer, carrier, gathers]
  rfl

theorem path_timedOut (mark : Bool) : (timedOut p c mark t s).path p
    = { s.path p with listening := false, collection := none, rosterTimer := none } :=
  path_endListening p (reach t s)

theorem path_timedOut_other {q : PathIdx} (mark : Bool) (other : q ≠ p) :
    (timedOut p c mark t s).path q = s.path q :=
  path_endListening_other (reach t s) other

theorem follows_timedOut (mark : Bool) : Follows s (timedOut p c mark t s) := by
  have reached : Follows s (reach t s) := follows_of_paths rfl rfl
  have marked : Follows (endListening p (reach t s)) (timedOut p c mark t s) := follows_of_paths rfl rfl
  exact (reached.trans (follows_endListening p _)).trans marked

theorem car_timedOut (mark : Bool) : (timedOut p c mark t s).car c = { s.car c with stale := true, malformed := mark } :=
  (State.car_setCar (endListening p (reach t s)) c c _).trans (if_pos rfl)

/-- Settles O44, by the end of the path's work. -/
theorem rosterTimeout : Obligations.RosterTimeout := by
  refine fun s p => ⟨fun resting clear =>
    exec_eq_of_clear (c := .rosterTimeout p) rfl (rosterTimeoutEffect_of_resting resting) clear,
    fun t c k state timer carrier gathers => ?_⟩
  refine ⟨_, congrArg (fun u => Host.Outcome.next (closeStep u))
    (rosterTimeoutEffect_of_engaged state timer carrier gathers), ?_⟩
  have own := path_timedOut (s := s) (p := p) (t := t) (c := c) k.malformed
  have others := fun q => path_timedOut_other (s := s) (p := p) (t := t) (c := c) (q := q) k.malformed
  have stops := follows_timedOut (s := s) (p := p) (t := t) (c := c) k.malformed
  have marked := car_timedOut (s := s) (p := p) (t := t) (c := c) k.malformed
  have work : WorkOver p c _ (endWork p (timedOut p c k.malformed t s)) :=
    workOver_endWork (by rw [own]) (by rw [own]; exact ne_of_eq_of_ne state PathState.noConfusion)
      (by rw [own]; exact carrier)
  obtain ⟨now, svcs, plan, mons, inExec, port⟩ : (timedOut p c k.malformed t s).now = max s.now t
      ∧ (timedOut p c k.malformed t s).svcs = s.svcs ∧ (timedOut p c k.malformed t s).plan = s.plan
      ∧ (timedOut p c k.malformed t s).mons = s.mons ∧ (timedOut p c k.malformed t s).inExec = s.inExec
      ∧ (timedOut p c k.malformed t s).port = s.port := ⟨rfl, rfl, rfl, rfl, rfl, rfl⟩
  generalize timedOut p c k.malformed t s = v at *
  have ends := work.ends
  have goesOn := work.goesOn
  rw [own] at ends goesOn
  have stopped : ((endWork p v).path p).listening = false ∧ ((endWork p v).path p).collection = none
      ∧ ((endWork p v).path p).rosterTimer = none := by
    cases done : (s.path p).accum.burstDone with
    | true =>
      rw [(ends done).1]
      exact leftPath_quiet _ _
    | false =>
      rw [goesOn done, own]
      exact ⟨rfl, rfl, rfl⟩
  obtain ⟨listening, gathered, timer'⟩ := stopped
  refine ⟨work.now.trans now, listening, gathered, timer', fun q other => (work.others q other).trans (others q other),
    (stops.trans work.follows).inputsFollow, ?_, work.svcs.trans svcs, fun burst => ?_, fun burst => ?_⟩
  · rw [car_congr work.carriers, marked]
  · rw [goesOn burst, own]
    exact ⟨state, plan, mons⟩
  · obtain ⟨left, visit⟩ := ends burst
    rw [left, now]
    exact ⟨leavesCarrier_leftPath _ _, visit.before plan mons inExec port⟩

end Sys2Proof.Machine
end

section
/-! SUPPORT. A change of a carrier's eligibility as the claims take it (R136), and the part of a carrier outcome that
reports it (R24, R61). -/

namespace Sys2Proof.Machine

theorem waitsFor_iff (s : State) (ch : ChannelIdx) (x : CarrierIdx) :
    waitsFor s (s.claim ch) x = true ↔ AwaitsCarrier s ch x := by
  unfold waitsFor AwaitsCarrier
  rw [Bool.and_eq_true, Bool.and_eq_true, decide_eq_true_eq, decide_eq_true_eq, and_assoc]
  refine and_congr_right fun _ => and_congr_right fun _ => ?_
  cases (s.claim ch).service with
  | none => simp
  | some i => simp

theorem mons_examineWaiting (x : CarrierIdx) (ch : ChannelIdx) (s : State) : (examineWaiting x ch s).mons = s.mons := by
  unfold examineWaiting
  split
  · split
    · exact mons_changeClaim ch _ s
    · rfl
  · rfl

theorem due_examineWaiting (x : CarrierIdx) (ch : ChannelIdx) {s : State} (h : s.arb.due = true) :
    (examineWaiting x ch s).arb.due = true := by
  unfold examineWaiting
  split
  · split
    · exact due_changeClaim ch _ s h
    · exact h
  · exact h

theorem mons_handoverDemand (x : CarrierIdx) (ch : ChannelIdx) (s : State) : (handoverDemand x ch s).mons = s.mons := by
  unfold handoverDemand
  split <;> rfl

theorem due_handoverDemand (x : CarrierIdx) (ch : ChannelIdx) {s : State} (h : s.arb.due = true) :
    (handoverDemand x ch s).arb.due = true := by
  unfold handoverDemand
  split
  · rfl
  · exact h

theorem handoverDemand_raises {x : CarrierIdx} {ch : ChannelIdx} {s : State} (state : (s.claim ch).state = .handover)
    (target : (s.claim ch).target = some x) (free : (s.car x).carrying = none) :
    (handoverDemand x ch s).arb.due = true := by
  unfold handoverDemand
  rw [if_pos ⟨state, target, free⟩]
  rfl

theorem claim_examineWaiting_of_active {x : CarrierIdx} {ch : ChannelIdx} {s : State}
    (h : (s.claim ch).state = .handover) (d : ChannelIdx) : (examineWaiting x ch s).claim d = s.claim d := by
  unfold examineWaiting
  split
  · rw [if_neg fun waits => ?_]
    obtain ⟨waiting, _⟩ := (waitsFor_iff s ch x).mp waits
    exact ClaimState.noConfusion (h.symm.trans waiting)
  · rfl

/-- What the claims are told of a carrier's eligibility (R136). -/
structure EligibilityTold (x : CarrierIdx) (s t : State) : Prop where
  only : ClaimsOnly s t
  awaits : ∀ ch i, AwaitsCarrier s ch x → (s.claim ch).service = some i → t.claim ch = examined s i
  others : ∀ ch, ¬ AwaitsCarrier s ch x → t.claim ch = s.claim ch
  due : ∀ ch, (s.claim ch).state = .handover → (s.claim ch).target = some x → (s.car x).carrying = none →
    t.arb.due = true
  mons : t.mons = s.mons

theorem eligibilityTold (x : CarrierIdx) (s : State) : EligibilityTold x s (eligibilityToClaims x s) := by
  refine ⟨claimsOnly_eligibilityToClaims x s, fun ch i awaits service => ?_, fun ch other => ?_,
    fun ch state target free => ?_,
    mons_forChannels_of_kept (fun ch s => (mons_handoverDemand x ch _).trans (mons_examineWaiting x ch s)) s⟩
  · rw [claim_eligibilityToClaims, service]
    exact if_pos ((waitsFor_iff s ch x).mpr awaits)
  · rw [claim_eligibilityToClaims]
    split
    next => exact if_neg fun waits => other ((waitsFor_iff s ch x).mp waits)
    next => rfl
  · unfold eligibilityToClaims
    refine due_forChannels (f := fun ch s => handoverDemand x ch (examineWaiting x ch s))
      (claimsOnly_demandAfterExamination x) (fun d e u apart => ?_)
      (fun d u due => due_handoverDemand x d (due_examineWaiting x d due)) ch fun u only same => ?_
    · rw [claim_demandAfterExamination, claim_examineWaiting, if_neg apart.symm]
    · have state' := (congrArg ClaimRec.state same).trans state
      have claim := claim_examineWaiting_of_active (x := x) state' ch
      refine handoverDemand_raises ?_ ?_ ?_
      · rw [claim, state']
      · rw [claim, same, target]
      · rw [car_congr (claimsOnly_examineWaiting x ch u).carriers, car_congr only.carriers, free]

/-- R136: the words of the statements, from a state that a carrier outcome has changed in the carrier and the
evaluations alone. -/
theorem EligibilityTold.told {x : CarrierIdx} {r s t : State} (h : EligibilityTold x s t) (claims : s.claims = r.claims)
    (svcs : s.svcs = r.svcs) (carrying : (s.car x).carrying = (r.car x).carrying) : ToldEligibility r t x := fun ch => by
  have claim : s.claim ch = r.claim ch := claim_congr claims ch
  have same : AwaitsCarrier s ch x ↔ AwaitsCarrier r ch x := by
    unfold AwaitsCarrier State.svc
    rw [claim, svcs]
  refine ⟨fun i awaits service => ?_, fun other => ?_, fun state target free => ?_⟩
  · rw [h.awaits ch i (same.mpr awaits) (claim ▸ service), ← h.only.examined]
    exact examined_examined t i
  · rw [h.others ch (mt same.mp other), claim]
  · exact h.due ch (claim ▸ state) (claim ▸ target) (carrying ▸ free)

end Sys2Proof.Machine
end

section
/-! PROOF. Burst results (R28, R53, R54, R61). -/

namespace Sys2Proof.Machine

theorem smoothLane_full (old new : Word) : (smoothLane true old new).toNat = (3 * old.toNat + new.toNat) / 4 := by
  have := old.isLt
  have := new.isLt
  unfold smoothLane word
  rw [if_pos rfl, BitVec.toNat_ofNat]
  omega

theorem smoothLane_half (old new : Word) : (smoothLane false old new).toNat = (7 * old.toNat + new.toNat) / 8 := by
  have := old.isLt
  have := new.isLt
  unfold smoothLane word
  rw [if_neg Bool.false_ne_true, BitVec.toNat_ofNat]
  omega

variable {c : CarrierIdx} {full : Bool} {x : Lanes} {s : State}

theorem eligible_iff (s : State) (c : CarrierIdx) :
    eligible s c = true ↔ (s.car c).state = .live ∧ (s.car c).quality ≠ none := by
  unfold eligible
  rw [Bool.and_eq_true, decide_eq_true_eq, Option.isSome_iff_ne_none]

/-- R28, R61: the record of a carrier with a burst result, and the evaluations asked. -/
def withBurst (c : CarrierIdx) (full : Bool) (x : Lanes) (s : State) : State :=
  pushReport .burst (some c) (s.car c).announced
    (s.setCar c { s.car c with quality := some (scored s.rank.settings (smoothed full (s.car c).quality x)) })

theorem car_withBurst (d : CarrierIdx) : (withBurst c full x s).car d = if c = d
    then { s.car c with quality := some (scored s.rank.settings (smoothed full (s.car c).quality x)) } else s.car d := by
  unfold withBurst
  rw [pushReport_eq]
  exact State.car_setCar s c d _

theorem evals_withBurst : (withBurst c full x s).rank.evals = evalsWith s .burst c := evals_pushReport _ _ _ _

/-- What a burst result leaves, before the claims are told. -/
theorem withBurst_parts : (withBurst c full x s).claims = s.claims ∧ (withBurst c full x s).svcs = s.svcs
    ∧ (withBurst c full x s).paths = s.paths ∧ (withBurst c full x s).rank.settings = s.rank.settings := by
  unfold withBurst
  rw [pushReport_eq]
  exact ⟨rfl, rfl, rfl, rfl⟩

theorem eligible_withBurst (live : (s.car c).state = .live) : eligible (withBurst c full x s) c = true := by
  rw [eligible_iff, car_withBurst, if_pos rfl]
  exact ⟨live, Option.some_ne_none _⟩

theorem burstResult_of_first (live : (s.car c).state = .live) (none : (s.car c).quality = none) :
    burstResult c full x s = eligibilityToClaims c (withBurst c full x s) := by
  have after := eligible_withBurst (full := full) (x := x) live
  unfold burstResult
  dsimp only
  rw [if_pos live]
  refine if_neg fun same => ?_
  obtain ⟨_, some⟩ := (eligible_iff s c).mp (same.symm.trans after)
  exact some none

theorem burstResult_of_later (live : (s.car c).state = .live) (some : (s.car c).quality ≠ none) :
    burstResult c full x s = withBurst c full x s := by
  unfold burstResult
  dsimp only
  rw [if_pos live]
  exact if_pos ((eligible_withBurst live).trans ((eligible_iff s c).mpr ⟨live, some⟩).symm)

theorem burstResult_of_notLive (h : (s.car c).state ≠ .live) : burstResult c full x s = s := if_neg h

/-- R28, R53, R54, R61: what a burst result makes of the part. -/
theorem burstResult_cases (live : (s.car c).state = .live) : ∃ w t, w = withBurst c full x s
    ∧ t = burstResult c full x s ∧ t.carriers = w.carriers ∧ t.svcs = w.svcs ∧ t.paths = w.paths ∧ t.rank = w.rank
    ∧ ((s.car c).quality = none → EligibilityTold c w t) ∧ ((s.car c).quality ≠ none → t = w) := by
  by_cases first : (s.car c).quality = none
  · have told := eligibilityTold c (withBurst c full x s)
    exact ⟨_, _, rfl, rfl, burstResult_of_first (full := full) (x := x) live first ▸
      ⟨told.only.carriers, told.only.svcs, told.only.paths, told.only.rank, fun _ => told, fun some => absurd first some⟩⟩
  · exact ⟨_, _, rfl, rfl, burstResult_of_later (full := full) (x := x) live first ▸
      ⟨rfl, rfl, rfl, rfl, fun none => absurd none first, fun _ => rfl⟩⟩

/-- Settles O41. -/
theorem burstResultSmoothsVector : Obligations.BurstResultSmoothsVector := by
  refine fun s c full x => ⟨burstResult_of_notLive, fun live => ?_⟩
  obtain ⟨w, t, isW, isT, cars, svcs, paths, rank, told, same⟩ := burstResult_cases (full := full) (x := x) live
  obtain ⟨claims, svcs', paths', settings⟩ : w.claims = s.claims ∧ w.svcs = s.svcs ∧ w.paths = s.paths
    ∧ w.rank.settings = s.rank.settings := isW ▸ withBurst_parts
  have car : ∀ d, t.car d = _ := fun d => (car_congr cars d).trans (isW ▸ car_withBurst d)
  rw [← isT]
  refine ⟨fun d other => (car d).trans (if_neg other.symm), svcs.trans svcs', paths.trans paths',
    (congrArg RankingEngine.settings rank).trans settings, (congrArg RankingEngine.evals rank).trans (isW ▸ evals_withBurst),
    fun first => (told first).told claims svcs' ?_, fun later => by rw [same later, claims],
    smoothed full (s.car c).quality x, (car c).trans (if_pos rfl), fun first => by rw [first]; rfl, fun q is => ?_⟩
  · rw [isW, car_withBurst, if_pos rfl]
  · rw [is]
    refine ⟨fun whole => ?_, fun half => ?_⟩
    · subst whole
      exact ⟨smoothLane_full _ _, smoothLane_full _ _, smoothLane_full _ _, smoothLane_full _ _⟩
    · subst half
      exact ⟨smoothLane_half _ _, smoothLane_half _ _, smoothLane_half _ _, smoothLane_half _ _⟩

end Sys2Proof.Machine
end

section
/-! SUPPORT. The report that a carrier outcome makes where it changes the eligibility of the carrier (R24, R61, R136). -/

namespace Sys2Proof.Machine

/-- What a carrier outcome comes to, from the state before it and the one with the new record of the carrier. -/
structure OutcomeTold (c : CarrierIdx) (s w t : State) : Prop where
  only : ClaimsOnly { w with rank := t.rank } t
  settings : t.rank.settings = w.rank.settings
  mons : t.mons = w.mons
  changed : eligible w c ≠ eligible s c → t.rank.evals = evalsWith w .eligibility c
    ∧ EligibilityTold c { w with rank := t.rank } t
  kept : eligible w c = eligible s c → t.rank.evals = w.rank.evals ∧ t.claims = w.claims

theorem outcomeTold (c : CarrierIdx) (s w : State) :
    OutcomeTold c s w (if eligible w c = eligible s c then w else reportEligibility c w) := by
  by_cases same : eligible w c = eligible s c
  · rw [if_pos same]
    exact ⟨ClaimsOnly.refl w, rfl, rfl, fun changed => absurd same changed, fun _ => ⟨rfl, rfl⟩⟩
  · rw [if_neg same]
    have report := pushReport_eq .eligibility (some c) (w.car c).announced w
    have told : EligibilityTold c _ (reportEligibility c w) := eligibilityTold c (pushReport .eligibility (some c) _ w)
    generalize reportEligibility c w = t at told
    rw [report] at told
    have rank := told.only.rank
    have told' : EligibilityTold c { w with rank := t.rank } t := by
      rw [rank]
      exact told
    refine ⟨told'.only, ?_, told'.mons, fun _ => ⟨?_, told'⟩, fun kept => absurd kept same⟩
    · rw [rank]
    · rw [rank]

end Sys2Proof.Machine
end

section
/-! PROOF. Lock (R25, R92, R99). -/

namespace Sys2Proof.Machine

variable {s : State} {p : PathIdx} {c : CarrierIdx}

theorem lockEffect_of_other (h : (s.path p).state ≠ .tuning) : lockEffect p s = s := by
  unfold lockEffect
  dsimp only
  split
  next tuning _ => exact absurd tuning h
  next => rfl

/-- R92, R99: the state in which a path that has locked is ENGAGED. -/
def engagedPath (p : PathIdx) (s : State) : State := s.setPath p
  { s.path p with
    state := .engaged, lockTime := some s.now, lockHeld := true, relocks := 0, accum := ⟨0, none, false⟩,
    collection := some ⟨none, 0, [], false⟩, lockTimer := none, sampleDue := some (s.now + 20),
    listening := if (s.path p).use = some .carry then (s.path p).listening else true,
    rosterTimer := if (s.path p).use = some .carry then (s.path p).rosterTimer else some (s.now + 1500) }

theorem engagedPath_of_carry (carry : (s.path p).use = some .carry) :
    engagedPath p s = s.setPath p (lockedPath (s.path p) s.now) := by
  refine congrArg (fun r => s.setPath p r) ?_
  rw [if_pos carry, if_pos carry]
  rfl

theorem engagedPath_of_scan (scan : (s.path p).use ≠ some .carry) : engagedPath p s
    = s.setPath p { lockedPath (s.path p) s.now with listening := true, rosterTimer := some (s.now + 1500) } := by
  refine congrArg (fun r => s.setPath p r) ?_
  rw [if_neg scan, if_neg scan]
  rfl

theorem lockEffect_of_carry (state : (s.path p).state = .tuning) (carrier : (s.path p).carrier = some c)
    (carry : (s.path p).use = some .carry) : lockEffect p s = engagedToClaims p c (lockOutcome c (engagedPath p s)) := by
  rw [engagedPath_of_carry carry]
  unfold lockEffect
  simp only [state, carrier, if_pos carry]

theorem lockEffect_of_scan (state : (s.path p).state = .tuning) (carrier : (s.path p).carrier = some c)
    (scan : (s.path p).use ≠ some .carry) : lockEffect p s = lockOutcome c (engagedPath p s) := by
  rw [engagedPath_of_scan scan]
  unfold lockEffect
  simp only [state, carrier, if_neg scan]

/-- R25: the record of a carrier with a lock outcome. -/
def locked (c : CarrierIdx) (s : State) : State := s.setCar c { s.car c with state := .live, failures := 0 }

theorem lockOutcome_of_defined (h : (s.car c).state ≠ .free) : lockOutcome c s
    = if eligible (locked c s) c = eligible s c then locked c s else reportEligibility c (locked c s) := if_neg h

theorem lockOutcome_told (h : (s.car c).state ≠ .free) : OutcomeTold c s (locked c s) (lockOutcome c s) := by
  rw [lockOutcome_of_defined h]
  exact outcomeTold c s (locked c s)

theorem eligible_locked (c : CarrierIdx) (s : State) : eligible (locked c s) c = (s.car c).quality.isSome := by
  unfold eligible locked
  rw [State.car_setCar, if_pos rfl]
  rfl

/-- Settles O35, by the report of the lock outcome. -/
theorem lockEngagesPath : Obligations.LockEngagesPath := by
  refine fun s p => ⟨fun other clear => exec_eq_of_clear (c := .lock p) rfl (lockEffect_of_other other) clear,
    fun c state carrier defined => ?_⟩
  have told : OutcomeTold c (engagedPath p s) _ (lockOutcome c (engagedPath p s)) := lockOutcome_told defined
  have eligible' : eligible (locked c (engagedPath p s)) c = (s.car c).quality.isSome := eligible_locked c _
  refine ⟨lockOutcome c (engagedPath p s), lockEffect p s, rfl, lockEffect_of_scan state carrier,
    lockEffect_of_carry state carrier, ?_⟩
  have record : (locked c (engagedPath p s)).car c = { s.car c with state := .live, failures := 0 } :=
    (State.car_setCar (engagedPath p s) c c _).trans (if_pos rfl)
  generalize lockOutcome c (engagedPath p s) = v at told
  have only := told.only
  have car := fun d => (car_congr only.carriers d).trans (State.car_setCar (engagedPath p s) c d _)
  have path := fun q => (only.path q).trans (State.path_setPath s p q _)
  refine ⟨(path p).trans (if_pos rfl), fun q other => (path q).trans (if_neg other.symm), (car c).trans (if_pos rfl),
    fun d other => (car d).trans (if_neg other.symm), only.svcs, only.inputs, only.plan, told.mons, only.port,
    only.inExec, only.now, told.settings, fun idle measured => ?_, fun same => ?_⟩
  · have changed : eligible (locked c (engagedPath p s)) c ≠ eligible (engagedPath p s) c := by
      rw [eligible', Option.isSome_iff_ne_none.mpr measured]
      exact fun same => idle ((eligible_iff s c).mp same.symm).1
    obtain ⟨evals, claims⟩ := told.changed changed
    refine ⟨?_, claims.told rfl rfl ?_⟩
    · have announced : ((locked c (engagedPath p s)).car c).announced = (s.car c).announced := by rw [record]
      rw [evals]
      unfold evalsWith
      rw [announced]
      rfl
    · have carrying : ((locked c (engagedPath p s)).car c).carrying = (s.car c).carrying := by rw [record]
      exact carrying
  · refine told.kept ?_
    have before : eligible (engagedPath p s) c = eligible s c := rfl
    rw [eligible', before, Bool.eq_iff_iff, eligible_iff, Option.isSome_iff_ne_none]
    obtain live | none := same
    · exact ⟨fun some => ⟨live, some⟩, fun ok => ok.2⟩
    · exact ⟨fun some => absurd none some, fun ok => ok.2⟩

end Sys2Proof.Machine
end

section
/-! SUPPORT. A change of one record, split into its stamps and what follows them (R70, R71), and the offers that find
room (R118, R122). -/

namespace Sys2Proof.Machine

/-- R62 to R66: an evaluation is of the selection, the challenger and the state. -/
theorem reselects_evaluated (s : State) (burst : Bool) (r : ServiceRec) :
    { evaluated s burst r with selected := r.selected, challenger := r.challenger, state := r.state } = r := by
  unfold evaluated
  split
  next => rfl
  next =>
    split
    · split <;> rfl
    · split
      · split
        · unfold trackedBurst
          split
          · rfl
          · dsimp only
            split <;> rfl
        · rfl
      · split <;> rfl

/-- R70: what a change of the selection, the state and the challenger alone shows is the selection and the state. -/
theorem noticed_iff_of_reselects {r r' : ServiceRec}
    (h : { r' with selected := r.selected, challenger := r.challenger, state := r.state } = r) :
    noticed r r' = true ↔ r'.state ≠ r.state ∨ r'.selected ≠ r.selected := by
  have candidates : r'.candidates = r.candidates := by rw [← h]
  have pin : r'.pin = r.pin := by rw [← h]
  have name : r'.name = r.name := by rw [← h]
  have kind : r'.kind = r.kind := by rw [← h]
  unfold noticed
  rw [candidates, pin, name, kind]
  simp only [decide_true, Bool.and_true, Bool.not_eq_true', Bool.and_eq_false_iff, decide_eq_false_iff_not]
  rw [eq_comm (a := r.state), eq_comm (a := r.selected)]

/-- R127: the report of a selection lets go of carriers alone. -/
theorem letGo_reportSelection (i : ServiceIdx) (s : State) : LetGo (fun _ => True) s (reportSelection i s) := by
  rw [reportSelection_eq]
  have counted : LetGo (fun _ => True) s (selectionCounted i s) := (claimsOnly_selectionCounted i s).letGo
  generalize selectionCounted i s = t at counted
  induction claimsOf s i generalizing t with
  | nil => exact counted
  | cons ch l ih => exact ih _ (counted.trans ((tellsClaim ch i t).letGo.mono fun _ _ => trivial))

theorem offer_parts (c : CarrierIdx) (s : State) : (offer s c).inExec = s.inExec ∧ (offer s c).port = s.port
    ∧ (offer s c).carriers = s.carriers := by
  unfold offer
  split
  · exact ⟨rfl, rfl, rfl⟩
  · split
    · exact ⟨rfl, rfl, rfl⟩
    · split <;> exact ⟨rfl, rfl, rfl⟩

theorem offers_parts (l : List CarrierIdx) (s : State) : (l.foldl offer s).inExec = s.inExec
    ∧ (l.foldl offer s).port = s.port := by
  induction l generalizing s with
  | nil => exact ⟨rfl, rfl⟩
  | cons c l ih =>
    obtain ⟨inExec, port⟩ := ih (offer s c)
    obtain ⟨inExec', port', _⟩ := offer_parts c s
    exact ⟨inExec.trans inExec', port.trans port'⟩

/-- R118: an offered carrier that joins the visit queue if the queue has room. -/
def joinable (s : State) (c : CarrierIdx) : Bool := (s.car c).carrying.isNone && decide (c ∉ s.plan.queue)

theorem offer_of_joinable {c : CarrierIdx} {s : State} (h : joinable s c = true) (room : s.plan.queue.length < 16) :
    offer s c = joinQueue c s := by
  obtain ⟨free, absent⟩ := Bool.and_eq_true_iff.mp h
  unfold offer
  rw [if_neg fun carried => by rw [Option.isSome_iff_ne_none] at carried; exact carried (Option.isNone_iff_eq_none.mp free),
    if_neg (of_decide_eq_true absent)]
  exact if_pos room

theorem offer_of_not_joinable {c : CarrierIdx} {s : State} (h : joinable s c = false) : offer s c = s := by
  unfold offer
  split
  next => rfl
  next free =>
    refine if_pos (by_contra fun absent => ?_)
    have joins : joinable s c = true := by
      unfold joinable
      rw [decide_eq_true absent, Bool.and_true]
      simpa using free
    exact Bool.noConfusion (h.symm.trans joins)

/-- R118: offers of distinct carriers that find room join the queue in their order. -/
theorem plan_offers (l : List CarrierIdx) (distinct : l.Nodup) (s : State)
    (room : s.plan.queue.length + (l.filter (joinable s)).length ≤ 16) :
    (l.foldl offer s).plan = { s.plan with queue := s.plan.queue ++ l.filter (joinable s) } := by
  induction l generalizing s with
  | nil => simp
  | cons c l ih =>
    obtain ⟨absent, rest⟩ := List.nodup_cons.mp distinct
    rw [List.foldl_cons]
    cases joins : joinable s c with
    | false =>
      rw [List.filter_cons_of_neg (Bool.eq_false_iff.mp joins)] at room ⊢
      rw [offer_of_not_joinable joins]
      exact ih rest s room
    | true =>
      rw [List.filter_cons_of_pos joins] at room ⊢
      rw [List.length_cons] at room
      have same : l.filter (joinable (joinQueue c s)) = l.filter (joinable s) := by
        refine List.filter_congr fun d mem => ?_
        have other : d ≠ c := fun is => absent (is ▸ mem)
        have queued : d ∈ (joinQueue c s).plan.queue ↔ d ∈ s.plan.queue := by
          simp [joinQueue, raiseArb, other]
        unfold joinable
        rw [decide_eq_decide.mpr (not_congr queued)]
        rfl
      have queue : (joinQueue c s).plan = { s.plan with queue := s.plan.queue ++ [c] } := rfl
      rw [offer_of_joinable joins (by omega), ih rest, same, queue, List.append_assoc]
      · rfl
      · rw [same, queue, List.length_append, List.length_singleton]
        omega

end Sys2Proof.Machine
end

section
/-! SUPPORT. What one change leaves of the request in execution, the port and the plan. -/

namespace Sys2Proof.Machine

variable {i : ServiceIdx} {r : ServiceRec} {s : State}

/-- R71: the state after a change of a record and the report of a changed selection. -/
def reportedChange (i : ServiceIdx) (r : ServiceRec) (s : State) : State :=
  if r.selected = (s.svc i).selected then commit i r s else reportSelection i (commit i r s)

theorem letGo_reportedChange (i : ServiceIdx) (r : ServiceRec) (s : State) :
    LetGo (fun _ => True) (commit i r s) (reportedChange i r s) := by
  unfold reportedChange
  split
  · exact LetGo.refl _ _
  · exact letGo_reportSelection i _

theorem applyChange_of_degrading (was : (s.svc i).state ≠ .degraded) (is : r.state = .degraded) : applyChange i r s
    = ((rankOrder s r.candidates).filter (fun d => decide (r.selected ≠ some d))).foldl offer (reportedChange i r s) :=
  (applyChange_eq i r s _ rfl).trans (if_pos ⟨was, is⟩)

theorem applyChange_of_notDegrading (h : r.state ≠ .degraded ∨ (s.svc i).state = .degraded) :
    applyChange i r s = reportedChange i r s :=
  (applyChange_eq i r s _ rfl).trans (if_neg fun ⟨was, is⟩ => h.elim (absurd is) was)

theorem plan_commit (i : ServiceIdx) (r : ServiceRec) (s : State) : (commit i r s).plan = s.plan := by rw [commit_parts]

theorem applyChange_kept (i : ServiceIdx) (r : ServiceRec) (s : State) :
    (applyChange i r s).inExec = s.inExec ∧ (applyChange i r s).port = s.port := by
  have letGo := letGo_reportedChange i r s
  by_cases h : r.state ≠ .degraded ∨ (s.svc i).state = .degraded
  · rw [applyChange_of_notDegrading h]
    exact ⟨letGo.inExec.trans (inExec_commit i r s), letGo.port.trans (port_commit i r s)⟩
  · obtain ⟨is, was⟩ := not_or.mp h
    obtain ⟨inExec, port⟩ := offers_parts ((rankOrder s r.candidates).filter (fun d => decide (r.selected ≠ some d)))
      (reportedChange i r s)
    rw [applyChange_of_degrading was (not_not.mp is)]
    exact ⟨inExec.trans (letGo.inExec.trans (inExec_commit i r s)), port.trans (letGo.port.trans (port_commit i r s))⟩

theorem plan_applyChange_of_notDegrading (h : r.state ≠ .degraded ∨ (s.svc i).state = .degraded) :
    (applyChange i r s).plan = s.plan := by
  rw [applyChange_of_notDegrading h, (letGo_reportedChange i r s).plan, plan_commit]

/-- R70: a record that enters DEGRADED with its selection kept offers the others, which join the queue where they find
room. -/
theorem plan_applyChange_of_degrading (was : (s.svc i).state ≠ .degraded) (is : r.state = .degraded)
    (kept : r.selected = (s.svc i).selected) (distinct : r.candidates.Nodup) {add : List CarrierIdx}
    (h : add = ((rankOrder s r.candidates).filter (fun d => decide (r.selected ≠ some d))).filter (joinable s))
    (room : s.plan.queue.length + add.length ≤ 16) :
    (applyChange i r s).plan = { s.plan with queue := s.plan.queue ++ add } := by
  have reported : reportedChange i r s = commit i r s := if_pos kept
  have joins : joinable (commit i r s) = joinable s := by rw [commit_parts]; rfl
  rw [applyChange_of_degrading was is, reported, plan_offers _ (((perm_rankOrder s _).nodup_iff.mpr distinct).filter _),
    joins, ← h, plan_commit]
  rw [joins, ← h, plan_commit]
  exact room

end Sys2Proof.Machine
end

section
/-! PROOF. An evaluation of the Ranking Engine (R58, R61, R68 to R71, R168). -/

namespace Sys2Proof.Machine

theorem live_iff (st : SvcState) : st.live = true ↔ st ≠ .free ∧ st ≠ .retired := by cases st <;> decide

theorem appliesTo_iff (q : EvalReport) (r : ServiceRec) : q.appliesTo r = true ↔ EvaluationMade q r := by
  unfold EvalReport.appliesTo EvaluationMade
  rw [Bool.and_eq_true, Bool.and_eq_true, live_iff, decide_eq_true_eq, and_assoc (a := r.state ≠ .free)]
  refine and_congr_right fun _ => ?_
  cases q.carrier with
  | none => simp
  | some c => simp

/-- R61: the state in which the first record of the n-th report has been taken from it. -/
def evaluationTaken (n : Nat) (s : State) : State :=
  { s with rank := { s.rank with evals := withoutFirst n s.rank.evals } }

variable {n : Nat} {q : EvalReport} {i : ServiceIdx} {rest : List ServiceIdx} {s : State}

theorem withoutFirst_eq {l : List EvalReport} (h : l[n]? = some q) (services : q.services = i :: rest) :
    withoutFirst n l = if rest = [] then l.eraseIdx n else l.set n { q with services := rest } := by
  unfold withoutFirst
  rw [h]
  dsimp only
  rw [services]
  cases rest with
  | nil => rfl
  | cons j rest => rfl

theorem serviceEvaluationEffect_eq (h : s.rank.evals[n]? = some q) (services : q.services = i :: rest)
    (first : ∀ m x, m < n → s.rank.evals[m]? = some x → i ∉ x.services) :
    serviceEvaluationEffect n s = setRankingComplete (evaluate q i (evaluationTaken n s)) := by
  unfold serviceEvaluationEffect
  simp only [h, services]
  refine if_neg fun earlier => ?_
  obtain ⟨x, mem, named⟩ := List.any_eq_true.mp earlier
  obtain ⟨m, at', is⟩ := List.mem_take_iff_getElem.mp mem
  exact first m x (by omega) (is ▸ List.getElem?_eq_getElem _) (of_decide_eq_true named)

theorem evaluate_of_not (h : ¬ EvaluationMade q (s.svc i)) : evaluate q i s = s := if_neg (mt (appliesTo_iff q _).mp h)

/-- R61, R62, R168: the record that an evaluation is made of, the challenger cleared first for SET RANKING. -/
theorem evaluate_of_made (h : EvaluationMade q (s.svc i)) : evaluate q i s = applyChange i
    (evaluated s (decide (q.cause = .burst))
      (if q.cause = .setRanking then { s.svc i with challenger := none } else s.svc i)) s := by
  unfold evaluate
  dsimp only
  rw [if_pos ((appliesTo_iff q _).mpr h)]
  cases q.cause <;> rfl

theorem bestMasked_taken (n : Nat) (s : State) (r : ServiceRec) (sel : CarrierIdx) :
    bestMasked (evaluationTaken n s) r sel = bestMasked s r sel := by
  unfold bestMasked
  rw [rankOrder_congr (s := s) (t := evaluationTaken n s) rfl]
  rfl

/-- R61: the evaluation does not look at the reports. -/
theorem evaluated_taken (n : Nat) (s : State) (burst : Bool) (r : ServiceRec) :
    evaluated (evaluationTaken n s) burst r = evaluated s burst r := by
  have first : firstEligible (evaluationTaken n s) r.candidates = firstEligible s r.candidates :=
    firstEligible_congr (s := s) (t := evaluationTaken n s) rfl _
  unfold evaluated trackedBurst trackedOther
  simp only [bestMasked_taken, first]
  rfl

/-- R168: a held SET RANKING waits for its last evaluation. -/
theorem setRankingComplete_of_more (h : ∃ x ∈ s.rank.evals, x.cause = .setRanking) : setRankingComplete s = s := by
  have more : s.rank.evals.any (fun q => decide (q.cause = .setRanking)) = true :=
    List.any_eq_true.mpr (by simpa using h)
  unfold setRankingComplete
  split
  next => exact if_pos more
  next => rfl

theorem setRankingComplete_of_unheld (h : ∀ w sup, s.inExec ≠ some ⟨w, sup, .setRanking⟩) :
    setRankingComplete s = s := by
  unfold setRankingComplete
  split
  next w sup held => exact absurd held (h w sup)
  next => rfl

theorem setRankingComplete_of_last {w : Word} {sup : Bool} (held : s.inExec = some ⟨w, sup, .setRanking⟩)
    (last : ∀ x ∈ s.rank.evals, x.cause ≠ .setRanking) : setRankingComplete s = { s with
      inExec := none,
      port := { s.port with respFifo := s.port.respFifo
        ++ if sup then [] else responseWords w .done (settingsWords s.rank.settings) } } := by
  have none : ¬ s.rank.evals.any (fun q => decide (q.cause = .setRanking)) = true := fun more => by
    obtain ⟨x, mem, cause⟩ := List.any_eq_true.mp more
    exact last x mem (of_decide_eq_true cause)
  unfold setRankingComplete
  simp only [held]
  rw [if_neg none]
  exact finish_of_held .done _ held

/-- The record that an evaluation for SET RANKING starts from has no challenger. -/
def evaluationStart (q : EvalReport) (r : ServiceRec) : ServiceRec :=
  if q.cause = .setRanking then { r with challenger := none } else r

theorem reselects_evaluation (q : EvalReport) (s : State) (burst : Bool) (r : ServiceRec) :
    { evaluated s burst (evaluationStart q r) with
      selected := r.selected, challenger := r.challenger, state := r.state } = r := by
  have start : { evaluationStart q r with
      selected := r.selected, challenger := r.challenger, state := r.state } = r := by
    unfold evaluationStart
    split <;> rfl
  have reselects := reselects_evaluated s burst (evaluationStart q r)
  generalize evaluated s burst (evaluationStart q r) = r' at reselects
  rw [← reselects] at start
  exact start

theorem evaluate_parts (q : EvalReport) (i : ServiceIdx) (s : State) : (∀ j, j ≠ i → (evaluate q i s).svc j = s.svc j)
    ∧ (evaluate q i s).rank = s.rank ∧ (evaluate q i s).inExec = s.inExec ∧ (evaluate q i s).port = s.port := by
  by_cases made : EvaluationMade q (s.svc i)
  · rw [evaluate_of_made made]
    obtain ⟨others, rank, _⟩ := onlyRecord_applyChange i (evaluated s (decide (q.cause = .burst))
      (if q.cause = .setRanking then { s.svc i with challenger := none } else s.svc i)) s
    exact ⟨others, rank, applyChange_kept i _ s⟩
  · rw [evaluate_of_not made]
    exact ⟨fun _ _ => rfl, rfl, rfl, rfl⟩

/-- R61, R70, R71: what the evaluation of one record makes of it, of the plan, and of the rest. -/
theorem evaluate_made {w : State} (is : w = evaluate q i (evaluationTaken n s)) (made : EvaluationMade q (s.svc i))
    (r : ServiceRec) (h : r = evaluated s (decide (q.cause = .burst)) (evaluationStart q (s.svc i))) :
    w = applyChange i r (evaluationTaken n s)
    ∧ (r.state = (s.svc i).state → r.selected = (s.svc i).selected →
      w.svc i = { r with generation := (s.svc i).generation, changeEpoch := (s.svc i).changeEpoch })
    ∧ (r.state ≠ (s.svc i).state ∨ r.selected ≠ (s.svc i).selected →
      w.svc i = { r with generation := (s.svc i).generation + 1, changeEpoch := nextEpoch s.svcs.epoch }) := by
  have change : w = applyChange i r (evaluationTaken n s) := by
    rw [is, h, ← evaluated_taken n s]
    exact evaluate_of_made (s := evaluationTaken n s) made
  have record : w.svc i = stamped (evaluationTaken n s) i r := change ▸ svc_applyChange_same i r _
  have shown := noticed_iff_of_reselects (r := s.svc i) (r' := r) (h ▸ reselects_evaluation q s _ _)
  refine ⟨change, fun state selected => record.trans (if_neg fun notice => ?_),
    fun changed => record.trans (stamped_of_noticed (s := evaluationTaken n s) (shown.mpr changed))⟩
  exact (shown.mp notice).elim (absurd state) (absurd selected)

/-- R71: the parts that a change writes, in the order in which it tells them. -/
theorem applyChange_told {i : ServiceIdx} {r : ServiceRec} {s t v w : State} (is : t = applyChange i r s)
    (change : v = { s with svcs := t.svcs })
    (told : w = if r.selected = (s.svc i).selected then v else reportSelection i v) :
    t = if r.state = .degraded ∧ (s.svc i).state ≠ .degraded then
      ((rankOrder s r.candidates).filter (fun d => decide (r.selected ≠ some d))).foldl offer w else w := by
  have committed : v = commit i r s := by
    rw [change, is, (steady_applyChange i r s).svcs]
    exact (commit_parts i r s).symm
  rw [is, applyChange_eq i r s w (committed ▸ told)]
  exact if_congr and_comm rfl rfl

/-- Settles O48. -/
theorem serviceEvaluationTakesRecord : Obligations.ServiceEvaluationTakesRecord := by
  intro s n q i rest report services first
  refine ⟨_, congrArg (fun u => Host.Outcome.next (closeStep u)) (serviceEvaluationEffect_eq report services first), ?_⟩
  obtain ⟨others, rank, inExec, port⟩ := evaluate_parts q i (evaluationTaken n s)
  generalize is : evaluate q i (evaluationTaken n s) = w at others rank inExec port
  have parts := setRankingComplete_parts w
  have more := setRankingComplete_of_more (s := w)
  have unheld := setRankingComplete_of_unheld (s := w)
  have last := fun h sup => setRankingComplete_of_last (s := w) (w := h) (sup := sup)
  generalize setRankingComplete w = u at parts more unheld last
  have svc : ∀ j, u.svc j = w.svc j := fun j => by rw [parts]; rfl
  have rank' : u.rank = (evaluationTaken n s).rank := by rw [parts]; exact rank
  have plan : u.plan = w.plan := by rw [parts]
  refine ⟨fun j other => (svc j).trans (others j other), by rw [rank']; rfl,
    (congrArg RankingEngine.evals rank').trans (withoutFirst_eq report services), fun not => ?unmade,
    fun made r h => ?made, fun h sup held => ⟨fun waits => ?_, fun done => ?_⟩, fun free => ?_⟩
  case unmade =>
    have same : w = evaluationTaken n s := is.symm.trans (evaluate_of_not (s := evaluationTaken n s) not)
    refine ⟨(svc i).trans (same ▸ rfl), ?_⟩
    rw [same] at parts
    exact parts.trans (by rw [rank']; rfl)
  case made =>
    obtain ⟨change, unchanged, changed⟩ := evaluate_made is.symm made r h
    refine ⟨fun state selected => (svc i).trans (unchanged state selected), fun shows => (svc i).trans (changed shows),
      fun v w' x isV isW isX => ?_, fun stays => ?_, fun add degraded was kept distinct isAdd room => ?_⟩
    · have svcs : u.svcs = w.svcs := by rw [parts]
      have told := applyChange_told (s := evaluationTaken n s) change (v := v) (by rw [isV, svcs, rank']; rfl) isW
      rw [rankOrder_congr (s := s) (t := evaluationTaken n s) rfl] at told
      have same : w = x := told.trans isX.symm
      rw [← same]
      exact parts
    · rw [plan, change]
      exact plan_applyChange_of_notDegrading (s := evaluationTaken n s) stays
    · rw [plan, change]
      refine plan_applyChange_of_degrading (s := evaluationTaken n s) was degraded kept distinct ?_ room
      rw [isAdd, List.filter_filter, rankOrder_congr (s := s) (t := evaluationTaken n s) rfl]
      refine List.filter_congr fun d _ => ?_
      rw [Bool.and_assoc, Bool.and_comm]
      rfl
  · have same := more (rank ▸ rank' ▸ waits)
    rw [same]
    exact ⟨inExec, port⟩
  · have completed := last h sup (inExec.trans held) (rank ▸ rank' ▸ done)
    rw [completed, port, rank]
    exact ⟨rfl, rfl⟩
  · rw [unheld fun h sup => inExec ▸ free h sup]
    exact ⟨inExec, port⟩

end Sys2Proof.Machine
end

section
/-! PROOF. One entry of a merged roster (R10, R13, R18, R39, R41). -/

namespace Sys2Proof.Machine

variable {c : CarrierIdx} {again : Bool} {s : State} {l : List ServiceIdx} {x : KeyedEntry} {i : ServiceIdx}
  {r : ServiceRec}

/-! ### The courses of an entry -/

theorem mergeEntry_suppressed (h : x.key ∈ s.svcs.suppressed) : mergeEntry c again (s, l) x = (s, l) := by
  unfold mergeEntry
  exact if_pos h

theorem mergeEntry_held (h : x.key ∉ s.svcs.suppressed) (live : liveRecord s x.key = some i)
    (held : again = true ∨ c ∈ (s.svc i).candidates) : mergeEntry c again (s, l) x
      = (applyChange i { s.svc i with kind := x.kind, name := some x.name } s, l) := by
  unfold mergeEntry
  dsimp only
  rw [if_neg h, live]
  exact if_pos held

theorem mergeEntry_joins (h : x.key ∉ s.svcs.suppressed) (live : liveRecord s x.key = some i)
    (apart : ¬ (again = true ∨ c ∈ (s.svc i).candidates)) (room : (s.svc i).candidates.length < 4) :
    mergeEntry c again (s, l) x
      = joinRecord c i { s.svc i with kind := x.kind, name := some x.name } (s, l) := by
  unfold mergeEntry
  dsimp only
  rw [if_neg h, live]
  exact (if_neg apart).trans (if_pos room)

theorem mergeEntry_overflows (h : x.key ∉ s.svcs.suppressed) (live : liveRecord s x.key = some i)
    (apart : ¬ (again = true ∨ c ∈ (s.svc i).candidates)) (full : ¬ (s.svc i).candidates.length < 4) :
    mergeEntry c again (s, l) x
      = (applyChange i { s.svc i with
          kind := x.kind, name := some x.name, overflow := satSucc 255 (s.svc i).overflow } s, l) := by
  unfold mergeEntry
  dsimp only
  rw [if_neg h, live]
  exact (if_neg apart).trans (if_neg full)

theorem mergeEntry_allocates (h : x.key ∉ s.svcs.suppressed) (none : liveRecord s x.key = none)
    (slot : allocation s x.key = some (i, r)) :
    mergeEntry c again (s, l) x = joinRecord c i { r with kind := x.kind, name := some x.name } (s, l) := by
  unfold mergeEntry
  dsimp only
  rw [if_neg h, none, slot]

theorem mergeEntry_dropped (h : x.key ∉ s.svcs.suppressed) (none : liveRecord s x.key = none)
    (full : allocation s x.key = Option.none) : mergeEntry c again (s, l) x
      = ({ s with svcs := { s.svcs with discoveryOverflow := satSucc 65535 s.svcs.discoveryOverflow } }, l) := by
  unfold mergeEntry
  dsimp only
  rw [if_neg h, none, full]

/-! ### The change of the record -/

theorem announced_applyChange (i : ServiceIdx) (r : ServiceRec) (s : State) (c : CarrierIdx) :
    ((applyChange i r s).car c).announced = (s.car c).announced := by
  obtain ⟨_, _, _, cars⟩ := onlyRecord_applyChange i r s
  have same := congrArg CarrierRec.announced (cars c)
  exact same

theorem svc_applyChange_other {j : ServiceIdx} (r : ServiceRec) (s : State) (other : j ≠ i) :
    (applyChange i r s).svc j = s.svc j := by
  rw [svc_applyChange, if_neg other.symm]

theorem noticed_of_candidates {r r' : ServiceRec} (h : r.candidates ≠ r'.candidates) : noticed r r' = true := by
  simp [noticed, h]

/-- R7: of a change that leaves the state, the selection, the candidates and the pin, the kind and the name show. -/
theorem noticed_iff_of_named {r r' : ServiceRec} (state : r'.state = r.state) (selected : r'.selected = r.selected)
    (candidates : r'.candidates = r.candidates) (pin : r'.pin = r.pin) :
    noticed r r' = true ↔ r.kind ≠ r'.kind ∨ r.name ≠ r'.name := by
  unfold noticed
  rw [state, selected, candidates, pin]
  simp only [decide_true, Bool.true_and, Bool.not_eq_true', Bool.and_eq_false_iff, decide_eq_false_iff_not]
  exact or_comm

/-- R39 step 3: an entry of a candidate's service writes its kind and name, with the overflow count as it becomes. -/
theorem svc_applyChange_named (n : Nat)
    (h : r = { s.svc i with kind := x.kind, name := some x.name, overflow := n }) :
    ((s.svc i).kind = x.kind → (s.svc i).name = some x.name →
      (applyChange i r s).svc i = { s.svc i with overflow := n })
    ∧ ((s.svc i).kind ≠ x.kind ∨ (s.svc i).name ≠ some x.name → (applyChange i r s).svc i
      = { r with generation := (s.svc i).generation + 1, changeEpoch := nextEpoch s.svcs.epoch }) := by
  have shown : noticed (s.svc i) r = true ↔ (s.svc i).kind ≠ x.kind ∨ (s.svc i).name ≠ some x.name := by
    rw [noticed_iff_of_named (r' := r) (by rw [h]) (by rw [h]) (by rw [h]) (by rw [h]), h]
  rw [svc_applyChange_same]
  refine ⟨fun kind name => ?_, fun changed => stamped_of_noticed (shown.mpr changed)⟩
  refine (if_neg fun notice => (shown.mp notice).elim (absurd kind) (absurd name)).trans ?_
  rw [h, ← kind, ← name]

/-- R39 step 4, R41: a join is one change of the record, and the service goes to the announced list. -/
theorem joinRecord_parts (c : CarrierIdx) (i : ServiceIdx) (r : ServiceRec) (s : State) (l : List ServiceIdx) :
    (joinRecord c i r (s, l)).2 = l ++ [i]
    ∧ ((joinRecord c i r (s, l)).1.car c).announced = (s.car c).announced ++ [i]
    ∧ (∀ j, j ≠ i → (joinRecord c i r (s, l)).1.svc j = s.svc j)
    ∧ (joinRecord c i r (s, l)).1.svc i = stamped s i (withCandidate r c) := by
  refine ⟨rfl, ?_, fun j other => svc_applyChange_other _ s other, svc_applyChange_same i _ s⟩
  have car : (joinRecord c i r (s, l)).1.car c = { (applyChange i (withCandidate r c) s).car c with
      announced := ((applyChange i (withCandidate r c) s).car c).announced ++ [i] } :=
    (State.car_setCar (applyChange i (withCandidate r c) s) c c _).trans (if_pos rfl)
  rw [car, announced_applyChange]

theorem withCandidate_eq (r : ServiceRec) (c : CarrierIdx) : withCandidate r c = { r with
    candidates := r.candidates ++ [c],
    state := if r.state = .orphaned then .provisional else r.state,
    orphanAge := if r.state = .orphaned then 0 else r.orphanAge } := by
  unfold withCandidate
  split <;> rfl

theorem stamped_withCandidate (c : CarrierIdx) (same : r.candidates = (s.svc i).candidates) :
    stamped s i (withCandidate r c) = { withCandidate r c with
      generation := (s.svc i).generation + 1, changeEpoch := nextEpoch s.svcs.epoch } := by
  refine stamped_of_noticed (noticed_of_candidates ?_)
  rw [withCandidate_eq, same]
  exact fun is => absurd (congrArg List.length is) (by simp)

/-- R10, R13: an allocated record joins the carrier as its one candidate. -/
theorem stamped_allocated (c : CarrierIdx) (k : Key) (kind kind' : Kind) (name name' : Option (List Byte))
    (dead : (s.svc i).state = .free ∨ (s.svc i).state = .retired)
    (h : r = { (s.svc i).allocated k kind name with kind := kind', name := name' }) :
    stamped s i (withCandidate r c) = {
      state := .provisional, key := some k, kind := kind', name := name', generation := (s.svc i).generation + 1, changeEpoch := nextEpoch s.svcs.epoch, candidates := [c],
      selected := none, pin := none, challenger := none, claimCount := 0, orphanAge := 0, overflow := 0 } := by
  have joined : withCandidate r c = { r with candidates := [c] } := by rw [h]; rfl
  rw [joined, stamped_of_noticed (noticed_of_state ?_), h]
  · rfl
  · rw [h]
    obtain free | retired := dead
    · exact ne_of_eq_of_ne free SvcState.noConfusion
    · exact ne_of_eq_of_ne retired SvcState.noConfusion

theorem svc_mergeEntry_other {j : ServiceIdx} (h : x.key ∉ s.svcs.suppressed) (live : liveRecord s x.key = some i)
    (other : j ≠ i) : (mergeEntry c again (s, l) x).1.svc j = s.svc j := by
  by_cases held : again = true ∨ c ∈ (s.svc i).candidates
  · rw [mergeEntry_held h live held]
    exact svc_applyChange_other _ s other
  · by_cases room : (s.svc i).candidates.length < 4
    · rw [mergeEntry_joins h live held room]
      exact svc_applyChange_other _ s other
    · rw [mergeEntry_overflows h live held room]
      exact svc_applyChange_other _ s other

/-- Settles O43, by the courses of the entry. -/
theorem mergeEntryChangesRecord : Obligations.MergeEntryChangesRecord := by
  refine ⟨fun c acc seen x xs => ⟨rfl, rfl⟩, fun s u c again l m x is => ⟨fun barred => ?suppressed, fun open' =>
    ⟨fun i r live key alone isR => ?live, fun i slot => ?allocated, fun unused full => ?full⟩⟩⟩
  case suppressed =>
    obtain ⟨rfl, rfl⟩ := Prod.mk.inj ((mergeEntry_suppressed barred).symm.trans is)
    exact ⟨rfl, rfl⟩
  case live =>
    have found := liveRecord_eq_some s x.key i live key alone
    refine ⟨fun j other => ?others, fun held => ?held, fun first apart room => ?joins, fun first apart crowd => ?overflows⟩
    case others =>
      have kept := svc_mergeEntry_other (c := c) (again := again) (l := l) open' found other
      rwa [is] at kept
    case held =>
      obtain ⟨rfl, rfl⟩ := Prod.mk.inj ((mergeEntry_held open' found held).symm.trans is)
      obtain ⟨same, changed⟩ := svc_applyChange_named (s := s) (i := i) (x := x) (s.svc i).overflow rfl
      exact ⟨rfl, announced_applyChange i _ s c, same, isR ▸ changed⟩
    case joins =>
      have not : ¬ (again = true ∨ c ∈ (s.svc i).candidates) := fun held =>
        held.elim (fun again => Bool.noConfusion (first.symm.trans again)) apart
      have run := (mergeEntry_joins (l := l) open' found not room).symm.trans is
      rw [← isR] at run
      obtain ⟨list, announced, _, record⟩ := joinRecord_parts c i r s l
      rw [run] at list announced record
      refine ⟨list, announced, record.trans ((stamped_withCandidate c (isR ▸ rfl)).trans ?_)⟩
      rw [withCandidate_eq, isR]
    case overflows =>
      have not : ¬ (again = true ∨ c ∈ (s.svc i).candidates) := fun held =>
        held.elim (fun again => Bool.noConfusion (first.symm.trans again)) apart
      obtain ⟨rfl, rfl⟩ := Prod.mk.inj ((mergeEntry_overflows open' found not (Nat.not_lt.mpr crowd)).symm.trans is)
      refine ⟨rfl, announced_applyChange i _ s c, fun n count => ?_⟩
      obtain ⟨same, changed⟩ := svc_applyChange_named (s := s) (i := i) (x := x) n rfl
      rw [count] at same changed ⊢
      refine ⟨same, fun shows => ?_⟩
      rw [isR]
      exact changed shows
  case allocated =>
    have slotted : ∃ r kind name, liveRecord s x.key = none ∧ allocation s x.key = some (i, r)
        ∧ r = (s.svc i).allocated x.key kind name ∧ ((s.svc i).state = .free ∨ (s.svc i).state = .retired) := by
      obtain ⟨tomb, key, alone⟩ | ⟨unused, place⟩ := slot
      · exact ⟨_, _, _, liveRecord_of_tombstone s x.key i tomb key alone, allocation_revives s x.key i tomb key alone,
          rfl, .inr tomb⟩
      · exact ⟨_, _, _, liveRecord_eq_none s x.key unused, allocation_takes s x.key i unused place, rfl,
          place.imp And.left fun h => h.2.1⟩
    obtain ⟨r, kind, name, none, given, isR, dead⟩ := slotted
    have run := (mergeEntry_allocates (c := c) (again := again) (l := l) open' none given).symm.trans is
    obtain ⟨list, announced, others, record⟩ := joinRecord_parts c i { r with kind := x.kind, name := some x.name } s l
    rw [run] at list announced others record
    exact ⟨list, announced, others, record.trans (stamped_allocated c x.key kind x.kind name (some x.name) dead
      (isR ▸ rfl))⟩
  case full =>
    have run := (mergeEntry_dropped (c := c) (again := again) (l := l) open' (liveRecord_eq_none s x.key unused)
      (allocation_full s x.key full)).symm.trans is
    obtain ⟨rfl, rfl⟩ := Prod.mk.inj run
    exact ⟨rfl, rfl⟩

end Sys2Proof.Machine
end

section
/-! SUPPORT. The sections a collection holds (R30, R31, R33, R34). -/

namespace Sys2Proof.Machine

variable {k : Collection} {x : AnnSection}

theorem take_starts (h : k.version ≠ some x.version) :
    k.take x = ⟨some x.version, x.last, [keptSection x], k.malformed⟩ := if_neg h

theorem take_marks (h : k.version = some x.version) (last : x.last ≠ k.last) : k.take x = { k with malformed := true } :=
  (if_pos h).trans (if_pos last)

theorem take_repeated (h : k.version = some x.version) (last : x.last = k.last) (held : ∃ z ∈ k.held, z.number = x.number) :
    k.take x = k := by
  obtain ⟨z, mem, number⟩ := held
  refine (if_pos h).trans ((if_neg (not_not.mpr last)).trans (if_pos ?_))
  exact List.any_eq_true.mpr ⟨z, mem, decide_eq_true number⟩

theorem take_inserts (h : k.version = some x.version) (last : x.last = k.last) (fresh : ∀ z ∈ k.held, z.number ≠ x.number) :
    k.take x = { k with held := insertSection (keptSection x) k.held } := by
  refine (if_pos h).trans ((if_neg (not_not.mpr last)).trans (if_neg fun held => ?_))
  obtain ⟨z, mem, number⟩ := List.any_eq_true.mp held
  exact fresh z mem (of_decide_eq_true number)

theorem take_sorted (k : Collection) (x : AnnSection) (h : k.held.Pairwise (fun a b => a.number < b.number)) :
    (k.take x).held.Pairwise (fun a b => a.number < b.number) := by
  by_cases version : k.version = some x.version
  · by_cases last : x.last = k.last
    · by_cases fresh : ∀ z ∈ k.held, z.number ≠ x.number
      · rw [take_inserts version last fresh]
        exact insertSection_sorted _ _ h fresh
      · rw [take_repeated version last (by simpa using fresh)]
        exact h
    · rw [take_marks version last]
      exact h
  · rw [take_starts version]
    exact List.pairwise_singleton _ _

theorem complete_iff (k : Collection) :
    k.complete = true ↔ k.version ≠ none ∧ ∀ n, n ≤ k.last → ∃ z ∈ k.held, z.number = n := by
  unfold Collection.complete
  rw [Bool.and_eq_true, Option.isSome_iff_ne_none, List.all_eq_true]
  refine and_congr_right fun _ => ⟨fun all n le => ?_, fun all n mem => ?_⟩
  · obtain ⟨z, mem, number⟩ := List.any_eq_true.mp (all n (List.mem_range.mpr (Nat.lt_succ_of_le le)))
    exact ⟨z, mem, of_decide_eq_true number⟩
  · obtain ⟨z, mem, number⟩ := all n (Nat.le_of_lt_succ (List.mem_range.mp mem))
    exact List.any_eq_true.mpr ⟨z, mem, decide_eq_true number⟩

theorem version_take (k : Collection) (x : AnnSection) : (k.take x).version = some x.version := by
  by_cases version : k.version = some x.version
  · by_cases last : x.last = k.last
    · by_cases fresh : ∀ z ∈ k.held, z.number ≠ x.number
      · rw [take_inserts version last fresh]
        exact version
      · rw [take_repeated version last (by simpa using fresh)]
        exact version
    · rw [take_marks version last]
      exact version
  · rw [take_starts version]

theorem sectionMalformed_iff (x : AnnSection) : sectionMalformed x = true
    ↔ 5 < x.number ∨ 5 < x.last ∨ x.last < x.number ∨ 8 < x.entries.length ∨ ∃ y ∈ x.entries, 16 < y.name.length := by
  unfold sectionMalformed
  simp only [Bool.or_eq_true, decide_eq_true_eq, List.any_eq_true, or_assoc]

theorem confirming_iff (r : CarrierRec) (x : AnnSection) :
    confirming r x = true ↔ r.rosterVersion = some x.version ∧ r.stale = false := by
  unfold confirming
  rw [Bool.and_eq_true, decide_eq_true_eq, Bool.not_eq_true']

end Sys2Proof.Machine
end

section
/-! SUPPORT. The departure of a carrier from the candidates of a service (R10, R11, R41, R69). -/

namespace Sys2Proof.Machine

/-- Two states in which every carrier has the same score and eligibility, under the same settings. -/
structure RanksAlike (s t : State) : Prop where
  eligible : ∀ d, Machine.eligible t d = Machine.eligible s d
  score : ∀ d, Machine.score t d = Machine.score s d
  settings : t.rank.settings = s.rank.settings

theorem RanksAlike.trans {s t u : State} (a : RanksAlike s t) (b : RanksAlike t u) : RanksAlike s u :=
  ⟨fun d => (b.eligible d).trans (a.eligible d), fun d => (b.score d).trans (a.score d), b.settings.trans a.settings⟩

/-- What leaves the state and the quality of every carrier, and the settings. -/
theorem ranksAlike_of_parts {s t : State} (state : ∀ d, (t.car d).state = (s.car d).state)
    (quality : ∀ d, (t.car d).quality = (s.car d).quality) (settings : t.rank.settings = s.rank.settings) :
    RanksAlike s t := by
  refine ⟨fun d => ?_, fun d => ?_, settings⟩
  · unfold Machine.eligible
    rw [state, quality]
  · unfold Machine.score
    rw [quality]

theorem AnnouncesOnly.ranksAlike {c : CarrierIdx} {s t : State} (h : AnnouncesOnly c s t)
    (settings : t.rank.settings = s.rank.settings) : RanksAlike s t := by
  have own := h.own
  have each : ∀ d, (t.car d).state = (s.car d).state ∧ (t.car d).quality = (s.car d).quality := fun d => by
    by_cases same : d = c
    · subst same
      exact ⟨by have := congrArg CarrierRec.state own; exact this, by have := congrArg CarrierRec.quality own; exact this⟩
    · have other := h.others d same
      exact ⟨by have := congrArg CarrierRec.state other; exact this,
        by have := congrArg CarrierRec.quality other; exact this⟩
  exact ranksAlike_of_parts (fun d => (each d).1) (fun d => (each d).2) settings

theorem RanksAlike.departed {s t : State} (h : RanksAlike s t) (r : ServiceRec) (c : CarrierIdx) :
    departed t r c = departed s r c := by
  have order : ∀ l, firstEligible t l = firstEligible s l := fun l => by
    unfold firstEligible
    rw [rankOrder_agree h.eligible h.score, funext h.eligible]
  have judged : ∀ d, verdict t d = verdict s d := fun d => by
    unfold verdict
    rw [h.eligible, h.score, h.settings]
  unfold Machine.departed reselected withSelection
  simp only [order, judged]

section Record
variable {s : State} {r : ServiceRec} {c : CarrierIdx}

theorem departed_of_resting (listed : r.state ≠ .listed) (degraded : r.state ≠ .degraded) :
    departed s r c = withoutCandidate r c := by
  unfold departed
  dsimp only
  split
  next is => exact absurd is listed
  next is => exact absurd is degraded
  all_goals rfl

theorem departed_of_selected (h : r.state = .listed ∨ r.state = .degraded) : departed s r c
    = if (withoutCandidate r c).candidates = [] then orphaned (withoutCandidate r c)
      else if r.selected = some c then reselected s (withoutCandidate r c) else withoutCandidate r c := by
  unfold departed
  obtain state | state := h <;> simp only [state]

/-- R11, R69: a departure, in the words of the statements. -/
theorem departs_departed (s : State) (c : CarrierIdx) (r : ServiceRec) : Departs s c r (departed s r c) := by
  intro b isB
  have base : b = withoutCandidate r c := isB
  clear isB
  subst base
  refine ⟨fun stays => ?_, fun state => ⟨fun empty => ?_, fun left selected => ⟨fun lost => ?_, fun d first => ?_⟩⟩⟩
  · by_cases state : r.state = .listed ∨ r.state = .degraded
    · obtain ⟨listed, degraded⟩ | ⟨left, other⟩ := stays
      · exact absurd state (not_or.mpr ⟨listed, degraded⟩)
      · rw [departed_of_selected state, if_neg left, if_neg other]
    · exact departed_of_resting (not_or.mp state).1 (not_or.mp state).2
  · rw [departed_of_selected state, if_pos empty]
    rfl
  · rw [departed_of_selected state, if_neg left, if_pos selected]
    unfold reselected
    rw [firstEligible_eq_none lost]
  · rw [departed_of_selected state, if_neg left, if_pos selected]
    unfold reselected
    rw [firstEligible_eq_some first]
    obtain ⟨_, ok, _⟩ := first
    exact congrArg (fun st => { withoutCandidate r c with selected := some d, challenger := none, state := st })
      (verdict_of_eligible ok)

theorem candidates_departed (s : State) (r : ServiceRec) (c : CarrierIdx) : c ∉ (departed s r c).candidates := by
  obtain ⟨gone, _⟩ := departed_candidates s r c
  rw [gone]
  exact fun mem => of_decide_eq_true (List.mem_filter.mp mem).2 rfl

end Record

/-- A service that has no candidate on a carrier keeps its record when the carrier departs from others. -/
theorem svc_depart_of_absent {c : CarrierIdx} {s : State} {i : ServiceIdx} (absent : c ∉ (s.svc i).candidates)
    (j : ServiceIdx) : (depart c s j).svc i = s.svc i := by
  by_cases same : i = j
  · subst same
    have stays : depart c s i = unannounce i s c := if_neg absent
    rw [stays]
    rfl
  · exact (svc_depart c s j i).1 same

theorem svc_departs_of_absent {c : CarrierIdx} {i : ServiceIdx} (l : List ServiceIdx) {s : State}
    (absent : c ∉ (s.svc i).candidates) : (l.foldl (depart c) s).svc i = s.svc i := by
  induction l generalizing s with
  | nil => rfl
  | cons j l ih =>
    have same := svc_depart_of_absent absent j
    rw [List.foldl_cons, ih (same ▸ absent), same]

/-- R10, R41: the departure of a carrier from one service, as one change of its record. -/
theorem svc_depart_own {c : CarrierIdx} {s : State} {i : ServiceIdx} (mem : c ∈ (s.svc i).candidates) :
    (depart c s i).svc i = { departed s (s.svc i) c with
      generation := (s.svc i).generation + 1, changeEpoch := nextEpoch s.svcs.epoch } := by
  have alike : RanksAlike s (unannounce i s c) := (announcesOnly_modCar c _ s).ranksAlike rfl
  have run : depart c s i = applyChange i (departed s (s.svc i) c) (unannounce i s c) := by
    rw [← alike.departed]
    exact if_pos mem
  rw [run, svc_applyChange_same]
  refine stamped_of_noticed (noticed_of_candidates fun same => ?_)
  exact candidates_departed s (s.svc i) c (same ▸ mem)

/-- R40, R69: what the departures from a list of services make of the record of each. -/
theorem departs_of_mem {c : CarrierIdx} {i : ServiceIdx} {l : List ServiceIdx} (mem : i ∈ l) {s t : State}
    (alike : RanksAlike s t) (held : c ∈ (t.svc i).candidates) :
    ∃ r, Departs s c (t.svc i) r ∧ (l.foldl (depart c) t).svc i = { r with
      generation := (t.svc i).generation + 1, changeEpoch := ((l.foldl (depart c) t).svc i).changeEpoch } := by
  induction l generalizing t with
  | nil => exact absurd mem List.not_mem_nil
  | cons j l ih =>
    rw [List.foldl_cons]
    by_cases here : i = j
    · subst here
      have own := svc_depart_own held
      have absent : c ∉ ((depart c t i).svc i).candidates := by
        rw [own]
        exact candidates_departed t (t.svc i) c
      rw [svc_departs_of_absent l absent, own]
      exact ⟨_, departs_departed s c _, by rw [alike.departed]⟩
    · have same := (svc_depart c t j i).1 here
      have next : RanksAlike s (depart c t j) :=
        alike.trans ((announcesOnly_depart c t j).ranksAlike (by rw [rank_depart]))
      have rest := ih ((List.mem_cons.mp mem).resolve_left here) next (same ▸ held)
      rwa [same] at rest

end Sys2Proof.Machine
end

section
/-! SUPPORT. The merge, from the records its entries and departures leave (R38 to R41, R61). -/

namespace Sys2Proof.Machine

/-- R39: the state and the joined services once the entries of a roster have been applied. -/
def rosterEntries (c : CarrierIdx) (k : Collection) (v : RosterVersion) (s : State) : State × List ServiceIdx :=
  mergeEntries c [] (keyedEntries k.held) (mergeHead c v k.malformed s, [])

/-- R39: the keys of a roster in order. -/
def rosterKeys (k : Collection) : List Key := (keyedEntries k.held).map KeyedEntry.key

/-- R40: the state once the services that no entry names have lost the carrier. -/
def rosterRecords (c : CarrierIdx) (k : Collection) (v : RosterVersion) (s : State) : State :=
  mergeDepartures c (s.car c).announced (rosterKeys k) (rosterEntries c k v s).1

/-- R40, R41: the announced list rebuilt. -/
def rosterServices (c : CarrierIdx) (k : Collection) (t : State) : List ServiceIdx :=
  (((rosterKeys k).filterMap (keyMap t)).filter (fun i => decide (c ∈ (t.svc i).candidates))).eraseDups

/-- R40: the services of the rebuilt list that the merge has joined to the carrier. -/
def rosterJoined (c : CarrierIdx) (k : Collection) (v : RosterVersion) (s : State) : List ServiceIdx :=
  (rosterServices c k (rosterRecords c k v s)).filter (fun i => decide (i ∈ (rosterEntries c k v s).2))

variable {c : CarrierIdx} {k : Collection} {v : RosterVersion} {s : State}

theorem rosterKeys_eq (k : Collection) :
    rosterKeys k = k.held.flatMap (fun y => y.entries.map (fun e => ⟨y.network, e.service⟩)) := by
  unfold rosterKeys keyedEntries
  rw [List.map_flatMap]
  simp only [List.map_map]
  rfl

/-- R40: the services of an announced list that no entry of a roster names. -/
def unnamedServices (s : State) (keys : List Key) (old : List ServiceIdx) : List ServiceIdx :=
  old.filter (fun i => (s.svc i).key.elim true (fun k => decide (k ∉ keys)))

theorem mem_unnamedServices {s : State} {keys : List Key} {old : List ServiceIdx} {i : ServiceIdx} :
    i ∈ unnamedServices s keys old ↔ i ∈ old ∧ ∀ y ∈ keys, (s.svc i).key ≠ some y := by
  unfold unnamedServices
  rw [List.mem_filter]
  refine and_congr_right fun _ => ?_
  cases (s.svc i).key with
  | none => simp
  | some y =>
    rw [Option.elim_some, decide_eq_true_eq]
    exact ⟨fun absent z mem same => absent (Option.some.inj same ▸ mem), fun apart mem => apart y mem rfl⟩

theorem mergeDepartures_unnamed (c : CarrierIdx) (old : List ServiceIdx) (keys : List Key) (s : State) :
    mergeDepartures c old keys s = (unnamedServices s keys old).foldl (depart c) s := by
  refine congrArg (List.foldl (depart c) s) (List.filter_congr fun i _ => ?_)
  cases (s.svc i).key <;> rfl

/-- The end of a merge writes the evaluations and the announced list alone. -/
structure RosterEnds (c : CarrierIdx) (k : Collection) (v : RosterVersion) (s t u : State) : Prop where
  svcs : u.svcs = t.svcs
  mons : u.mons = t.mons
  claims : u.claims = t.claims
  plan : u.plan = t.plan
  inExec : u.inExec = t.inExec
  port : u.port = t.port
  announced : (u.car c).announced = rosterServices c k t
  settings : u.rank.settings = s.rank.settings
  evals : u.rank.evals = if eligible s c = true ∧ rosterJoined c k v s ≠ []
    then s.rank.evals ++ [⟨.merge, some c, rosterJoined c k v s⟩] else s.rank.evals

theorem merge_eq (version : k.version = some v) (defined : (s.car c).state ≠ .free) : merge c k s
    = mergeEvaluations c (rosterEntries c k v s).2 (mergeRebuild c (rosterKeys k) (rosterRecords c k v s)) := by
  unfold merge
  simp only [version]
  exact if_neg defined

theorem mergeEvaluations_eq (c : CarrierIdx) (new : List ServiceIdx) (s : State) : mergeEvaluations c new s
    = { s with rank := { s.rank with
        evals := (if eligible s c = true ∧ (s.car c).announced.filter (fun i => decide (i ∈ new)) ≠ [] then
            s.rank.evals ++ [⟨.merge, some c, (s.car c).announced.filter (fun i => decide (i ∈ new))⟩]
          else s.rank.evals) } } := by
  unfold mergeEvaluations
  by_cases ok : eligible s c = true
  · rw [if_pos ok, pushReport_eq]
    simp only [ok, true_and, ne_eq, ite_not]
  · rw [if_neg ok, if_neg fun h => ok h.1]

/-- R38: the head of a merge counts a new roster version and writes the carrier. -/
theorem mergeHead_eq (c : CarrierIdx) (v : RosterVersion) (m : Bool) (s : State) : mergeHead c v m s
    = (if (s.car c).rosterVersion = some v then s else countEvent .rosterVersionChanged none (some c) s).setCar c
      { s.car c with rosterVersion := some v, stale := false, malformed := m } := by
  unfold mergeHead
  by_cases same : (s.car c).rosterVersion = some v
  · rw [if_pos same, if_neg (not_not.mpr same)]
    rfl
  · rw [if_neg same, if_pos same]
    rfl

theorem rank_mergeHead (c : CarrierIdx) (v : RosterVersion) (m : Bool) (s : State) : (mergeHead c v m s).rank = s.rank := by
  rw [mergeHead_eq]
  split <;> rfl

theorem car_mergeHead (c : CarrierIdx) (v : RosterVersion) (m : Bool) (s : State) (d : CarrierIdx) :
    (mergeHead c v m s).car d
      = if c = d then { s.car c with rosterVersion := some v, stale := false, malformed := m } else s.car d := by
  rw [mergeHead_eq, State.car_setCar]
  refine if_congr Iff.rfl rfl ?_
  split <;> rfl

theorem ranksAlike_mergeHead (c : CarrierIdx) (v : RosterVersion) (m : Bool) (s : State) :
    RanksAlike s (mergeHead c v m s) := by
  have each : ∀ d, ((mergeHead c v m s).car d).state = (s.car d).state
      ∧ ((mergeHead c v m s).car d).quality = (s.car d).quality := fun d => by
    rw [car_mergeHead]
    split
    next same =>
      subst same
      exact ⟨rfl, rfl⟩
    next => exact ⟨rfl, rfl⟩
  exact ranksAlike_of_parts (fun d => (each d).1) (fun d => (each d).2) (congrArg RankingEngine.settings (rank_mergeHead c v m s))

theorem rank_rosterEntries (c : CarrierIdx) (k : Collection) (v : RosterVersion) (s : State) :
    (rosterEntries c k v s).1.rank = s.rank :=
  (rank_mergeEntries c [] _ _).trans (rank_mergeHead c v _ s)

theorem rank_rosterRecords (c : CarrierIdx) (k : Collection) (v : RosterVersion) (s : State) :
    (rosterRecords c k v s).rank = s.rank :=
  (rank_departs c _ _).trans (rank_rosterEntries c k v s)

theorem ranksAlike_rosterEntries (c : CarrierIdx) (k : Collection) (v : RosterVersion) (s : State) :
    RanksAlike s (rosterEntries c k v s).1 :=
  (ranksAlike_mergeHead c v k.malformed s).trans ((announcesOnly_mergeEntries c [] (keyedEntries k.held)
    (mergeHead c v k.malformed s, [])).ranksAlike (congrArg RankingEngine.settings (rank_mergeEntries c [] _ _)))

theorem ranksAlike_rosterRecords (c : CarrierIdx) (k : Collection) (v : RosterVersion) (s : State) :
    RanksAlike s (rosterRecords c k v s) :=
  (ranksAlike_rosterEntries c k v s).trans ((announcesOnly_departs c _ _).ranksAlike
    (congrArg RankingEngine.settings (rank_departs c _ _)))

/-- R40, R69: a service of the announced list that no entry names loses the carrier. -/
theorem departs_rosterRecords {r : State} {i : ServiceIdx} (start : RanksAlike r s) (announced : i ∈ (s.car c).announced)
    (unnamed : ∀ y ∈ rosterKeys k, ((rosterEntries c k v s).1.svc i).key ≠ some y)
    (held : c ∈ ((rosterEntries c k v s).1.svc i).candidates) :
    ∃ r', Departs r c ((rosterEntries c k v s).1.svc i) r' ∧ (rosterRecords c k v s).svc i = { r' with
      generation := ((rosterEntries c k v s).1.svc i).generation + 1,
      changeEpoch := ((rosterRecords c k v s).svc i).changeEpoch } := by
  have alike := start.trans (ranksAlike_rosterEntries c k v s)
  unfold rosterRecords
  rw [mergeDepartures_unnamed]
  exact departs_of_mem (mem_unnamedServices.mpr ⟨announced, unnamed⟩) alike held

theorem svc_rosterRecords_stays {i : ServiceIdx} (h : i ∉ (s.car c).announced
    ∨ (∃ y ∈ rosterKeys k, ((rosterEntries c k v s).1.svc i).key = some y)
    ∨ c ∉ ((rosterEntries c k v s).1.svc i).candidates) :
    (rosterRecords c k v s).svc i = (rosterEntries c k v s).1.svc i := by
  unfold rosterRecords
  rw [mergeDepartures_unnamed]
  obtain other | ⟨y, mem, key⟩ | absent := h
  · exact (svc_departs c _ _ i).1 fun mem => other (mem_unnamedServices.mp mem).1
  · exact (svc_departs c _ _ i).1 fun listed => (mem_unnamedServices.mp listed).2 y mem key
  · exact svc_departs_of_absent _ absent

theorem mergeRebuild_eq (c : CarrierIdx) (k : Collection) (t : State) : mergeRebuild c (rosterKeys k) t
    = t.setCar c { t.car c with announced := rosterServices c k t } := rfl

theorem rosterEnds_merge (version : k.version = some v) (defined : (s.car c).state ≠ .free) :
    RosterEnds c k v s (rosterRecords c k v s) (merge c k s) := by
  rw [merge_eq version defined, mergeEvaluations_eq]
  have announced : ((mergeRebuild c (rosterKeys k) (rosterRecords c k v s)).car c).announced
      = rosterServices c k (rosterRecords c k v s) := by
    rw [mergeRebuild_eq, State.car_setCar, if_pos rfl]
  have ok : eligible (mergeRebuild c (rosterKeys k) (rosterRecords c k v s)) c = eligible s c :=
    ((announcesOnly_modCar c _ _).ranksAlike rfl).eligible c |>.trans ((ranksAlike_rosterRecords c k v s).eligible c)
  have rank : (mergeRebuild c (rosterKeys k) (rosterRecords c k v s)).rank = s.rank := rank_rosterRecords c k v s
  refine ⟨rfl, rfl, rfl, rfl, rfl, rfl, announced, ?_, ?_⟩
  · exact (congrArg RankingEngine.settings rank :)
  rw [announced, ok, rank]
  rfl

end Sys2Proof.Machine
end

section
/-! PROOF. Announcement sections (R30 to R35, R37 to R41). -/

namespace Sys2Proof.Machine

variable {s : State} {p : PathIdx} {x : AnnSection} {c : CarrierIdx} {k : Collection}

/-! ### The courses of a section -/

theorem sectionEffect_of_resting (h : (s.path p).state ≠ .engaged ∨ (s.path p).collection = none) :
    sectionEffect p x s = s := by
  unfold sectionEffect
  dsimp only
  split
  next state gathers _ => exact h.elim (absurd state) fun none => nomatch none.symm.trans gathers
  next => rfl

theorem sectionEffect_of_engaged (state : (s.path p).state = .engaged) (gathers : (s.path p).collection = some k)
    (carrier : (s.path p).carrier = some c) : sectionEffect p x s
      = if sectionMalformed x = true then s.modPath p (fun r => { r with collection := some { k with malformed := true } })
        else if (s.path p).use = some .carry then carrySection p c k x s else scanSection p c k x s := by
  unfold sectionEffect
  simp only [state, gathers, carrier]

theorem carrySection_confirms (h : confirming (s.car c) x = true) :
    carrySection p c k x s = s.setPath p { s.path p with collection := some ⟨none, 0, [], false⟩ } := if_pos h

theorem carrySection_gathers (h : ¬ confirming (s.car c) x = true) (more : (k.take x).complete = false) :
    carrySection p c k x s = s.setPath p { s.path p with collection := some (k.take x) } :=
  (if_neg h).trans (if_neg (Bool.eq_false_iff.mp more))

theorem carrySection_completes (h : ¬ confirming (s.car c) x = true) (done : (k.take x).complete = true) :
    carrySection p c k x s
      = merge c (k.take x) (s.setPath p { s.path p with collection := some ⟨none, 0, [], false⟩ }) :=
  (if_neg h).trans (if_pos done)

/-- R32: the state in which a section has confirmed the roster of the carrier. -/
def confirmed (p : PathIdx) (c : CarrierIdx) (k : Collection) (s : State) : State :=
  (endListening p s).modCar c (fun r => { r with malformed := k.malformed })

theorem scanSection_confirms (h : confirming (s.car c) x = true) (version : k.version ≠ some x.version) :
    scanSection p c k x s = endWork p (confirmed p c k s) := if_pos ⟨version, h⟩

theorem scanSection_gathers (h : ¬ confirming (s.car c) x = true) (more : (k.take x).complete = false) :
    scanSection p c k x s = s.setPath p { s.path p with collection := some (k.take x) } :=
  (if_neg fun both => h both.2).trans (if_neg (Bool.eq_false_iff.mp more))

theorem scanSection_completes (h : ¬ confirming (s.car c) x = true) (done : (k.take x).complete = true) :
    scanSection p c k x s = endWork p (merge c (k.take x) (endListening p s)) :=
  (if_neg fun both => h both.2).trans (if_pos done)

/-! ### A section that completes its collection -/

/-- R31, R37: the state in which the path has given its complete collection to the merge. -/
def collected (p : PathIdx) (s : State) : State := s.setPath p (if (s.path p).use = some .carry
  then { s.path p with collection := some ⟨none, 0, [], false⟩ }
  else { s.path p with listening := false, collection := none, rosterTimer := none })

theorem path_collected (p q : PathIdx) (s : State) : (collected p s).path q = if p = q then
    (if (s.path p).use = some .carry then { s.path p with collection := some ⟨none, 0, [], false⟩ }
      else { s.path p with listening := false, collection := none, rosterTimer := none })
    else s.path q := State.path_setPath s p q _

theorem follows_collected (p : PathIdx) (s : State) : Follows s (collected p s) :=
  follows_setPath p _ s (by split <;> rfl)

/-- R94: the end of a visit that has done its work counts nothing. -/
theorem mons_endWork (p : PathIdx) (s : State) : (endWork p s).mons = s.mons := by
  have report : ∀ u c, (visitEndReport u c .completed s).mons = s.mons := fun u c => by
    cases u with
    | queue => exact mons_visitEnded c _
    | carry => rfl
    | sweep => rfl
  unfold endWork endScanVisit
  dsimp only
  split
  · split
    · exact (leavingOnly_leaveCarrier p _).mons.trans (report _ _)
    · exact (leavingOnly_leaveCarrier p _).mons
  · rfl

/-- R94: a path whose listening has ended listens no more, whether its visit is over or not. -/
theorem quiet_of_workOver {r : PathRec} {t u : State} (h : WorkOver p c t u)
    (own : t.path p = { r with listening := false, collection := none, rosterTimer := none }) :
    (u.path p).listening = false ∧ (u.path p).collection = none := by
  have goesOn := h.goesOn
  have ends := h.ends
  rw [own] at goesOn ends
  cases done : r.accum.burstDone with
  | true =>
    rw [(ends done).1]
    obtain ⟨listening, collection, _⟩ := leftPath_quiet t.now
      { r with listening := false, collection := none, rosterTimer := none }
    exact ⟨listening, collection⟩
  | false =>
    rw [goesOn done, own]
    exact ⟨rfl, rfl⟩

/-- What a merge that ends the collection of a path comes to, with the end of a scan path's work. -/
structure SectionOver (p : PathIdx) (c : CarrierIdx) (s m u : State) : Prop where
  follows : Follows s u
  carriers : u.carriers = m.carriers
  claims : u.claims = m.claims
  svcs : u.svcs = m.svcs
  rank : u.rank = m.rank
  scan : (s.path p).use ≠ some .carry → (u.path p).listening = false ∧ (u.path p).collection = none
  carry : (s.path p).use = some .carry → (u.path p).state = .engaged →
    (u.path p).collection = some ⟨none, 0, [], false⟩
  mons : u.mons = m.mons
  plan : (s.path p).use = some .carry ∨ (s.path p).accum.burstDone = false → u.plan = m.plan
  ends : (s.path p).use ≠ some .carry → (s.path p).accum.burstDone = true → VisitEnds (s.path p).use c false m u

theorem sectionOver_carry {m : State} (carry : (s.path p).use = some .carry) (h : Releases (collected p s) m) :
    SectionOver p c s m m := by
  refine ⟨(follows_collected p s).trans h.follows, rfl, rfl, rfl, rfl, fun scan => absurd carry scan,
    fun _ engaged => ?_, rfl, fun _ => rfl, fun scan => absurd carry scan⟩
  have own := (path_collected p p s).trans ((if_pos rfl).trans (if_pos carry))
  obtain same | ⟨_, _, left⟩ := h.path p
  · rw [same, own]
  · rw [left] at engaged
    obtain dwell | recovery := leftPath_state (collected p s).now ((collected p s).path p)
    · exact absurd (dwell.symm.trans engaged) PathState.noConfusion
    · exact absurd (recovery.symm.trans engaged) PathState.noConfusion

theorem sectionOver_scan {m : State} (scan : (s.path p).use ≠ some .carry) (state : (s.path p).state = .engaged)
    (carrier : (s.path p).carrier = some c) (h : Releases (collected p s) m) : SectionOver p c s m (endWork p m) := by
  have own := (path_collected p p s).trans ((if_pos rfl).trans (if_neg scan))
  have path : m.path p = { s.path p with listening := false, collection := none, rosterTimer := none } := by
    obtain same | ⟨carry, _⟩ := h.path p
    · exact same.trans own
    · rw [own] at carry
      exact absurd carry scan
  have work : WorkOver p c m (endWork p m) := workOver_endWork (by rw [path])
    (by rw [path]; exact ne_of_eq_of_ne state PathState.noConfusion) (by rw [path]; exact carrier)
  have goesOn := work.goesOn
  have ends := work.ends
  rw [path] at goesOn ends
  refine ⟨((follows_collected p s).trans h.follows).trans work.follows, work.carriers, work.claims, work.svcs, work.rank,
    fun _ => quiet_of_workOver work path, fun carry => absurd carry scan, mons_endWork p m, fun open' => ?_,
    fun _ done => (ends done).2⟩
  rw [goesOn (open'.resolve_left scan)]

/-! ### A section that confirms the roster on a scan path -/

theorem path_confirmed (p : PathIdx) (c : CarrierIdx) (k : Collection) (s : State) : (confirmed p c k s).path p
    = { s.path p with listening := false, collection := none, rosterTimer := none } := path_endListening p s

theorem car_confirmed (p : PathIdx) (c : CarrierIdx) (k : Collection) (s : State) :
    (confirmed p c k s).car c = { s.car c with malformed := k.malformed } :=
  (State.car_setCar (endListening p s) c c _).trans (if_pos rfl)

theorem follows_confirmed (p : PathIdx) (c : CarrierIdx) (k : Collection) (s : State) : Follows s (confirmed p c k s) :=
  (follows_endListening p s).trans (follows_of_paths rfl rfl)

/-- Every field of a carrier record but its carrying path and its announced list. -/
theorem ownFields {a b : CarrierRec} (h : { a with carrying := none, announced := [] }
    = { b with carrying := none, announced := [] }) : a.state = b.state ∧ a.params = b.params
      ∧ a.failures = b.failures ∧ a.quality = b.quality ∧ a.rosterVersion = b.rosterVersion ∧ a.stale = b.stale
      ∧ a.malformed = b.malformed := by
  injection h with state params failures quality version stale malformed
  exact ⟨state, params, failures, quality, version, stale, malformed⟩

theorem exec_section_of_wellFormed (state : (s.path p).state = .engaged) (gathers : (s.path p).collection = some k)
    (carrier : (s.path p).carrier = some c) (formed : sectionMalformed x = false) : exec (.announcementSection p x) s
      = .next (closeStep (if (s.path p).use = some .carry then carrySection p c k x s else scanSection p c k x s)) := by
  refine congrArg (fun t => Host.Outcome.next (closeStep t)) ((sectionEffect_of_engaged state gathers carrier).trans ?_)
  exact if_neg (Bool.eq_false_iff.mp formed)

/-- R31, R37: the merge of a complete collection, and what is over with it. -/
theorem sectionOver_of_complete (state : (s.path p).state = .engaged) (gathers : (s.path p).collection = some k)
    (carrier : (s.path p).carrier = some c) (formed : sectionMalformed x = false)
    (fresh : ¬ confirming (s.car c) x = true) (done : (k.take x).complete = true) :
    ∃ u, exec (.announcementSection p x) s = .next (closeStep u)
      ∧ SectionOver p c s (merge c (k.take x) (collected p s)) u := by
  have run := exec_section_of_wellFormed state gathers carrier formed
  have releases := releases_merge c (k.take x) (collected p s)
  by_cases carry : (s.path p).use = some .carry
  · have is : collected p s = s.setPath p { s.path p with collection := some ⟨none, 0, [], false⟩ } :=
      congrArg (fun r => s.setPath p r) (if_pos carry)
    rw [if_pos carry, carrySection_completes fresh done, ← is] at run
    exact ⟨_, run, sectionOver_carry carry releases⟩
  · have is : collected p s = endListening p s := congrArg (fun r => s.setPath p r) (if_neg carry)
    rw [if_neg carry, scanSection_completes fresh done, ← is] at run
    exact ⟨_, run, sectionOver_scan carry state carrier releases⟩

/-- Settles O42, by the courses of a section. -/
theorem announcementSectionByKind : Obligations.AnnouncementSectionByKind := by
  refine ⟨fun k x y isY => ?collections, fun s p x clear => ⟨fun resting => ?resting, fun c k state gathers carrier =>
    ⟨fun bad => ?malformed, fun number last order entries names => ?formed⟩⟩⟩
  case collections =>
    have kept : y = keptSection x := isY
    rw [kept]
    refine ⟨take_starts, take_marks, take_repeated, fun version last fresh => ?_, take_sorted k x, complete_iff k⟩
    obtain ⟨as, bs, split, inserted⟩ := insertSection_shape (keptSection x) k.held
    exact ⟨as, bs, split, by rw [take_inserts version last fresh, inserted]⟩
  case resting =>
    exact exec_eq_of_clear (c := .announcementSection p x) rfl (sectionEffect_of_resting resting) clear
  case malformed =>
    refine exec_eq_of_clear (c := .announcementSection p x) rfl
      ((sectionEffect_of_engaged state gathers carrier).trans (if_pos ((sectionMalformed_iff x).mpr bad))) clear
  case formed =>
    have formed : sectionMalformed x = false := by
      refine Bool.eq_false_iff.mpr fun bad => ?_
      obtain far | far | far | far | ⟨y, mem, far⟩ := (sectionMalformed_iff x).mp bad
      · omega
      · omega
      · omega
      · omega
      · exact absurd (names y mem) (Nat.not_le.mpr far)
    have run := exec_section_of_wellFormed state gathers carrier formed
    refine ⟨fun carry version fresh => ?carryConfirms, fun scan version fresh other => ?scanConfirms,
      fun fresh more => ?gathers, fun fresh done defined => ?completes⟩
    case carryConfirms =>
      rw [if_pos carry] at run
      exact exec_eq_of_clear run (carrySection_confirms ((confirming_iff _ x).mpr ⟨version, fresh⟩)) clear
    case scanConfirms =>
      rw [if_neg scan, scanSection_confirms ((confirming_iff _ x).mpr ⟨version, fresh⟩) other] at run
      refine ⟨_, run, ?_⟩
      have own := path_confirmed p c k s
      have work : WorkOver p c (confirmed p c k s) (endWork p (confirmed p c k s)) := workOver_endWork (by rw [own])
        (by rw [own]; exact ne_of_eq_of_ne state PathState.noConfusion) (by rw [own]; exact carrier)
      have goesOn := work.goesOn
      have visit := work.ends
      have car := (car_congr work.carriers c).trans (car_confirmed p c k s)
      have quiet := quiet_of_workOver work own
      rw [own] at goesOn visit
      refine ⟨quiet.1, quiet.2, by rw [car], by rw [car]; exact fresh, by rw [car], by rw [car], work.svcs,
        fun q other' => (work.others q other').trans (path_endListening_other s other'),
        ((follows_confirmed p c k s).trans work.follows).inputsFollow, fun done => ?_, fun more => ?_⟩
      · obtain ⟨left, ended⟩ := visit done
        rw [left]
        exact ⟨leavesCarrier_leftPath _ _, ended.before rfl rfl rfl rfl⟩
      · rw [goesOn more, own]
        exact ⟨state, rfl, rfl⟩
    case gathers =>
      have not : ¬ confirming (s.car c) x = true := fun both => fresh ((confirming_iff _ x).mp both)
      by_cases carry : (s.path p).use = some .carry
      · rw [if_pos carry] at run
        exact exec_eq_of_clear run (carrySection_gathers not more) clear
      · rw [if_neg carry] at run
        exact exec_eq_of_clear run (scanSection_gathers not more) clear
    case completes =>
      have not : ¬ confirming (s.car c) x = true := fun both => fresh ((confirming_iff _ x).mp both)
      obtain ⟨u, ends, over'⟩ := sectionOver_of_complete state gathers carrier formed not done
      refine ⟨u, ends, ?_⟩
      obtain ⟨others, own, announced, unnamed⟩ := merge_spec c (k.take x) x.version (collected p s) (version_take k x) defined
      have car := fun d => car_congr over'.carriers d
      have svc : ∀ i, u.svc i = (merge c (k.take x) (collected p s)).svc i := fun i => by
        unfold State.svc
        rw [over'.svcs]
      rw [← car c] at own announced
      obtain ⟨state', _, failures, quality, version, stale, malformed⟩ := ownFields (b := { s.car c with
        rosterVersion := some x.version, stale := false, malformed := (k.take x).malformed }) own
      refine ⟨version, stale, malformed, state', quality, failures, over'.follows.inputsFollow, fun d other => ?_,
        fun keys isKeys => ?_, over'.scan, over'.carry, fun es keys w h t acc l new isEs isKeys isW isH isAcc isT isL isNew => ?_⟩
      · rw [car d]
        exact others d other
      · have same : keys = (keyedEntries (k.take x).held).map KeyedEntry.key := by
          exact isKeys.trans (rosterKeys_eq _).symm
        rw [← same] at announced unnamed
        simp only [svc]
        exact ⟨announced, unnamed⟩
      · have start' : RanksAlike s (collected p s) := ranksAlike_of_parts (fun _ => rfl) (fun _ => rfl) rfl
        have entries : es = keyedEntries (k.take x).held := isEs
        have keys' : keys = rosterKeys (k.take x) := isKeys.trans (congrArg (List.map KeyedEntry.key) entries)
        have start : w = collected p s := isW
        have head : h = mergeHead c x.version (k.take x).malformed (collected p s) := by
          rw [isH, start]
          exact (mergeHead_eq c x.version (k.take x).malformed (collected p s)).symm
        have joins : acc = rosterEntries c (k.take x) x.version (collected p s) := by
          rw [isAcc, entries, head]
          rfl
        have leaves : t = rosterRecords c (k.take x) x.version (collected p s) := by
          rw [isT, joins, keys']
          rfl
        have services : l = rosterServices c (k.take x) t := by
          rw [isL, keys']
          rfl
        have joined' : new = rosterJoined c (k.take x) x.version (collected p s) := by
          rw [isNew, services, joins, leaves]
          rfl
        have ended := rosterEnds_merge (version_take k x) (s := collected p s) (c := c) defined
        rw [← leaves] at ended
        refine ⟨over'.svcs.trans ended.svcs, over'.mons.trans ended.mons, over'.claims.trans ended.claims, ?_,
          fun scan done => (over'.ends scan done).before ended.plan ended.mons ended.inExec ended.port,
          fun open' => (over'.plan open').trans ended.plan, ?_, ?_, fun i => ⟨fun mem unnamed held => ?_, fun stays => ?_⟩⟩
        · rw [car c, ended.announced, services]
        · rw [over'.rank]
          exact ended.settings
        · rw [over'.rank]
          rw [ended.evals, ← joined']
          rfl
        · rw [leaves]
          rw [joins, keys'] at unnamed
          rw [joins] at held ⊢
          exact departs_rosterRecords (s := collected p s) start' mem unnamed held
        · rw [leaves]
          rw [joins, keys'] at stays
          rw [joins]
          exact svc_rosterRecords_stays (s := collected p s) stays

end Sys2Proof.Machine
end

section
/-! SUPPORT. What a carrier is to scan work and to the Path Arbiter: the path on it, its answer, the first IDLE path
(R80, R116, R119), and the words of a grant. -/

namespace Sys2Proof.Machine

variable {s : State} {c : CarrierIdx} {p : PathIdx}

theorem idlePath_eq_some : idlePath s = some p ↔ (s.path p).state = .idle ∧ ∀ q, q < p → (s.path q).state ≠ .idle := by
  unfold idlePath
  rw [firstIdx_eq_some]
  simp only [decide_eq_true_eq, decide_eq_false_iff_not]
  rfl

theorem idlePath_eq_none : idlePath s = none ↔ ∀ p, (s.path p).state ≠ .idle := by
  unfold idlePath
  rw [firstIdx_eq_none]
  simp only [decide_eq_false_iff_not]
  rfl

theorem onCarrier_eq_false (st : PathState) : st.onCarrier = false ↔ st = .idle ∨ st = .recovery := by
  cases st <;> decide

theorem pathOn_eq_none : pathOn s c = none
    ↔ ∀ p, (s.path p).carrier = some c → (s.path p).state = .idle ∨ (s.path p).state = .recovery := by
  unfold pathOn
  rw [firstIdx_eq_none]
  refine forall_congr' fun p => ?_
  rw [Bool.and_eq_false_iff, onCarrier_eq_false, decide_eq_false_iff_not]
  exact imp_iff_not_or.symm

theorem feedAnswer_ne_blocked (s : State) (q : CarrierParams) : feedAnswer s q ≠ .blocked
    ↔ (s.inp q.input).kind ≠ .satellite ∨ q.feed = some (s.inp q.input).feed ∨ (s.inp q.input).attached = [] := by
  unfold feedAnswer
  dsimp only
  split
  next other => exact ⟨fun _ => .inl other, fun _ => FeedAnswer.noConfusion⟩
  next satellite =>
    split
    next same => exact ⟨fun _ => .inr (.inl same), fun _ => FeedAnswer.noConfusion⟩
    next apart =>
      split
      next free => exact ⟨fun _ => .inr (.inr free), fun _ => FeedAnswer.noConfusion⟩
      next held =>
        refine ⟨fun blocked => absurd rfl blocked, fun h => ?_⟩
        obtain other | same | free := h
        · exact absurd other satellite
        · exact absurd same apart
        · exact absurd free held

theorem carrierAnswer_of_params {q : CarrierParams} (h : (s.car c).params = some q) :
    carrierAnswer s c = feedAnswer s q := by
  unfold carrierAnswer
  rw [h]

theorem grantable_iff (s : State) (c : CarrierIdx) : grantable s c = true ↔ Grantable s c := by
  unfold grantable Grantable
  simp only [Bool.and_eq_true, decide_eq_true_eq, Option.isNone_iff_eq_none, and_assoc]
  refine and_congr_right fun _ => and_congr_right fun _ => ?_
  rw [and_comm, pathOn_eq_none]
  refine and_congr_right fun _ => ?_
  cases params : (s.car c).params with
  | none =>
    unfold carrierAnswer
    rw [params]
    simp
  | some q =>
    rw [carrierAnswer_of_params params, feedAnswer_ne_blocked]
    simp

theorem grantable_eq_false (h : ¬ Grantable s c) : grantable s c = false :=
  Bool.eq_false_iff.mpr (mt (grantable_iff s c).mp h)

/-! ### Grants -/

theorem granted_grantWork (p : PathIdx) (u : Use) (c : CarrierIdx) (k : CarrierParams) (s : State) :
    Granted p u c k s (grantWork p u c k s) := by
  obtain ⟨own, others, inputs, input⟩ := grantWork_spec p u c k s
  obtain ⟨_, _, _, kept, switched, same⟩ := switchFor_spec k s
  refine ⟨own, others, ?_, ?_, inputs, fun f satellite feed apart free => ?_, fun agrees => ?_⟩
  · rw [input]
    have same := congrArg (fun r : InputRec => { r with
      attached := insertIdx p (s.inp k.input).attached, waitList := (s.inp k.input).waitList }) kept
    exact same
  · rw [input]
    exact queued_insertWaiter _ _
  · rw [input]
    exact switched f satellite feed apart free
  · rw [input, same agrees]
    exact ⟨rfl, rfl⟩

/-- A grant looks at the paths, the inputs and the clock alone. -/
theorem granted_of_same {p : PathIdx} {u : Use} {c : CarrierIdx} {k : CarrierParams} {s w t : State}
    (h : Granted p u c k w t) (paths : w.paths = s.paths) (inputs : w.inputs = s.inputs) (now : w.now = s.now) :
    Granted p u c k s t := by
  have path : ∀ q, w.path q = s.path q := fun q => by unfold State.path; rw [paths]
  have inp : ∀ i, w.inp i = s.inp i := fun i => by unfold State.inp; rw [inputs]
  unfold Granted at h ⊢
  simp only [path, inp, now] at h
  exact h

end Sys2Proof.Machine
end

section
/-! PROOF. Scan grants (R15, R91, R119, R120). -/

namespace Sys2Proof.Machine

variable {s : State} {c : CarrierIdx} {p : PathIdx} {k : CarrierParams}

theorem grant_of_scan {u : Use} (scan : u ≠ .carry) (params : (s.car c).params = some k) :
    grant p u c s = grantWork p u c k s := (grant_eq p u c k s params).trans (if_neg scan)

/-! ### Pass ends -/

theorem satSucc_eq_three (n : Nat) : satSucc 3 n = 3 ↔ 2 ≤ n ∧ n ≤ 3 := by
  unfold satSucc
  split <;> omega

/-- R15: an ORPHANED record at a pass end. -/
theorem aged_stamped {t : State} {i : ServiceIdx} {r : ServiceRec} (is : t.svc i = r) (young : r.orphanAge ≤ 3)
    (state : r.state = .orphaned) : Aged r (stamped t i (agedRecord r)) := by
  subst is
  by_cases old : satSucc 3 (t.svc i).orphanAge = 3 ∧ (t.svc i).claimCount = 0
  · obtain ⟨age, unclaimed⟩ := old
    have aged : agedRecord (t.svc i) = tombstone (t.svc i) := if_pos ⟨age, unclaimed⟩
    have shows : noticed (t.svc i) (tombstone (t.svc i)) = true :=
      noticed_of_state (ne_of_eq_of_ne state SvcState.noConfusion)
    obtain ⟨two, _⟩ := (satSucc_eq_three _).mp age
    rw [aged, stamped_of_noticed shows]
    exact ⟨fun other => absurd state other, fun _ h => by omega, fun _ _ _ => ⟨rfl, rfl, rfl, rfl⟩⟩
  · have aged : agedRecord (t.svc i) = { t.svc i with orphanAge := satSucc 3 (t.svc i).orphanAge } := if_neg old
    have hidden : noticed (t.svc i) { t.svc i with orphanAge := satSucc 3 (t.svc i).orphanAge } = false := by
      simp [noticed]
    rw [aged]
    refine ⟨fun other => absurd state other, fun _ _ => if_neg (Bool.eq_false_iff.mp hidden), fun _ two unclaimed => ?_⟩
    exact absurd ⟨(satSucc_eq_three _).mpr ⟨two, young⟩, unclaimed⟩ old

theorem orphanFields {r : ServiceRec} (shaped : r.shaped) (state : r.state = .orphaned) :
    r.selected = none ∧ r.orphanAge ≤ 3 := by
  obtain ⟨_, fields⟩ := shaped
  unfold ServiceRec.fieldsOfState at fields
  rw [state] at fields
  obtain ⟨_, _, selected, _, _, age⟩ := fields
  exact ⟨selected, age⟩

theorem passEnd_aged (shaped : ServicesShaped s) :
    passEnd s = { s with svcs := (passEnd s).svcs } ∧ ∀ i, Aged (s.svc i) ((passEnd s).svc i) := by
  obtain ⟨parts, each⟩ := passEnd_spec s fun i state => (orphanFields (shaped i) state).1
  refine ⟨parts, fun i => ?_⟩
  obtain ⟨rests, ages⟩ := each i
  by_cases state : (s.svc i).state = .orphaned
  · obtain ⟨t, same, record⟩ := ages state
    rw [record]
    exact aged_stamped same (orphanFields (shaped i) state).2 state
  · rw [rests state]
    exact ⟨fun _ => rfl, fun is => absurd is state, fun is => absurd is state⟩

/-! ### The sweep -/

theorem sweepChoice_ahead (ahead : s.plan.cursor ≤ c) (before : ∀ d, s.plan.cursor ≤ d → d < c → ¬ Grantable s d)
    (ok : Grantable s c) : sweepChoice s = some (c, decide (c.val = 191)) := by
  have found : (List.finRange 192).find? (fun c => decide (s.plan.cursor ≤ c) && grantable s c) = some c := by
    refine (find?_finRange_eq_some _ c).mpr ⟨?_, fun d less => ?_⟩
    · rw [decide_eq_true ahead, (grantable_iff s c).mpr ok]
      rfl
    · rw [Bool.and_eq_false_iff]
      by_cases le : s.plan.cursor ≤ d
      · exact .inr (grantable_eq_false (before d le less))
      · exact .inl (decide_eq_false le)
  unfold sweepChoice
  simp only [found]

theorem nothingAhead (none : ∀ d, s.plan.cursor ≤ d → ¬ Grantable s d) :
    (List.finRange 192).find? (fun c => decide (s.plan.cursor ≤ c) && grantable s c) = Option.none := by
  refine List.find?_eq_none.mpr fun d _ both => ?_
  obtain ⟨le, ok⟩ := Bool.and_eq_true_iff.mp both
  exact none d (of_decide_eq_true le) ((grantable_iff s d).mp ok)

theorem sweepChoice_behind (behind : c < s.plan.cursor) (none : ∀ d, s.plan.cursor ≤ d → ¬ Grantable s d)
    (before : ∀ d, d < c → ¬ Grantable s d) (ok : Grantable s c) : sweepChoice s = some (c, true) := by
  have found : (List.finRange 192).find? (fun c => decide (c < s.plan.cursor) && grantable s c) = some c := by
    refine (find?_finRange_eq_some _ c).mpr ⟨?_, fun d less => ?_⟩
    · rw [decide_eq_true behind, (grantable_iff s c).mpr ok]
      rfl
    · rw [grantable_eq_false (before d less), Bool.and_false]
  unfold sweepChoice
  simp only [nothingAhead none, found]

theorem sweepChoice_none (none : ∀ c, ¬ Grantable s c) : sweepChoice s = Option.none := by
  have behind : (List.finRange 192).find? (fun c => decide (c < s.plan.cursor) && grantable s c) = Option.none := by
    refine List.find?_eq_none.mpr fun d _ both => ?_
    exact none d ((grantable_iff s d).mp (Bool.and_eq_true_iff.mp both).2)
  unfold sweepChoice
  simp only [nothingAhead fun d _ => none d, behind]

/-! ### The grant -/

theorem scanGrant_of_entry (idle : idlePath s = some p) (entry : s.plan.queue.find? (grantable s) = some c) :
    scanGrant s = some (grant p .queue c (takeEntry c s)) := by
  unfold scanGrant
  simp only [idle, entry]

theorem noEntry (none : ∀ c ∈ s.plan.queue, ¬ Grantable s c) : s.plan.queue.find? (grantable s) = Option.none :=
  List.find?_eq_none.mpr fun d mem ok => none d mem ((grantable_iff s d).mp ok)

theorem scanGrant_of_sweep {passes : Bool} (idle : idlePath s = some p) (none : ∀ c ∈ s.plan.queue, ¬ Grantable s c)
    (enabled : s.plan.sweepEnabled = true) (choice : sweepChoice s = some (c, passes)) :
    scanGrant s = some (grant p .sweep c (sweepAdvance c passes s)) := by
  unfold scanGrant
  simp only [idle, noEntry none, enabled, choice]
  rfl

theorem scanGrant_of_nothing (none : ∀ c ∈ s.plan.queue, ¬ Grantable s c)
    (rest : s.plan.sweepEnabled = false ∨ sweepChoice s = Option.none) : scanGrant s = Option.none := by
  unfold scanGrant
  cases idlePath s with
  | none => rfl
  | some p =>
    simp only [noEntry none]
    obtain disabled | nothing := rest
    · rw [disabled]
      rfl
    · rw [nothing]
      split <;> rfl

/-- R120: the cursor, the pass count and the services after a sweep choice. -/
theorem sweepAdvance_parts (c : CarrierIdx) (passes : Bool) (shaped : ServicesShaped s) :
    sweepAdvance c passes s = { s with
      plan := { s.plan with cursor := c + 1, passCount := if passes then s.plan.passCount + 1 else s.plan.passCount },
      svcs := (sweepAdvance c passes s).svcs }
    ∧ (passes = false → (sweepAdvance c passes s).svcs = s.svcs)
    ∧ (passes = true → ∀ i, Aged (s.svc i) ((sweepAdvance c passes s).svc i)) := by
  cases passes with
  | false => exact ⟨rfl, fun _ => rfl, fun is => nomatch is⟩
  | true =>
    obtain ⟨parts, aged⟩ := passEnd_aged (s := { s with plan := { s.plan with
      cursor := c + 1, passCount := s.plan.passCount + 1 } }) shaped
    exact ⟨parts, fun is => (nomatch is), fun _ => aged⟩

/-- R91, R120: a grant to the sweep. -/
theorem sweepGrant {passes : Bool} (shaped : ServicesShaped s) (params : (s.car c).params = some k) :
    Granted p .sweep c k s (grant p .sweep c (sweepAdvance c passes s))
    ∧ (grant p .sweep c (sweepAdvance c passes s)).plan
      = { s.plan with cursor := c + 1, passCount := if passes then s.plan.passCount + 1 else s.plan.passCount }
    ∧ (passes = false → (grant p .sweep c (sweepAdvance c passes s)).svcs = s.svcs)
    ∧ (passes = true → ∀ i, Aged (s.svc i) ((grant p .sweep c (sweepAdvance c passes s)).svc i)) := by
  obtain ⟨parts, kept, aged⟩ := sweepAdvance_parts (s := s) c passes shaped
  generalize sweepAdvance c passes s = w at parts kept aged
  have params' : (w.car c).params = some k := by rw [parts]; exact params
  rw [grant_of_scan Use.noConfusion params']
  obtain ⟨_, svcs, _, plan, _⟩ := grantWork_others p .sweep c k w
  refine ⟨granted_of_same (granted_grantWork p .sweep c k w) (by rw [parts]) (by rw [parts]) (by rw [parts]), ?_,
    fun none => svcs.trans (kept none), fun ends i => ?_⟩
  · rw [plan, parts]
  · unfold State.svc at aged ⊢
    rw [svcs]
    exact aged ends i

/-- R91, R119: a grant to a queue entry. -/
theorem queueGrant (params : (s.car c).params = some k) :
    grant p .queue c (takeEntry c s) = grantWork p .queue c k (takeEntry c s)
    ∧ Granted p .queue c k s (grantWork p .queue c k (takeEntry c s)) :=
  ⟨grant_of_scan (s := takeEntry c s) Use.noConfusion params,
    granted_of_same (granted_grantWork p .queue c k (takeEntry c s)) rfl rfl rfl⟩

/-- Settles O50, by the choices of the queue and the sweep. -/
theorem scanGrantTakesWork : Obligations.ScanGrantTakesWork := by
  intro s
  refine ⟨fun busy => ?busy, fun p idle first => ?_⟩
  case busy =>
    unfold scanGrant
    rw [idlePath_eq_none.mpr busy]
  have free : idlePath s = some p := idlePath_eq_some.mpr ⟨idle, first⟩
  refine ⟨fun none => ?nothing, fun none off => ?disabled, fun as bs c k queue before ok params => ?queued,
    fun c k shaped none enabled ok params => ⟨fun ahead before => ?ahead, fun behind past before => ?behind⟩⟩
  case nothing => exact scanGrant_of_nothing (fun c _ => none c) (.inr (sweepChoice_none none))
  case disabled => exact scanGrant_of_nothing none (.inl off)
  case queued =>
    have entry : s.plan.queue.find? (grantable s) = some c := by
      refine List.find?_eq_some_iff_append.mpr ⟨(grantable_iff s c).mpr ok, as, bs, queue, fun d mem => ?_⟩
      rw [grantable_eq_false (before d mem)]
      rfl
    obtain ⟨run, granted⟩ := queueGrant (p := p) params
    obtain ⟨carriers, svcs, claims, plan, port, inExec, _⟩ := grantWork_others p .queue c k (takeEntry c s)
    exact ⟨_, (scanGrant_of_entry free entry).trans (congrArg some run), granted, carriers, plan, svcs, claims, port, inExec⟩
  case ahead =>
    obtain ⟨granted, plan, kept, aged⟩ := sweepGrant (p := p) (passes := decide (c.val = 191)) shaped params
    refine ⟨_, scanGrant_of_sweep free none enabled (sweepChoice_ahead ahead before ok), granted, ?_, ?_, ?_,
      fun inside => ⟨?_, kept (decide_eq_false inside)⟩, fun last => ⟨?_, aged (decide_eq_true last)⟩⟩
    · rw [plan]
      exact Fin.val_add c 1
    · rw [plan]
    · rw [plan]
    · rw [plan, decide_eq_false inside]
      rfl
    · rw [plan, decide_eq_true last]
      rfl
  case behind =>
    obtain ⟨granted, plan, kept, aged⟩ := sweepGrant (p := p) (passes := true) shaped params
    refine ⟨_, scanGrant_of_sweep free none enabled (sweepChoice_behind behind past before ok), granted, ?_, ?_, ?_, ?_,
      aged rfl⟩
    · rw [plan]
      exact Fin.val_add c 1
    · rw [plan]
    · rw [plan]
    · rw [plan]
      rfl

end Sys2Proof.Machine
end

section
/-! SUPPORT. Failed visits and relock attempts (R24, R26, R61, R84, R98, R136). -/

namespace Sys2Proof.Machine

theorem setPath_setPath (p : PathIdx) (r r' : PathRec) (s : State) : (s.setPath p r).setPath p r' = s.setPath p r' := by
  unfold State.setPath
  simp only [Vector.set_set]

variable {c : CarrierIdx} {s : State}

/-! ### Failed visits -/

/-- R26: the state in which a failed visit has been written to the carrier and counted. -/
def failed (c : CarrierIdx) (s : State) : State :=
  countEvent .visitFailed none (some c) (s.setCar c { s.car c with
    state := failedState (s.car c).state (satSucc 3 (s.car c).failures), failures := satSucc 3 (s.car c).failures })

theorem failedVisit_told (defined : (s.car c).state ≠ .free) : OutcomeTold c s (failed c s) (failedVisit c s) := by
  have run : failedVisit c s = if eligible (failed c s) c = eligible s c then failed c s
      else reportEligibility c (failed c s) := if_neg defined
  rw [run]
  exact outcomeTold c s (failed c s)

theorem car_failed (c d : CarrierIdx) (s : State) : (failed c s).car d = if c = d then { s.car c with
    state := failedState (s.car c).state (satSucc 3 (s.car c).failures), failures := satSucc 3 (s.car c).failures }
    else s.car d := State.car_setCar s c d _

/-- R26: the parts of the record that a failed visit writes, and the quality it leaves. -/
theorem failed_record {t : State} (h : t.car c = (failed c s).car c) :
    (t.car c).failures = (if (s.car c).failures < 3 then (s.car c).failures + 1 else (s.car c).failures)
    ∧ (t.car c).quality = (s.car c).quality ∧ (t.car c).carrying = (s.car c).carrying
    ∧ (t.car c).state = failedState (s.car c).state (t.car c).failures := by
  rw [h, car_failed, if_pos rfl]
  exact ⟨rfl, rfl, rfl, rfl⟩

theorem failedState_of_notLive {st : CarState} (h : st ≠ .live) (n : Nat) : failedState st n ≠ .live := by
  cases st with
  | live => exact absurd rfl h
  | free => exact CarState.noConfusion
  | unvisited => exact CarState.noConfusion
  | silent => exact CarState.noConfusion
  | lost => exact CarState.noConfusion

/-- R26: a failed visit loses the eligibility of its carrier where it loses the carrier, and leaves it otherwise. -/
theorem eligible_failed_iff (c : CarrierIdx) (s : State) : eligible (failed c s) c ≠ eligible s c
    ↔ (s.car c).state = .live ∧ (s.car c).quality ≠ none ∧ ((failed c s).car c).state = .lost := by
  have record := (car_failed c c s).trans (if_pos rfl)
  have after := eligible_iff (failed c s) c
  have before := eligible_iff s c
  rw [record] at after ⊢
  dsimp only at after ⊢
  rw [ne_eq, Bool.eq_iff_iff, after, before]
  by_cases live : (s.car c).state = .live
  · rw [live]
    unfold failedState
    dsimp only
    by_cases some : (s.car c).quality ≠ none
    · split <;> simp [some]
    · simp [some]
  · have still := failedState_of_notLive live (satSucc 3 (s.car c).failures)
    simp [live, still]

theorem evalsWith_failed {cause : EvalCause} (s : State) : evalsWith (failed c s) cause c = evalsWith s cause c := by
  have announced : ((failed c s).car c).announced = (s.car c).announced := by rw [car_failed, if_pos rfl]
  unfold evalsWith
  rw [announced]
  rfl

/-- R24, R26, R61, R136: what a failed visit makes of the carrier, the evaluations and the claims. -/
structure VisitFailed (c : CarrierIdx) (s t : State) : Prop where
  only : ClaimsOnly { failed c s with rank := t.rank } t
  settings : t.rank.settings = s.rank.settings
  mons : t.mons = (countEvent .visitFailed none (some c) s).mons
  told : ToldLoss s t c
  others : ∀ ch, ¬ AwaitsCarrier s ch c → t.claim ch = s.claim ch

theorem visitFailed_failedVisit (defined : (s.car c).state ≠ .free) : VisitFailed c s (failedVisit c s) := by
  have told := failedVisit_told defined
  have changes := eligible_failed_iff c s
  generalize failedVisit c s = t at told
  have record : t.car c = (failed c s).car c := car_congr told.only.carriers c
  have kept : ¬ ((s.car c).state = .live ∧ (s.car c).quality ≠ none ∧ (t.car c).state = .lost) →
      t.rank.evals = s.rank.evals ∧ t.claims = s.claims := fun stays =>
    told.kept (not_not.mp (mt changes.mp (record ▸ stays)))
  refine ⟨told.only, told.settings, told.mons.trans (mons_countEvent_congr rfl _ _ _),
    ⟨fun live measured lost => ?_, fun stays => ?_⟩, fun ch other => ?_⟩
  · obtain ⟨evals, claims⟩ := told.changed (changes.mpr ⟨live, measured, record ▸ lost⟩)
    refine ⟨evals.trans (evalsWith_failed s), fun ch i awaits service => ?_⟩
    rw [claims.awaits ch i awaits service]
    obtain ⟨_, _, j, service', selected⟩ := awaits
    obtain rfl := Option.some.inj (service.symm.trans service')
    have gone : eligible { failed c s with rank := t.rank } c = false := by
      refine Bool.eq_false_iff.mpr fun ok => ?_
      obtain ⟨live', _⟩ := (eligible_iff _ c).mp ok
      exact CarState.noConfusion ((record ▸ lost).symm.trans live')
    by_cases mode : s.arb.mode = .active
    · rw [if_pos mode]
      exact examined_of_ineligible mode selected gone
    · rw [if_neg mode]
      exact examined_of_standby i mode
  · obtain ⟨evals, claims⟩ := kept fun ⟨live, measured, lost⟩ =>
      stays.elim (absurd live) fun h => h.elim measured (absurd lost)
    exact ⟨evals, fun ch _ => claim_congr claims ch⟩
  · by_cases lost : (s.car c).state = .live ∧ (s.car c).quality ≠ none ∧ (t.car c).state = .lost
    · obtain ⟨live, measured, lost⟩ := lost
      obtain ⟨_, claims⟩ := told.changed (changes.mpr ⟨live, measured, record ▸ lost⟩)
      exact claims.others ch other
    · exact claim_congr (kept lost).2 ch

/-! ### Relock attempts -/

/-- R84, R93, R98: a carry path that asks for a tune start again. -/
structure RelockAsked (p : PathIdx) (n : Nat) (c : CarrierIdx) (s t : State) : Prop where
  path : t.path p = { s.path p with state := .awaitTune, relocks := n }
  others : ∀ q, q ≠ p → t.path q = s.path q
  asks : ∀ q, (s.car c).params = some q → AsksTune p s.now q.input s t
  carriers : t.carriers = s.carriers
  claims : t.claims = s.claims
  rank : t.rank = s.rank
  mons : t.mons = s.mons
  plan : t.plan = s.plan

theorem asksTune_joinWait (i : InputIdx) (p : PathIdx) (s : State) : AsksTune p s.now i s (joinWait i p s) := by
  have own : (joinWait i p s).inp i = { s.inp i with waitList := insertWaiter ⟨p, s.now⟩ (s.inp i).waitList } :=
    (joinWait_inp i i p s).trans (if_pos rfl)
  refine ⟨?_, ?_, fun j other => (joinWait_inp i j p s).trans (if_neg other.symm)⟩
  · rw [own]
    exact queued_insertWaiter _ _
  · rw [own]

/-- R93, R98: the state in which a path awaits its tune start again. -/
def relocking (p : PathIdx) (n : Nat) (s : State) : State :=
  s.setPath p { s.path p with state := .awaitTune, relocks := n }

theorem askRelock_of_carrier {p : PathIdx} (n : Nat) (carrier : (s.path p).carrier = some c) : askRelock p n s
    = (s.car c).params.elim (relocking p n s) (fun q => joinWait q.input p (relocking p n s)) := by
  unfold askRelock
  dsimp only
  split
  next none => exact absurd (none.symm.trans carrier) (fun h => nomatch h)
  next d is =>
    obtain rfl := Option.some.inj (is.symm.trans carrier)
    split
    next unset =>
      have params : (s.car d).params = none := unset
      rw [params]
      rfl
    next q set' =>
      have params : (s.car d).params = some q := set'
      rw [params]
      rfl

theorem relockAsked_askRelock {p : PathIdx} (n : Nat) (carrier : (s.path p).carrier = some c) :
    RelockAsked p n c s (askRelock p n s) := by
  have own : (relocking p n s).path p = { s.path p with state := .awaitTune, relocks := n } :=
    (State.path_setPath s p p _).trans (if_pos rfl)
  have others : ∀ q, q ≠ p → (relocking p n s).path q = s.path q :=
    fun q other => (State.path_setPath s p q _).trans (if_neg other.symm)
  rw [askRelock_of_carrier n carrier]
  cases params : (s.car c).params with
  | none => exact ⟨own, others, fun q is => absurd (params.symm.trans is) (fun h => nomatch h), rfl, rfl, rfl, rfl, rfl⟩
  | some q =>
    refine ⟨own, others, fun q' is => ?_, rfl, rfl, rfl, rfl, rfl⟩
    obtain rfl := Option.some.inj (params.symm.trans is)
    exact asksTune_joinWait q.input p (relocking p n s)

end Sys2Proof.Machine
end

section
/-! PROOF. Samples (R46 to R51, R94 to R98). -/

namespace Sys2Proof.Machine

variable {s : State} {p : PathIdx} {x : Sample} {t : Nat} {c : CarrierIdx}

/-- R46: the state in which a path awaits its next sample, and has gathered what it has. -/
def sampled (t : Nat) (a : Accum) (p : PathIdx) (s : State) : State :=
  { s.setPath p { s.path p with sampleDue := some (t + 20), accum := a } with now := max s.now t }

/-- R46: the state in which a path awaits its next sample. -/
def awaitsSample (t : Nat) (p : PathIdx) (s : State) : State :=
  { s.setPath p { s.path p with sampleDue := some (t + 20) } with now := max s.now t }

theorem path_awaitsSample (t : Nat) (p : PathIdx) (s : State) :
    (awaitsSample t p s).path p = { s.path p with sampleDue := some (t + 20) } :=
  (State.path_setPath s p p _).trans (if_pos rfl)

theorem path_sampled (t : Nat) (a : Accum) (p q : PathIdx) (s : State) : (sampled t a p s).path q
    = if p = q then { s.path p with sampleDue := some (t + 20), accum := a } else s.path q := State.path_setPath s p q _

theorem gathers_awaitsSample (t : Nat) (a : Accum) (p : PathIdx) (s : State) :
    (awaitsSample t p s).setPath p { (awaitsSample t p s).path p with accum := a } = sampled t a p s := by
  rw [path_awaitsSample]
  exact congrArg (fun u : State => { u with now := max s.now t })
    (setPath_setPath p { s.path p with sampleDue := some (t + 20) } _ s)

theorem follows_sampled (t : Nat) (a : Accum) (p : PathIdx) (s : State) : Follows s (sampled t a p s) := by
  have gathers : Follows s (s.setPath p { s.path p with sampleDue := some (t + 20), accum := a }) :=
    follows_setPath p _ s rfl
  exact gathers.trans (follows_of_paths rfl rfl)

/-! ### The courses of a sample -/

theorem sampleEffect_of_engaged (state : (s.path p).state = .engaged) (due : (s.path p).sampleDue = some t)
    (carrier : (s.path p).carrier = some c) : sampleEffect p x s
      = if (s.path p).use = some .carry then
          if x.lockHeld then carrySample p c x (awaitsSample t p s) else carryLockLoss p c (awaitsSample t p s)
        else
          if x.lockHeld then scanSample p c x (awaitsSample t p s) else scanLockLoss p c (awaitsSample t p s) := by
  unfold sampleEffect
  dsimp only
  rw [state, due, carrier]
  rfl

theorem accum_awaitsSample (t : Nat) (p : PathIdx) (s : State) :
    ((awaitsSample t p s).path p).accum = (s.path p).accum := by rw [path_awaitsSample]

theorem carrySample_gathers (more : (s.path p).accum.count + 1 < 8) : carrySample p c x (awaitsSample t p s)
    = sampled t ⟨(s.path p).accum.count + 1, some (gathered (s.path p).accum.extremes x), false⟩ p s := by
  unfold carrySample
  dsimp only
  rw [accum_awaitsSample, gathers_awaitsSample, gathers_awaitsSample]
  exact if_neg (Nat.not_le.mpr more)

theorem carrySample_bursts (full : (s.path p).accum.count = 7) : carrySample p c x (awaitsSample t p s)
    = burstResult c true (lanesOf (gathered (s.path p).accum.extremes x)) (sampled t ⟨0, none, false⟩ p s) := by
  unfold carrySample
  dsimp only
  rw [accum_awaitsSample, gathers_awaitsSample, gathers_awaitsSample, full]
  rfl

theorem scanSample_idles (done : (s.path p).accum.burstDone = true) :
    scanSample p c x (awaitsSample t p s) = awaitsSample t p s := by
  unfold scanSample
  dsimp only
  rw [accum_awaitsSample]
  exact if_pos done

/-- R49 to R51: a sample gathered on a scan path, by the count it reaches. -/
theorem scanSample_of_open (done : (s.path p).accum.burstDone = false) : scanSample p c x (awaitsSample t p s)
    = if (s.path p).accum.count + 1 = 4 ∧ (s.path p).cutPending = true then endScanVisit p .cut
        (burstResult c false (lanesOf (gathered (s.path p).accum.extremes x)) (sampled t ⟨0, none, true⟩ p s))
      else if 8 ≤ (s.path p).accum.count + 1 then endWork p
        (burstResult c true (lanesOf (gathered (s.path p).accum.extremes x)) (sampled t ⟨0, none, true⟩ p s))
      else sampled t ⟨(s.path p).accum.count + 1, some (gathered (s.path p).accum.extremes x), false⟩ p s := by
  have cutPending : ((awaitsSample t p s).path p).cutPending = (s.path p).cutPending := by rw [path_awaitsSample]
  unfold scanSample
  dsimp only
  rw [accum_awaitsSample, gathers_awaitsSample, gathers_awaitsSample, cutPending]
  exact if_neg (Bool.eq_false_iff.mp done)

/-! ### The loss of lock -/

/-- R98: the state in which a carry path that has lost lock has dropped its burst and its collection. -/
def lockDropped (t : Nat) (p : PathIdx) (c : CarrierIdx) (s : State) : State :=
  countEvent .carryLockLoss none (some c) ((awaitsSample t p s).modPath p (fun r =>
    { r with accum := .empty, collection := none, lockHeld := false, sampleDue := none }))

theorem path_lockDropped (t : Nat) (c : CarrierIdx) (p q : PathIdx) (s : State) : (lockDropped t p c s).path q = if p = q then
    { s.path p with accum := ⟨0, none, false⟩, collection := none, lockHeld := false, sampleDue := none }
    else s.path q := by
  have own := path_awaitsSample t p s
  have here : (lockDropped t p c s).path q = if p = q then { (awaitsSample t p s).path p with
      accum := .empty, collection := none, lockHeld := false, sampleDue := none } else (awaitsSample t p s).path q :=
    State.path_setPath (awaitsSample t p s) p q _
  rw [here, own]
  split
  next => rfl
  next other => exact (State.path_setPath s p q _).trans (if_neg other)

theorem carryLockLoss_eq (t : Nat) (p : PathIdx) (c : CarrierIdx) (s : State) :
    carryLockLoss p c (awaitsSample t p s) = lockLossToClaims p c (askRelock p 1 (lockDropped t p c s)) := rfl

/-- R96: the state in which a scan path that has lost lock has dropped its burst, its listening and its collection. -/
def scanLost (t : Nat) (p : PathIdx) (s : State) : State :=
  (awaitsSample t p s).modPath p (fun r =>
    { r with accum := .empty, collection := none, listening := false, lockHeld := false })

theorem scanLockLoss_eq (t : Nat) (p : PathIdx) (c : CarrierIdx) (s : State) :
    scanLockLoss p c (awaitsSample t p s)
      = endScanVisit p (if (s.path p).cutPending then .cut else .completed) (failedVisit c (scanLost t p s)) := by
  have cutPending : ((awaitsSample t p s).path p).cutPending = (s.path p).cutPending := by rw [path_awaitsSample]
  unfold scanLockLoss
  dsimp only
  rw [cutPending]
  rfl

theorem path_scanLost (t : Nat) (p q : PathIdx) (s : State) : (scanLost t p s).path q = if p = q then { s.path p with
    sampleDue := some (t + 20), accum := ⟨0, none, false⟩, collection := none, listening := false, lockHeld := false }
    else s.path q := by
  have own := path_awaitsSample t p s
  have here : (scanLost t p s).path q = if p = q then { (awaitsSample t p s).path p with
      accum := .empty, collection := none, listening := false, lockHeld := false } else (awaitsSample t p s).path q :=
    State.path_setPath (awaitsSample t p s) p q _
  rw [here, own]
  split
  next => rfl
  next other => exact (State.path_setPath s p q _).trans (if_neg other)

/-- What a burst result leaves, whether it is applied or not. -/
theorem burstResult_leaves (c : CarrierIdx) (full : Bool) (v : Lanes) (s : State) :
    (burstResult c full v s).paths = s.paths ∧ (burstResult c full v s).inputs = s.inputs
    ∧ (burstResult c full v s).plan = s.plan ∧ (burstResult c full v s).mons = s.mons
    ∧ (burstResult c full v s).inExec = s.inExec ∧ (burstResult c full v s).port = s.port
    ∧ (burstResult c full v s).now = s.now := by
  by_cases live : (s.car c).state = .live
  · have base : withBurst c full v s = { s with
        carriers := (withBurst c full v s).carriers, rank := (withBurst c full v s).rank } := by
      unfold withBurst
      rw [pushReport_eq]
      rfl
    by_cases first : (s.car c).quality = none
    · have only := (eligibilityTold c (withBurst c full v s)).only
      have mons := (eligibilityTold c (withBurst c full v s)).mons
      rw [burstResult_of_first live first, only.paths, only.inputs, only.plan, mons, only.inExec, only.port, only.now, base]
      exact ⟨rfl, rfl, rfl, rfl, rfl, rfl, rfl⟩
    · rw [burstResult_of_later live first, base]
      exact ⟨rfl, rfl, rfl, rfl, rfl, rfl, rfl⟩
  · rw [burstResult_of_notLive live]
    exact ⟨rfl, rfl, rfl, rfl, rfl, rfl, rfl⟩

theorem path_congr {s t : State} (h : t.paths = s.paths) (q : PathIdx) : t.path q = s.path q := by
  unfold State.path
  rw [h]

/-- R51, R96: what the claims are told of a lost carrier does not change with the end of its visit. -/
theorem ToldLoss.of_eq {c : CarrierIdx} {s t u : State} (h : ToldLoss s t c) (carriers : u.carriers = t.carriers)
    (claims : u.claims = t.claims) (rank : u.rank = t.rank) : ToldLoss s u c := by
  unfold ToldLoss at h ⊢
  rw [car_congr carriers, rank]
  simp only [claim_congr claims]
  exact h

/-- Settles O40, by the courses of a sample. -/
theorem sampleTaken : Obligations.SampleTaken := by
  intro s p x t c clear state due carrier
  have run : exec (.sample p x) s = .next (closeStep _) := congrArg (fun u => Host.Outcome.next (closeStep u))
    (sampleEffect_of_engaged (x := x) state due carrier)
  refine ⟨fun held more course => ?gathers, fun held carry full => ?carryBurst,
    fun full v held scan open' isV => ⟨fun count isFull listens => ?goesOn, fun ends => ?ends⟩,
    fun held scan done => ?idles, fun lost carry => ?carryLost, fun lost scan defined => ?scanLost⟩
  case gathers =>
    obtain carry | ⟨open', whole⟩ := course
    · rw [if_pos carry, if_pos held] at run
      exact exec_eq_of_clear run (carrySample_gathers more) clear
    · by_cases carry : (s.path p).use = some .carry
      · rw [if_pos carry, if_pos held] at run
        exact exec_eq_of_clear run (carrySample_gathers more) clear
      · rw [if_neg carry, if_pos held] at run
        refine exec_eq_of_clear run ((scanSample_of_open open').trans ?_) clear
        rw [if_neg fun ⟨half, cut⟩ => whole.elim (fun uncut => Bool.noConfusion (uncut.symm.trans cut)) fun h => h half,
          if_neg (Nat.not_le.mpr more)]
        rfl
  case carryBurst =>
    rw [if_pos carry, if_pos held, carrySample_bursts full] at run
    exact run
  case goesOn =>
    subst isFull
    replace isV : v = burstResult c true (lanesOf (gathered (s.path p).accum.extremes x)) (sampled t ⟨0, none, true⟩ p s) := isV
    rw [if_neg scan, if_pos held, scanSample_of_open open', count, if_neg fun h => absurd h.1 (by decide), if_pos le_rfl,
      ← isV] at run
    obtain ⟨paths, _⟩ := isV ▸ burstResult_leaves c true (lanesOf (gathered (s.path p).accum.extremes x))
      (sampled t ⟨0, none, true⟩ p s)
    rw [run, endWork_of_listening]
    rw [path_congr paths, path_sampled, if_pos rfl]
    exact listens
  case ends =>
    replace isV : v = burstResult c full (lanesOf (gathered (s.path p).accum.extremes x)) (sampled t ⟨0, none, true⟩ p s) := isV
    obtain ⟨paths, inputs, plan, mons, inExec, port, now⟩ := isV ▸ burstResult_leaves c full
      (lanesOf (gathered (s.path p).accum.extremes x)) (sampled t ⟨0, none, true⟩ p s)
    have svcs : v.svcs = s.svcs := isV ▸ svcs_burstResult c full _ (sampled t ⟨0, none, true⟩ p s)
    have own : v.path p = _ := (path_congr paths p).trans ((path_sampled t _ p p s).trans (if_pos rfl))
    have others : ∀ q, q ≠ p → v.path q = s.path q := fun q other =>
      (path_congr paths q).trans ((path_sampled t _ p q s).trans (if_neg other.symm))
    have ended : VisitOver p c _ v (endScanVisit p (if full then .completed else .cut) v) :=
      visitOver_endScanVisit _ (by rw [own]; exact ne_of_eq_of_ne state PathState.noConfusion) (by rw [own]; exact carrier)
    refine ⟨endScanVisit p (if full then .completed else .cut) v, ?_, ?_, fun q other => (ended.others q other).trans (others q other),
      (((follows_sampled t _ p s).trans (follows_of_paths inputs paths)).trans ended.follows).inputsFollow,
      ended.carriers, ended.claims, ended.svcs.trans svcs, ended.rank, ?_⟩
    · rw [if_neg scan, if_pos held, scanSample_of_open open'] at run
      obtain ⟨count, isFull, deaf⟩ | ⟨count, cut, isHalf⟩ := ends
      · subst isFull
        rw [count, if_neg fun h => absurd h.1 (by decide), if_pos le_rfl, ← isV, endWork_of_burst] at run
        · exact run
        · rw [own]
          exact deaf
        · rw [own]
      · subst isHalf
        rw [count, if_pos ⟨rfl, cut⟩, ← isV] at run
        exact run
    · rw [ended.left, now]
      exact leavesCarrier_leftPath _ _
    · have visit := ended.ends
      rw [own] at visit
      have back : (if full then VisitEnd.completed else .cut).putsBack = !full := by cases full <;> rfl
      rw [back] at visit
      exact visit.before plan mons inExec port
  case idles =>
    rw [if_neg scan, if_pos held] at run
    exact exec_eq_of_clear run (scanSample_idles done) clear
  case carryLost =>
    rw [if_pos carry, if_neg (Bool.eq_false_iff.mp lost), carryLockLoss_eq] at run
    have path := path_lockDropped t c p
    have asked : RelockAsked p 1 c _ (askRelock p 1 (lockDropped t p c s)) := relockAsked_askRelock 1 (by
      rw [path, if_pos rfl]
      exact carrier)
    refine ⟨_, run, ?_, fun q other => ?_, asked.asks, asked.carriers, asked.claims, fun m => ?_⟩
    · rw [asked.path, path, if_pos rfl]
    · rw [asked.others q other, path, if_neg other.symm]
    · unfold State.mon
      rw [asked.mons]
      rfl
  case scanLost =>
    rw [if_neg scan, if_neg (Bool.eq_false_iff.mp lost), scanLockLoss_eq] at run
    have path := path_scanLost t p
    have failed' : VisitFailed c _ (failedVisit c (scanLost t p s)) := visitFailed_failedVisit defined
    refine ⟨_, run, ?_⟩
    generalize failedVisit c (scanLost t p s) = w at failed'
    have own : w.path p = _ := (failed'.only.path p).trans ((path p s).trans (if_pos rfl))
    have ended : VisitOver p c _ w (endScanVisit p (if (s.path p).cutPending then .cut else .completed) w) :=
      visitOver_endScanVisit _ (by rw [own]; exact ne_of_eq_of_ne state PathState.noConfusion) (by rw [own]; exact carrier)
    generalize endScanVisit p (if (s.path p).cutPending then .cut else .completed) w = u at ended
    obtain ⟨failures, quality, _, state'⟩ := failed_record (s := scanLost t p s)
      ((car_congr ended.carriers c).trans (car_congr failed'.only.carriers c))
    have now : w.now = max s.now t := failed'.only.now
    have left : u.path p = leftPath (max s.now t) { s.path p with lockHeld := false } := by
      rw [ended.left, own, now]
      rfl
    obtain ⟨_, _, _, lockHeld, _, accum, collection, listening, _⟩ :=
      leftPath_fields (max s.now t) { s.path p with lockHeld := false }
    have back : (if (s.path p).cutPending then VisitEnd.cut else .completed).putsBack = (s.path p).cutPending := by
      cases (s.path p).cutPending <;> rfl
    have told : ToldLoss s w c := failed'.told
    have visit := ended.ends
    rw [own, back] at visit
    have lostFollows : Follows s (scanLost t p s) :=
      (follows_of_states rfl (fun q => by rw [path]; split <;> simp_all) fun q => by rw [path]; split <;> simp_all)
    rw [← left] at lockHeld accum collection listening
    refine ⟨left ▸ leavesCarrier_leftPath _ _, lockHeld, accum, collection, listening,
      fun q other => (ended.others q other).trans ((failed'.only.path q).trans ((path q s).trans (if_neg other.symm))),
      ((lostFollows.trans (follows_of_paths failed'.only.inputs failed'.only.paths)).trans ended.follows).inputsFollow,
      failures, quality, ?_, told.of_eq ended.carriers ended.claims ended.rank,
      fun ch other => (claim_congr ended.claims ch).trans (failed'.others ch other), ?_⟩
    · rw [state']
      have before : ((scanLost t p s).car c).state = (s.car c).state := rfl
      rw [before]
      generalize (u.car c).failures = n
      unfold failedState
      cases (s.car c).state <;> rfl
    · exact visit.before failed'.only.plan failed'.mons failed'.only.inExec failed'.only.port

end Sys2Proof.Machine
end

section
/-! PROOF. The expiry of a lock timer (R26, R27, R93, R99, R132, R138). -/

namespace Sys2Proof.Machine

variable {s : State} {p : PathIdx} {t : Nat} {c : CarrierIdx}

/-- R93, R99: the state in which the lock timer of a path has expired and its demodulator is stopped. -/
def expired (t : Nat) (p : PathIdx) (s : State) : State :=
  { s.setPath p { s.path p with lockTimer := none, demod := none } with now := max s.now t }

theorem path_expired (t : Nat) (p q : PathIdx) (s : State) : (expired t p s).path q
    = if p = q then { s.path p with lockTimer := none, demod := none } else s.path q := State.path_setPath s p q _

theorem follows_expired (t : Nat) (p : PathIdx) (s : State) : Follows s (expired t p s) := by
  have stops : Follows s (s.setPath p { s.path p with lockTimer := none, demod := none }) := follows_setPath p _ s rfl
  exact stops.trans (follows_of_paths rfl rfl)

theorem stopTuning_reach (state : (s.path p).state = .tuning) : stopTuning p (reach t s) = expired t p s := by
  have state' : ((reach t s).path p).state = .tuning := state
  unfold stopTuning
  rw [state']
  rfl

theorem lockTimerExpiryEffect_of_other (h : (s.path p).state ≠ .tuning) : lockTimerExpiryEffect p s = s := by
  unfold lockTimerExpiryEffect
  dsimp only
  split
  next state _ _ => exact absurd state h
  next => rfl

/-- R93: what the expiry of a lock timer does on a path that is TUNING. -/
theorem lockTimerExpiryEffect_of_tuning (state : (s.path p).state = .tuning) (timer : (s.path p).lockTimer = some t)
    (carrier : (s.path p).carrier = some c) : lockTimerExpiryEffect p s
      = if (s.path p).use = some .carry then
          if (s.path p).lockTime.isNone then
            leaveCarrier p (acquisitionFailedToClaims p c (failedVisit c (clearCarrying c (expired t p s))))
          else if (s.path p).relocks < 3 then askRelock p ((s.path p).relocks + 1) (expired t p s)
          else relocksExhausted p c (expired t p s)
        else endScanVisit p .completed (failedVisit c (expired t p s)) := by
  unfold lockTimerExpiryEffect
  dsimp only
  rw [state, timer, carrier]
  dsimp only
  rw [stopTuning_reach state]

/-! ### An attempt that has not locked -/

/-- What a path that leaves its carrier takes from the state, whatever is reported of it. -/
structure LeftCarrier (p : PathIdx) (s t : State) : Prop where
  left : t.path p = leftPath s.now (s.path p)
  others : ∀ q, q ≠ p → t.path q = s.path q
  follows : Follows s t
  carriers : t.carriers = s.carriers
  claims : t.claims = s.claims
  rank : t.rank = s.rank
  now : t.now = s.now

theorem VisitOver.leftCarrier {back : Bool} {s t : State} (h : VisitOver p c back s t) : LeftCarrier p s t :=
  ⟨h.left, h.others, h.follows, h.carriers, h.claims, h.rank, h.now⟩

theorem leftCarrier_leaveCarrier (state : (s.path p).state ≠ .recovery) : LeftCarrier p s (leaveCarrier p s) := by
  have ends := pathEnds_leaveCarrier p s
  exact ⟨path_leaveCarrier p s, ends.paths, follows_leaveCarrier p s state, carriers_leaveCarrier p s, ends.claims,
    ends.steady.rank, ends.now⟩

/-- R26, R93, R132: an attempt on a carrier has failed on a path that has not locked. -/
structure AttemptFailed (t : Nat) (p : PathIdx) (c : CarrierIdx) (s w : State) : Prop where
  own : w.path p = { s.path p with lockTimer := none, demod := none }
  others : ∀ q, q ≠ p → w.path q = s.path q
  follows : Follows s w
  now : w.now = max s.now t
  failures : (w.car c).failures = if (s.car c).failures < 3 then (s.car c).failures + 1 else (s.car c).failures
  state : (w.car c).state = failedState (s.car c).state (w.car c).failures
  told : ToldLoss s w c
  claims : ∀ ch, ¬ AwaitsCarrier s ch c →
    (s.path p).use ≠ some .carry ∨ (s.claim ch).state ≠ .acquiring ∨ (s.claim ch).path ≠ some p →
    w.claim ch = s.claim ch

theorem attemptFailed_scan (defined : (s.car c).state ≠ .free) :
    AttemptFailed t p c s (failedVisit c (expired t p s)) := by
  have failed' : VisitFailed c _ (failedVisit c (expired t p s)) := visitFailed_failedVisit defined
  obtain ⟨failures, _, _, state⟩ := failed_record (s := expired t p s) (car_congr failed'.only.carriers c)
  refine ⟨(failed'.only.path p).trans ((path_expired t p p s).trans (if_pos rfl)),
    fun q other => (failed'.only.path q).trans ((path_expired t p q s).trans (if_neg other.symm)),
    (follows_expired t p s).trans (follows_of_paths failed'.only.inputs failed'.only.paths), failed'.only.now, failures,
    state, failed'.told, fun ch other _ => failed'.others ch other⟩

/-- R29: the carrying path does not show in what the claims are told of a lost carrier. -/
theorem ToldLoss.before {r s u : State} (h : ToldLoss s u c)
    (car : { s.car c with carrying := none } = { r.car c with carrying := none }) (claims : s.claims = r.claims)
    (svcs : s.svcs = r.svcs) (rank : s.rank = r.rank) (mode : s.arb.mode = r.arb.mode) : ToldLoss r u c := by
  obtain ⟨state, _, _, quality, _, _, _, announced⟩ := carFields car
  unfold ToldLoss AwaitsCarrier evalsWith State.svc at h ⊢
  rw [state, quality, announced, svcs, rank, mode] at h
  simp only [claim_congr claims] at h
  exact h

/-- R29: the state in which a path has lost its carrier before it has locked. -/
def unclaimed (t : Nat) (p : PathIdx) (c : CarrierIdx) (s : State) : State := clearCarrying c (expired t p s)

theorem car_unclaimed (t : Nat) (p : PathIdx) (c : CarrierIdx) (s : State) :
    (unclaimed t p c s).car c = { s.car c with carrying := none } :=
  (car_clearCarrying c c (expired t p s)).trans (if_pos rfl)

/-- R26, R132: a failed visit, then the claims that acquire on the path. -/
structure AcquisitionOver (t : Nat) (p : PathIdx) (c : CarrierIdx) (s w : State) : Prop where
  failed : AttemptFailed t p c s w
  carrying : (w.car c).carrying = none
  acquiring : ∀ ch i, (s.claim ch).service = some i → s.arb.mode = .active → (s.claim ch).state = .acquiring →
    (s.claim ch).path = some p → (s.svc i).selected = some c →
    w.claim ch = .waiting i (if (w.car c).state = .live ∧ (s.car c).quality ≠ none then .noPath else .noSource)
  handover : ∀ ch, (s.claim ch).state = .handover → w.claim ch = s.claim ch
  plan : w.plan = s.plan
  inExec : w.inExec = s.inExec
  port : w.port = s.port
  mons : w.mons = ((List.finRange 32).foldl (fun u ch =>
    if (s.claim ch).state = .acquiring ∧ (s.claim ch).path = some p ∧ (s.claim ch).service ≠ none then
      countEvent .claimWaiting (s.claim ch).service none u else u) (countEvent .visitFailed none (some c) s)).mons

/-- R136: a claim that awaits a carrier waits on when the carrier is lost. -/
theorem waiting_of_toldLoss {s u : State} (told : ToldLoss s u c) {ch : ChannelIdx} (awaits : AwaitsCarrier s ch c) :
    (u.claim ch).state = .waiting := by
  obtain ⟨lost, kept⟩ := told
  obtain ⟨waits, _, i, service, _⟩ := id awaits
  by_cases h : (s.car c).state = .live ∧ (s.car c).quality ≠ none ∧ (u.car c).state = .lost
  · obtain ⟨live, measured, is⟩ := h
    rw [(lost live measured is).2 ch i awaits service]
    rfl
  · have stays : (s.car c).state ≠ .live ∨ (s.car c).quality = none ∨ (u.car c).state ≠ .lost := by
      by_contra none
      simp only [not_or, not_not] at none
      exact h none
    rw [(kept stays).2 ch awaits, waits]

/-- R132: the claims that do not acquire are as the failed visit left them, and it leaves those that do. -/
theorem toldLoss_of_acquisitionFails {r s u : State} (told : ToldLoss r s c) (fails : AcquisitionFails p c s u) :
    ToldLoss r u c := by
  have record : u.car c = s.car c := car_congr fails.only.carriers c
  obtain ⟨lost, kept⟩ := told
  refine ⟨fun live measured is => ?_, fun stays => ?_⟩
  · obtain ⟨evals, claims⟩ := lost live measured (record ▸ is)
    refine ⟨fails.only.rank ▸ evals, fun ch i awaits service => ?_⟩
    have told := claims ch i awaits service
    exact (fails.other ch (.inl (by rw [told]; exact ClaimState.noConfusion))).trans told
  · obtain ⟨evals, claims⟩ := kept (record ▸ stays)
    refine ⟨fails.only.rank ▸ evals, fun ch awaits => ?_⟩
    have same := claims ch awaits
    exact (fails.other ch (.inl (by rw [same, awaits.1]; exact ClaimState.noConfusion))).trans same

/-- R179: the occurrences counted of a list of claims, by the claims they are counted of and what was counted before. -/
theorem mons_countedClaims {P Q : ChannelIdx → Prop} [DecidablePred P] [DecidablePred Q]
    {f g : ChannelIdx → Option ServiceIdx} {e : Event} (same : ∀ ch, P ch ↔ Q ch) (services : ∀ ch, P ch → f ch = g ch)
    (l : List ChannelIdx) {s t : State} (start : s.mons = t.mons) :
    (l.foldl (fun u ch => if P ch then countEvent e (f ch) none u else u) s).mons
      = (l.foldl (fun u ch => if Q ch then countEvent e (g ch) none u else u) t).mons := by
  induction l generalizing s t with
  | nil => exact start
  | cons ch l ih =>
    refine ih ?_
    dsimp only
    by_cases here : P ch
    · rw [if_pos here, if_pos ((same ch).mp here), services ch here]
      exact mons_countEvent_congr start _ _ _
    · rw [if_neg here, if_neg (mt (same ch).mpr here)]
      exact start

theorem acquisitionOver (carry : (s.path p).use = some .carry) (defined : (s.car c).state ≠ .free) :
    AcquisitionOver t p c s (acquisitionFailedToClaims p c (failedVisit c (unclaimed t p c s))) := by
  have record := car_unclaimed t p c s
  have failed' : VisitFailed c _ (failedVisit c (unclaimed t p c s)) :=
    visitFailed_failedVisit (by rw [record]; exact defined)
  generalize failedVisit c (unclaimed t p c s) = w at failed'
  have fails := acquisitionFails p c w
  generalize acquisitionFailedToClaims p c w = u at fails
  have car : u.car c = (failed c (unclaimed t p c s)).car c :=
    (car_congr fails.only.carriers c).trans (car_congr failed'.only.carriers c)
  obtain ⟨failures, quality, carrying, state⟩ := failed_record car
  rw [record] at failures state carrying quality
  have told : ToldLoss s w c := failed'.told.before (by rw [record]) rfl rfl rfl rfl
  have unheard : ∀ ch, ¬ AwaitsCarrier s ch c → w.claim ch = s.claim ch := failed'.others
  have held : ∀ ch, (s.claim ch).state ≠ .waiting → w.claim ch = s.claim ch := fun ch other =>
    unheard ch fun awaits => other awaits.1
  have path : ∀ q, u.path q = (expired t p s).path q := fun q =>
    (fails.only.path q).trans (failed'.only.path q)
  refine ⟨⟨(path p).trans ((path_expired t p p s).trans (if_pos rfl)),
      fun q other => (path q).trans ((path_expired t p q s).trans (if_neg other.symm)),
      (follows_expired t p s).trans (follows_of_paths (fails.only.inputs.trans failed'.only.inputs)
        (fails.only.paths.trans failed'.only.paths)), fails.only.now.trans failed'.only.now, failures, state,
      toldLoss_of_acquisitionFails told fails, fun ch other apart => ?_⟩, carrying,
    fun ch i service mode acquires path selected => ?_, fun ch state => ?_,
    fails.only.plan.trans failed'.only.plan, fails.only.inExec.trans failed'.only.inExec,
    fails.only.port.trans failed'.only.port, ?_⟩
  · have same := unheard ch other
    exact (fails.other ch (same ▸ apart.resolve_left (not_not_intro carry))).trans same
  · have same := held ch (ne_of_eq_of_ne acquires ClaimState.noConfusion)
    have active : w.arb.mode = .active := failed'.only.mode.trans mode
    have selected' : (w.svc i).selected = some c := by
      rw [failed'.only.svc i]
      exact selected
    rw [fails.examined ch i (by rw [same, acquires]) (by rw [same, path]) (by rw [same, service])]
    have ok : eligible w c = true ↔ (u.car c).state = .live ∧ (s.car c).quality ≠ none := by
      rw [eligible_iff, ← car_congr fails.only.carriers c, quality]
    by_cases live : (u.car c).state = .live ∧ (s.car c).quality ≠ none
    · rw [if_pos live]
      exact examined_of_noPath active selected' (ok.mpr live) (car_congr fails.only.carriers c ▸ carrying)
    · rw [if_neg live]
      exact examined_of_ineligible active selected' (Bool.eq_false_iff.mpr (mt ok.mp live))
  · have same := held ch (ne_of_eq_of_ne state ClaimState.noConfusion)
    exact (fails.other ch (.inl (by rw [same, state]; exact ClaimState.noConfusion))).trans same
  · rw [fails.mons]
    have waiting : ∀ ch, (s.claim ch).state = .waiting → (w.claim ch).state = .waiting := fun ch waits => by
      by_cases awaits : AwaitsCarrier s ch c
      · exact waiting_of_toldLoss told awaits
      · rw [unheard ch awaits, waits]
    refine mons_countedClaims (fun ch => ?_) (fun ch acquires => ?_) _
      (failed'.mons.trans (mons_countEvent_congr rfl _ _ _))
    · by_cases waits : (s.claim ch).state = .waiting
      · rw [waits, waiting ch waits]
        simp
      · rw [held ch waits]
    · obtain ⟨acquires, _⟩ := acquires
      rw [held ch fun waits => ClaimState.noConfusion (acquires.symm.trans (waiting ch waits))]

/-! ### Relocks that are exhausted -/

/-- R27, R102: the state in which a carry path has given up its lost carrier. -/
def gaveUp (t : Nat) (p : PathIdx) (c : CarrierIdx) (s : State) : State :=
  leaveCarrier p (clearCarrying c (setLost c (expired t p s)))

theorem setLost_of_defined (defined : (s.car c).state ≠ .free) :
    setLost c s = s.setCar c { s.car c with state := .lost, failures := 3 } := if_neg defined

theorem relocksExhausted_eq (state : (s.path p).state = .tuning) (carry : (s.path p).use = some .carry)
    (carrier : (s.path p).carrier = some c) (defined : (s.car c).state ≠ .free) : relocksExhausted p c (expired t p s)
      = if eligible (exhaustedToClaims p (gaveUp t p c s)) c = eligible (expired t p s) c
          then exhaustedToClaims p (gaveUp t p c s)
        else reportEligibility c (exhaustedToClaims p (gaveUp t p c s)) := by
  have own : (setLost c (expired t p s)).path p = { s.path p with lockTimer := none, demod := none } := by
    rw [setLost_of_defined (s := expired t p s) defined]
    exact (path_expired t p p s).trans (if_pos rfl)
  have release : releaseCarry p (setLost c (expired t p s)) = gaveUp t p c s :=
    releaseCarry_working p c _ (by rw [own]; exact carry) (by rw [own]; exact state ▸ rfl) (by rw [own]; exact carrier)
  unfold relocksExhausted
  rw [release]

/-- What the loss of its carrier leaves on a carry path, before the claims are told. -/
structure GivesUp (t : Nat) (p : PathIdx) (c : CarrierIdx) (s g : State) : Prop where
  car : g.car c = { s.car c with state := .lost, failures := 3, carrying := none }
  own : g.path p = leftPath (max s.now t) { s.path p with lockTimer := none, demod := none }
  others : ∀ q, q ≠ p → g.path q = s.path q
  follows : Follows s g
  claim : ∀ ch, g.claim ch = s.claim ch
  svc : ∀ i, g.svc i = s.svc i
  rank : g.rank = s.rank
  mode : g.arb.mode = s.arb.mode
  plan : g.plan = s.plan
  mons : g.mons = s.mons

theorem car_gaveUp (defined : (s.car c).state ≠ .free) :
    (gaveUp t p c s).car c = { s.car c with state := .lost, failures := 3, carrying := none } := by
  unfold gaveUp
  rw [car_congr (carriers_leaveCarrier p _), car_clearCarrying, if_pos rfl,
    setLost_of_defined (s := expired t p s) defined, State.car_setCar, if_pos rfl]
  rfl

theorem gaveUp_gives (state : (s.path p).state = .tuning) (defined : (s.car c).state ≠ .free) :
    GivesUp t p c s (gaveUp t p c s) := by
  have car := car_gaveUp (t := t) (p := p) defined
  unfold gaveUp at car ⊢
  have lost := setLost_of_defined (s := expired t p s) defined
  have path : ∀ q, (clearCarrying c (setLost c (expired t p s))).path q = (expired t p s).path q := fun q => by
    rw [lost]
    rfl
  have own := (path p).trans ((path_expired t p p s).trans (if_pos rfl))
  have follows : Follows (expired t p s) (clearCarrying c (setLost c (expired t p s))) := by
    rw [lost]
    exact follows_of_paths rfl rfl
  have base : clearCarrying c (setLost c (expired t p s)) = { expired t p s with
      carriers := (clearCarrying c (setLost c (expired t p s))).carriers } := by
    rw [lost]
    rfl
  generalize clearCarrying c (setLost c (expired t p s)) = b at car path own follows base
  have left := leavingOnly_leaveCarrier p b
  have leaves : LeftCarrier p b (leaveCarrier p b) :=
    leftCarrier_leaveCarrier (by rw [own]; exact ne_of_eq_of_ne state PathState.noConfusion)
  have now : b.now = max s.now t := by rw [base]; rfl
  refine ⟨car, by rw [leaves.left, own, now], fun q other => (leaves.others q other).trans ((path q).trans
    ((path_expired t p q s).trans (if_neg other.symm))), ((follows_expired t p s).trans follows).trans leaves.follows,
    fun ch => (claim_congr leaves.claims ch).trans (by rw [base]; rfl), fun i => ?_, leaves.rank.trans (by rw [base]; rfl),
    left.mode.trans (by rw [base]; rfl), left.plan.trans (by rw [base]; rfl), left.mons.trans (by rw [base]; rfl)⟩
  unfold State.svc
  rw [left.svcs, base]
  rfl

/-- R27, R93, R138: what comes of a carry path whose relocks are exhausted. -/
structure RelocksOver (t : Nat) (p : PathIdx) (c : CarrierIdx) (s u : State) : Prop where
  car : u.car c = { s.car c with state := .lost, failures := 3, carrying := none }
  own : u.path p = leftPath (max s.now t) { s.path p with lockTimer := none, demod := none }
  others : ∀ q, q ≠ p → u.path q = s.path q
  follows : Follows s u
  plan : u.plan = s.plan
  mons : u.mons = ((List.finRange 32).foldl (fun w ch =>
    if (s.claim ch).state = .recovering ∧ (s.claim ch).path = some p ∧ (s.claim ch).service ≠ none then
      countEvent .claimWaiting (s.claim ch).service none w else w) s).mons
  told : ToldLoss s u c
  claims : ∀ ch, ¬ AwaitsCarrier s ch c → (s.claim ch).state ≠ .recovering ∨ (s.claim ch).path ≠ some p →
    u.claim ch = s.claim ch
  recovering : ∀ ch i, (s.claim ch).service = some i → s.arb.mode = .active → (s.claim ch).state = .recovering →
    (s.claim ch).path = some p → (s.svc i).selected = some c → u.claim ch = .waiting i .noSource

theorem relocksOver (state : (s.path p).state = .tuning) (carry : (s.path p).use = some .carry)
    (carrier : (s.path p).carrier = some c) (defined : (s.car c).state ≠ .free) :
    RelocksOver t p c s (relocksExhausted p c (expired t p s)) := by
  have gives := gaveUp_gives (t := t) state defined
  rw [relocksExhausted_eq state carry carrier defined]
  generalize gaveUp t p c s = g at gives
  have ends := exhausts p g
  generalize exhaustedToClaims p g = w at ends
  have told := outcomeTold c (expired t p s) w
  generalize (if eligible w c = eligible (expired t p s) c then w else reportEligibility c w) = u at told
  have record : w.car c = { s.car c with state := .lost, failures := 3, carrying := none } :=
    (car_congr ends.only.carriers c).trans gives.car
  have record' : u.car c = { s.car c with state := .lost, failures := 3, carrying := none } :=
    (car_congr told.only.carriers c).trans record
  have gone : ∀ v : State, v.car c = { s.car c with state := .lost, failures := 3, carrying := none } →
      eligible v c = false := fun v is => by
    refine Bool.eq_false_iff.mpr fun ok => ?_
    obtain ⟨live, _⟩ := (eligible_iff v c).mp ok
    rw [is] at live
    exact CarState.noConfusion live
  have changes : eligible w c ≠ eligible (expired t p s) c ↔ (s.car c).state = .live ∧ (s.car c).quality ≠ none := by
    rw [gone w record, ← eligible_iff s c]
    exact ⟨fun other => (Bool.eq_true_of_not_eq_false fun off => other off.symm), fun on same =>
      Bool.noConfusion (same.trans on)⟩
  have claim : ∀ ch, (s.claim ch).state ≠ .recovering ∨ (s.claim ch).path ≠ some p → w.claim ch = s.claim ch :=
    fun ch apart => (ends.other ch (gives.claim ch ▸ apart)).trans (gives.claim ch)
  have mode : w.arb.mode = s.arb.mode := ends.only.mode.trans gives.mode
  have svc : ∀ i, w.svc i = s.svc i := fun i => (ends.only.svc i).trans (gives.svc i)
  have examines : ∀ (v : State) i, v.arb.mode = s.arb.mode → v.svc i = s.svc i →
      v.car c = { s.car c with state := .lost, failures := 3, carrying := none } → (s.svc i).selected = some c →
      examined v i = .waiting i (if s.arb.mode = .active then .noSource else .standby) :=
    fun v i mode svc car selected => by
      by_cases active : s.arb.mode = .active
      · rw [if_pos active]
        exact examined_of_ineligible (mode.trans active) (svc ▸ selected) (gone v car)
      · rw [if_neg active]
        exact examined_of_standby i (mode ▸ active)
  have waits : ∀ ch, w.claim ch = s.claim ch →
      (AwaitsCarrier { w with rank := u.rank } ch c ↔ AwaitsCarrier s ch c) := fun ch same => by
    have here : ({ w with rank := u.rank } : State).claim ch = s.claim ch := same
    have there : ∀ i, ({ w with rank := u.rank } : State).svc i = s.svc i := svc
    unfold AwaitsCarrier
    simp only [here, there]
  have path : ∀ q, u.path q = g.path q := fun q => (told.only.path q).trans (ends.only.path q)
  refine ⟨record', (path p).trans gives.own, fun q other => (path q).trans (gives.others q other),
    (gives.follows.trans (follows_of_paths ends.only.inputs ends.only.paths)).trans
      (follows_of_paths told.only.inputs told.only.paths), told.only.plan.trans (ends.only.plan.trans gives.plan), ?_,
    ⟨fun live measured _ => ?_, fun stays => ?_⟩, fun ch other apart => ?_, fun ch i service active state path selected => ?_⟩
  · rw [told.mons, ends.mons]
    exact mons_countedClaims (fun ch => by rw [gives.claim ch]) (fun ch _ => by rw [gives.claim ch]) _ gives.mons
  · obtain ⟨evals, claims⟩ := told.changed (changes.mpr ⟨live, measured⟩)
    refine ⟨?_, fun ch i awaits service => ?_⟩
    · rw [evals]
      unfold evalsWith
      rw [record, ends.only.rank, gives.rank]
    · have same := claim ch (.inl (ne_of_eq_of_ne awaits.1 ClaimState.noConfusion))
      rw [claims.awaits ch i ((waits ch same).mpr awaits) ((congrArg ClaimRec.service same).trans service)]
      obtain ⟨_, _, j, service', selected⟩ := awaits
      obtain rfl := Option.some.inj (service.symm.trans service')
      exact examines { w with rank := u.rank } i mode (svc i) record selected
  · have unlost : ¬ ((s.car c).state = .live ∧ (s.car c).quality ≠ none) := fun ⟨live, measured⟩ =>
      stays.elim (absurd live) fun h => h.elim measured fun unlost => unlost (by rw [record'])
    obtain ⟨evals, claims⟩ := told.kept (not_not.mp (mt changes.mp unlost))
    refine ⟨evals.trans (by rw [ends.only.rank, gives.rank]), fun ch awaits => ?_⟩
    exact (claim_congr claims ch).trans (claim ch (.inl (ne_of_eq_of_ne awaits.1 ClaimState.noConfusion)))
  · have same := claim ch apart
    by_cases lost : (s.car c).state = .live ∧ (s.car c).quality ≠ none
    · exact ((told.changed (changes.mpr lost)).2.others ch (mt (waits ch same).mp other)).trans same
    · exact (claim_congr (told.kept (not_not.mp (mt changes.mp lost))).2 ch).trans same
  · have before : w.claim ch = .waiting i .noSource := by
      rw [ends.examined ch i (by rw [gives.claim, state]) (by rw [gives.claim, path]) (by rw [gives.claim, service]),
        examines g i gives.mode (gives.svc i) gives.car selected, if_pos active]
    by_cases lost : (s.car c).state = .live ∧ (s.car c).quality ≠ none
    · have awaits : AwaitsCarrier { w with rank := u.rank } ch c := by
        have here : ({ w with rank := u.rank } : State).claim ch = .waiting i .noSource := before
        unfold AwaitsCarrier
        rw [here]
        exact ⟨rfl, (fun is => Reason.noConfusion (Option.some.inj is)), i, rfl, (congrArg ServiceRec.selected (svc i)).trans selected⟩
      rw [(told.changed (changes.mpr lost)).2.awaits ch i awaits (congrArg ClaimRec.service before),
        examines { w with rank := u.rank } i mode (svc i) record selected, if_pos active]
    · exact (claim_congr (told.kept (not_not.mp (mt changes.mp lost))).2 ch).trans before

/-- R93, R103: what the failed attempt leaves when the path enters RECOVERY. -/
theorem attempt_ends {w u : State} (failed' : AttemptFailed t p c s w) (leaves : LeftCarrier p w u)
    (unlocked : (s.path p).lockTime = none) : u.now = max s.now t ∧ (u.path p).state = .recovery
      ∧ (u.path p).recoveryEnd = some (max s.now t + 3) ∧ (u.path p).demod = none
      ∧ (∀ q, q ≠ p → u.path q = s.path q) ∧ InputsFollow s u
      ∧ (u.car c).failures = (if (s.car c).failures < 3 then (s.car c).failures + 1 else (s.car c).failures)
      ∧ (u.car c).state = failedState (s.car c).state (u.car c).failures ∧ ToldLoss s u c
      ∧ ∀ ch, ¬ AwaitsCarrier s ch c →
        (s.path p).use ≠ some .carry ∨ (s.claim ch).state ≠ .acquiring ∨ (s.claim ch).path ≠ some p →
        u.claim ch = s.claim ch := by
  have own : u.path p = leftPath (max s.now t) { s.path p with lockTimer := none, demod := none } := by
    rw [leaves.left, failed'.own, failed'.now]
  have gone := leftPath_of_passed (now := max s.now t) (r := { s.path p with lockTimer := none, demod := none })
    fun a locked => absurd (unlocked.symm.trans locked) (fun h => nomatch h)
  rw [gone] at own
  have car := car_congr leaves.carriers c
  refine ⟨leaves.now.trans failed'.now, by rw [own], by rw [own], by rw [own],
    fun q other => (leaves.others q other).trans (failed'.others q other),
    (failed'.follows.trans leaves.follows).inputsFollow, by rw [car, failed'.failures], by rw [car, failed'.state],
    failed'.told.of_eq leaves.carriers leaves.claims leaves.rank,
    fun ch other apart => (claim_congr leaves.claims ch).trans (failed'.claims ch other apart)⟩

/-- Settles O39, by what comes of the attempt. -/
theorem lockTimerExpiry : Obligations.LockTimerExpiry := by
  refine fun s p => ⟨fun other clear =>
    exec_eq_of_clear (c := .lockTimerExpiry p) rfl (lockTimerExpiryEffect_of_other other) clear,
    fun t c state timer carrier defined => ?_⟩
  have run : exec (.lockTimerExpiry p) s = .next (closeStep _) := congrArg (fun u => Host.Outcome.next (closeStep u))
    (lockTimerExpiryEffect_of_tuning state timer carrier)
  refine ⟨fun unlocked => ?fails, fun carry locked few => ?asks, fun carry locked many => ?exhausts⟩
  case fails =>
    by_cases carry : (s.path p).use = some .carry
    · rw [if_pos carry, if_pos (Option.isNone_iff_eq_none.mpr unlocked)] at run
      have ends : AcquisitionOver t p c s (acquisitionFailedToClaims p c (failedVisit c (clearCarrying c (expired t p s)))) :=
        acquisitionOver carry defined
      generalize acquisitionFailedToClaims p c (failedVisit c (clearCarrying c (expired t p s))) = w at run ends
      have leaves : LeftCarrier p w (leaveCarrier p w) := leftCarrier_leaveCarrier (by
        rw [ends.failed.own]
        exact ne_of_eq_of_ne state PathState.noConfusion)
      have only := leavingOnly_leaveCarrier p w
      generalize leaveCarrier p w = u at run leaves only
      obtain ⟨now, recovery, recoveryEnd, demod, others, follows, failures, state', told, claims⟩ :=
        attempt_ends ends.failed leaves unlocked
      have car := car_congr leaves.carriers c
      refine ⟨u, run, now, recovery, recoveryEnd, demod, others, follows, failures, ?_, told, claims,
        fun _ => ⟨car ▸ ends.carrying, fun ch i service mode => ⟨fun acquires path selected => ?_, fun handover => ?_⟩⟩,
        fun v isV => ⟨⟨fun is => ?_, fun is => ?_, fun is => ?_⟩, fun _ => ⟨only.plan.trans ends.plan,
          only.inExec.trans ends.inExec, only.port.trans ends.port, ?_⟩⟩⟩
      · rw [state']
        generalize (u.car c).failures = n
        unfold failedState
        cases (s.car c).state <;> rfl
      · rw [claim_congr leaves.claims, car]
        exact ends.acquiring ch i service mode acquires path selected
      · exact (claim_congr leaves.claims ch).trans (ends.handover ch handover)
      · exact absurd (carry.symm.trans is) (by decide)
      · exact absurd (carry.symm.trans is) (by decide)
      · exact absurd (carry.symm.trans is) (by decide)
      · rw [only.mons, ends.mons, isV]
    · rw [if_neg carry] at run
      have failed' : VisitFailed c _ (failedVisit c (expired t p s)) := visitFailed_failedVisit defined
      have attempt : AttemptFailed t p c s (failedVisit c (expired t p s)) := attemptFailed_scan defined
      generalize failedVisit c (expired t p s) = w at run failed' attempt
      have own := attempt.own
      have ended : VisitOver p c _ w (endScanVisit p .completed w) := visitOver_endScanVisit .completed
        (by rw [own]; exact ne_of_eq_of_ne state PathState.noConfusion) (by rw [own]; exact carrier)
      generalize endScanVisit p .completed w = u at run ended
      obtain ⟨now, recovery, recoveryEnd, demod, others, follows, failures, state', told, claims⟩ :=
        attempt_ends attempt ended.leftCarrier unlocked
      refine ⟨u, run, now, recovery, recoveryEnd, demod, others, follows, failures, ?_, told, claims,
        fun is => absurd is carry, fun v isV => ⟨?_, fun is => absurd is carry⟩⟩
      · rw [state']
        generalize (u.car c).failures = n
        unfold failedState
        cases (s.car c).state <;> rfl
      · have visit := ended.ends
        rw [own] at visit
        have mons : w.mons = v.mons := failed'.mons.trans ((mons_countEvent_congr rfl _ _ _).trans (congrArg State.mons isV).symm)
        subst isV
        exact visit.before failed'.only.plan mons failed'.only.inExec failed'.only.port
  case asks =>
    have held : ¬ (s.path p).lockTime.isNone = true := fun none => locked (Option.isNone_iff_eq_none.mp none)
    rw [if_pos carry, if_neg held, if_pos few] at run
    have path := path_expired t p
    have asked : RelockAsked p ((s.path p).relocks + 1) c _ (askRelock p ((s.path p).relocks + 1) (expired t p s)) :=
      relockAsked_askRelock _ (by rw [path, if_pos rfl]; exact carrier)
    refine ⟨_, run, ?_, fun q other => ?_, asked.asks, asked.carriers, asked.claims, asked.rank, asked.mons, asked.plan⟩
    · rw [asked.path, path, if_pos rfl]
    · rw [asked.others q other, path, if_neg other.symm]
  case exhausts =>
    have held : ¬ (s.path p).lockTime.isNone = true := fun none => locked (Option.isNone_iff_eq_none.mp none)
    rw [if_pos carry, if_neg held, if_neg (Nat.not_lt.mpr many)] at run
    have ends : RelocksOver t p c s (relocksExhausted p c (expired t p s)) := relocksOver state carry carrier defined
    have demod : ((relocksExhausted p c (expired t p s)).path p).demod = none := by
      rw [ends.own]
      unfold leftPath PathRec.quiet
      dsimp only
      split
      · rfl
      · split
        · rfl
        · rfl
    generalize relocksExhausted p c (expired t p s) = u at run ends demod
    refine ⟨u, run, by rw [ends.car], by rw [ends.car], by rw [ends.car], by rw [ends.car],
      by rw [ends.own]; exact leavesCarrier_leftPath _ _, demod, ends.others, ends.follows.inputsFollow, ends.plan, ends.mons, ends.told,
      ends.claims, fun ch i service mode => ⟨ends.recovering ch i service mode, fun handover => ?_⟩⟩
    exact ends.claims ch (fun awaits => ClaimState.noConfusion (handover.symm.trans awaits.1))
      (.inl (ne_of_eq_of_ne handover ClaimState.noConfusion))

end Sys2Proof.Machine
end

section
/-! SUPPORT. The courses of a claim item (R116), each with its condition in the words of the statements. -/

namespace Sys2Proof.Machine

variable {s : State} {ch : ChannelIdx} {c : CarrierIdx} {p : PathIdx} {k : CarrierParams}

theorem hasCuts_iff (s : State) (ch : ChannelIdx) : hasCuts s ch = true ↔ ∃ x ∈ s.arb.cuts, x.1 = ch := by
  unfold hasCuts
  rw [List.any_eq_true]
  simp only [decide_eq_true_eq]

theorem hasCuts_eq_false (h : ∀ x ∈ s.arb.cuts, x.1 ≠ ch) : hasCuts s ch = false :=
  Bool.eq_false_iff.mpr fun some => by
    obtain ⟨x, mem, same⟩ := (hasCuts_iff s ch).mp some
    exact h x mem same

theorem setClaim_parts (ch : ChannelIdx) (c : ClaimRec) (s : State) :
    setClaim ch c s = { s with claims := (setClaim ch c s).claims } := by
  unfold setClaim
  split <;> rfl

/-- R116: telling the reason of an unserved claim writes that claim alone. -/
theorem tellReason_parts (ch : ChannelIdx) (why : Reason) (s : State) :
    tellReason ch why s = { s with claims := (tellReason ch why s).claims }
    ∧ (tellReason ch why s).claim ch = unserved s ch why := by
  unfold tellReason unserved
  by_cases waits : (s.claim ch).state = .waiting
  · rw [if_pos waits, if_pos waits]
    exact ⟨setClaim_parts ch _ s, (claim_setClaim s ch ch _).trans (if_pos rfl)⟩
  · rw [if_neg waits, if_neg waits]
    exact ⟨rfl, rfl⟩

theorem carrierAnswer_blocked (params : (s.car c).params = some k) (satellite : (s.inp k.input).kind = .satellite)
    (feed : k.feed ≠ some (s.inp k.input).feed) (held : (s.inp k.input).attached ≠ []) :
    carrierAnswer s c = .blocked := by
  rw [carrierAnswer_of_params params]
  by_contra other
  obtain unlike | same | free := (feedAnswer_ne_blocked s k).mp other
  · exact unlike satellite
  · exact feed same
  · exact held free

theorem carrierAnswer_open (params : (s.car c).params = some k) (h : (s.inp k.input).kind ≠ .satellite
    ∨ k.feed = some (s.inp k.input).feed ∨ (s.inp k.input).attached = []) : carrierAnswer s c ≠ .blocked := by
  rw [carrierAnswer_of_params params]
  exact (feedAnswer_ne_blocked s k).mpr h

theorem serveItem_blocked (none : pathOn s c = none) (room : carryCount s < 8 - s.arb.reserve)
    (answer : carrierAnswer s c = .blocked) :
    serveItem ch c s = cutConflict ch c (tellReason ch .feedConflict s) := by
  unfold serveItem
  simp only [none, (underLimit_iff s).mpr room, answer]
  rfl

theorem serveItem_open (none : pathOn s c = none) (room : carryCount s < 8 - s.arb.reserve)
    (answer : carrierAnswer s c ≠ .blocked) : serveItem ch c s = (idlePath s).elim (preempt ch (tellReason ch .noPath s))
      (fun p => forgetCutsOfClaim ch (grant p .carry c s)) := by
  unfold serveItem
  simp only [none, (underLimit_iff s).mpr room, if_true]
  cases is : carrierAnswer s c with
  | blocked => exact absurd is answer
  | agrees => cases idlePath s <;> rfl
  | switchable => cases idlePath s <;> rfl

end Sys2Proof.Machine
end

section
/-! SUPPORT. Cuts (R95, R100, R101, R117, R118). -/

namespace Sys2Proof.Machine

variable {s : State} {ch : ChannelIdx} {p : PathIdx}

/-- R101: the path is left to its half boundary by a cut. -/
def PathRec.leftToHalf (r : PathRec) : Prop :=
  r.state = .engaged ∧ r.accum.burstDone = false ∧ r.accum.count < 4

/-- R100, R101: a scan path at work on which no cut is pending. -/
def PathRec.cuttable (r : PathRec) : Prop := r.scan = true ∧ r.cutPending = false ∧ r.state.working = true

theorem cutPath_of_leftToHalf (h : (s.path p).cuttable) (half : (s.path p).leftToHalf) : cutPath p s
    = s.setPath p { s.path p with cutPending := true, listening := false, collection := none, rosterTimer := none } := by
  obtain ⟨scan, pending, _⟩ := h
  obtain ⟨engaged, burst, count⟩ := half
  unfold cutPath
  dsimp only
  rw [scan, pending, engaged, burst]
  exact if_pos count

theorem cutPath_of_working (h : (s.path p).cuttable) (whole : ¬ (s.path p).leftToHalf) :
    cutPath p s = endScanVisit p .cut s := by
  obtain ⟨scan, pending, working⟩ := h
  unfold cutPath
  dsimp only
  rw [scan, pending]
  cases state : (s.path p).state with
  | awaitTune => rfl
  | tuning => rfl
  | engaged =>
    cases burst : (s.path p).accum.burstDone with
    | true => rfl
    | false => exact if_neg fun count => whole ⟨state, burst, count⟩
  | idle => exact absurd (state ▸ working) (by decide)
  | dwell => exact absurd (state ▸ working) (by decide)
  | recovery => exact absurd (state ▸ working) (by decide)

theorem cutPath_of_uncuttable (h : ¬ (s.path p).cuttable) : cutPath p s = s := by
  unfold cutPath
  dsimp only
  by_cases open' : ((s.path p).scan && !(s.path p).cutPending) = true
  · obtain ⟨scan, uncut⟩ := Bool.and_eq_true_iff.mp open'
    have rests : (s.path p).state.working = false := Bool.eq_false_iff.mpr fun working =>
      h ⟨scan, (Bool.not_eq_true' _).mp uncut, working⟩
    rw [if_pos open']
    cases state : (s.path p).state with
    | idle => rfl
    | dwell => rfl
    | recovery => rfl
    | awaitTune => exact absurd (state ▸ rests) (by decide)
    | tuning => exact absurd (state ▸ rests) (by decide)
    | engaged => exact absurd (state ▸ rests) (by decide)
  · exact if_neg open'

/-- R100, R101: a cut that is taken, which no second cut follows. -/
theorem cutTaken_cutPath (h : (s.path p).cuttable) : CutTaken s.now (s.path p) ((cutPath p s).path p)
    ∧ ¬ ((cutPath p s).path p).cuttable ∧ ((cutPath p s).path p).carrier = (s.path p).carrier := by
  by_cases half : (s.path p).leftToHalf
  · rw [cutPath_of_leftToHalf h half, State.path_setPath, if_pos rfl]
    obtain ⟨engaged, burst, count⟩ := half
    refine ⟨⟨fun _ _ _ => rfl, fun whole => ?_⟩, fun ⟨_, uncut, _⟩ => Bool.noConfusion uncut, rfl⟩
    obtain other | done | more := whole
    · exact absurd engaged other
    · exact absurd (burst.symm.trans done) Bool.noConfusion
    · exact absurd count (Nat.not_lt.mpr more)
  · rw [cutPath_of_working h half, path_endScanVisit]
    refine ⟨⟨fun engaged burst count => absurd ⟨engaged, burst, count⟩ half, fun _ => leavesCarrier_leftPath _ _⟩,
      fun ⟨_, _, working⟩ => ?_, ?_⟩
    · obtain dwell | recovery := leftPath_state s.now (s.path p)
      · rw [dwell] at working
        exact absurd working (by decide)
      · rw [recovery] at working
        exact absurd working (by decide)
    · obtain ⟨_, carrier, _⟩ := leftPath_fields s.now (s.path p)
      exact carrier

theorem pathEnds_cutPath (p : PathIdx) (s : State) : PathEnds p s (cutPath p s) := by
  by_cases h : (s.path p).cuttable
  · by_cases half : (s.path p).leftToHalf
    · rw [cutPath_of_leftToHalf h half]
      exact pathEnds_setPath p _ s
    · rw [cutPath_of_working h half]
      exact pathEnds_endScanVisit p .cut s
  · rw [cutPath_of_uncuttable h]
    exact PathEnds.refl p s

theorem cutPath_keeps (p : PathIdx) (s : State) :
    (cutPath p s).carriers = s.carriers ∧ (cutPath p s).arb.cuts = s.arb.cuts := by
  have cuts := congrArg Arbiter.cuts (pathEnds_cutPath p s).arb
  refine ⟨?_, cuts⟩
  by_cases h : (s.path p).cuttable
  · by_cases half : (s.path p).leftToHalf
    · rw [cutPath_of_leftToHalf h half]
      rfl
    · rw [cutPath_of_working h half, carriers_endScanVisit]
  · rw [cutPath_of_uncuttable h]

/-! ### What a cut counts and puts back -/

theorem mon_countEvent (e : Event) (i : Option ServiceIdx) (c : Option CarrierIdx) (s : State) (m : MonitorIdx) :
    (countEvent e i c s).mon m = (s.mon m).take e i c := getElem_vmap _ s.mons m.val m.isLt

theorem select_take (e : Event) (i : Option ServiceIdx) (c : Option CarrierIdx) (m : Monitor) :
    (m.take e i c).select = m.select := by
  unfold Monitor.take
  split
  · split <;> rfl
  · rfl

theorem mon_countEvent_other {e : Event} {m : MonitorIdx} (h : (s.mon m).select ≠ some e) (i : Option ServiceIdx)
    (c : Option CarrierIdx) : (countEvent e i c s).mon m = s.mon m :=
  (mon_countEvent e i c s m).trans (if_neg h)

theorem mon_putBackTo {m : MonitorIdx} (h : (s.mon m).select = some .preemption) (c : CarrierIdx) :
    (putBackTo c s).mon m = s.mon m := by
  have other : (s.mon m).select ≠ some .visitQueueFull := ne_of_eq_of_ne h (by decide)
  unfold State.mon at other ⊢
  by_cases full : c ∉ s.plan.queue ∧ 16 ≤ s.plan.queue.length
  · rw [mons_putBackTo_of_full full]
    exact mon_countEvent_other other none _
  · rw [mons_putBackTo_of_room full]

theorem cutCounted_kept {r : PathRec} (h : r.carrier = none ∨ ¬ (r.use = some .queue ∧ ¬ r.leftToHalf)) (s : State) :
    cutCounted r s = countEvent .preemption none r.carrier s := by
  unfold cutCounted
  cases carrier : r.carrier with
  | none => rfl
  | some c => exact if_neg (h.resolve_left fun none => nomatch carrier.symm.trans none)

theorem cutCounted_putBack {r : PathRec} {c : CarrierIdx} (carrier : r.carrier = some c) (use : r.use = some .queue)
    (whole : ¬ r.leftToHalf) (s : State) :
    cutCounted r s = putBackTo c (countEvent .preemption none r.carrier s) := by
  unfold cutCounted
  rw [carrier]
  exact if_pos ⟨use, whole⟩

theorem ne_recovery_of_working {st : PathState} (h : st.working = true) : st ≠ .recovery := fun is => by
  rw [is] at h
  exact absurd h (by decide)

/-- R100, R118: a cut is counted, and puts a carrier back or not. -/
theorem cutCounted_cases (r : PathRec) : (∀ s, cutCounted r s = countEvent .preemption none r.carrier s)
    ∨ ∃ c, ∀ s, cutCounted r s = putBackTo c (countEvent .preemption none r.carrier s) := by
  cases carrier : r.carrier with
  | none => exact .inl fun s => carrier ▸ cutCounted_kept (.inl carrier) s
  | some c =>
    by_cases back : r.use = some .queue ∧ ¬ r.leftToHalf
    · exact .inr ⟨c, fun s => carrier ▸ cutCounted_putBack carrier back.1 back.2 s⟩
    · exact .inl fun s => carrier ▸ cutCounted_kept (.inr back) s

/-- R118: the state in which a cut has been taken up for a claim and counted. -/
def cutNoted (ch : ChannelIdx) (p : PathIdx) (s : State) : State :=
  countEvent .preemption none (s.path p).carrier { s with arb := { s.arb with cuts := s.arb.cuts ++ [(ch, p)] } }

theorem cutFor_eq (ch : ChannelIdx) (p : PathIdx) (s : State) : cutFor ch s p = cutPath p (cutNoted ch p s) := rfl

/-- R95, R100, R118, R122: the plan and the monitors after the cut of a scan path at work. -/
theorem samePlan_cutFor (ch : ChannelIdx) (h : (s.path p).cuttable) :
    SamePlan (cutCounted (s.path p) s) (cutFor ch s p) := by
  have noted : (cutNoted ch p s).path p = s.path p := rfl
  have counted : SamePlan (countEvent .preemption none (s.path p).carrier s) (cutNoted ch p s) := ⟨rfl, rfl⟩
  rw [cutFor_eq]
  generalize cutNoted ch p s = n at noted counted
  by_cases half : (s.path p).leftToHalf
  · rw [cutPath_of_leftToHalf (noted ▸ h) (noted ▸ half), cutCounted_kept (.inr fun ⟨_, whole⟩ => whole half)]
    exact counted
  · rw [cutPath_of_working (noted ▸ h) (noted ▸ half)]
    cases carrier : (s.path p).carrier with
    | none =>
      rw [endScanVisit_of_noCarrier .cut (noted ▸ carrier), cutCounted_kept (.inl carrier)]
      have left := leavingOnly_leaveCarrier p n
      exact ⟨left.plan.trans counted.1, left.mons.trans counted.2⟩
    | some c =>
      have ends : VisitOver p c _ n (endScanVisit p .cut n) := visitOver_endScanVisit .cut (by
        rw [noted]
        exact ne_recovery_of_working h.2.2) (noted ▸ carrier)
      have visit := ends.ends
      rw [noted] at visit
      obtain ⟨sweep, _, queue⟩ := visit
      by_cases use : (s.path p).use = some .queue
      · obtain ⟨plan, mons, _⟩ := queue use rfl
        obtain ⟨plan', mons'⟩ := samePlan_putBackTo c counted
        rw [cutCounted_putBack carrier use half]
        exact ⟨plan.trans plan', mons.trans mons'⟩
      · have swept : (s.path p).use = some .sweep := by
          exact ((scan_iff _).mp h.1).resolve_right use
        obtain ⟨plan, mons, _⟩ := sweep swept
        rw [cutCounted_kept (.inr fun both => use both.1)]
        exact ⟨plan.trans counted.1, mons.trans counted.2⟩

/-! ### Cuts in turn -/

/-- R117: the cuts of a list of paths for one claim, from the first to the last. -/
structure CutsMade (ch : ChannelIdx) (l : List PathIdx) (s t : State) : Prop where
  taken : ∀ q ∈ l, (s.path q).cuttable → CutTaken s.now (s.path q) (t.path q)
  kept : ∀ q, q ∉ l ∨ ¬ (s.path q).cuttable → t.path q = s.path q
  follows : Follows s t
  cuts : t.arb.cuts = s.arb.cuts ++ l.map (fun q => (ch, q))
  carriers : t.carriers = s.carriers
  claims : t.claims = s.claims
  counted : ∀ m, (s.mon m).select = some .preemption →
    t.mon m = (l.foldl (fun u q => countEvent .preemption none (s.path q).carrier u) s).mon m
  plan : l.Nodup → (∀ q ∈ l, (s.path q).cuttable) → SamePlan (l.foldl (fun u q => cutCounted (s.path q) u) s) t

/-- The cut of one path, as the first of several. -/
structure CutMade (ch : ChannelIdx) (p : PathIdx) (s t : State) : Prop where
  taken : (s.path p).cuttable → CutTaken s.now (s.path p) (t.path p) ∧ ¬ (t.path p).cuttable
  kept : ∀ q, q ≠ p ∨ ¬ (s.path q).cuttable → t.path q = s.path q
  carrier : ∀ q, (t.path q).carrier = (s.path q).carrier
  follows : Follows s t
  now : t.now = s.now
  cuts : t.arb.cuts = s.arb.cuts ++ [(ch, p)]
  carriers : t.carriers = s.carriers
  claims : t.claims = s.claims
  counted : ∀ m, (s.mon m).select = some .preemption →
    t.mon m = (countEvent .preemption none (s.path p).carrier s).mon m
  plan : (s.path p).cuttable → SamePlan (cutCounted (s.path p) s) t

theorem cutMade_cutFor (ch : ChannelIdx) (p : PathIdx) (s : State) : CutMade ch p s (cutFor ch s p) := by
  have ends := pathEnds_cutPath p (cutNoted ch p s)
  obtain ⟨carriers, cuts⟩ := cutPath_keeps p (cutNoted ch p s)
  have follows : Follows s (cutFor ch s p) := follows_cutFor ch s p
  have plan := samePlan_cutFor (s := s) (p := p) ch
  have one := cutTaken_cutPath (s := cutNoted ch p s) (p := p)
  have none := cutPath_of_uncuttable (s := cutNoted ch p s) (p := p)
  rw [cutFor_eq] at follows plan ⊢
  generalize cutPath p (cutNoted ch p s) = t at ends carriers cuts follows plan one none
  refine ⟨fun open' => ⟨(one open').1, (one open').2.1⟩, fun q h => ?_, fun q => ?_, follows, ends.now, cuts, carriers,
    ends.claims, fun m select => ?_, plan⟩
  · by_cases other : q = p
    · subst other
      rw [none (h.resolve_left (not_not_intro rfl))]
      rfl
    · exact ends.paths q other
  · by_cases other : q = p
    · subst other
      by_cases open' : (s.path q).cuttable
      · exact (one open').2.2
      · rw [none open']
        rfl
    · exact congrArg PathRec.carrier (ends.paths q other)
  · by_cases open' : (s.path p).cuttable
    · have same := (plan open').2
      unfold State.mon at select ⊢
      rw [same]
      obtain kept | ⟨c, back⟩ := cutCounted_cases (s.path p)
      · rw [kept]
      · rw [back]
        refine mon_putBackTo ?_ c
        rw [mon_countEvent, select_take]
        exact select
    · rw [none open']
      rfl

theorem mon_counts_congr (f : PathIdx → Option CarrierIdx) (l : List PathIdx) {s t : State} {m : MonitorIdx}
    (same : s.mon m = t.mon m) : (l.foldl (fun u q => countEvent .preemption none (f q) u) s).mon m
      = (l.foldl (fun u q => countEvent .preemption none (f q) u) t).mon m := by
  induction l generalizing s t with
  | nil => exact same
  | cons q l ih =>
    refine ih ?_
    rw [mon_countEvent, mon_countEvent, same]

/-- The cuts counted of a list of paths, by what was planned and counted before. -/
theorem samePlan_cutsCounted (f : PathIdx → PathRec) (l : List PathIdx) {s t : State} (same : SamePlan s t) :
    SamePlan (l.foldl (fun u q => cutCounted (f q) u) s) (l.foldl (fun u q => cutCounted (f q) u) t) := by
  induction l generalizing s t with
  | nil => exact same
  | cons q l ih =>
    obtain ⟨plan, mons⟩ := same
    have counted : SamePlan (countEvent .preemption none (f q).carrier s) (countEvent .preemption none (f q).carrier t) :=
      ⟨plan, mons_countEvent_congr mons _ _ _⟩
    refine ih ?_
    dsimp only
    obtain kept | ⟨c, back⟩ := cutCounted_cases (f q)
    · rw [kept, kept]
      exact counted
    · rw [back, back]
      exact samePlan_putBackTo c counted

theorem cutsMade (ch : ChannelIdx) (l : List PathIdx) (s : State) : CutsMade ch l s (l.foldl (cutFor ch) s) := by
  induction l generalizing s with
  | nil =>
    exact ⟨by simp, fun _ _ => rfl, Follows.refl s, (List.append_nil _).symm, rfl, rfl, fun _ _ => rfl, fun _ _ => ⟨rfl, rfl⟩⟩
  | cons p l ih =>
    have one := cutMade_cutFor ch p s
    have rest := ih (cutFor ch s p)
    rw [List.foldl_cons]
    generalize cutFor ch s p = u at one rest
    generalize l.foldl (cutFor ch) u = t at rest
    have now := one.now
    refine ⟨fun q mem open' => ?_, fun q h => ?_, one.follows.trans rest.follows, ?_, rest.carriers.trans one.carriers,
      rest.claims.trans one.claims, fun m select => ?_, fun distinct open' => ?_⟩
    · by_cases here : q = p
      · subst here
        obtain ⟨taken, cut⟩ := one.taken open'
        rw [rest.kept q (.inr cut)]
        exact taken
      · have same := one.kept q (.inl here)
        have taken := rest.taken q ((List.mem_cons.mp mem).resolve_left here) (same.symm ▸ open')
        rw [same, now] at taken
        exact taken
    · obtain out | closed := h
      · obtain ⟨here, out⟩ := not_or.mp (mt List.mem_cons.mpr out)
        exact (rest.kept q (.inl out)).trans (one.kept q (.inl here))
      · have same := one.kept q (.inr closed)
        exact (rest.kept q (.inr (same.symm ▸ closed))).trans same
    · rw [rest.cuts, one.cuts, List.append_assoc]
      rfl
    · have first := one.counted m select
      have select' : (u.mon m).select = some .preemption := by
        rw [first, mon_countEvent, select_take]
        exact select
      rw [rest.counted m select', List.foldl_cons]
      simp only [one.carrier]
      exact mon_counts_congr (fun q => (s.path q).carrier) l first
    · obtain ⟨absent, distinct⟩ := List.nodup_cons.mp distinct
      have same : ∀ q ∈ l, u.path q = s.path q := fun q mem => one.kept q (.inl fun is => absent (is ▸ mem))
      have later := rest.plan distinct fun q mem => (same q mem).symm ▸ open' q (List.mem_cons_of_mem _ mem)
      have counts : ∀ v, l.foldl (fun w q => cutCounted (u.path q) w) v = l.foldl (fun w q => cutCounted (s.path q) w) v :=
        fun v => List.foldl_ext _ _ v fun w q mem => by rw [same q mem]
      rw [counts] at later
      obtain ⟨plan, mons⟩ := samePlan_cutsCounted s.path l (one.plan (open' p List.mem_cons_self))
      exact ⟨later.1.trans plan, later.2.trans mons⟩

end Sys2Proof.Machine
end

section
/-! PROOF. The cuts that a claim item makes (R116 to R118). -/

namespace Sys2Proof.Machine

variable {s : State} {ch : ChannelIdx} {c : CarrierIdx} {p : PathIdx} {k : CarrierParams}

theorem conflictCuts_of_scans {i : InputIdx} (scans : ∀ q ∈ (s.inp i).attached, (s.path q).scan = true) :
    conflictCuts s i = (s.inp i).attached.filter (fun q => (s.path q).state.working && !(s.path q).cutPending) :=
  if_pos (List.all_eq_true.mpr scans)

theorem cutConflict_of_uncut (uncut : hasCuts s ch = false) (params : (s.car c).params = some k) :
    cutConflict ch c s = (conflictCuts s k.input).foldl (cutFor ch) s := by
  unfold cutConflict
  rw [uncut, params]
  rfl

theorem preempt_of_uncut (uncut : hasCuts s ch = false) :
    preempt ch s = (preemptable s).elim s (fun p => cutFor ch s p) := by
  unfold preempt
  rw [uncut]
  cases preemptable s <;> rfl

/-- R118: the scan paths that are cut first, and those that are cut where there are none of them. -/
theorem preemptable_eq (s : State) : preemptable s
    = (firstIdx s.paths (fun r => r.scan && (decide (r.state = .awaitTune) || decide (r.state = .tuning)))).or
      (firstIdx s.paths (fun r => r.scan && decide (r.state = .engaged) && !r.cutPending)) := by
  unfold preemptable
  split
  next found => rw [found, Option.some_or]
  next none => rw [none, Option.none_or]

theorem unlocked_eq_false {r : PathRec} (h : r.scan = true → r.state ≠ .awaitTune ∧ r.state ≠ .tuning) :
    (r.scan && (decide (r.state = .awaitTune) || decide (r.state = .tuning))) = false := by
  cases scan : r.scan with
  | false => rfl
  | true =>
    obtain ⟨awaits, tunes⟩ := h scan
    simp [awaits, tunes]

theorem preemptable_unlocked (scan : (s.path p).scan = true)
    (state : (s.path p).state = .awaitTune ∨ (s.path p).state = .tuning)
    (before : ∀ q, q < p → (s.path q).scan = true → (s.path q).state ≠ .awaitTune ∧ (s.path q).state ≠ .tuning) :
    preemptable s = some p := by
  have found : firstIdx s.paths (fun r => r.scan && (decide (r.state = .awaitTune) || decide (r.state = .tuning)))
      = some p := by
    refine (firstIdx_eq_some _ _ p).mpr ⟨?_, fun q less => unlocked_eq_false (before q less)⟩
    show ((s.path p).scan && (decide ((s.path p).state = .awaitTune) || decide ((s.path p).state = .tuning))) = true
    simp [scan, state]
  rw [preemptable_eq, found, Option.some_or]

theorem noneUnlocked (none : ∀ q, (s.path q).scan = true → (s.path q).state ≠ .awaitTune ∧ (s.path q).state ≠ .tuning) :
    firstIdx s.paths (fun r => r.scan && (decide (r.state = .awaitTune) || decide (r.state = .tuning))) = Option.none :=
  (firstIdx_eq_none _ _).mpr fun q => unlocked_eq_false (none q)

theorem locked_eq_false {r : PathRec} (h : r.scan = true → r.state = .engaged → r.cutPending = true) :
    (r.scan && decide (r.state = .engaged) && !r.cutPending) = false := by
  by_cases engaged : r.scan = true ∧ r.state = .engaged
  · rw [h engaged.1 engaged.2, Bool.not_true, Bool.and_false]
  · have apart : (r.scan && decide (r.state = .engaged)) = false :=
      Bool.eq_false_iff.mpr fun both => engaged (by simpa using both)
    rw [apart, Bool.false_and]

theorem preemptable_locked (scan : (s.path p).scan = true) (state : (s.path p).state = .engaged)
    (uncut : (s.path p).cutPending = false)
    (none : ∀ q, (s.path q).scan = true → (s.path q).state ≠ .awaitTune ∧ (s.path q).state ≠ .tuning)
    (before : ∀ q, q < p → (s.path q).scan = true → (s.path q).state = .engaged → (s.path q).cutPending = true) :
    preemptable s = some p := by
  have found : firstIdx s.paths (fun r => r.scan && decide (r.state = .engaged) && !r.cutPending) = some p := by
    refine (firstIdx_eq_some _ _ p).mpr ⟨?_, fun q less => locked_eq_false (before q less)⟩
    show ((s.path p).scan && decide ((s.path p).state = .engaged) && !(s.path p).cutPending) = true
    simp [scan, state, uncut]
  rw [preemptable_eq, noneUnlocked none, Option.none_or, found]

theorem preemptable_none (none : ∀ p, (s.path p).scan = true → (s.path p).state ≠ .awaitTune
      ∧ (s.path p).state ≠ .tuning ∧ ((s.path p).state = .engaged → (s.path p).cutPending = true)) :
    preemptable s = Option.none := by
  have nothing : firstIdx s.paths (fun r => r.scan && decide (r.state = .engaged) && !r.cutPending) = Option.none :=
    (firstIdx_eq_none _ _).mpr fun q => locked_eq_false fun scan => (none q scan).2.2
  rw [preemptable_eq, noneUnlocked fun q scan => ⟨(none q scan).1, (none q scan).2.1⟩, Option.none_or, nothing]

theorem working_of_engagedOrBefore {st : PathState} (h : (st = .awaitTune ∨ st = .tuning) ∨ st = .engaged) :
    st.working = true := by
  obtain (rfl | rfl) | rfl := h <;> rfl

/-- Settles O52, by the cuts made in turn. -/
theorem cutsForClaim : Obligations.CutsForClaim := by
  intro s t ch c k isT none room fresh params
  have uncut := hasCuts_eq_false fresh
  refine ⟨fun l satellite feed held scans isL => ?conflict, fun agrees busy => ?preempts⟩
  case conflict =>
    rw [serveItem_blocked none room (carrierAnswer_blocked params satellite feed held),
      (tellReason_parts ch .feedConflict s).1] at isT
    generalize (tellReason ch .feedConflict s).claims = told at isT
    rw [cutConflict_of_uncut (s := { s with claims := told }) uncut params,
      conflictCuts_of_scans (s := { s with claims := told }) scans] at isT
    have made : CutsMade ch l { s with claims := told } t := by
      rw [isT, isL]
      exact cutsMade ch _ { s with claims := told }
    have open' : ∀ q ∈ l, (s.path q).cuttable := fun q mem => by
      obtain ⟨attached, working⟩ := List.mem_filter.mp (isL ▸ mem)
      obtain ⟨working, uncut⟩ := Bool.and_eq_true_iff.mp working
      exact ⟨scans q attached, (Bool.not_eq_true' _).mp uncut, working⟩
    refine ⟨fun q mem => made.taken q mem (open' q mem), fun q out => made.kept q (.inl out), made.follows.inputsFollow,
      made.cuts, made.carriers, fun m select => (made.counted m select).trans (mon_counts_congr _ l rfl), fun order => ?_⟩
    have distinct : l.Nodup := isL ▸ ((order k.input).imp fun less => ne_of_lt less).filter _
    obtain ⟨plan, mons⟩ := made.plan distinct open'
    obtain ⟨plan', mons'⟩ := samePlan_cutsCounted s.path l (s := s) (t := { s with claims := told }) ⟨rfl, rfl⟩
    exact ⟨plan.trans plan', mons.trans mons'⟩
  case preempts =>
    have answer : carrierAnswer s c ≠ .blocked :=
      carrierAnswer_open params (agrees.imp_right fun h => h.imp_right And.left)
    rw [serveItem_open none room answer, idlePath_eq_none.mpr busy, Option.elim_none,
      (tellReason_parts ch .noPath s).1] at isT
    generalize (tellReason ch .noPath s).claims = told at isT
    rw [preempt_of_uncut (s := { s with claims := told }) uncut] at isT
    refine ⟨fun p scan pending chosen => ?cut, fun nothing => ?nothing⟩
    case cut =>
      have found : preemptable { s with claims := told } = some p := by
        obtain ⟨state, before⟩ | ⟨state, others, before⟩ := chosen
        · exact preemptable_unlocked (s := { s with claims := told }) scan state before
        · exact preemptable_locked (s := { s with claims := told }) scan state pending others before
      have open' : (s.path p).cuttable := ⟨scan, pending, working_of_engagedOrBefore (chosen.imp And.left And.left)⟩
      rw [found] at isT
      have made : CutMade ch p { s with claims := told } t := isT ▸ cutMade_cutFor ch p { s with claims := told }
      obtain ⟨plan, mons⟩ := made.plan open'
      obtain ⟨plan', mons'⟩ := samePlan_cutsCounted s.path [p] (s := s) (t := { s with claims := told }) ⟨rfl, rfl⟩
      exact ⟨(made.taken open').1, fun q other => made.kept q (.inl other), made.follows.inputsFollow, made.cuts,
        made.carriers, plan.trans plan', mons.trans mons'⟩
    case nothing =>
      rw [preemptable_none (s := { s with claims := told }) nothing] at isT
      rw [isT]
      exact ⟨rfl, rfl, rfl⟩

end Sys2Proof.Machine
end

section
/-! SUPPORT. What the departure of a carrier leaves of the visit queue (R70, R121, R122). -/

namespace Sys2Proof.Machine

/-- The plan `b` is the plan `a` with entries of `l` added at the tail of the visit queue. -/
def QueueGains (l : List CarrierIdx) (a b : Planner) : Prop :=
  ∃ add, b = { a with queue := a.queue ++ add } ∧ ∀ d ∈ add, d ∈ l

theorem QueueGains.refl (l : List CarrierIdx) (a : Planner) : QueueGains l a a :=
  ⟨[], by rw [List.append_nil], fun _ mem => absurd mem List.not_mem_nil⟩

theorem QueueGains.trans {l : List CarrierIdx} {a b c : Planner} (x : QueueGains l a b) (y : QueueGains l b c) :
    QueueGains l a c := by
  obtain ⟨add, rfl, mem⟩ := x
  obtain ⟨more, rfl, mem'⟩ := y
  exact ⟨add ++ more, by rw [List.append_assoc],
    fun d isIn => (List.mem_append.mp isIn).elim (mem d) (mem' d)⟩

theorem QueueGains.mono {l m : List CarrierIdx} {a b : Planner} (h : QueueGains l a b) (sub : ∀ d ∈ l, d ∈ m) :
    QueueGains m a b := by
  obtain ⟨add, is, mem⟩ := h
  exact ⟨add, is, fun d isIn => sub d (mem d isIn)⟩

/-- R70: an offer adds the carrier to the queue, or nothing. -/
theorem queueGains_offer (s : State) (c : CarrierIdx) : QueueGains [c] s.plan (offer s c).plan := by
  unfold offer
  split
  · exact QueueGains.refl _ _
  · split
    · exact QueueGains.refl _ _
    · split
      · exact ⟨[c], rfl, fun _ mem => mem⟩
      · exact QueueGains.refl _ _

theorem queueGains_offers (l : List CarrierIdx) (s : State) : QueueGains l s.plan (l.foldl offer s).plan := by
  induction l generalizing s with
  | nil => exact QueueGains.refl _ _
  | cons c l ih =>
    have first := (queueGains_offer s c).mono (m := c :: l) fun d mem => by
      rw [List.mem_singleton.mp mem]
      exact List.mem_cons_self
    exact first.trans ((ih (offer s c)).mono fun d mem => List.mem_cons_of_mem _ mem)

theorem queueGains_applyChange (i : ServiceIdx) (r : ServiceRec) (s : State) :
    QueueGains r.candidates s.plan (applyChange i r s).plan := by
  have reported : (reportedChange i r s).plan = s.plan := by rw [(letGo_reportedChange i r s).plan, plan_commit]
  by_cases h : r.state ≠ .degraded ∨ (s.svc i).state = .degraded
  · rw [plan_applyChange_of_notDegrading h]
    exact QueueGains.refl _ _
  · obtain ⟨is, was⟩ := not_or.mp h
    rw [applyChange_of_degrading was (not_not.mp is), ← reported]
    exact (queueGains_offers _ _).mono fun d mem =>
      (perm_rankOrder s r.candidates).mem_iff.mp (List.mem_of_mem_filter mem)

/-- R11, R70: a carrier that departs from a service is not among those the departure offers. -/
theorem queueGains_depart (c : CarrierIdx) (s : State) (i : ServiceIdx) :
    ∃ l, c ∉ l ∧ QueueGains l s.plan (depart c s i).plan := by
  unfold depart
  dsimp only
  split
  · exact ⟨_, candidates_departed _ _ c, queueGains_applyChange i _ (unannounce i s c)⟩
  · exact ⟨[], List.not_mem_nil, QueueGains.refl _ _⟩

theorem queueGains_departs (c : CarrierIdx) (l : List ServiceIdx) (s : State) :
    ∃ add, (l.foldl (depart c) s).plan = { s.plan with queue := s.plan.queue ++ add } ∧ c ∉ add := by
  induction l generalizing s with
  | nil => exact ⟨[], by rw [List.append_nil]; rfl, List.not_mem_nil⟩
  | cons i l ih =>
    obtain ⟨held, absent, add, is, mem⟩ := queueGains_depart c s i
    obtain ⟨more, is', absent'⟩ := ih (depart c s i)
    refine ⟨add ++ more, ?_, fun isIn => (List.mem_append.mp isIn).elim (fun here => absent (mem c here)) absent'⟩
    rw [List.foldl_cons, is', is, List.append_assoc]

end Sys2Proof.Machine
end

section
/-! SUPPORT. The paths of a carrier that is forgotten (R43 step 1, R102). -/

namespace Sys2Proof.Machine

variable {c : CarrierIdx} {s : State} {p : PathIdx}

/-- R43: a path at work on a scan visit of a carrier. -/
def PathRec.visits (r : PathRec) (c : CarrierIdx) : Prop := r.carrier = some c ∧ r.scan = true ∧ r.state.working = true

theorem forgetOnPath_elsewhere (h : (s.path p).carrier ≠ some c) : forgetOnPath c s p = s := if_neg h

theorem forgetOnPath_resting (carrier : (s.path p).carrier = some c) (h : ¬ (s.path p).visits c) :
    forgetOnPath c s p = s.setPath p { s.path p with forgotten := true } :=
  (if_pos carrier).trans (if_neg fun at_work => h ⟨carrier, Bool.and_eq_true_iff.mp at_work⟩)

theorem forgetOnPath_visiting (h : (s.path p).visits c) : forgetOnPath c s p
    = endScanVisit p .abandonedByForget (s.setPath p { s.path p with forgotten := true }) := by
  obtain ⟨carrier, at_work⟩ := h
  exact (if_pos carrier).trans (if_pos (Bool.and_eq_true_iff.mpr at_work))

theorem visitOver_forgetOnPath (h : (s.path p).visits c) :
    VisitOver p c false (s.setPath p { s.path p with forgotten := true }) (forgetOnPath c s p) := by
  obtain ⟨carrier, _, working⟩ := id h
  rw [forgetOnPath_visiting h]
  refine visitOver_endScanVisit .abandonedByForget ?_ ?_
  · rw [State.path_setPath, if_pos rfl]
    exact not_recovery_of_working working
  · rw [State.path_setPath, if_pos rfl]
    exact carrier

theorem pathEnds_forgetOnPath (c : CarrierIdx) (s : State) (p : PathIdx) : PathEnds p s (forgetOnPath c s p) := by
  by_cases carrier : (s.path p).carrier = some c
  · have marked := pathEnds_setPath p { s.path p with forgotten := true } s
    by_cases visits : (s.path p).visits c
    · rw [forgetOnPath_visiting visits]
      exact marked.trans (pathEnds_endScanVisit p _ _)
    · rw [forgetOnPath_resting carrier visits]
      exact marked
  · rw [forgetOnPath_elsewhere carrier]
    exact PathEnds.refl p s

theorem path_forgetOnPath_visiting (h : (s.path p).visits c) :
    (forgetOnPath c s p).path p = leftPath s.now { s.path p with forgotten := true } := by
  rw [(visitOver_forgetOnPath h).left, State.path_setPath, if_pos rfl]
  rfl

theorem path_forgetOnPath_resting (h : ¬ (s.path p).visits c) : (forgetOnPath c s p).path p
    = { s.path p with forgotten := (s.path p).forgotten || decide ((s.path p).carrier = some c) } := by
  by_cases carrier : (s.path p).carrier = some c
  · rw [forgetOnPath_resting carrier h, State.path_setPath, if_pos rfl, decide_eq_true carrier, Bool.or_true]
  · rw [forgetOnPath_elsewhere carrier, decide_eq_false carrier, Bool.or_false]

theorem carriers_forgetOnPath (c : CarrierIdx) (s : State) (p : PathIdx) :
    (forgetOnPath c s p).carriers = s.carriers := by
  by_cases carrier : (s.path p).carrier = some c
  · by_cases visits : (s.path p).visits c
    · exact (visitOver_forgetOnPath visits).carriers
    · rw [forgetOnPath_resting carrier visits]
      rfl
  · rw [forgetOnPath_elsewhere carrier]

/-- R43, R122: the plan once the carrier of a queue visit is forgotten. -/
theorem plan_forgetOnPath_queue (h : (s.path p).visits c) (queue : (s.path p).use = some .queue) :
    (forgetOnPath c s p).plan
      = { s.plan with underQueue := s.plan.underQueue.filter (fun d => decide (d ≠ c)) } := by
  obtain ⟨_, ended, _⟩ := (visitOver_forgetOnPath h).ends
  rw [State.path_setPath, if_pos rfl] at ended
  exact (ended queue rfl).1

theorem plan_forgetOnPath_other (h : ¬ ((s.path p).visits c ∧ (s.path p).use = some .queue)) :
    (forgetOnPath c s p).plan = s.plan := by
  by_cases carrier : (s.path p).carrier = some c
  · by_cases visits : (s.path p).visits c
    · have sweep : (s.path p).use = some .sweep :=
        ((scan_iff _).mp visits.2.1).resolve_right fun queue => h ⟨visits, queue⟩
      obtain ⟨swept, _⟩ := (visitOver_forgetOnPath visits).ends
      rw [State.path_setPath, if_pos rfl] at swept
      exact (swept sweep).1
    · rw [forgetOnPath_resting carrier visits]
      rfl
  · rw [forgetOnPath_elsewhere carrier]

/-- What the paths leave of the plan as they forget a carrier: the same queue, and no new carrier under a queue visit. -/
structure ForgetsVisits (a b : Planner) : Prop where
  queue : b.queue = a.queue
  under : ∀ d ∈ b.underQueue, d ∈ a.underQueue

theorem forgetsVisits_forgetOnPath (c : CarrierIdx) (s : State) (p : PathIdx) :
    ForgetsVisits s.plan (forgetOnPath c s p).plan := by
  by_cases h : (s.path p).visits c ∧ (s.path p).use = some .queue
  · rw [plan_forgetOnPath_queue h.1 h.2]
    exact ⟨rfl, fun d mem => List.mem_of_mem_filter mem⟩
  · rw [plan_forgetOnPath_other h]
    exact ⟨rfl, fun _ mem => mem⟩

/-- R43 step 1: the state once every path has forgotten a carrier. -/
def forgetPaths (c : CarrierIdx) (l : List PathIdx) (s : State) : State := l.foldl (forgetOnPath c) s

theorem forgetsVisits_forgetPaths (c : CarrierIdx) (l : List PathIdx) (s : State) :
    ForgetsVisits s.plan (forgetPaths c l s).plan := by
  induction l generalizing s with
  | nil => exact ⟨rfl, fun _ mem => mem⟩
  | cons p l ih =>
    have first := forgetsVisits_forgetOnPath c s p
    have rest := ih (forgetOnPath c s p)
    exact ⟨rest.queue.trans first.queue, fun d mem => first.under d (rest.under d mem)⟩

/-- R43, R122: a carrier whose queue visit is abandoned is under one no longer. -/
theorem not_underQueue_forgetPaths {l : List PathIdx} (mem : p ∈ l) (h : (s.path p).visits c)
    (queue : (s.path p).use = some .queue) : c ∉ (forgetPaths c l s).plan.underQueue := by
  induction l generalizing s with
  | nil => exact absurd mem List.not_mem_nil
  | cons q l ih =>
    by_cases here : p = q
    · subst here
      intro under
      have before := (forgetsVisits_forgetPaths c l (forgetOnPath c s p)).under c under
      rw [plan_forgetOnPath_queue h queue] at before
      exact of_decide_eq_true (List.mem_filter.mp before).2 rfl
    · have same := (pathEnds_forgetOnPath c s q).paths p here
      exact ih ((List.mem_cons.mp mem).resolve_left here) (same ▸ h) (same ▸ queue)

theorem carriers_forgetPaths (c : CarrierIdx) (l : List PathIdx) (s : State) :
    (forgetPaths c l s).carriers = s.carriers := by
  induction l generalizing s with
  | nil => rfl
  | cons p l ih => exact (ih _).trans (carriers_forgetOnPath c s p)

theorem path_forgetPaths_visiting (h : (s.path p).visits c) :
    (forgetPaths c (List.finRange 8) s).path p = leftPath s.now { s.path p with forgotten := true } := by
  obtain ⟨t, same, now, is⟩ := foldPaths (forgetOnPath c) (pathEnds_forgetOnPath c) s p
  rw [← same] at h ⊢
  rw [← now]
  exact is.trans (path_forgetOnPath_visiting h)

theorem path_forgetPaths_resting (h : ¬ (s.path p).visits c) : (forgetPaths c (List.finRange 8) s).path p
    = { s.path p with forgotten := (s.path p).forgotten || decide ((s.path p).carrier = some c) } := by
  obtain ⟨t, same, _, is⟩ := foldPaths (forgetOnPath c) (pathEnds_forgetOnPath c) s p
  rw [← same] at h ⊢
  exact is.trans (path_forgetOnPath_resting h)

end Sys2Proof.Machine
end

section
/-! PROOF. FORGET-CARRIER (R43, R164). -/

namespace Sys2Proof.Machine

variable {c : CarrierIdx} {s : State} {e : ReqEntry} {p : PathIdx}

/-- R43 steps 1 and 2: the paths and the visit queue have forgotten the carrier. -/
def forgetVisits (c : CarrierIdx) (s : State) : State := dropEntry c (forgetPaths c (List.finRange 8) s)

/-- R43 steps 1 to 3: the services have lost the carrier too. -/
def forgetServices (c : CarrierIdx) (s : State) : State := (s.car c).announced.foldl (depart c) (forgetVisits c s)

/-- R77: an input has lost a defined carrier. -/
def uncountInput (o : Option CarrierParams) (s : State) : State :=
  o.elim s fun q => s.modInp q.input (fun r => { r with carrierCount := r.carrierCount - 1 })

theorem carriers_dropEntry (c : CarrierIdx) (s : State) : (dropEntry c s).carriers = s.carriers := rfl

theorem carriers_forgetVisits (c : CarrierIdx) (s : State) : (forgetVisits c s).carriers = s.carriers :=
  (carriers_dropEntry c _).trans (carriers_forgetPaths c _ s)

theorem params_forgetServices (c : CarrierIdx) (s : State) : ((forgetServices c s).car c).params = (s.car c).params := by
  have own := (announcesOnly_departs c (s.car c).announced (forgetVisits c s)).own
  rw [car_congr (carriers_forgetVisits c s)] at own
  exact (congrArg CarrierRec.params own :)

theorem forgetEffects_eq (c : CarrierIdx) (s : State) :
    forgetEffects c s = (uncountInput (s.car c).params (forgetServices c s)).setCar c .powerOn := by
  have announced : ((forgetVisits c s).car c).announced = (s.car c).announced := by
    rw [car_congr (carriers_forgetVisits c s)]
  have params := params_forgetServices c s
  unfold forgetServices forgetVisits forgetPaths at params
  unfold forgetEffects forgetServices
  unfold forgetVisits forgetPaths at announced ⊢
  dsimp only
  rw [announced]
  generalize List.foldl (depart c) _ _ = t at params ⊢
  rw [params]
  cases (s.car c).params <;> rfl

theorem inp_uncountInput (o : Option CarrierParams) (s : State) (i : InputIdx) : (uncountInput o s).inp i
    = { s.inp i with carrierCount := if o.any (fun q => decide (q.input = i)) = true then (s.inp i).carrierCount - 1
        else (s.inp i).carrierCount } := by
  cases o with
  | none => rfl
  | some q =>
    by_cases here : q.input = i
    · subst here
      simp [uncountInput]
    · simp [uncountInput, here]

/-- Everything but the inputs and the carriers is that of the state once the services have lost the carrier. -/
theorem forgetEffects_parts (c : CarrierIdx) (s : State) : (forgetEffects c s).paths = (forgetServices c s).paths
    ∧ (forgetEffects c s).svcs = (forgetServices c s).svcs ∧ (forgetEffects c s).plan = (forgetServices c s).plan
    ∧ (forgetEffects c s).rank = (forgetServices c s).rank := by
  rw [forgetEffects_eq]
  generalize forgetServices c s = t
  cases (s.car c).params <;> exact ⟨rfl, rfl, rfl, rfl⟩

theorem car_forgetEffects (c : CarrierIdx) (s : State) : (forgetEffects c s).car c = .powerOn := by
  rw [forgetEffects_eq, State.car_setCar, if_pos rfl]

theorem path_forgetEffects (c : CarrierIdx) (s : State) (p : PathIdx) :
    (forgetEffects c s).path p = (forgetServices c s).path p := path_congr (forgetEffects_parts c s).1 p

theorem releases_forgetServices (c : CarrierIdx) (s : State) : Releases (forgetVisits c s) (forgetServices c s) :=
  Releases.foldl _ (releases_depart c) _ _

theorem follows_forgetServices (c : CarrierIdx) (s : State) : Follows s (forgetServices c s) := by
  have paths : Follows s (forgetPaths c (List.finRange 8) s) := Follows.foldl _ (follows_forgetOnPath c) _ s
  generalize ht : forgetPaths c (List.finRange 8) s = t at paths
  have visits : Follows t (forgetVisits c s) := by
    unfold forgetVisits
    rw [ht]
    exact follows_of_paths rfl rfl
  exact (paths.trans visits).trans (releases_forgetServices c s).follows

/-- R43, R102: the departures release carrying paths alone. -/
theorem path_forgetServices (h : (((forgetVisits c s).path p).use ≠ some .carry
    ∨ ((forgetVisits c s).path p).state.working = false)) :
    (forgetServices c s).path p = (forgetVisits c s).path p := by
  obtain same | ⟨carry, working, _⟩ := (releases_forgetServices c s).path p
  · exact same
  · obtain other | idle := h
    · exact absurd carry other
    · exact absurd (working.symm.trans idle) Bool.noConfusion

theorem path_forgetVisits (c : CarrierIdx) (s : State) (p : PathIdx) :
    (forgetVisits c s).path p = (forgetPaths c (List.finRange 8) s).path p := by
  unfold forgetVisits
  generalize forgetPaths c (List.finRange 8) s = t
  rfl

/-- R43, R102: a scan visit of the carrier is abandoned. -/
theorem path_forgetEffects_visiting (h : (s.path p).visits c) :
    (forgetEffects c s).path p = leftPath s.now { s.path p with forgotten := true } := by
  have visit := (path_forgetVisits c s p).trans (path_forgetPaths_visiting h)
  rw [path_forgetEffects, path_forgetServices (.inr (visit ▸ leftPath_idle _ _)), visit]

/-- R43: any other path only has the carrier marked, unless a departure releases it. -/
theorem path_forgetEffects_resting (unreleased : (s.path p).use ≠ some .carry ∨ (s.path p).state.working = false)
    (h : ¬ (s.path p).visits c) : (forgetEffects c s).path p
      = { s.path p with forgotten := (s.path p).forgotten || decide ((s.path p).carrier = some c) } := by
  have visit := (path_forgetVisits c s p).trans (path_forgetPaths_resting h)
  rw [path_forgetEffects, path_forgetServices (by rw [visit]; exact unreleased), visit]

theorem inp_forgetEffects (c : CarrierIdx) (s : State) (i : InputIdx) : (forgetEffects c s).inp i
    = { inputLeft s (forgetEffects c s) (s.inp i) with
        carrierCount := if (s.car c).params.any (fun q => decide (q.input = i)) = true then (s.inp i).carrierCount - 1
          else (s.inp i).carrierCount } := by
  have own : (forgetEffects c s).inp i = (uncountInput (s.car c).params (forgetServices c s)).inp i := by
    rw [forgetEffects_eq]
    rfl
  have followed := (follows_forgetServices c s).inputsFollow i
  have left : inputLeft s (forgetEffects c s) (s.inp i) = inputLeft s (forgetServices c s) (s.inp i) := by
    unfold inputLeft
    simp only [path_forgetEffects]
  rw [own, inp_uncountInput, followed, left]

/-- R43, R70, R123: the entry of the carrier has left the visit queue, and other carriers may have joined it. -/
theorem plan_forgetEffects (c : CarrierIdx) (s : State) : ∃ add, (forgetEffects c s).plan
    = { (forgetPaths c (List.finRange 8) s).plan with
        queue := s.plan.queue.filter (fun d => decide (d ≠ c)) ++ add } ∧ c ∉ add := by
  obtain ⟨add, is, absent⟩ := queueGains_departs c (s.car c).announced (forgetVisits c s)
  obtain ⟨_, _, plan, _⟩ := forgetEffects_parts c s
  refine ⟨add, plan.trans (is.trans ?_), absent⟩
  have same := (forgetsVisits_forgetPaths c (List.finRange 8) s).queue
  unfold forgetVisits
  generalize forgetPaths c (List.finRange 8) s = t at same ⊢
  rw [← same]
  rfl

theorem not_underQueue_forgetEffects (h : (s.path p).visits c) (queue : (s.path p).use = some .queue) :
    c ∉ (forgetEffects c s).plan.underQueue := by
  obtain ⟨_, plan, _⟩ := plan_forgetEffects c s
  have left := not_underQueue_forgetPaths (List.mem_finRange p) h queue
  rw [plan]
  generalize forgetPaths c (List.finRange 8) s = t at left ⊢
  exact left

theorem steady_forgetVisits (c : CarrierIdx) (s : State) : Steady s (forgetVisits c s) :=
  (Steady.foldl _ (steady_forgetOnPath c) _ s).trans (steady_dropEntry c _)

theorem svc_forgetVisits (c : CarrierIdx) (s : State) (i : ServiceIdx) : (forgetVisits c s).svc i = s.svc i := by
  unfold State.svc
  rw [(steady_forgetVisits c s).svcs]

theorem svc_forgetEffects (c : CarrierIdx) (s : State) (i : ServiceIdx) :
    (forgetEffects c s).svc i = (forgetServices c s).svc i := by
  obtain ⟨_, svcs, _⟩ := forgetEffects_parts c s
  unfold State.svc
  rw [svcs]

/-- R41, R43, R69: each service the carrier announced as a candidate loses it. -/
theorem departs_forgetEffects {i : ServiceIdx} (announced : i ∈ (s.car c).announced) (held : c ∈ (s.svc i).candidates) :
    ∃ r, Departs s c (s.svc i) r ∧ (forgetEffects c s).svc i = { r with
      generation := (s.svc i).generation + 1, changeEpoch := ((forgetEffects c s).svc i).changeEpoch } := by
  have steady := steady_forgetVisits c s
  have cars := car_congr (carriers_forgetVisits c s)
  have alike : RanksAlike s (forgetVisits c s) :=
    ranksAlike_of_parts (fun d => by rw [cars]) (fun d => by rw [cars]) (by rw [steady.rank])
  rw [svc_forgetEffects, ← svc_forgetVisits c s i]
  exact departs_of_mem announced alike (by rw [svc_forgetVisits]; exact held)

theorem svc_forgetEffects_stays {i : ServiceIdx} (h : i ∉ (s.car c).announced ∨ c ∉ (s.svc i).candidates) :
    (forgetEffects c s).svc i = s.svc i := by
  rw [svc_forgetEffects, ← svc_forgetVisits c s i]
  obtain other | absent := h
  · exact (svc_departs c _ _ i).1 other
  · exact svc_departs_of_absent _ (by rw [svc_forgetVisits]; exact absent)

theorem rank_forgetEffects (c : CarrierIdx) (s : State) : (forgetEffects c s).rank = s.rank := by
  obtain ⟨_, _, _, rank⟩ := forgetEffects_parts c s
  exact rank.trans ((rank_departs c _ _).trans (steady_forgetVisits c s).rank)

/-! ### The request (R164) -/

theorem runForgetCarrier_of_outside (e : ReqEntry) (s : State) (h : 192 ≤ (e.arg 0).toNat) :
    runForgetCarrier e s = reply e .range [] s := by
  unfold runForgetCarrier
  rw [toIdx_eq_none _ _ h]

theorem runForgetCarrier_eq (e : ReqEntry) (s : State) (h : (e.arg 0).toNat = c.val) : runForgetCarrier e s
    = if (s.car c).state = .free then reply e .absent [] s
      else if needed s c then reply e .inUse [] s else reply e .done [] (forgetEffects c s) := by
  unfold runForgetCarrier
  rw [toIdx_eq_some _ c h]

/-- Settles O20, by the steps of R43 in turn. -/
theorem forgetCarrierClears : Obligations.ForgetCarrierClears := by
  intro s e taken
  have run := exec_forgetCarrier_of_taken taken
  refine ⟨fun outside => ?outside, fun c inside => ⟨fun free => ?free, fun defined => ⟨fun held => ?held,
    fun unneeded => ?forgets⟩⟩⟩
  case outside => exact refuses_of_reply taken.clear run (runForgetCarrier_of_outside e _ outside)
  all_goals have course := runForgetCarrier_eq e (dropHead s) inside
  case free => exact refuses_of_reply taken.clear run (course.trans (if_pos free))
  case held =>
    have held' : needed (dropHead s) c = true := (needed_eq_true (dropHead s) c).mpr held
    exact refuses_of_reply taken.clear run (course.trans ((if_neg defined).trans (if_pos held')))
  case forgets =>
    have idle : ¬ needed (dropHead s) c = true :=
      Bool.eq_false_iff.mp ((needed_eq_false (dropHead s) c).mpr unneeded)
    replace run := run.trans (congrArg (fun t => Host.Outcome.next (closeStep t))
      (course.trans ((if_neg defined).trans (if_neg idle))))
    obtain ⟨port, inExec⟩ := port_forgetEffects c (dropHead s) taken.idle
    obtain ⟨add, plan, absent⟩ := plan_forgetEffects c (dropHead s)
    have input := inp_forgetEffects c (dropHead s)
    have cleared := car_forgetEffects c (dropHead s)
    have notUnder := fun p => not_underQueue_forgetEffects (s := dropHead s) (c := c) (p := p)
    have visiting := fun p => path_forgetEffects_visiting (s := dropHead s) (c := c) (p := p)
    have resting := fun p => path_forgetEffects_resting (s := dropHead s) (c := c) (p := p)
    have departs := fun i => departs_forgetEffects (s := dropHead s) (c := c) (i := i)
    have stays := fun i => svc_forgetEffects_stays (s := dropHead s) (c := c) (i := i)
    have rank := rank_forgetEffects c (dropHead s)
    have queue := congrArg Planner.queue plan
    clear plan
    generalize forgetEffects c (dropHead s) = u at *
    refine ⟨_, run, cleared, fun p carrier scan working => ⟨?_, notUnder p ⟨carrier, scan, working⟩⟩, resting, fun i n count => ?_,
      ⟨add, queue, absent⟩, departs, stays, fun q params => ?_,
      (congrArg RankingEngine.settings rank :), ?_, inExec⟩
    · rw [show (reply e .done [] u).path p = _ from visiting p ⟨carrier, scan, working⟩]
      exact leavesCarrier_leftPath _ _
    · rw [count]
      exact input i
    · have counted := congrArg InputRec.carrierCount (input q.input)
      rw [if_pos (by rw [show ((dropHead s).car c).params = _ from params]; simp)] at counted
      exact counted
    · rw [port_reply, port]
      rfl

end Sys2Proof.Machine
end

section
/-! SUPPORT. The arbitration that an engagement calls for (R115, R127, R131). -/

namespace Sys2Proof.Machine

variable {s : State} {p : PathIdx} {x : CarrierIdx} {ch : ChannelIdx}

theorem due_leaveCarrier (p : PathIdx) (h : s.arb.due = true) : (leaveCarrier p s).arb.due = true := by
  have tuned : (stopTuning p s).arb = s.arb := by
    unfold stopTuning
    split <;> rfl
  have recovered : ∀ t : State, (enterRecovery p t).arb.due = true := fun _ => rfl
  unfold leaveCarrier
  dsimp only
  split
  · exact recovered _
  · split
    · exact (congrArg Arbiter.due tuned).trans h
    · exact recovered _

theorem due_releaseCarry (p : PathIdx) (h : s.arb.due = true) : (releaseCarry p s).arb.due = true := by
  unfold releaseCarry
  dsimp only
  split
  · split
    · exact due_leaveCarrier p (s := clearCarrying _ s) h
    · exact due_leaveCarrier p h
  · exact h

theorem due_releaseUnneeded? (o : Option CarrierIdx) (h : s.arb.due = true) : (releaseUnneeded? o s).arb.due = true := by
  cases o with
  | none => exact h
  | some c =>
    obtain same | ⟨p, _, _, _, released⟩ := releaseUnneeded_cases c s
    · exact (congrArg (fun t : State => t.arb.due) same).trans h
    · exact (congrArg (fun t : State => t.arb.due) released).trans (due_releaseCarry p h)

theorem due_engagedAt (p : PathIdx) (x : CarrierIdx) (ch : ChannelIdx) (h : s.arb.due = true) :
    (engagedAt p x ch s).arb.due = true := by
  obtain engages | ⟨i, completes⟩ | ⟨awaits, not⟩ := engagedAt_cases p x (s.claim ch)
  · rw [engagedAt_of_engages engages]
    exact due_changeClaim ch _ s h
  · rw [engagedAt_of_completes completes]
    exact due_releaseUnneeded? _ (due_changeClaim ch _ s h)
  · rw [engagedAt_of_other awaits not]
    exact h

/-- R115: an engagement told to the claims never withdraws an arbitration. -/
theorem due_engagedToClaims (p : PathIdx) (x : CarrierIdx) (h : s.arb.due = true) :
    (engagedToClaims p x s).arb.due = true := by
  rw [engagedToClaims_eq]
  unfold forChannels
  generalize List.finRange 32 = l
  induction l generalizing s with
  | nil => exact h
  | cons ch l ih => exact ih (due_engagedAt p x ch h)

theorem demandDeparts_raises {before : State} (h : ∃ d, HandoverDemand before d x) :
    (demandDeparts x before s).arb.due = true := by
  obtain ⟨d, state, target, ok, free⟩ := h
  have needs : handoverNeeds before x d = true := by
    unfold handoverNeeds isDemand
    simp [state, target, ok, free]
  unfold demandDeparts
  rw [if_pos (List.any_eq_true.mpr ⟨d, List.mem_finRange d, needs⟩)]
  rfl

theorem demandDeparts_cases (x : CarrierIdx) (before s : State) :
    demandDeparts x before s = s ∨ demandDeparts x before s = raiseArb s := by
  unfold demandDeparts
  split
  · exact .inr rfl
  · exact .inl rfl

theorem plan_demandDeparts (x : CarrierIdx) (before s : State) : (demandDeparts x before s).plan = s.plan := by
  unfold demandDeparts
  split <;> rfl

end Sys2Proof.Machine
end

section
/-! SUPPORT. The setting of a carrying path (R29, R123, R130). -/

namespace Sys2Proof.Machine

variable {s b : State} {p : PathIdx} {c : CarrierIdx}

theorem claim_carryingSetToClaims_of_awaits {d : ChannelIdx} {i : ServiceIdx} (h : AwaitsCarrier s d c)
    (service : (s.claim d).service = some i) : (carryingSetToClaims c s).claim d = examined s i := by
  rw [claim_carryingSetToClaims, service]
  exact if_pos ((waitsFor_iff s d c).mpr h)

/-- R29, R123: a carrier has taken its carrying path and left the visit queue; the claims are not told yet. -/
def carryingTaken (c : CarrierIdx) (p : PathIdx) (s : State) : State :=
  queueCarried c (s.modCar c (fun r => { r with carrying := some p }))

theorem setCarrying_eq (c : CarrierIdx) (p : PathIdx) (s : State) :
    setCarrying c p s = carryingSetToClaims c (carryingTaken c p s) := rfl

theorem plannerOnly_carryingTaken (c : CarrierIdx) (p : PathIdx) (s : State) :
    PlannerOnly (s.modCar c (fun r => { r with carrying := some p })) (carryingTaken c p s) := plannerOnly_queueCarried c _

theorem car_carryingTaken (c : CarrierIdx) (p : PathIdx) (s : State) :
    (carryingTaken c p s).car c = { s.car c with carrying := some p } := by
  rw [car_congr (plannerOnly_carryingTaken c p s).carriers, State.car_modCar, if_pos rfl]

theorem underQueue_setCarrying (c : CarrierIdx) (p : PathIdx) (s : State) :
    (setCarrying c p s).plan.underQueue = s.plan.underQueue := by
  rw [setCarrying_eq, (claimsOnly_carryingSetToClaims c _).plan]
  unfold carryingTaken queueCarried
  split
  · rw [plan_visitEnded]
    rfl
  · rfl

/-- R130: the WAITING claims on the services that select a carrier join the carrying path it is given. -/
theorem waitersJoin_setCarrying (carriers : b.carriers = s.carriers) (svcs : b.svcs = s.svcs)
    (claims : b.claims = s.claims) (mode : b.arb.mode = s.arb.mode) : WaitersJoin s (setCarrying c p b) c p := by
  intro d i waiting reason service selected ok active
  have taken := plannerOnly_carryingTaken c p b
  have car := car_carryingTaken c p b
  have claim : ∀ d, (carryingTaken c p b).claim d = s.claim d := claim_congr (taken.claims.trans claims)
  have svc : (carryingTaken c p b).svc i = s.svc i := by
    unfold State.svc
    rw [taken.svcs]
    exact congrArg (fun t : ServiceTable => t.recs[i]) svcs
  have active' : (carryingTaken c p b).arb.mode = .active := by
    have same : (carryingTaken c p b).arb.mode = b.arb.mode := (congrArg Arbiter.mode taken.arb :)
    exact same.trans (mode.trans active)
  have told := claimsOnly_carryingSetToClaims c (carryingTaken c p b)
  rw [setCarrying_eq]
  generalize carryingTaken c p b = t at *
  have ok' : eligible t c = true := by
    rw [eligible_iff, car, car_congr carriers]
    exact (eligible_iff s c).mp ok
  have awaits : AwaitsCarrier t d c := by
    unfold AwaitsCarrier
    rw [claim]
    exact ⟨waiting, reason, i, service, svc ▸ selected⟩
  rw [claim_carryingSetToClaims_of_awaits awaits (claim d ▸ service),
    examined_of_carrying active' (svc ▸ selected) ok' (by rw [car])]
  unfold Joins
  rw [told.path]
  exact joins_joined t i c p

/-- A path carries its carrier from now on, its record `r`: what R105 and R106 have in common. -/
structure CarriesOn (p : PathIdx) (c : CarrierIdx) (r : PathRec) (s v : State) : Prop where
  own : v.path p = r
  others : ∀ q, q ≠ p → v.path q = s.path q
  car : v.car c = { s.car c with carrying := some p }
  cars : ∀ d, d ≠ c → v.car d = s.car d
  inputs : v.inputs = s.inputs
  queue : c ∉ v.plan.queue
  waiters : WaitersJoin s v c p
  cuts : v.arb.cuts = s.arb.cuts.filter (fun x => decide (x.2 ≠ p))

theorem CarriesOn.demandDeparts {r : PathRec} {v : State} (h : CarriesOn p c r s v) (before : State) :
    CarriesOn p c r s (demandDeparts c before v) := by
  obtain same | raised := demandDeparts_cases c before v
  · rw [same]
    exact h
  · rw [raised]
    exact ⟨h.own, h.others, h.car, h.cars, h.inputs, h.queue, h.waiters, h.cuts⟩

/-- R29, R117: a path takes a record with CARRY use on its carrier, once its visit has been reported. -/
theorem carriesOn_setCarrying (h : PlannerOnly s b) (r : PathRec) :
    CarriesOn p c r s (setCarrying c p (forgetCutsOfPath p (b.setPath p r))) := by
  obtain ⟨paths, inputs, car, queue, cuts⟩ := setCarrying_spec c p (forgetCutsOfPath p (b.setPath p r))
  have mode : b.arb.mode = s.arb.mode := (congrArg Arbiter.mode h.arb :)
  have before : b.arb.cuts = s.arb.cuts := (congrArg Arbiter.cuts h.arb :)
  have waiters : WaitersJoin s (setCarrying c p (forgetCutsOfPath p (b.setPath p r))) c p :=
    waitersJoin_setCarrying h.carriers h.svcs h.claims mode
  have cars : ∀ d, (forgetCutsOfPath p (b.setPath p r)).car d = s.car d := car_congr h.carriers
  have path : ∀ q, (forgetCutsOfPath p (b.setPath p r)).path q = if p = q then r else b.path q :=
    fun q => State.path_setPath b p q r
  have kept : (forgetCutsOfPath p (b.setPath p r)).arb.cuts = b.arb.cuts.filter (fun x => decide (x.2 ≠ p)) := rfl
  have inputs' : (forgetCutsOfPath p (b.setPath p r)).inputs = s.inputs := h.inputs
  generalize forgetCutsOfPath p (b.setPath p r) = w at *
  refine ⟨?_, fun q other => ?_, ?_, fun d other => ?_, inputs.trans inputs', queue, waiters, ?_⟩
  · rw [path_congr paths, path, if_pos rfl]
  · rw [path_congr paths, path, if_neg other.symm, h.path]
  · rw [car, if_pos rfl, cars]
  · rw [car, if_neg other.symm, cars]
  · rw [cuts, kept, before]

end Sys2Proof.Machine
end

section
/-! PROOF. A claim item served (R105, R106, R115 to R118). -/

namespace Sys2Proof.Machine

variable {s : State} {p : PathIdx} {c : CarrierIdx} {ch : ChannelIdx} {k : CarrierParams}

/-! ### Conversion and resumption (R105, R106) -/

theorem plannerOnly_endConverted (p : PathIdx) (c : CarrierIdx) (s : State) : PlannerOnly s (endConverted p c s) := by
  unfold endConverted
  split
  · exact plannerOnly_visitEndReport _ c _ s
  · exact PlannerOnly.refl s

theorem not_underQueue_endConverted (h : (s.path p).use = some .queue) :
    c ∉ (endConverted p c s).plan.underQueue := by
  have reported : endConverted p c s = visitEndReport .queue c .converted s := by
    unfold endConverted
    rw [h]
  obtain ⟨_, ended, _⟩ := visitEnds_visitEndReport .queue c .converted s
  rw [reported, (ended rfl rfl).1]
  exact fun mem => of_decide_eq_true (List.mem_filter.mp mem).2 rfl

/-- R105: the state once a path has been converted, before the claims are told of an engagement. -/
def convertedVisit (p : PathIdx) (c : CarrierIdx) (s : State) : State :=
  setCarrying c p (forgetCutsOfPath p ((endConverted p c s).setPath p (convertedPath (s.path p))))

theorem carriesOn_convertedVisit (p : PathIdx) (c : CarrierIdx) (s : State) :
    CarriesOn p c (convertedPath (s.path p)) s (convertedVisit p c s) :=
  carriesOn_setCarrying (plannerOnly_endConverted p c s) _

theorem not_underQueue_convertedVisit (h : (s.path p).use = some .queue) :
    c ∉ (convertedVisit p c s).plan.underQueue := by
  unfold convertedVisit
  rw [underQueue_setCarrying]
  exact not_underQueue_endConverted (c := c) h

theorem convert_unlocked (h : (s.path p).state ≠ .engaged) : convert p c s = convertedVisit p c s := if_neg h

theorem convert_engaged (h : (s.path p).state = .engaged) :
    convert p c s = engagedToClaims p c (demandDeparts c s (convertedVisit p c s)) := if_pos h

/-- R46, R106: the record of a path that resumes from DWELL. -/
def resumedPath (now : Nat) (r : PathRec) : PathRec :=
  { r with
    state := .engaged, use := some .carry, dwellEnd := none, accum := .empty, collection := some .empty,
    sampleDue := r.lockTime.map (fun t => nextGrid t now) }

/-- R106: the state once a path has resumed, before the claims are told of the engagement. -/
def resumedVisit (p : PathIdx) (c : CarrierIdx) (s : State) : State :=
  setCarrying c p (forgetCutsOfPath p (s.setPath p (resumedPath s.now (s.path p))))

theorem carriesOn_resumedVisit (p : PathIdx) (c : CarrierIdx) (s : State) :
    CarriesOn p c (resumedPath s.now (s.path p)) s (resumedVisit p c s) :=
  carriesOn_setCarrying (PlannerOnly.refl s) _

theorem resume_eq (p : PathIdx) (c : CarrierIdx) (s : State) :
    resume p c s = engagedToClaims p c (demandDeparts c s (resumedVisit p c s)) := rfl

/-- R115, R131: an engagement that completes a HANDOVER claim calls for arbitration. -/
theorem engaged_due {v : State} (h : ∃ d, HandoverDemand s d c) :
    (engagedToClaims p c (demandDeparts c s v)).arb.due = true :=
  due_engagedToClaims p c (demandDeparts_raises h)

/-! ### The courses of an item whose carrier has a path -/

theorem underLimit_eq_false (full : 8 - s.arb.reserve ≤ carryCount s) : underLimit s = false :=
  Bool.eq_false_iff.mpr fun room => absurd ((underLimit_iff s).mp room) (Nat.not_lt.mpr full)

theorem serveItem_on (on : pathOn s c = some p) : serveItem ch c s
    = if ((s.path p).scan && (s.path p).state.working && !(s.path p).forgotten) = true then
        if underLimit s = true then forgetCutsOfClaim ch (convert p c s) else tellReason ch .noPath s
      else if (decide ((s.path p).state = .dwell) && (s.path p).lockHeld && !(s.path p).forgotten) = true then
        if (s.path p).use = some .carry ∨ underLimit s = true then forgetCutsOfClaim ch (resume p c s)
        else tellReason ch .noPath s
      else tellReason ch .noPath s := by
  unfold serveItem
  rw [on]

theorem serveItem_scanning (on : pathOn s c = some p) (scan : (s.path p).scan = true)
    (working : (s.path p).state.working = true) (kept : (s.path p).forgotten = false) : serveItem ch c s
      = if underLimit s = true then forgetCutsOfClaim ch (convert p c s) else tellReason ch .noPath s := by
  rw [serveItem_on on, scan, working, kept]
  rfl

theorem serveItem_dwelling (on : pathOn s c = some p) (state : (s.path p).state = .dwell) : serveItem ch c s
    = if ((s.path p).lockHeld && !(s.path p).forgotten) = true then
        if (s.path p).use = some .carry ∨ underLimit s = true then forgetCutsOfClaim ch (resume p c s)
        else tellReason ch .noPath s
      else tellReason ch .noPath s := by
  have resting : ((s.path p).scan && (s.path p).state.working && !(s.path p).forgotten) = false := by
    rw [state]
    exact (congrArg (fun b => b && !(s.path p).forgotten) (Bool.and_false _)).trans (Bool.false_and _)
  rw [serveItem_on on, resting, decide_eq_true state, Bool.true_and]
  rfl

theorem serveItem_full (none : pathOn s c = none) (full : 8 - s.arb.reserve ≤ carryCount s) :
    serveItem ch c s = tellReason ch .noPath s := by
  unfold serveItem
  rw [none, underLimit_eq_false full]
  rfl

/-- R116: an item that only has its reason told. -/
theorem unserved_of_told {t : State} {why : Reason} (h : t = tellReason ch why s) :
    t.claim ch = unserved s ch why ∧ t.paths = s.paths := by
  obtain ⟨parts, claim⟩ := tellReason_parts ch why s
  exact h ▸ ⟨claim, (congrArg State.paths parts :)⟩

/-! ### The courses of an item that cuts (R117, R118) -/

theorem claims_cutConflict (ch : ChannelIdx) (c : CarrierIdx) (s : State) :
    (cutConflict ch c s).claims = s.claims := by
  unfold cutConflict
  split
  · rfl
  · split
    · exact (cutsMade ch _ s).claims
    · rfl

theorem claims_preempt (ch : ChannelIdx) (s : State) : (preempt ch s).claims = s.claims := by
  unfold preempt
  split
  · rfl
  · split
    · exact (cutMade_cutFor ch _ s).claims
    · rfl

theorem cutConflict_of_kept (params : (s.car c).params = some k)
    (h : (∃ x ∈ s.arb.cuts, x.1 = ch) ∨ ∃ q ∈ (s.inp k.input).attached, (s.path q).scan = false) :
    cutConflict ch c s = s := by
  by_cases cuts : hasCuts s ch = true
  · exact if_pos cuts
  · obtain ⟨q, mem, carries⟩ := h.resolve_left fun held => cuts ((hasCuts_iff s ch).mpr held)
    have nothing : conflictCuts s k.input = [] := if_neg fun all =>
      Bool.noConfusion ((List.all_eq_true.mp all q mem).symm.trans carries)
    rw [cutConflict_of_uncut (Bool.eq_false_iff.mpr cuts) params, nothing]
    rfl

theorem preempt_of_cut (h : ∃ x ∈ s.arb.cuts, x.1 = ch) : preempt ch s = s := if_pos ((hasCuts_iff s ch).mpr h)

/-! ### The grant (R91, R116) -/

theorem Granted.of_result {u : Use} {w t : State} (h : Granted p u c k s w) (paths : t.paths = w.paths)
    (inputs : t.inputs = w.inputs) : Granted p u c k s t := by
  have path := path_congr paths
  have inp : ∀ i, t.inp i = w.inp i := fun i => by
    unfold State.inp
    rw [inputs]
  unfold Granted at h ⊢
  simp only [path, inp]
  exact h

/-- R91, R130: a grant of CARRY use sets the carrying path. -/
theorem grant_carry (p : PathIdx) (params : (s.car c).params = some k) :
    Granted p .carry c k s (grant p .carry c s) ∧ (grant p .carry c s).car c = { s.car c with carrying := some p }
    ∧ c ∉ (grant p .carry c s).plan.queue ∧ WaitersJoin s (grant p .carry c s) c p
    ∧ (grant p .carry c s).arb.cuts = s.arb.cuts := by
  have work := granted_grantWork p .carry c k s
  obtain ⟨carriers, svcs, claims, _, _, _, arb⟩ := grantWork_others p .carry c k s
  rw [grant_eq p .carry c k s params, if_pos rfl]
  generalize grantWork p .carry c k s = w at *
  obtain ⟨paths, inputs, car, queue, cuts⟩ := setCarrying_spec c p w
  refine ⟨work.of_result paths inputs, ?_, queue,
    waitersJoin_setCarrying carriers svcs claims (congrArg Arbiter.mode arb), cuts.trans (congrArg Arbiter.cuts arb)⟩
  rw [car, if_pos rfl, car_congr carriers]

/-- Settles O51, by the courses of R116 in turn. -/
theorem claimItemServed : Obligations.ClaimItemServed := by
  intro s ch c
  refine ⟨fun p on scan working kept => ⟨fun full => ?fullScan, fun room => ?converts⟩,
    fun p on state => ⟨fun refused => ?unresumed, fun held kept open' => ?resumes⟩,
    fun free => ⟨fun full => ?fullFree, fun k room params =>
      ⟨fun satellite feed attached => ?conflict, fun agrees => ?grants⟩⟩⟩
  case fullScan =>
    exact unserved_of_told ((serveItem_scanning on scan working kept).trans
      (if_neg (Bool.eq_false_iff.mp (underLimit_eq_false full))))
  case converts =>
    have course : serveItem ch c s = forgetCutsOfClaim ch (convert p c s) :=
      (serveItem_scanning on scan working kept).trans (if_pos ((underLimit_iff s).mpr room))
    have carries := carriesOn_convertedVisit p c s
    have notUnder := not_underQueue_convertedVisit (s := s) (p := p) (c := c)
    have own : convertedPath (s.path p) = { s.path p with
        use := some .carry, cutPending := false, rosterTimer := none, listening := false,
        accum := { (s.path p).accum with burstDone := false },
        collection := if (s.path p).state = .engaged then some ((s.path p).collection.getD ⟨none, 0, [], false⟩)
          else (s.path p).collection } := rfl
    by_cases engaged : (s.path p).state = .engaged
    · rw [convert_engaged engaged] at course
      have due := engaged_due (s := s) (p := p) (c := c) (v := convertedVisit p c s)
      replace carries := carries.demandDeparts s
      rw [← plan_demandDeparts c s] at notUnder
      generalize demandDeparts c s (convertedVisit p c s) = v at *
      generalize told : engagedToClaims p c v = w at *
      refine ⟨v, w, course, fun other => absurd engaged other, fun _ => ⟨told.symm, due⟩, ?_, carries.others, carries.car,
        carries.cars, carries.inputs, carries.queue, notUnder, carries.waiters, carries.cuts⟩
      rw [carries.own, own]
      cases (s.path p).collection <;> rfl
    · rw [convert_unlocked engaged] at course
      generalize convertedVisit p c s = v at *
      refine ⟨v, v, course, fun _ => rfl, fun is => absurd is engaged, ?_, carries.others, carries.car,
        carries.cars, carries.inputs, carries.queue, notUnder, carries.waiters, carries.cuts⟩
      rw [carries.own, own, if_neg engaged, if_neg engaged]
  case unresumed =>
    refine unserved_of_told ((serveItem_dwelling on state).trans ?_)
    obtain lost | ⟨other, full⟩ := refused
    · rw [lost]
      rfl
    · rw [if_neg fun h : _ ∨ _ => h.elim other (Bool.eq_false_iff.mp (underLimit_eq_false full)), ite_self]
  case resumes =>
    have course : serveItem ch c s = forgetCutsOfClaim ch (resume p c s) := by
      rw [serveItem_dwelling on state, held, kept]
      exact if_pos (open'.imp_right (underLimit_iff s).mpr)
    have carries := (carriesOn_resumedVisit p c s).demandDeparts s
    have due := engaged_due (s := s) (p := p) (c := c) (v := resumedVisit p c s)
    rw [resume_eq] at course
    generalize demandDeparts c s (resumedVisit p c s) = v at *
    generalize told : engagedToClaims p c v = w at *
    refine ⟨v, w, course, told.symm, due, ?_, carries.others, carries.car, carries.cars, carries.inputs, carries.queue,
      carries.waiters, carries.cuts⟩
    have sampled : ∀ o, (s.path p).lockTime = o → v.path p = { resumedPath s.now (s.path p) with
        sampleDue := o.map (fun t => nextGrid t s.now) } := fun o lock => lock ▸ carries.own
    cases lock : (s.path p).lockTime with
    | none => exact sampled _ lock
    | some a => exact sampled _ lock
  case fullFree => exact unserved_of_told (serveItem_full free full)
  case conflict =>
    have course := serveItem_blocked (ch := ch) free room (carrierAnswer_blocked params satellite feed attached)
    obtain ⟨parts, told⟩ := tellReason_parts ch .feedConflict s
    rw [parts] at told course
    generalize (tellReason ch .feedConflict s).claims = claims at told course
    refine ⟨?_, fun stays => ?_⟩
    · rw [course, claim_congr (claims_cutConflict ch c _)]
      exact told
    · rw [course, cutConflict_of_kept (s := { s with claims := claims }) params stays]
      exact ⟨rfl, rfl⟩
  case grants =>
    have course := serveItem_open (ch := ch) free room
      (carrierAnswer_open params (agrees.imp_right fun h => h.imp_right And.left))
    refine ⟨fun p idle first => ?granted, fun busy => ?busy⟩
    case granted =>
      rw [idlePath_eq_some.mpr ⟨idle, first⟩, Option.elim_some] at course
      obtain ⟨granted, car, queue, waiters, cuts⟩ := grant_carry (s := s) p params
      rw [course]
      generalize grant p .carry c s = t at *
      refine ⟨granted.of_result (t := forgetCutsOfClaim ch t) rfl rfl, car, queue, waiters, fun x mem => ?_⟩
      obtain ⟨held, other⟩ := List.mem_filter.mp mem
      exact ⟨cuts ▸ held, of_decide_eq_true other⟩
    case busy =>
      rw [idlePath_eq_none.mpr busy, Option.elim_none] at course
      obtain ⟨parts, told⟩ := tellReason_parts ch .noPath s
      rw [parts] at told course
      generalize (tellReason ch .noPath s).claims = claims at told course
      refine ⟨?_, fun cut => ?_⟩
      · rw [course, claim_congr (claims_preempt ch _)]
        exact told
      · rw [course, preempt_of_cut (s := { s with claims := claims }) cut]
        exact ⟨rfl, rfl⟩

end Sys2Proof.Machine
end
